-- ==== Sys2Proof/Word.lean ====
section
/-!
DEFINITION. The word types of FLX and its plainest arithmetic (00_scope.md R9, R10).
Every intermediate computation of the spec is on unbounded integers (R9, D4); only stored fields have a width.
-/

namespace Sys2Proof

/-- An element of the byte spaces (20_memory.md R50). -/
abbrev Byte := BitVec 8

/-- A cell event, an intermediate cell word or a command word (30_encoding.md R67, R72, R78). -/
abbrev Word32 := BitVec 32

/-- An operand register or a time (10_state.md R20, 00_scope.md R7 `TIME_BITS`). -/
abbrev Word64 := BitVec 64

/-- `NEVER`: all ones, the infinite time (00_scope.md R7 `TIME_BITS`). -/
abbrev never : Word64 := 0xFFFFFFFFFFFFFFFF#64

/-- Ceiling division of integers, for a positive divisor (00_scope.md R9 `ceil`). -/
def ceilDiv (a b : Int) : Int := -((-a) / b)

end Sys2Proof
end

