-- ==== Sys2Proof/Machine/Consts.lean ====
section
/-!
DEFINITION. The fixed parameters of 00_scope.md R7 (those marked source or decision).
-/

namespace Sys2Proof.Machine

/-- `REV_UNITS`: angular units in one revolution. -/
abbrev revUnits : Nat := 200000000
/-- `INDEX_UNITS`: the index pulse covers positions below it (R59). -/
abbrev indexUnits : Nat := 2000000
/-- `TPS`: ticks per second (D2). -/
abbrev tps : Nat := 1000000000
/-- `CELL_SIZE_DEFAULT` -/
abbrev cellSizeDefault : Nat := 1000
/-- `WEAK_WINDOW` in ticks. -/
abbrev weakWindow : Nat := 4000
/-- `WEAK_OFFSET` in ticks (D9). -/
abbrev weakOffset : Nat := 2000
/-- `READY_PULSES` (90_conflicts.md C2). -/
abbrev readyPulses : BitVec 2 := 2
/-- `SEEK_SOUND_DELAY` in ticks. -/
abbrev seekSoundDelay : Nat := 500000000
/-- The coefficients of `x^16 + x^12 + x^5 + 1` below `x^16`: `CRC_POLY` less its top bit (44_crc.md R175). -/
abbrev crcPoly : BitVec 16 := 0x1021
/-- `CRC_INIT` (D16). -/
abbrev crcInit : BitVec 16 := 0xFFFF
/-- `MFM_SYNC` (30_encoding.md R75). -/
abbrev mfmSync : Nat := 0x4489
/-- The MFM index address mark sync (R75). -/
abbrev mfmIndexSync : Nat := 0x5224
/-- The FM ID address mark (R75). -/
abbrev fmIdMark : Nat := 0xF57E
/-- The FM data mark (R75). -/
abbrev fmDataMark : Nat := 0xF56F
/-- The FM deleted-data mark (R75). -/
abbrev fmDeletedMark : Nat := 0xF56A
/-- The FM index address mark (R75). -/
abbrev fmIndexMark : Nat := 0xF77A

end Sys2Proof.Machine
end

