-- ==== Sys2Proof/Config.lean ====
section
/-!
DEFINITION. What an implementation of FLX fixes (the OPEN parameters of 00_scope.md R7 and 92_eei_decisions.md)
and the values the spec leaves open.

The OPEN parameters that are numbers are one record, `Params`. State carries the record (`State.cfg`), so that every
statement about every state holds for every value of the parameters, and a test can name the values it uses.
The values at `State.reset` are the opaque constants below: no proof can see them.
The free values have no body: a claim is true whatever they are.
-/

namespace Sys2Proof

/-- The numeric OPEN parameters of 00_scope.md R7 (decisions D10, D11, D42, D46). They are configuration, not state
(10_state.md R25): no command and no reset writes them. -/
structure Params where
  /-- `RPM`: revolutions per minute. -/
  rpm : Nat
  /-- `DRIVE_TRACKS`: cylinders the drive can reach. -/
  driveTracks : Nat
  /-- `DRIVE_SIDES`: heads of the drive. -/
  driveSides : Nat
  /-- `AMP_FREAKOUT`: cell duration in ticks above which a cell reads as weak. -/
  ampFreakout : Nat
  /-- `EXCESS_TRACKS`: tracks by which a medium may exceed the drive and still be inserted. -/
  excessTracks : Nat
  /-- `SEED0`: the seed after reset. -/
  seed0 : Word64
deriving DecidableEq, Repr

/-- The legal values of the OPEN parameters (92_eei_decisions.md, 'Open parameters'). The bound 2^32 on
`DRIVE_TRACKS` is DEDUCED from the width of `CYL` (10_state.md R23; log entry 20). Safe: it only narrows what a claim assumes. -/
def Params.legal (p : Params) : Bool :=
  decide (1 ≤ p.rpm) && decide (1 ≤ p.driveTracks) && decide (p.driveTracks ≤ 2 ^ 32)
    && (decide (p.driveSides = 1) || decide (p.driveSides = 2)) && decide (1 ≤ p.ampFreakout)

/-- `RPM` less 1 (OPEN, D46). -/
opaque Config.rpmPred : Nat
/-- `DRIVE_TRACKS` less 1, below 2^32 (OPEN, D46). -/
opaque Config.driveTracksPred : Fin (2 ^ 32)
/-- Whether the drive has a second head: `DRIVE_SIDES = 2` (OPEN, D46). -/
opaque Config.twoSides : Bool
/-- `AMP_FREAKOUT` less 1 (OPEN, D10). -/
opaque Config.ampFreakoutPred : Nat
/-- `EXCESS_TRACKS` (OPEN, D42). -/
opaque Config.excessTracks : Nat
/-- `SEED0` (OPEN, D11). -/
opaque Config.seed0 : Word64

/-- The parameters of the machine that `State.reset` is: any legal record, and no proof can see which. -/
def Config.params : Params where
  rpm := Config.rpmPred + 1
  driveTracks := Config.driveTracksPred.val + 1
  driveSides := if Config.twoSides then 2 else 1
  ampFreakout := Config.ampFreakoutPred + 1
  excessTracks := Config.excessTracks
  seed0 := Config.seed0

/-- `WEAK_HASH (seed, revolution, entry index, window index)` (OPEN, D11; 41_flux_sequencer.md R114). The revolution
is an integer: a read before the angular epoch is in a negative revolution (R112). -/
opaque Config.weakHash : Word64 → Int → Nat → Nat → Bool

/-- The 64-bit places whose value the spec does not state when the number a rule computes does not fit them. -/
inductive Slot where
  | revCount | revStart | idxTimer | timeNextIndex | nextTransition
  | cacheStart | cacheEnd | cacheRev | cacheWeakStart | faultInfo
deriving DecidableEq, Repr

/-- What a 64-bit place holds when a rule stores a number outside 0 .. 2^64 - 1 in it. The spec states no result
there (00_scope.md R9 gives intermediates no width and no rule says how such a number is stored), so nothing
constrains it. DESIGN CHOICE (log entry 3), safe. A function of the place and of the number and of nothing else, because
a command is deterministic and a read-only command may be repeated with the same result (00_scope.md R12, 20_memory.md R66). -/
opaque Config.unstated : Slot → Int → Word64

/-- Whether a read that hits the valid cache (operand, cell start, cell end) refills it all the same. FLX "may refill
the cache" then (41_flux_sequencer.md R115). -/
opaque Config.refillsOnHit : Word64 → Word64 → Word64 → Bool

end Sys2Proof
end

