-- ==== Sys2Proof/Syntax.lean ====
section
/-!
DEFINITION. The instructions of FLX: one constructor for each row of spec/opcode_table.json.

There are two kinds. A COMMAND (42 rows, format CMD) is a 32-bit word the host issues; its operands stand in the operand
registers and the scratch spaces, so its constructor has no argument (30_encoding.md R78, R79). A DESCRIPTOR OP (21 rows,
format DESC) is an element of the program `DESC` that `GEN_TRACK` interprets (R76, R77); its constructor holds the
parameter fields the op uses, at the widths R77 gives them, and none of the unused ones, which are ignored.
-/

namespace Sys2Proof

/-- An instruction of FLX. -/
inductive Instr where
  -- PHA: 40_phase.md, and GET_FAULT of 60_exceptions.md
  | setMotor | indexResync | timeNextIndex | phaseOf | timeOf | stepTo | setSide | getLines | getFault
  -- SEQ: 41_flux_sequencer.md
  | getNextTransition | writeFlux | setWriteSplice | setSeed
  -- COD: 42_codec.md, 43_pll_extract.md
  | clClear | rawW | fmW | mfmW | genTrack | genFromCells | genBitstream | extractMfm | extractFm
  | buildPcMfm | buildPcFm
  -- CRC: 44_crc.md
  | crcCells | crcBytes
  -- BUF: 45_cell_buffer.md
  | insert | eject | getBuffer | putBuffer | resizeTracks | trackIsFormatted | actualGeometry
  | readSector | writeSector | saveState | loadState | setWp | pollChanged | getFlags | clearDirty | getProps
  -- descriptor ops: 42_codec.md R139 to R148
  | endDesc
  | fm (byte : Byte) (count : Word32)
  | mfm (byte : Byte) (count : Word32)
  | raw (pattern : BitVec 16) (count : Word32)
  | trackId | trackIdFm | headId | headIdFm
  | sectorId | sectorIdFm | sizeId | sizeIdFm
  | crcCcittStart (region : Word32)
  | crcCcittFmStart (region : Word32)
  | crcEnd (region : Word32)
  | crc (region : Word32)
  | sectorLoopStart (first last : Word32)
  | sectorLoopEnd
  | sectorData | sectorDataFm
  | sectorInterleaveSkip (interleave skew : Word32)
deriving DecidableEq, Repr

/-- A descriptor element as `DESC` stores it: the triple (op, p1, p2) of 30_encoding.md R76. -/
structure DescElem where
  op : Byte
  p1 : Word32
  p2 : Word32
deriving DecidableEq, Repr

/-- What the decoder reads: a command word, or a descriptor element. -/
inductive Code where
  | word (w : Word32)
  | elem (e : DescElem)
deriving DecidableEq, Repr

/-- The tags of a cell event (30_encoding.md R67). -/
inductive CellTag where
  | flux | nonMagnetized | damaged | endOfZone
deriving DecidableEq, Repr

/-- The kinds of an intermediate cell word (30_encoding.md R72). -/
inductive CellKind where
  | nonMag | dam | zoneEnd | bit0 | bit1
deriving DecidableEq, Repr

/-- A zone of a track: its opener's tag, the opener's position and the position of its `EndOfZone`, which it
covers inclusively (10_state.md R34). -/
structure Zone where
  tag : CellTag
  z1 : Nat
  z2 : Nat
deriving DecidableEq, Repr

end Sys2Proof
end

