-- ==== Sys2Proof/Machine/State.lean ====
section
/-!
DEFINITION. The state of FLX as plain data, its faults and refusals, and the state after reset.

Everything the tuple of 10_state.md R43 lists is a field, and so are the scratch spaces of 20_memory.md R51. The track store
(`Buf`, `SPLICE`, `HAS_DAMAGED`) and `RAWSEC` are sparse lists of (address, value) pairs in one canonical form: addresses
strictly rising and no entry equal to what an unlisted address reads as (an empty track, R33 and R35; a zero byte, R182).
Five fields are the MODEL's own (log entries 1, 2, 4, 5 and 24): the parameters `cfg`, the host's pending inputs `inbox`, the
index events delivered so far `edges`, the descriptor interpreter `gen`, and `timerMissed`, whether the host has gone past the
pending index timer.
-/

namespace Sys2Proof.Machine

/-- A list of (address, value) pairs, canonical when `Sparse.wf` holds of it (Machine/Ops.lean). -/
abbrev Sparse (α : Type) := List (Nat × α)

/-- The eight operand registers `X0` .. `X7` (10_state.md R20). -/
structure OpRegs where
  x0 : Word64
  x1 : Word64
  x2 : Word64
  x3 : Word64
  x4 : Word64
  x5 : Word64
  x6 : Word64
  x7 : Word64
deriving DecidableEq, Repr

/-- The read cache of SEQ (10_state.md R26). -/
structure Cache where
  /-- `C_VALID` -/
  valid : Bool
  /-- `C_START` -/
  start : Word64
  /-- `C_END` -/
  stop : Word64
  /-- `C_EVENT` -/
  event : Word32
  /-- `C_INDEX` -/
  index : Word32
  /-- `C_REV` -/
  rev : Word64
  /-- `C_WEAK` -/
  weak : Bool
  /-- `C_WSTART` -/
  weakStart : Word64
deriving DecidableEq, Repr

/-- `PROPS`, the disk's declared properties (10_state.md R32). `kind` is true for a raw-sector medium. -/
structure Props where
  type : Word32
  tracks : Word32
  sides : Word32
  spt : Word32
  secsize : Word32
  drate : Word32
  desc : List Byte
  kind : Bool
deriving DecidableEq, Repr

/-- One track of the store: `Buf(c, h)`, `SPLICE(c, h)` and `HAS_DAMAGED(c, h)` (10_state.md R33, R35). -/
structure Track where
  events : List Word32
  splice : Word32
  hasDamaged : Bool
deriving DecidableEq, Repr

/-- The track of R35's column "value at INSERT" and of R33's "At `INSERT` every list is empty". -/
def Track.empty : Track where
  events := []
  splice := 0
  hasDamaged := false

/-- An `SDL` record (42_codec.md R151). The four byte fields are numbers and not bytes, because a host may load a field
above 255 and R150 then faults (log entry 11); `actual_size` is the u32 of R151. -/
structure SectorDesc where
  track : Nat
  head : Nat
  sector : Nat
  size : Nat
  actualSize : Word32
  data : List Byte
  deleted : Bool
  badCrc : Bool
deriving DecidableEq, Repr

/-- The two encodings of a byte on the medium (30_encoding.md R74). -/
inductive Encoding where
  | mfm | fm
deriving DecidableEq, Repr

/-- A CRC region record of the descriptor interpreter; `stop` is unset until `CRC_END` (42_codec.md R138, R143). -/
structure CrcRegion where
  kind : Encoding
  start : Nat
  stop : Option Nat
deriving DecidableEq, Repr

/-- An open sector loop: (a, first, last, order, k) of 42_codec.md R146. -/
structure SectorLoop where
  start : Nat
  first : Nat
  last : Nat
  order : List Nat
  k : Nat
deriving DecidableEq, Repr

/-- The descriptor interpreter (42_codec.md R137, R138; 10_state.md R22): the operands it was started with (`X0`, `X1`,
`X2` and the cell size), `DPC`, its cell list, the loop, `cur`, interleave, skew and the sixteen CRC region records. -/
structure Interp where
  c : Nat
  h : Nat
  trackSize : Nat
  cellSize : Nat
  dpc : Nat
  cl : List Word32
  loop : Option SectorLoop
  cur : Option Nat
  il : Nat
  sk : Nat
  regions : Vector (Option CrcRegion) 16
deriving DecidableEq, Repr

/-- What reaches FLX from outside, one at a time (00_scope.md R14; 20_memory.md R51; 70_reset_and_hazards.md R216): a
command word, a host write of an operand register or of a scratch space, the index timer reaching its time, reset. -/
inductive HostInput where
  | word (w : Word32)
  | writeX (i : Fin 8) (v : Word64)
  | loadCl (l : List Word32)
  | loadBs (l : List Bool)
  | loadSect (slots : Vector (Option (List Byte)) 256)
  | loadDesc (l : List DescElem)
  | loadSdl (l : List SectorDesc)
  | loadTl (l : List Word32)
  | loadTrn (l : List Word64)
  | loadBytes (l : List Byte)
  | loadCkp (l : List Byte)
  | timer
  | reset
deriving DecidableEq, Repr

/-- An index event as the host is told of it: the new level of the line (60_exceptions.md R206) and, as decision D28 of
92_eei_decisions.md has it, the time: the `now` of the command that emits it. `EJECT` and `INSERT` are given no time
(log entry 4). -/
structure IndexEdge where
  level : Bool
  time : Option Word64
deriving DecidableEq, Repr

/-- The state of FLX (10_state.md R43). -/
structure State where
  /-- MODEL's own: the OPEN parameters of 00_scope.md R7, which nothing writes. -/
  cfg : Params
  /-- MODEL's own: the host's pending inputs, the next one first. -/
  inbox : List HostInput
  /-- MODEL's own: the `IndexEdge` events delivered to the host so far, oldest first (60_exceptions.md R206; log entry 4). -/
  edges : List IndexEdge
  /-- The descriptor interpreter; none but while a descriptor program is stepped element by element. -/
  gen : Option Interp
  /-- `X0` .. `X7` (R20). -/
  x : OpRegs
  /-- `ST` (R21). -/
  st : Byte
  /-- `MOTOR` (R23, as the eleven registers after it). -/
  motor : Bool
  /-- `T0` -/
  t0 : Word64
  /-- `REV_COUNT` -/
  revCount : Word64
  /-- `REV_START` -/
  revStart : Word64
  /-- `IDX` -/
  idx : Bool
  /-- `IDX_TIMER` -/
  idxTimer : Word64
  /-- MODEL's own: a command has carried a `now` later than the pending `IDX_TIMER`, so the timer does not fire any more until it is
  armed again (70_reset_and_hazards.md R221; log entry 24). -/
  timerMissed : Bool
  /-- `READY` -/
  ready : Bool
  /-- `READY_CNT` -/
  readyCnt : BitVec 2
  /-- `CYL` -/
  cyl : Word32
  /-- `SS`: the head number. -/
  ss : Bool
  /-- `SEEK_SOUND` -/
  seekSound : Bool
  /-- `DOOR` -/
  door : Bool
  /-- `C_VALID`, `C_START`, `C_END`, `C_EVENT`, `C_INDEX`, `C_REV`, `C_WEAK`, `C_WSTART` (R26). -/
  cache : Cache
  /-- `SEED` (R29). -/
  seed : Word64
  /-- `DISK_PRESENT` (R31). -/
  diskPresent : Bool
  /-- `PROPS` (R32). -/
  props : Props
  /-- `ALLOC_TRACKS` (R33). -/
  allocTracks : Word32
  /-- `ALLOC_SIDES` (R33). -/
  allocSides : Word32
  /-- `Buf`, `SPLICE` and `HAS_DAMAGED` of every allocated track (R33, R35), sparse. -/
  trk : Sparse Track
  /-- `WP` (R36). -/
  wp : Bool
  /-- `DIRTY_LOAD` (R36). -/
  dirtyLoad : Bool
  /-- `DIRTY_RESTORE` (R36). -/
  dirtyRestore : Bool
  /-- `IMG_CHANGED` (R36). -/
  imgChanged : Bool
  /-- `RAWSEC` (R46), sparse. -/
  rawsec : List Host.Cell
  /-- `FAULT` (R40). -/
  fault : Bool
  /-- `FCODE` (R40). -/
  fcode : Byte
  /-- `FINFO` (R40). -/
  finfo : Word64
  /-- Scratch space `CL` (20_memory.md R50, as the eight after it). -/
  cl : List Word32
  /-- Scratch space `BS`. -/
  bs : List Bool
  /-- Scratch space `SECT`: 256 slots, each absent or a byte string. -/
  sect : Vector (Option (List Byte)) 256
  /-- Scratch space `DESC`. -/
  desc : List DescElem
  /-- Scratch space `SDL`. -/
  sdl : List SectorDesc
  /-- Scratch space `TL`. -/
  tl : List Word32
  /-- Scratch space `TRN`. -/
  trn : List Word64
  /-- Scratch space `BYTES`. -/
  bytes : List Byte
  /-- Scratch space `CKP`. -/
  ckp : List Byte
deriving DecidableEq, Repr

/-- Why the model stops. A fault of the SPEC is no stop: it is the sticky fault state of 60_exceptions.md R200, a next state. -/
inductive Fault where
  /-- Raised by a meaning whose loop has not ended within the bound the model gives it. The bounds are large enough, so no
  state is known in which it is raised (log entry 7). Safe: the model stops where FLX would go on. -/
  | loopBound
deriving DecidableEq, Repr

/-- Why the model gives an instruction no next state. A refusal of the SPEC is none: it is `ST <- REFUSED` (R205), a next state. -/
inductive Refusal where
  /-- Raised by exec's arm of an instruction that has no meaning yet. Safe: the model stops. -/
  | notModelled (mnemonic : String)
  /-- Raised by the meaning of a descriptor op when no descriptor interpreter runs. A descriptor element exists only inside
  `GEN_TRACK` (42_codec.md R137), so the spec gives it no effect outside; the machine's step never runs one there
  (log entry 5). Safe: the model stops. -/
  | noInterpreter
deriving DecidableEq, Repr

/-- `C_VALID` .. `C_WSTART` at reset (70_reset_and_hazards.md R215). -/
def Cache.reset : Cache where
  valid := false
  start := 0
  stop := 0
  event := 0
  index := 0
  rev := 0
  weak := false
  weakStart := 0

/-- `PROPS` with no disk bound: all zero, `desc` empty (10_state.md R31). -/
def Props.none : Props where
  type := 0
  tracks := 0
  sides := 0
  spt := 0
  secsize := 0
  drate := 0
  desc := []
  kind := false

/-- The state after reset of a machine with parameters `p` (70_reset_and_hazards.md R215). -/
def State.resetWith (p : Params) : State where
  cfg := p
  inbox := []
  edges := []
  gen := .none
  x := { x0 := 0, x1 := 0, x2 := 0, x3 := 0, x4 := 0, x5 := 0, x6 := 0, x7 := 0 }
  st := 0
  motor := false
  t0 := 0
  revCount := 0
  revStart := 0
  idx := false
  idxTimer := never
  timerMissed := false
  ready := false
  readyCnt := 0
  cyl := 0
  ss := false
  seekSound := false
  door := true
  cache := Cache.reset
  seed := p.seed0
  diskPresent := false
  props := Props.none
  allocTracks := 0
  allocSides := 0
  trk := []
  wp := false
  dirtyLoad := false
  dirtyRestore := false
  imgChanged := false
  rawsec := []
  fault := false
  fcode := 0
  finfo := 0
  cl := []
  bs := []
  sect := Vector.replicate 256 .none
  desc := []
  sdl := []
  tl := []
  trn := []
  bytes := []
  ckp := []

/-- The state after the power-on reset, at the machine's own parameters (70_reset_and_hazards.md R215). -/
def State.reset : State := State.resetWith Config.params

end Sys2Proof.Machine
end

