-- ==== Sys2Proof/Machine/Cells.lean ====
section
/-!
DEFINITION. Cell events and intermediate cell words: their fields, the well-formedness of a track list, and its decoded view
(zones and flux positions) with the encoding back (00_scope.md R11, 30_encoding.md R67 and R72, 10_state.md R34, 41_flux_sequencer.md R122, R124).
-/

namespace Sys2Proof.Machine

/-- `pos(e) = e[27:0]`, and `dur` of a cell word (R11, R72). -/
def evPos (e : Word32) : Nat := (e.extractLsb' 0 28).toNat

/-- `tag(e) = e[31:28]` as a number, and `kind` of a cell word (R11, R72). -/
def evTagBits (e : Word32) : Nat := (e.extractLsb' 28 4).toNat

/-- The tags of R67; 4 .. 15 are reserved. -/
def tagOf (e : Word32) : Option CellTag :=
  match evTagBits e with
  | 0 => some .flux
  | 1 => some .nonMagnetized
  | 2 => some .damaged
  | 3 => some .endOfZone
  | _ => none

/-- The numbers of the tags (R67, D15). -/
def tagNum : CellTag → BitVec 4
  | .flux => 0
  | .nonMagnetized => 1
  | .damaged => 2
  | .endOfZone => 3

/-- `mk(t, p) = (t << 28) | p`, defined for p < 2^28 (R11). -/
def mkEvent (t : CellTag) (p : Nat) : Word32 := tagNum t ++ BitVec.ofNat 28 p

/-- The kinds of R72; 0 and 6 .. 15 are reserved. -/
def kindOf (w : Word32) : Option CellKind :=
  match evTagBits w with
  | 1 => some .nonMag
  | 2 => some .dam
  | 3 => some .zoneEnd
  | 4 => some .bit0
  | 5 => some .bit1
  | _ => none

/-- The numbers of the kinds (R72, D17). -/
def kindNum : CellKind → BitVec 4
  | .nonMag => 1
  | .dam => 2
  | .zoneEnd => 3
  | .bit0 => 4
  | .bit1 => 5

/-- A cell word of kind `k` and duration `d` (R72; the `append(k, d)` of 42_codec.md). -/
def mkCell (k : CellKind) (d : Nat) : Word32 := kindNum k ++ BitVec.ofNat 28 d

/-- R34 (b): positions strictly increasing. -/
def rising : List Word32 → Bool
  | [] => true
  | [_] => true
  | e :: e' :: L => decide (evPos e < evPos e') && rising (e' :: L)

/-- R34 (c) and (d): every tag is defined, and zones are well bracketed; `inside` says that an opener waits for its
`EndOfZone`. R34 (e) asks nothing more: a bracketed list with rising positions has no zone that crosses position 0
(log entry 15). -/
def bracketed (inside : Bool) : List Word32 → Bool
  | [] => !inside
  | e :: L =>
    match tagOf e with
    | none => false
    | some .flux => !inside && bracketed false L
    | some .nonMagnetized => !inside && bracketed true L
    | some .damaged => !inside && bracketed true L
    | some .endOfZone => inside && bracketed false L

/-- `WF(L)` of R34. -/
def wfTrack (L : List Word32) : Bool :=
  L.all (fun e => decide (evPos e < revUnits)) && rising L && bracketed false L

/-- Some event of the list has the tag (R35, R188). -/
def hasTag (t : CellTag) (L : List Word32) : Bool := L.any (fun e => tagOf e == some t)

/-- The positions of the `Flux` events, in list order (41_flux_sequencer.md R122 `F`). -/
def fluxPositions (L : List Word32) : List Nat := (L.filter (fun e => tagOf e == some .flux)).map evPos

/-- The zones of a list, in list order, `pending` being an opener that waits for its `EndOfZone` (R122 `Z`). -/
def zonesFrom (pending : Option (CellTag × Nat)) : List Word32 → List Zone
  | [] => []
  | e :: L =>
    match tagOf e with
    | some .nonMagnetized => zonesFrom (some (.nonMagnetized, evPos e)) L
    | some .damaged => zonesFrom (some (.damaged, evPos e)) L
    | some .endOfZone =>
      match pending with
      | some (t, z1) => { tag := t, z1 := z1, z2 := evPos e } :: zonesFrom none L
      | none => zonesFrom none L
    | some .flux => zonesFrom pending L
    | none => zonesFrom pending L

/-- `Z`: the zones of a track list (R122). -/
def zonesOf (L : List Word32) : List Zone := zonesFrom none L

/-- `Encode(Z, F)`: the events of the zones `Z` and of the flux positions `F`, both in increasing order, listed in
increasing position (41_flux_sequencer.md R124). -/
def encodeTrack : List Zone → List Nat → List Word32
  | [], F => F.map (mkEvent .flux)
  | z :: Z, F =>
    (F.filter (fun p => decide (p < z.z1))).map (mkEvent .flux)
      ++ mkEvent z.tag z.z1 :: mkEvent .endOfZone z.z2
        :: encodeTrack Z (F.filter (fun p => decide (z.z1 ≤ p)))

/-- A position put into an increasing list of positions that does not hold it twice. -/
def insertPos (p : Nat) : List Nat → List Nat
  | [] => [p]
  | q :: l => if p < q then p :: q :: l else if p = q then q :: l else q :: insertPos p l

/-- A list of positions as a set: increasing, without duplicates. -/
def posSet (l : List Nat) : List Nat := l.foldr insertPos []

end Sys2Proof.Machine
end

