-- ==== Sys2Proof/Machine/Ops.lean ====
section
/-!
DEFINITION. The named operations every meaning uses: completion with a status, TAKING A FAULT, storing a number in a 64-bit
place, the operand registers, the sparse stores and the two memories built on them, and the index line.
-/

namespace Sys2Proof.Machine

/-- What a meaning answers. -/
abbrev Outcome := Host.Outcome State Fault Refusal

/-! ### Completion and faults -/

/-- The status codes of 30_encoding.md R80. -/
inductive Status where
  | ok | ignored | notImplemented | noDisk | layoutOverflow | badCheckpoint | geometry | faulted | refused
deriving DecidableEq, Repr

/-- The numbers of R80. -/
def statusCode : Status → Byte
  | .ok => 0x00
  | .ignored => 0x01
  | .notImplemented => 0x02
  | .noDisk => 0x03
  | .layoutOverflow => 0x04
  | .badCheckpoint => 0x05
  | .geometry => 0x06
  | .faulted => 0xFE
  | .refused => 0xFF

/-- The fault codes of 60_exceptions.md R201. -/
inductive FaultCode where
  | trackRange | trackSize | desc | cells | operand | bounds
deriving DecidableEq, Repr

/-- The numbers of R201. -/
def faultCode : FaultCode → Byte
  | .trackRange => 0x01
  | .trackSize => 0x02
  | .desc => 0x03
  | .cells => 0x04
  | .operand => 0x05
  | .bounds => 0x06

/-- `ST <- status` (10_state.md R21). -/
def State.withStatus (s : State) (st : Status) : State := { s with st := statusCode st }

/-- The command ends with a status: it is completed (00_scope.md R16). -/
def complete (st : Status) (s : State) : Outcome := .next (s.withStatus st)

/-- What `raise Fault(code, info)` leaves, `s` being the state the command began in, so that every write the command has
made is discarded (60_exceptions.md R200). -/
def State.faulted (s : State) (code : FaultCode) (info : Word64) : State :=
  { s with
    fault := true
    fcode := if s.fault then s.fcode else faultCode code
    finfo := if s.fault then s.finfo else info
    st := statusCode .faulted }

/-- TAKING A FAULT: the one exception of FLX (R200, R208). There is no return from it but reset (R209). -/
def raiseFault (code : FaultCode) (info : Word64) (s : State) : Outcome := .next (s.faulted code info)

/-- A number stored in a 64-bit place: itself where it fits, a free value where it does not (log entry 3). -/
def u64Of (slot : Slot) (v : Int) : Word64 :=
  if 0 ≤ v ∧ v < 2 ^ 64 then BitVec.ofInt 64 v else Config.unstated slot v

/-- A revolution number stored in `REV_COUNT`: a negative one as its two's-complement image (40_phase.md R95). -/
def revImage (k : Int) : Word64 :=
  if k < 2 ^ 64 then BitVec.ofInt 64 k else Config.unstated .revCount k

/-- A number stored in a 64-bit place where its rule says "always strictly greater than f, or `NEVER`" (41_flux_sequencer.md
R110): a number that 64 bits do not hold leaves a free value above `f`, which may be `NEVER` (log entry 3). -/
def u64After (slot : Slot) (f : Nat) (v : Int) : Word64 := if f < (u64Of slot v).toNat then u64Of slot v else never

/-! ### Operand registers -/

/-- The register `i` of the eight. -/
def OpRegs.get (x : OpRegs) (i : Fin 8) : Word64 :=
  match i with
  | 0 => x.x0
  | 1 => x.x1
  | 2 => x.x2
  | 3 => x.x3
  | 4 => x.x4
  | 5 => x.x5
  | 6 => x.x6
  | 7 => x.x7

/-- The registers with `v` in the register `i`. -/
def OpRegs.set (x : OpRegs) (i : Fin 8) (v : Word64) : OpRegs :=
  match i with
  | 0 => { x with x0 := v }
  | 1 => { x with x1 := v }
  | 2 => { x with x2 := v }
  | 3 => { x with x3 := v }
  | 4 => { x with x4 := v }
  | 5 => { x with x5 := v }
  | 6 => { x with x6 := v }
  | 7 => { x with x7 := v }

/-- `x[i]` -/
def State.reg (s : State) (i : Fin 8) : Word64 := s.x.get i

/-- `x[i] <- v` -/
def State.setReg (s : State) (i : Fin 8) (v : Word64) : State := { s with x := s.x.set i v }

/-- A count stored in an operand register. -/
def countWord (n : Nat) : Word64 := BitVec.ofNat 64 n

/-- A one-bit value stored in an operand register. -/
def bitWord (b : Bool) : Word64 := if b then 1 else 0

/-! ### Sparse stores -/

/-- The value at an address; `d` is what an unlisted address reads as. -/
def Sparse.get {α : Type} (d : α) : Sparse α → Nat → α
  | [], _ => d
  | (k, v) :: m, a => if a = k then v else Sparse.get d m a

/-- Writes the value at an address, keeping the canonical form: writing `d` removes the entry. -/
def Sparse.set {α : Type} [DecidableEq α] (d : α) : Sparse α → Nat → α → Sparse α
  | [], a, v => if v = d then [] else [(a, v)]
  | (k, w) :: m, a, v =>
    if a < k then (if v = d then (k, w) :: m else (a, v) :: (k, w) :: m)
    else if a = k then (if v = d then m else (a, v) :: m)
    else (k, w) :: Sparse.set d m a v

/-- Every address is at least `lo` and above the one before, and no entry is `d`. -/
def Sparse.wfFrom {α : Type} [DecidableEq α] (d : α) (lo : Nat) : Sparse α → Bool
  | [] => true
  | (k, v) :: m => decide (lo ≤ k) && !decide (v = d) && Sparse.wfFrom d (k + 1) m

/-- The canonical form: addresses strictly rising, and no entry equal to what an unlisted address reads as. -/
def Sparse.wf {α : Type} [DecidableEq α] (d : α) (m : Sparse α) : Bool := Sparse.wfFrom d 0 m

/-- The values at `n` addresses from `a` on. -/
def Sparse.read {α : Type} (d : α) (m : Sparse α) (a n : Nat) : List α :=
  (List.range n).map (fun j => Sparse.get d m (a + j))

/-- Writes a list of values from the address `a` on. -/
def Sparse.write {α : Type} [DecidableEq α] (d : α) (m : Sparse α) (a : Nat) : List α → Sparse α
  | [] => m
  | v :: vs => Sparse.write d (Sparse.set d m a v) (a + 1) vs

/-! ### The track store -/

/-- The address of the track (c, h): heads are 32-bit numbers, so no two tracks share one. -/
def trackKey (c h : Nat) : Nat := c * 2 ^ 32 + h

/-- The cylinder of a track's address. -/
def keyCyl (key : Nat) : Nat := key / 2 ^ 32

/-- The head of a track's address. -/
def keyHead (key : Nat) : Nat := key % 2 ^ 32

/-- The track (c, h) of the store; an unlisted one is empty (10_state.md R33, R35). -/
def State.trackAt (s : State) (c h : Nat) : Track := Sparse.get Track.empty s.trk (trackKey c h)

/-- `Buf(c, h)` -/
def State.buf (s : State) (c h : Nat) : List Word32 := (s.trackAt c h).events

/-- Writes the track (c, h). -/
def State.setTrack (s : State) (c h : Nat) (t : Track) : State :=
  { s with trk := Sparse.set Track.empty s.trk (trackKey c h) t }

/-- `c < ALLOC_TRACKS` and `h < ALLOC_SIDES` (20_memory.md R52). -/
def State.inStore (s : State) (c h : Nat) : Bool :=
  decide (c < s.allocTracks.toNat) && decide (h < s.allocSides.toNat)

/-- `Buf(c, h) <- L; SPLICE(c, h) <- splice`, `HAS_DAMAGED(c, h)` being recomputed (10_state.md R35). -/
def State.writeTrack (s : State) (c h : Nat) (L : List Word32) (splice : Nat) : State :=
  s.setTrack c h { events := L, splice := BitVec.ofNat 32 splice, hasDamaged := hasTag .damaged L }

/-- `SPLICE(c, h) <- splice`, and nothing else of the track. -/
def State.writeSplice (s : State) (c h splice : Nat) : State :=
  s.setTrack c h { s.trackAt c h with splice := BitVec.ofNat 32 splice }

/-! ### RAWSEC -/

/-- The byte at an offset of `RAWSEC`; `INSERT` fills it with zero bytes (45_cell_buffer.md R182). -/
def State.rawByte (s : State) (a : Nat) : Byte := Sparse.get (0 : Byte) s.rawsec a

/-- `RAWSEC[a .. a + n - 1]` -/
def State.rawRead (s : State) (a n : Nat) : List Byte := Sparse.read (0 : Byte) s.rawsec a n

/-- `RAWSEC[a ..] <- bytes` -/
def State.rawWrite (s : State) (a : Nat) (bytes : List Byte) : State :=
  { s with rawsec := Sparse.write (0 : Byte) s.rawsec a bytes }

/-- Both memories are in canonical form. -/
def Memory.wf (s : State) : Bool := Sparse.wf Track.empty s.trk && Sparse.wf (0 : Byte) s.rawsec

/-! ### The index line -/

/-- `IDX <- level`, with `emit IndexEdge(level)` exactly when the line changes (60_exceptions.md R206), in a command given the
time `time`. By 40_phase.md R99 and R206 the event carries its level only; by D28 and N19 of 91_not_in_source.md it is
`IndexEdge(level, time)`. DESIGN CHOICE: the record holds both (log entry 4). -/
def State.driveIndex (s : State) (level : Bool) (time : Option Word64) : State :=
  { s with idx := level, edges := if level = s.idx then s.edges else s.edges ++ [{ level := level, time := time }] }

/-- `C_VALID <- 0` (41_flux_sequencer.md R117). -/
def State.dropCache (s : State) : State := { s with cache := { s.cache with valid := false } }

end Sys2Proof.Machine
end

