-- ==== Sys2Proof/Machine/Operands.lean ====
section
/-!
DEFINITION. The operand forms of 30_encoding.md R81 and 42_codec.md R130, R131: bool, time, signed and unsigned operands, the
cell size and the bit count.
-/

namespace Sys2Proof.Machine

/-- A bool operand "reads bit 0 only" (R81). -/
def boolOperand (v : Word64) : Bool := v.getLsbD 0

/-- A time operand is a tick count, and `NEVER` is not a valid one (R81). -/
def timeOperand (v : Word64) : Option Nat := if v = never then none else some v.toNat

/-- A signed operand is read as two's complement (R81). -/
def signedOperand (v : Word64) : Int := v.toInt

/-- Every other operand is an unsigned 64-bit integer (R81). -/
def unsignedOperand (v : Word64) : Nat := v.toNat

/-- The cell size operand: 0 selects the default, 2^28 and above is out of range (R130). -/
def sizeOperand (v : Word64) : Option Nat :=
  if v.toNat = 0 then some cellSizeDefault else if v.toNat < 2 ^ 28 then some v.toNat else none

/-- The bit count operand: 0 .. 32 (R131). -/
def bitCountOperand (v : Word64) : Option Nat := if v.toNat ≤ 32 then some v.toNat else none

/-- The head number of the side-select line (10_state.md R23). -/
def State.head (s : State) : Nat := if s.ss then 1 else 0

/-- Operands "type, tracks, spt, secsize, drate < 2^32" (45_cell_buffer.md R182). -/
def fitsU32 (v : Word64) : Bool := decide (v.toNat < 2 ^ 32)

/-- An unsigned operand stored in a 32-bit register. -/
def low32 (v : Word64) : Word32 := v.setWidth 32

/-- A 32-bit register read into an operand register. -/
def ext64 (v : Word32) : Word64 := v.setWidth 64

end Sys2Proof.Machine
end

