-- ==== Sys2Proof/Machine/Flags.lean ====
section
/-!
DEFINITION. The flags and lines (10_state.md R42): the dirty flags a write sets, the write-protect line, and the words
`GET_LINES` and `GET_FLAGS` pack them into.
-/

namespace Sys2Proof.Machine

/-- A change of a track list or a splice of a bound disk sets the three flags together (10_state.md R36). -/
def State.markDirty (s : State) : State :=
  { s with dirtyLoad := true, dirtyRestore := true, imgChanged := true }

/-- The write-protect line: the bound disk's `WP`, and 1 with no disk (10_state.md R23, D21). -/
def State.wpLine (s : State) : Bool := if s.diskPresent then s.wp else true

/-- The line `TRK0` (30_encoding.md R86). -/
def State.track0Line (s : State) : Bool := decide (s.cyl = 0)

/-- A word with the flag at one bit. -/
def flagBit (b : Bool) (n : Nat) : Word64 := if b then BitVec.twoPow 64 n else 0

/-- The line-state word of 30_encoding.md R86. -/
def State.linesWord (s : State) : Word64 :=
  flagBit s.motor 0 ||| flagBit s.ready 1 ||| flagBit s.idx 2 ||| flagBit s.wpLine 3
    ||| flagBit s.door 4 ||| flagBit s.seekSound 5 ||| flagBit s.diskPresent 6 ||| flagBit s.track0Line 7

/-- The flag word of 45_cell_buffer.md R194. -/
def State.flagsWord (s : State) : Word64 :=
  flagBit s.diskPresent 0 ||| flagBit s.wp 1 ||| flagBit s.dirtyLoad 2 ||| flagBit s.dirtyRestore 3
    ||| flagBit s.imgChanged 4

end Sys2Proof.Machine
end

