-- ==== Sys2Proof/Machine/Buffer.lean ====
section
/-!
DEFINITION. BUF: the flux cell buffer manager (45_cell_buffer.md).
-/

namespace Sys2Proof.Machine

/-! ### Binding a disk -/

/-- The empty values of the BUF registers with no disk bound (10_state.md R31). -/
def State.emptyDisk (s : State) : State :=
  { s with
    diskPresent := false
    props := Props.none
    allocTracks := 0
    allocSides := 0
    trk := []
    wp := false
    dirtyLoad := false
    dirtyRestore := false
    rawsec := [] }

/-- `EJECT` of a bound disk, but for its `ST` (R183). -/
def State.ejected (s : State) : State :=
  { s.emptyDisk.dropCache.driveIndex false none with
    imgChanged := true
    idxTimer := never
    ready := false
    readyCnt := 0
    door := true }

/-- `EJECT`, opcode 0x41 (R183). -/
def execEject (s : State) : Outcome :=
  if !s.diskPresent then complete .noDisk s else complete .ok s.ejected

/-- The properties that `INSERT` reads from its operands (R182). -/
def State.insertProps (s : State) : Props where
  type := low32 s.x.x1
  tracks := low32 s.x.x2
  sides := low32 s.x.x3
  spt := low32 s.x.x4
  secsize := low32 s.x.x5
  drate := low32 s.x.x6
  desc := s.bytes
  kind := boolOperand s.x.x7

/-- The operand checks of `INSERT` (R182), `FD_NONE` being 0 (10_state.md R32). -/
def State.insertOperandsOk (s : State) : Bool :=
  decide (s.x.x1.toNat ≠ 0) && decide (1 ≤ s.x.x2.toNat) && (decide (s.x.x3.toNat = 1) || decide (s.x.x3.toNat = 2))
    && fitsU32 s.x.x1 && fitsU32 s.x.x2 && fitsU32 s.x.x4 && fitsU32 s.x.x5 && fitsU32 s.x.x6
    && !(boolOperand s.x.x7 && (decide (s.x.x4.toNat = 0) || decide (s.x.x5.toNat = 0)))

/-- The geometry check of `INSERT` (R182). -/
def State.insertTooLarge (s : State) : Bool :=
  decide (s.cfg.driveSides < s.x.x3.toNat) || decide (s.cfg.driveTracks + s.cfg.excessTracks < s.x.x2.toNat)

/-- `INSERT` from `PROPS <- ...` on: `s` holds the operands, `e` is the state with no disk bound (R182). -/
def State.inserted (s e : State) : State :=
  { e.dropCache with
    props := s.insertProps
    allocTracks := low32 s.x.x2
    allocSides := low32 s.x.x3
    trk := []
    rawsec := []
    wp := boolOperand s.x.x0
    dirtyLoad := false
    dirtyRestore := false
    imgChanged := true
    diskPresent := true
    door := true
    ready := if e.motor then false else e.ready
    readyCnt := if e.motor then readyPulses else e.readyCnt }

/-- `INSERT`, opcode 0x40 (R182). -/
def execInsert (s : State) : Outcome :=
  if !s.insertOperandsOk then raiseFault .operand 0 s
  else if s.insertTooLarge then complete .geometry s
  else complete .ok (s.inserted (if s.diskPresent then s.ejected else s))

/-! ### Track access -/

/-- A command on the track (c, h) of the bound disk: the disk check and the track check, then the command (R184, R185, R188). -/
def onTrack (s : State) (act : Nat → Nat → Outcome) : Outcome :=
  let c := unsignedOperand s.x.x0
  let h := unsignedOperand s.x.x1
  if !s.diskPresent then complete .noDisk s
  else if !s.inStore c h then raiseFault .trackRange 0 s
  else act c h

/-- `GET_BUFFER`, opcode 0x42 (R184). -/
def execGetBuffer (s : State) : Outcome :=
  onTrack s fun c h =>
    complete .ok
      (((({ s with tl := s.buf c h }).setReg 0 (countWord (s.buf c h).length)).setReg 1
        (ext64 (s.trackAt c h).splice)).setReg 2 (bitWord (s.trackAt c h).hasDamaged))

/-- `PUT_BUFFER`, opcode 0x43 (R185). -/
def execPutBuffer (s : State) : Outcome :=
  onTrack s fun c h =>
    if revUnits ≤ unsignedOperand s.x.x2 then raiseFault .operand 0 s
    else if !wfTrack s.tl then raiseFault .cells 0 s
    else complete .ok (s.writeTrack c h s.tl (unsignedOperand s.x.x2)).markDirty.dropCache

/-- `RESIZE_TRACKS`, opcode 0x44 (R186). The tracks it adds are empty, that is, unlisted in the store. -/
def execResizeTracks (s : State) : Outcome :=
  let n := unsignedOperand s.x.x0
  if !s.diskPresent then complete .noDisk s
  else if 2 ^ 32 ≤ n then raiseFault .operand 0 s
  else if n ≤ s.allocTracks.toNat then complete .ignored s
  else
    complete .ok
      { s.dropCache with
        trk := s.trk.filter (fun e => decide (keyCyl e.1 < s.allocTracks.toNat))
        allocTracks := low32 s.x.x0 }

/-- `TRACK_IS_FORMATTED`, opcode 0x45 (R188). -/
def execTrackIsFormatted (s : State) : Outcome :=
  onTrack s fun c h =>
    complete .ok (s.setReg 0 (bitWord (!(s.buf c h).isEmpty && hasTag .flux (s.buf c h))))

/-- The addresses of the allocated tracks whose list is not empty. -/
def State.nonEmptyKeys (s : State) : List Nat :=
  (s.trk.filter (fun e => s.inStore (keyCyl e.1) (keyHead e.1) && !e.2.events.isEmpty)).map Prod.fst

/-- 1 + the greatest number of a list, or 0 for the empty list. -/
def topCount (l : List Nat) : Nat := (l.map (· + 1)).foldl max 0

/-- `ACTUAL_GEOMETRY`, opcode 0x46 (R189). -/
def execActualGeometry (s : State) : Outcome :=
  if !s.diskPresent then complete .noDisk s
  else
    complete .ok
      ((s.setReg 0 (countWord (topCount (s.nonEmptyKeys.map keyCyl)))).setReg 1
        (countWord (topCount (s.nonEmptyKeys.map keyHead))))

/-! ### Sector I/O on raw-sector media -/

/-- The bounds of a sector operand (R190). -/
def State.sectorInRange (s : State) : Bool :=
  decide (s.x.x0.toNat < s.props.tracks.toNat) && decide (s.x.x1.toNat < s.props.sides.toNat)
    && decide (1 ≤ s.x.x2.toNat) && decide (s.x.x2.toNat ≤ s.props.spt.toNat)
    && decide (s.x.x3.toNat ≤ s.props.secsize.toNat)

/-- `off` of R190. -/
def State.sectorOffset (s : State) : Nat :=
  ((s.x.x0.toNat * s.props.sides.toNat + s.x.x1.toNat) * s.props.spt.toNat + (s.x.x2.toNat - 1)) * s.props.secsize.toNat

/-- `READ_SECTOR`, opcode 0x47 (R190). -/
def execReadSector (s : State) : Outcome :=
  if !s.diskPresent then complete .noDisk s
  else if !s.props.kind then complete .notImplemented s
  else if !s.sectorInRange then raiseFault .operand 0 s
  else
    complete .ok
      ({ s with bytes := s.rawRead s.sectorOffset (unsignedOperand s.x.x3) }.setReg 0 s.x.x3)

/-- `WRITE_SECTOR`, opcode 0x48 (R191). -/
def execWriteSector (s : State) : Outcome :=
  if !s.diskPresent then complete .noDisk s
  else if !s.props.kind then complete .notImplemented s
  else if !s.sectorInRange then raiseFault .operand 0 s
  else if s.bytes.length < unsignedOperand s.x.x3 then raiseFault .bounds 0 s
  else if s.wp then complete .ignored s
  else complete .ok (s.rawWrite s.sectorOffset (s.bytes.take (unsignedOperand s.x.x3))).markDirty

/-! ### Flags -/

/-- `SET_WP`, opcode 0x4B (R192). -/
def execSetWp (s : State) : Outcome :=
  if !s.diskPresent then complete .noDisk s else complete .ok { s with wp := boolOperand s.x.x0 }

/-- `POLL_CHANGED`, opcode 0x4C (R193). -/
def execPollChanged (s : State) : Outcome :=
  complete .ok { s.setReg 0 (bitWord s.imgChanged) with imgChanged := false }

/-- `GET_FLAGS`, opcode 0x4D (R194). -/
def execGetFlags (s : State) : Outcome := complete .ok (s.setReg 0 s.flagsWord)

/-- `CLEAR_DIRTY`, opcode 0x4E (R198). -/
def execClearDirty (s : State) : Outcome :=
  if !s.diskPresent then complete .noDisk s
  else if 4 ≤ unsignedOperand s.x.x0 then raiseFault .operand 0 s
  else
    complete .ok
      { s with
        dirtyLoad := if s.x.x0.getLsbD 0 then false else s.dirtyLoad
        dirtyRestore := if s.x.x0.getLsbD 1 then false else s.dirtyRestore }

/-- `GET_PROPS`, opcode 0x4F (R199). -/
def execGetProps (s : State) : Outcome :=
  complete .ok
    { s with
      x :=
        { x0 := bitWord s.diskPresent
          x1 := ext64 s.props.type
          x2 := ext64 s.props.tracks
          x3 := ext64 s.props.sides
          x4 := ext64 s.props.spt
          x5 := ext64 s.props.secsize
          x6 := ext64 s.props.drate
          x7 := bitWord s.props.kind }
      bytes := s.props.desc }

/-! ### The checkpoint stream -/

/-- A number in `n` bytes, little-endian (20_memory.md R54). -/
def leBytes (n v : Nat) : List Byte := (List.range n).map (fun j => BitVec.ofNat 8 (v / 2 ^ (8 * j)))

/-- The number of a little-endian byte string. -/
def leNat : List Byte → Nat
  | [] => 0
  | b :: l => b.toNat + 256 * leNat l

/-- A boolean in one byte, 0 or 1 (R195). -/
def boolByte (b : Bool) : Byte := if b then 1 else 0

/-- The record of one track (R195). -/
def trackRecord (t : Track) : List Byte :=
  leBytes 8 t.events.length ++ t.events.flatMap (fun w => leBytes 4 w.toNat) ++ leBytes 4 t.splice.toNat
    ++ [boolByte t.hasDamaged]

/-- The addresses of the allocated tracks, row-major: track, then head (R195). -/
def State.trackOrder (s : State) : List (Nat × Nat) :=
  (List.range s.allocTracks.toNat).flatMap fun c => (List.range s.allocSides.toNat).map fun h => (c, h)

/-- The checkpoint stream of the bound disk (R195). -/
def State.checkpoint (s : State) : List Byte :=
  boolByte s.dirtyLoad :: s.trackOrder.flatMap (fun p => trackRecord (s.trackAt p.1 p.2))

/-- `SAVE_STATE`, opcode 0x49 (R195). -/
def execSaveState (s : State) : Outcome :=
  if !s.diskPresent then complete .noDisk s
  else complete .ok ({ s with ckp := s.checkpoint }.setReg 0 (countWord s.checkpoint.length))

/-- A byte that is 0 or 1, as a boolean (R197). -/
def parseBool (b : Byte) : Option Bool := if b = 0 then some false else if b = 1 then some true else none

/-- `n` 32-bit words, little-endian, from the front of a byte string that holds them. -/
def parseWords : Nat → List Byte → List Word32
  | 0, _ => []
  | n + 1, l => BitVec.ofNat 32 (leNat (l.take 4)) :: parseWords n (l.drop 4)

/-- One track record from the front of a stream, and the rest; none where R197 rejects it. -/
def parseTrack (l : List Byte) : Option (Track × List Byte) :=
  let n := leNat (l.take 8)
  let events := parseWords n (l.drop 8)
  let tail := l.drop (8 + 4 * n)
  let splice := leNat (tail.take 4)
  if l.length < 8 + 4 * n + 5 then none
  else
    match parseBool (tail.getD 4 0) with
    | none => none
    | some damaged =>
      if wfTrack events && decide (splice < revUnits) && (damaged == hasTag .damaged events) then
        some ({ events := events, splice := BitVec.ofNat 32 splice, hasDamaged := damaged }, tail.drop 5)
      else none

/-- The records of the given tracks put into a store; none where R197 rejects the stream. -/
def parseTracks : List (Nat × Nat) → List Byte → Sparse Track → Option (Sparse Track)
  | [], [], m => some m
  | [], _ :: _, _ => none
  | p :: ps, l, m =>
    match parseTrack l with
    | none => none
    | some (t, rest) => parseTracks ps rest (Sparse.set Track.empty m (trackKey p.1 p.2) t)

/-- `DIRTY_LOAD` and the track store of a checkpoint stream; none where R197 rejects it. -/
def State.parseCheckpoint (s : State) : Option (Bool × Sparse Track) :=
  match s.ckp with
  | [] => none
  | b :: l =>
    match parseBool b, parseTracks s.trackOrder l [] with
    | some dirty, some m => some (dirty, m)
    | _, _ => none

/-- `LOAD_STATE`, opcode 0x4A (R197). -/
def execLoadState (s : State) : Outcome :=
  if !s.diskPresent then complete .noDisk s
  else
    match s.parseCheckpoint with
    | none => complete .badCheckpoint s
    | some (dirty, m) =>
      complete .ok { s.dropCache with trk := m, dirtyLoad := dirty, dirtyRestore := false, imgChanged := true }

end Sys2Proof.Machine
end

