-- ==== Sys2Proof/Machine/Codec.lean ====
section
/-!
DEFINITION. COD: the bit writers and the conversion of a cell list into a track (42_codec.md R130 to R136, R153 to R157).
-/

namespace Sys2Proof.Machine

/-! ### Bit writers -/

/-- The word of a bit-cell: `BIT1` or `BIT0` of duration `d`. -/
def bitCell (b : Bool) (d : Nat) : Word32 := mkCell (if b then .bit1 else .bit0) d

/-- The bits `v[n-1:0]`, from bit n-1 down to bit 0 (R131). -/
def writtenBits (n v : Nat) : List Bool := (List.range n).reverse.map (fun i => v.testBit i)

/-- A word of `CL` that a command can read: its kind is not reserved and its duration is not 0 (30_encoding.md R72, R73; U5 of
93_implementation_defined.md). -/
def goodCell (w : Word32) : Bool := (kindOf w).isSome && decide (evPos w ≠ 0)

/-- A command can read the last word of `CL`, if there is one. -/
def prevReadable (cl : List Word32) : Bool := cl.getLast?.all goodCell

/-- `prev(CL)` (R132). R132 names the kinds `BIT0`, `N`, `D` and `E` for 0 and no reserved kind; `MFM_W` faults on a last word of
one (`prevReadable`). -/
def prevBit (cl : List Word32) : Bool :=
  match cl.getLast? with
  | some w => kindOf w == some .bit1
  | none => false

/-- The cells of raw bits (R134). -/
def rawCells (d : Nat) (bits : List Bool) : List Word32 := bits.map (fun b => bitCell b d)

/-- The cells of FM bits: a clock cell that always holds a transition, then the data cell (R135). -/
def fmCells (d : Nat) : List Bool → List Word32
  | [] => []
  | b :: l => bitCell true d :: bitCell b d :: fmCells d l

/-- The cells of MFM bits after the data bit `p`: the clock cell is NOT (p OR b) (R136). -/
def mfmCells (d : Nat) (p : Bool) : List Bool → List Word32
  | [] => []
  | b :: l => bitCell (!(p || b)) d :: bitCell b d :: mfmCells d b l

/-- `RAW_W(n, v, d)` on a cell list (R134). -/
def writeRaw (n v d : Nat) (cl : List Word32) : List Word32 := cl ++ rawCells d (writtenBits n v)

/-- `FM_W(n, v, d)` on a cell list (R135). -/
def writeFm (n v d : Nat) (cl : List Word32) : List Word32 := cl ++ fmCells d (writtenBits n v)

/-- `MFM_W(n, v, d)` on a cell list (R136). -/
def writeMfm (n v d : Nat) (cl : List Word32) : List Word32 := cl ++ mfmCells d (prevBit cl) (writtenBits n v)

/-- A bit-writer command: its operands, then the word of `CL` that it reads, if any, then the writer on `CL` (R130, R131). -/
def bitWriter (readable : Bool) (write : Nat → Nat → Nat → List Word32 → List Word32) (s : State) : Outcome :=
  match bitCountOperand s.x.x0, sizeOperand s.x.x2 with
  | some n, some d =>
    if readable then complete .ok { s with cl := write n (unsignedOperand s.x.x1) d s.cl }
    else raiseFault .cells 0 s
  | _, _ => raiseFault .operand 0 s

/-- `CL_CLEAR`, opcode 0x20 (R133). -/
def execClClear (s : State) : Outcome := complete .ok { s with cl := [] }

/-- `RAW_W`, opcode 0x21 (R134). -/
def execRawW (s : State) : Outcome := bitWriter true writeRaw s

/-- `FM_W`, opcode 0x22 (R135). -/
def execFmW (s : State) : Outcome := bitWriter true writeFm s

/-- `MFM_W`, opcode 0x23 (R136). It reads the last word of `CL` for `prev(CL)`, also where it writes no bit. DEDUCED: where that word
has a reserved kind or the duration 0 it faults with `F_CELLS`, as 30_encoding.md R72 and U5 of 93_implementation_defined.md say,
although the Exceptions of R136 and 60_exceptions.md R201 do not name it (log entry 21). -/
def execMfmW (s : State) : Outcome := bitWriter (prevReadable s.cl) writeMfm s

/-! ### From cells to a track -/

/-- The word is a `BIT1` word. -/
def isBit1 (w : Word32) : Bool := kindOf w == some .bit1

/-- The word is a `BIT0` or `BIT1` word. -/
def isBit (w : Word32) : Bool := kindOf w == some .bit0 || kindOf w == some .bit1

/-- A bit-cell word with its kind toggled (R154). -/
def toggleBit (w : Word32) : Word32 := mkCell (if isBit1 w then .bit0 else .bit1) (evPos w)

/-- The first index of the cyclic order s, s+1, ..., m-1, 0, ..., s-1 whose word is a bit cell (R154). -/
def firstBitFrom (W : List Word32) (s : Nat) : Option Nat :=
  ((List.range W.length).map (fun t => (s + t) % W.length)).find? (fun j => isBit (W.getD j 0))

/-- `parity_fix(W, s)` (R154). -/
def parityFix (W : List Word32) (s : Nat) : List Word32 :=
  if W.countP isBit1 % 2 = 0 then W
  else
    match firstBitFrom W s with
    | some j => W.set j (toggleBit (W.getD j 0))
    | none => W

/-- The sum of the durations of a cell list. -/
def durations (W : List Word32) : Nat := (W.map evPos).sum

/-- The event of one word that starts at `S` (R153, `raw`). -/
def rawEvent (S : Nat) (w : Word32) : List (CellTag × Nat) :=
  match kindOf w with
  | some .bit1 => [(.flux, S + evPos w / 2)]
  | some .nonMag => [(.nonMagnetized, S)]
  | some .dam => [(.damaged, S)]
  | some .zoneEnd => [(.endOfZone, S)]
  | some .bit0 => []
  | none => []

/-- `raw` of R153, the words starting at `S`. -/
def rawEvents (S : Nat) : List Word32 → List (CellTag × Nat)
  | [] => []
  | w :: W => rawEvent S w ++ rawEvents (S + evPos w) W

/-- `NORMALIZE(raw, T)` (R155). -/
def normalize (raw : List (CellTag × Nat)) (T : Nat) : List Word32 :=
  raw.map (fun e => mkEvent e.1 (revUnits * e.2 / T))

/-- The track list and the splice of a cell list, or `F_CELLS` (R153). -/
def cellsToTrack (cl : List Word32) (sigma : Nat) : Except FaultCode (List Word32 × Nat) :=
  if cl.any (fun w => !goodCell w) then .error .cells
  else if cl = [] then .ok ([], 0)
  else
    let i := sigma % cl.length
    let W := parityFix cl i
    let T := durations W
    let L := normalize (rawEvents 0 W) T
    if wfTrack L then .ok (L, revUnits * durations (W.take i) / T) else .error .cells

/-- `GEN_FROM_CELLS(c, h, σ)` over the cell list `cl` from the track check on, for a disk that is bound; `cl` is the value
of `CL` once the command has ended (R153). -/
def genFromCells (c h sigma : Nat) (cl : List Word32) (s : State) : Outcome :=
  if !s.inStore c h then raiseFault .trackRange 0 s
  else
    match cellsToTrack cl sigma with
    | .error code => raiseFault code 0 s
    | .ok (L, splice) => complete .ok ({ s with cl := cl }.writeTrack c h L splice).markDirty.dropCache

/-- `GEN_FROM_CELLS`, opcode 0x25 (R153). -/
def execGenFromCells (s : State) : Outcome :=
  if !s.diskPresent then complete .noDisk s
  else genFromCells (unsignedOperand s.x.x0) (unsignedOperand s.x.x1) (unsignedOperand s.x.x2) s.cl s

end Sys2Proof.Machine
end

