-- ==== Sys2Proof/Machine/Crc.lean ====
section
/-!
DEFINITION. CRC: the CRC-CCITT generator (44_crc.md).
-/

namespace Sys2Proof.Machine

/-- One step of the shift register (R175). -/
def crcStep (crc : BitVec 16) (b : Bool) : BitVec 16 :=
  if (crc.getMsbD 0).xor b then (crc <<< 1) ^^^ crcPoly else crc <<< 1

/-- The register after a list of data bits. -/
def crcBits (crc : BitVec 16) (bits : List Bool) : BitVec 16 := bits.foldl crcStep crc

/-- The bits of a byte, most significant first (20_memory.md R56). -/
def byteBits (b : Byte) : List Bool := (List.range 8).map (fun k => b.getMsbD k)

/-- The CRC of a byte string (R178). -/
def crcOfBytes (bytes : List Byte) : BitVec 16 := crcBits crcInit (bytes.flatMap byteBits)

/-- The data cells of a list of (clock, data) pairs (R177). -/
def dataBits : List Word32 → List Bool
  | _ :: w :: l => (kindOf w == some .bit1) :: dataBits l
  | _ => []

/-- The cells `CL[start .. stop)`. -/
def cellSpan (cl : List Word32) (start stop : Nat) : List Word32 := (cl.drop start).take (stop - start)

/-- A word of kind `BIT0` or `BIT1` whose duration is not 0. DEDUCED: R177 names the kind only and 30_encoding.md R73 only
`GEN_FROM_CELLS`, but U5 of 93_implementation_defined.md, with the cause column of 60_exceptions.md R201, gives `F_CELLS` to a word
with the duration 0 that any command reads (log entry 22). -/
def isBitCell (w : Word32) : Bool := (kindOf w == some .bit0 || kindOf w == some .bit1) && decide (evPos w ≠ 0)

/-- `CRC_CELLS(start, end)` over a cell list, or the fault it raises (R177; U5 of 93_implementation_defined.md). -/
def crcOfCells (cl : List Word32) (start stop : Nat) : Except FaultCode (BitVec 16) :=
  if ¬ (start ≤ stop ∧ (stop - start) % 2 = 0) then .error .operand
  else if cl.length < stop then .error .bounds
  else if (cellSpan cl start stop).any (fun w => !isBitCell w) then .error .cells
  else .ok (crcBits crcInit (dataBits (cellSpan cl start stop)))

/-- `CRC_CELLS`, opcode 0x30 (R177). -/
def execCrcCells (s : State) : Outcome :=
  match crcOfCells s.cl (unsignedOperand s.x.x0) (unsignedOperand s.x.x1) with
  | .error code => raiseFault code 0 s
  | .ok v => complete .ok (s.setReg 0 (v.setWidth 64))

/-- `CRC_BYTES`, opcode 0x31 (R178). -/
def execCrcBytes (s : State) : Outcome := complete .ok (s.setReg 0 ((crcOfBytes s.bytes).setWidth 64))

end Sys2Proof.Machine
end

