-- ==== Sys2Proof/Machine/Builder.lean ====
section
/-!
DEFINITION. COD: the PC track builders (42_codec.md R150 to R152).
-/

namespace Sys2Proof.Machine

/-- The operands of a builder (R150). -/
structure Layout where
  cellCount : Nat
  gap3 : Nat
  gap4a : Nat
  gap1 : Nat
  gap2 : Nat
  noIam : Bool
deriving DecidableEq, Repr

/-- The operands `X2` .. `X7` of a builder (R150). -/
def State.layout (s : State) : Layout where
  cellCount := unsignedOperand s.x.x2
  gap3 := unsignedOperand s.x.x3
  gap4a := unsignedOperand s.x.x4
  gap1 := unsignedOperand s.x.x5
  gap2 := unsignedOperand s.x.x6
  noIam := boolOperand s.x.x7

/-- A byte field of a record that fits a byte (R150: "F_OPERAND if ... any byte field of a record exceeds 255"), and a payload
of the declared length (R151: "|data| = actual_size, else F_OPERAND"). -/
def goodRecord (r : SectorDesc) : Bool :=
  decide (r.track ≤ 255) && decide (r.head ≤ 255) && decide (r.sector ≤ 255) && decide (r.size ≤ 255)
    && decide (r.data.length = r.actualSize.toNat)

/-- The data CRC, complemented when the record says so (R150). -/
def dataCrc (r : SectorDesc) (crc : BitVec 16) : BitVec 16 := if r.badCrc then ~~~crc else crc

/-- The CRC of the cells from `start` to the end of a cell list that the builder wrote itself (R145, R177). -/
def crcFrom (start : Nat) (cl : List Word32) : BitVec 16 := crcBits crcInit (dataBits (cl.drop start))

/-! ### MFM -/

/-- One byte: `MFM_W(8, byte, 1000)` (R150). -/
def mfmByte (v : Nat) (cl : List Word32) : List Word32 := writeMfm 8 v cellSizeDefault cl

/-- `RAW x`: `RAW_W(16, x, 1000)` (R150). -/
def rawMark (x : Nat) (cl : List Word32) : List Word32 := writeRaw 16 x cellSizeDefault cl

/-- Bytes in order. -/
def mfmBytes (l : List Nat) (cl : List Word32) : List Word32 := l.foldl (fun cl v => mfmByte v cl) cl

/-- `n` times the same byte. -/
def mfmFill (n v : Nat) (cl : List Word32) : List Word32 := (mfmByte v)^[n] cl

/-- The four bytes of an ID field (R150). -/
def idBytes (r : SectorDesc) : List Nat := [r.track, r.head, r.sector, r.size]

/-- The payload bytes as numbers. -/
def dataBytes (r : SectorDesc) : List Nat := r.data.map BitVec.toNat

/-- gap4a, the zeros, the index address mark and gap1 (R150). -/
def mfmLead (lay : Layout) (cl : List Word32) : List Word32 :=
  let cl := mfmFill 12 0x00 (mfmFill lay.gap4a 0x4E cl)
  let cl := if lay.noIam then cl else mfmByte 0xFC ((rawMark mfmIndexSync)^[3] cl)
  mfmFill lay.gap1 0x4E cl

/-- The ID field of a record: zeros, the CRC region and its CRC (R150). -/
def mfmIdField (r : SectorDesc) (cl : List Word32) : List Word32 :=
  let cl := mfmFill 12 0x00 cl
  let start := cl.length
  let cl := mfmBytes (0xFE :: idBytes r) ((rawMark mfmSync)^[3] cl)
  writeMfm 16 (crcFrom start cl).toNat cellSizeDefault cl

/-- gap2 and the data field of a record (R150). -/
def mfmDataField (lay : Layout) (r : SectorDesc) (cl : List Word32) : List Word32 :=
  let cl := mfmFill 12 0x00 (mfmFill lay.gap2 0x4E cl)
  let start := cl.length
  let cl := mfmBytes ((if r.deleted then 0xF8 else 0xFB) :: dataBytes r) ((rawMark mfmSync)^[3] cl)
  writeMfm 16 (dataCrc r (crcFrom start cl)).toNat cellSizeDefault cl

/-- One sector with its gap3 (R150). -/
def mfmSector (lay : Layout) (gap3 : Nat) (cl : List Word32) (r : SectorDesc) : List Word32 :=
  mfmFill gap3 0x4E (mfmDataField lay r (mfmIdField r cl))

/-- gap4b: whole bytes while they fit, then the first cells of one more (R150). -/
def fillTrack (writeByte : List Word32 → List Word32) (cellCount : Nat) (cl : List Word32) : List Word32 :=
  let cl := writeByte^[(cellCount - cl.length) / 16] cl
  (writeByte cl).take cellCount

/-- The cells of the MFM track (R150). -/
def mfmTrack (lay : Layout) (gap3 : Nat) (sdl : List SectorDesc) : List Word32 :=
  fillTrack (mfmByte 0x4E) lay.cellCount (sdl.foldl (mfmSector lay gap3) (mfmLead lay []))

/-- `fixed` of R150. -/
def mfmFixed (lay : Layout) (sdl : List SectorDesc) : Nat :=
  16 * (lay.gap4a + 12 + (if lay.noIam then 0 else 4) + lay.gap1
    + (sdl.map (fun r => 12 + 8 + 2 + lay.gap2 + 12 + 4 + r.data.length + 2)).sum)

/-! ### FM -/

/-- One byte: `FM_W(8, byte, 1000)` (R152). -/
def fmByte (v : Nat) (cl : List Word32) : List Word32 := writeFm 8 v cellSizeDefault cl

/-- Bytes in order. -/
def fmBytes (l : List Nat) (cl : List Word32) : List Word32 := l.foldl (fun cl v => fmByte v cl) cl

/-- `n` times the same byte. -/
def fmFill (n v : Nat) (cl : List Word32) : List Word32 := (fmByte v)^[n] cl

/-- gap4a, the zeros, the index address mark and gap1 (R152). -/
def fmLead (lay : Layout) (cl : List Word32) : List Word32 :=
  let cl := fmFill 6 0x00 (fmFill lay.gap4a 0xFF cl)
  let cl := if lay.noIam then cl else rawMark fmIndexMark cl
  fmFill lay.gap1 0xFF cl

/-- The ID field of a record (R152). -/
def fmIdField (r : SectorDesc) (cl : List Word32) : List Word32 :=
  let cl := fmFill 6 0x00 cl
  let start := cl.length
  let cl := fmBytes (idBytes r) (rawMark fmIdMark cl)
  writeFm 16 (crcFrom start cl).toNat cellSizeDefault cl

/-- gap2 and the data field of a record (R152). -/
def fmDataField (lay : Layout) (r : SectorDesc) (cl : List Word32) : List Word32 :=
  let cl := fmFill 6 0x00 (fmFill lay.gap2 0xFF cl)
  let start := cl.length
  let cl := fmBytes (dataBytes r) (rawMark (if r.deleted then fmDeletedMark else fmDataMark) cl)
  writeFm 16 (dataCrc r (crcFrom start cl)).toNat cellSizeDefault cl

/-- One sector with its gap3 (R152). -/
def fmSector (lay : Layout) (gap3 : Nat) (cl : List Word32) (r : SectorDesc) : List Word32 :=
  fmFill gap3 0xFF (fmDataField lay r (fmIdField r cl))

/-- The cells of the FM track (R152). -/
def fmTrack (lay : Layout) (gap3 : Nat) (sdl : List SectorDesc) : List Word32 :=
  fillTrack (fmByte 0xFF) lay.cellCount (sdl.foldl (fmSector lay gap3) (fmLead lay []))

/-- `fixed` of R152. -/
def fmFixed (lay : Layout) (sdl : List SectorDesc) : Nat :=
  16 * (lay.gap4a + 6 + (if lay.noIam then 0 else 1) + lay.gap1
    + (sdl.map (fun r => 6 + 5 + 2 + lay.gap2 + 6 + 1 + r.data.length + 2)).sum)

/-! ### The commands -/

/-- `gap3'` (R150). -/
def shrunkGap3 (lay : Layout) (fixed sectors : Nat) : Nat :=
  if sectors = 0 ∨ fixed + 16 * lay.gap3 * sectors ≤ lay.cellCount then lay.gap3
  else (lay.cellCount - fixed) / (16 * sectors)

/-- A builder (R150, R152), given its fixed size and its layout. The order of the checks is that of R150's paragraphs, the disk
and the track first as in R137 (log entry 13). -/
def buildTrack (fixedSize : Layout → List SectorDesc → Nat)
    (cells : Layout → Nat → List SectorDesc → List Word32) (s : State) : Outcome :=
  let c := unsignedOperand s.x.x0
  let h := unsignedOperand s.x.x1
  let lay := s.layout
  let fixed := fixedSize lay s.sdl
  if !s.diskPresent then complete .noDisk s
  else if !s.inStore c h then raiseFault .trackRange s.x.x0 s
  else if lay.cellCount = 0 ∨ s.sdl.any (fun r => !goodRecord r) then raiseFault .operand 0 s
  else if lay.cellCount < fixed then complete .layoutOverflow s
  else genFromCells c h 0 (cells lay (shrunkGap3 lay fixed s.sdl.length) s.sdl) s

/-- `BUILD_PC_MFM`, opcode 0x29 (R150). -/
def execBuildPcMfm (s : State) : Outcome := buildTrack mfmFixed mfmTrack s

/-- `BUILD_PC_FM`, opcode 0x2A (R152). -/
def execBuildPcFm (s : State) : Outcome := buildTrack fmFixed fmTrack s

end Sys2Proof.Machine
end

