-- ==== Sys2Proof/WellFormed.lean ====
section
/-!
DEFINITION. Which instructions are well formed as syntax.

A command has no argument, so every command is well formed. A descriptor element may be malformed in the two ways that
42_codec.md R149 lists and that are visible in the element alone: a region id above 15, and a sector loop whose last index is
below its first. The decoder still gives a malformed element (30_encoding.md R84: "Descriptor programs are not checked before
they run"); `GEN_TRACK` faults with `F_DESC` when it reaches it.
-/

namespace Sys2Proof

/-- The region ids of R143 to R145 are 0 .. 15. -/
def regionOk (region : Word32) : Bool := decide (region.toNat ≤ 15)

/-- R146: "F_DESC if ... last < first". -/
def loopOk (first last : Word32) : Bool := decide (first.toNat ≤ last.toNat)

/-- The instruction is well formed (42_codec.md R149, the clauses that an element shows by itself). -/
def Instr.wellFormed : Instr → Bool
  | .setMotor | .indexResync | .timeNextIndex | .phaseOf | .timeOf | .stepTo | .setSide | .getLines | .getFault => true
  | .getNextTransition | .writeFlux | .setWriteSplice | .setSeed => true
  | .clClear | .rawW | .fmW | .mfmW | .genTrack | .genFromCells | .genBitstream | .extractMfm | .extractFm => true
  | .buildPcMfm | .buildPcFm | .crcCells | .crcBytes => true
  | .insert | .eject | .getBuffer | .putBuffer | .resizeTracks | .trackIsFormatted | .actualGeometry => true
  | .readSector | .writeSector | .saveState | .loadState | .setWp | .pollChanged | .getFlags | .clearDirty
  | .getProps => true
  | .endDesc | .fm _ _ | .mfm _ _ | .raw _ _ | .trackId | .trackIdFm | .headId | .headIdFm => true
  | .sectorId | .sectorIdFm | .sizeId | .sizeIdFm => true
  | .crcCcittStart region => regionOk region
  | .crcCcittFmStart region => regionOk region
  | .crcEnd region => regionOk region
  | .crc region => regionOk region
  | .sectorLoopStart first last => loopOk first last
  | .sectorLoopEnd | .sectorData | .sectorDataFm | .sectorInterleaveSkip _ _ => true

/-- The instruction is a command (a row of format CMD of the opcode table), not a descriptor op. -/
def Instr.isCommand : Instr → Bool
  | .setMotor | .indexResync | .timeNextIndex | .phaseOf | .timeOf | .stepTo | .setSide | .getLines | .getFault => true
  | .getNextTransition | .writeFlux | .setWriteSplice | .setSeed => true
  | .clClear | .rawW | .fmW | .mfmW | .genTrack | .genFromCells | .genBitstream | .extractMfm | .extractFm => true
  | .buildPcMfm | .buildPcFm | .crcCells | .crcBytes => true
  | .insert | .eject | .getBuffer | .putBuffer | .resizeTracks | .trackIsFormatted | .actualGeometry => true
  | .readSector | .writeSector | .saveState | .loadState | .setWp | .pollChanged | .getFlags | .clearDirty
  | .getProps => true
  | .endDesc | .fm _ _ | .mfm _ _ | .raw _ _ | .trackId | .trackIdFm | .headId | .headIdFm => false
  | .sectorId | .sectorIdFm | .sizeId | .sizeIdFm => false
  | .crcCcittStart _ | .crcCcittFmStart _ | .crcEnd _ | .crc _ => false
  | .sectorLoopStart _ _ | .sectorLoopEnd | .sectorData | .sectorDataFm | .sectorInterleaveSkip _ _ => false

end Sys2Proof
end

