-- ==== Sys2Proof/Decode.lean ====
section
/-!
DEFINITION. The decoder and the encoder (30_encoding.md R76 to R79, R83, R85).
A command word is 32 bits: the opcode in bits 7:0, bits 31:8 zero. A descriptor element is a triple (op, p1, p2).
The decoder is total and rejects by name.
-/

namespace Sys2Proof

/-- Why a word or an element is no instruction. -/
inductive Reject where
  /-- Bits 31:8 of a command word are not all 0 (R83). -/
  | reservedBits
  /-- The opcode is not in the table of R79 (R83). -/
  | unassignedOpcode (op : Byte)
  /-- The op of a descriptor element is 0x15 .. 0xFF (R77). -/
  | illegalDescriptorOp (op : Byte)
deriving DecidableEq, Repr

/-- The command opcodes of R79. -/
def commandOf (op : Byte) : Option Instr :=
  match op.toNat with
  | 0x01 => some .setMotor
  | 0x02 => some .indexResync
  | 0x03 => some .timeNextIndex
  | 0x04 => some .phaseOf
  | 0x05 => some .timeOf
  | 0x06 => some .stepTo
  | 0x07 => some .setSide
  | 0x08 => some .getLines
  | 0x09 => some .getFault
  | 0x10 => some .getNextTransition
  | 0x11 => some .writeFlux
  | 0x12 => some .setWriteSplice
  | 0x13 => some .setSeed
  | 0x20 => some .clClear
  | 0x21 => some .rawW
  | 0x22 => some .fmW
  | 0x23 => some .mfmW
  | 0x24 => some .genTrack
  | 0x25 => some .genFromCells
  | 0x26 => some .genBitstream
  | 0x27 => some .extractMfm
  | 0x28 => some .extractFm
  | 0x29 => some .buildPcMfm
  | 0x2A => some .buildPcFm
  | 0x30 => some .crcCells
  | 0x31 => some .crcBytes
  | 0x40 => some .insert
  | 0x41 => some .eject
  | 0x42 => some .getBuffer
  | 0x43 => some .putBuffer
  | 0x44 => some .resizeTracks
  | 0x45 => some .trackIsFormatted
  | 0x46 => some .actualGeometry
  | 0x47 => some .readSector
  | 0x48 => some .writeSector
  | 0x49 => some .saveState
  | 0x4A => some .loadState
  | 0x4B => some .setWp
  | 0x4C => some .pollChanged
  | 0x4D => some .getFlags
  | 0x4E => some .clearDirty
  | 0x4F => some .getProps
  | _ => none

/-- R85: a host word is refused when bits 31:8 are not zero or the opcode is not in the table. -/
def decodeWord (w : Word32) : Except Reject Instr :=
  if w.extractLsb' 8 24 ≠ 0 then .error .reservedBits
  else
    match commandOf (w.extractLsb' 0 8) with
    | some i => .ok i
    | none => .error (.unassignedOpcode (w.extractLsb' 0 8))

/-- The descriptor ops of R77, with the parameter fields each one uses. -/
def decodeElem (e : DescElem) : Except Reject Instr :=
  match e.op.toNat with
  | 0x00 => .ok .endDesc
  | 0x01 => .ok (.fm (e.p1.extractLsb' 0 8) e.p2)
  | 0x02 => .ok (.mfm (e.p1.extractLsb' 0 8) e.p2)
  | 0x03 => .ok (.raw (e.p1.extractLsb' 0 16) e.p2)
  | 0x04 => .ok .trackId
  | 0x05 => .ok .trackIdFm
  | 0x06 => .ok .headId
  | 0x07 => .ok .headIdFm
  | 0x08 => .ok .sectorId
  | 0x09 => .ok .sectorIdFm
  | 0x0A => .ok .sizeId
  | 0x0B => .ok .sizeIdFm
  | 0x0C => .ok (.crcCcittStart e.p1)
  | 0x0D => .ok (.crcCcittFmStart e.p1)
  | 0x0E => .ok (.crcEnd e.p1)
  | 0x0F => .ok (.crc e.p1)
  | 0x10 => .ok (.sectorLoopStart e.p1 e.p2)
  | 0x11 => .ok .sectorLoopEnd
  | 0x12 => .ok .sectorData
  | 0x13 => .ok .sectorDataFm
  | 0x14 => .ok (.sectorInterleaveSkip e.p1 e.p2)
  | _ => .error (.illegalDescriptorOp e.op)

/-- The decoder: the instruction a code stands for, or why it is none. -/
def decode : Code → Except Reject Instr
  | .word w => decodeWord w
  | .elem e => decodeElem e

/-- A command word from its opcode (R78). -/
def commandWord (opcode : Byte) : Code := .word (opcode.setWidth 32)

/-- A descriptor element from its op and its parameters (R76); an unused parameter is 0, as in the table of R77. -/
def descElem (op : Byte) (p1 p2 : Word32) : Code := .elem { op := op, p1 := p1, p2 := p2 }

/-- The encoder, from the tables of R77 and R79. -/
def encode : Instr → Code
  | .setMotor => commandWord 0x01
  | .indexResync => commandWord 0x02
  | .timeNextIndex => commandWord 0x03
  | .phaseOf => commandWord 0x04
  | .timeOf => commandWord 0x05
  | .stepTo => commandWord 0x06
  | .setSide => commandWord 0x07
  | .getLines => commandWord 0x08
  | .getFault => commandWord 0x09
  | .getNextTransition => commandWord 0x10
  | .writeFlux => commandWord 0x11
  | .setWriteSplice => commandWord 0x12
  | .setSeed => commandWord 0x13
  | .clClear => commandWord 0x20
  | .rawW => commandWord 0x21
  | .fmW => commandWord 0x22
  | .mfmW => commandWord 0x23
  | .genTrack => commandWord 0x24
  | .genFromCells => commandWord 0x25
  | .genBitstream => commandWord 0x26
  | .extractMfm => commandWord 0x27
  | .extractFm => commandWord 0x28
  | .buildPcMfm => commandWord 0x29
  | .buildPcFm => commandWord 0x2A
  | .crcCells => commandWord 0x30
  | .crcBytes => commandWord 0x31
  | .insert => commandWord 0x40
  | .eject => commandWord 0x41
  | .getBuffer => commandWord 0x42
  | .putBuffer => commandWord 0x43
  | .resizeTracks => commandWord 0x44
  | .trackIsFormatted => commandWord 0x45
  | .actualGeometry => commandWord 0x46
  | .readSector => commandWord 0x47
  | .writeSector => commandWord 0x48
  | .saveState => commandWord 0x49
  | .loadState => commandWord 0x4A
  | .setWp => commandWord 0x4B
  | .pollChanged => commandWord 0x4C
  | .getFlags => commandWord 0x4D
  | .clearDirty => commandWord 0x4E
  | .getProps => commandWord 0x4F
  | .endDesc => descElem 0x00 0 0
  | .fm byte count => descElem 0x01 (byte.setWidth 32) count
  | .mfm byte count => descElem 0x02 (byte.setWidth 32) count
  | .raw pattern count => descElem 0x03 (pattern.setWidth 32) count
  | .trackId => descElem 0x04 0 0
  | .trackIdFm => descElem 0x05 0 0
  | .headId => descElem 0x06 0 0
  | .headIdFm => descElem 0x07 0 0
  | .sectorId => descElem 0x08 0 0
  | .sectorIdFm => descElem 0x09 0 0
  | .sizeId => descElem 0x0A 0 0
  | .sizeIdFm => descElem 0x0B 0 0
  | .crcCcittStart region => descElem 0x0C region 0
  | .crcCcittFmStart region => descElem 0x0D region 0
  | .crcEnd region => descElem 0x0E region 0
  | .crc region => descElem 0x0F region 0
  | .sectorLoopStart first last => descElem 0x10 first last
  | .sectorLoopEnd => descElem 0x11 0 0
  | .sectorData => descElem 0x12 0 0
  | .sectorDataFm => descElem 0x13 0 0
  | .sectorInterleaveSkip interleave skew => descElem 0x14 interleave skew

/-- A descriptor element read from bits: the op in bits 7:0 ("descriptor element byte 0", spec/opcode_table.json), then
p1 in bits 39:8 and p2 in bits 71:40. The spec gives the element as a triple and no layout of p1 and p2 in bytes:
DESIGN CHOICE (log entry 8), safe, since `DESC` stores triples and no command reads an element's bytes. -/
def elemOfBits (w : Nat) : DescElem where
  op := BitVec.ofNat 8 w
  p1 := BitVec.ofNat 32 (w / 2 ^ 8)
  p2 := BitVec.ofNat 32 (w / 2 ^ 40)

/-- The code that an opcode-table row of `nbits` bits stands for: a 32-bit row is a command word, every other row
(8 bits in the table) a descriptor element. -/
def codeOfBits (nbits w : Nat) : Code :=
  if nbits = 32 then .word (BitVec.ofNat 32 w) else .elem (elemOfBits w)

/-- The instruction the decoder reads from an opcode-table row whose bits are `w`; none where it rejects. -/
def decodeTableWord (nbits w : Nat) : Option Instr :=
  match decode (codeOfBits nbits w) with
  | .ok i => some i
  | .error _ => none

end Sys2Proof
end

