-- ==== Sys2Proof/Machine/Desc.lean ====
section
/-!
DEFINITION. COD: the track-descriptor interpreter (42_codec.md R137 to R149).

Each descriptor op is a function of the sector list and of the interpreter's state. `GEN_TRACK` runs the whole program in one
command, as R137 says; the meaning of a descriptor op as an instruction of its own is the same function on the interpreter that
`State.gen` holds (log entry 5).
-/

namespace Sys2Proof.Machine

/-- What executing one element gives: the interpreter goes on, or has left the loop at `END`, or the command faults. -/
inductive ElemResult where
  | run (g : Interp)
  | done (g : Interp)
  | fault (code : FaultCode)
deriving DecidableEq, Repr

/-- The interpreter at the start of `GEN_TRACK` (R137, R138). -/
def startInterp (c h trackSize cellSize : Nat) : Interp where
  c := c
  h := h
  trackSize := trackSize
  cellSize := cellSize
  dpc := 0
  cl := []
  loop := none
  cur := none
  il := 1
  sk := 0
  regions := Vector.replicate 16 none

/-- `DPC <- DPC + 1` after the cell list became `cl`. -/
def Interp.wrote (g : Interp) (cl : List Word32) : ElemResult := .run { g with cl := cl, dpc := g.dpc + 1 }

/-- The writer of an encoding. -/
def writeEnc : Encoding → Nat → Nat → Nat → List Word32 → List Word32
  | .mfm => writeMfm
  | .fm => writeFm

/-- An element that writes one byte value. -/
def elemByte (enc : Encoding) (v : Nat) (g : Interp) : ElemResult := g.wrote (writeEnc enc 8 v g.cellSize g.cl)

/-- R140: `p2` times the same write. -/
def elemRepeat (write : List Word32 → List Word32) (count : Nat) (g : Interp) : ElemResult :=
  g.wrote (write^[count] g.cl)

/-- The record `SDL[cur]`; `F_DESC` when `cur` is none (R138), `F_BOUNDS` past the end of `SDL` (20_memory.md R51). -/
def currentSector (sdl : List SectorDesc) (g : Interp) : Except FaultCode SectorDesc :=
  match g.cur with
  | none => .error .desc
  | some i =>
    match sdl[i]? with
    | none => .error .bounds
    | some r => .ok r

/-- An element that writes one byte field of the current sector (R142). -/
def elemSectorByte (enc : Encoding) (field : SectorDesc → Nat) (sdl : List SectorDesc) (g : Interp) : ElemResult :=
  match currentSector sdl g with
  | .error code => .fault code
  | .ok r => elemByte enc (field r) g

/-- The bytes of a payload written one after another (R147). -/
def writeBytes (enc : Encoding) (d : Nat) (bytes : List Byte) (cl : List Word32) : List Word32 :=
  bytes.foldl (fun cl b => writeEnc enc 8 b.toNat d cl) cl

/-- An element that writes the current sector's payload (R147); `F_OPERAND` when its length is not `actual_size` (R151). -/
def elemSectorData (enc : Encoding) (sdl : List SectorDesc) (g : Interp) : ElemResult :=
  match currentSector sdl g with
  | .error code => .fault code
  | .ok r => if r.data.length = r.actualSize.toNat then g.wrote (writeBytes enc g.cellSize r.data g.cl) else .fault .operand

/-- The region record `id`; none when it is unset. -/
def Interp.region (g : Interp) (id : Nat) : Option CrcRegion := (g.regions[id]?).getD none

/-- The region record `id <- r`. -/
def Interp.setRegion (g : Interp) (id : Nat) (r : CrcRegion) : Interp :=
  { g with regions := g.regions.setIfInBounds id (some r) }

/-- `CRC_CCITT_START` and `CRC_CCITT_FM_START` (R143). -/
def elemCrcStart (enc : Encoding) (id : Nat) (g : Interp) : ElemResult :=
  if 15 < id then .fault .desc
  else .run { g.setRegion id { kind := enc, start := g.cl.length, stop := none } with dpc := g.dpc + 1 }

/-- `CRC_END` (R144). -/
def elemCrcEnd (id : Nat) (g : Interp) : ElemResult :=
  if 15 < id then .fault .desc
  else
    match g.region id with
    | none => .fault .desc
    | some r => .run { g.setRegion id { r with stop := some g.cl.length } with dpc := g.dpc + 1 }

/-- `CRC`: the region's CRC written at once, high byte first (R145). -/
def elemCrc (id : Nat) (g : Interp) : ElemResult :=
  if 15 < id then .fault .desc
  else
    match g.region id with
    | none => .fault .desc
    | some r =>
      match r.stop with
      | none => .fault .desc
      | some stop =>
        match crcOfCells g.cl r.start stop with
        | .error code => .fault code
        | .ok v => g.wrote (writeEnc r.kind 16 v.toNat g.cellSize g.cl)

/-- The first empty slot at or after `q` in cyclic order (R148, `while slot[q] != empty`). -/
def emptySlot (slot : List (Option Nat)) (q : Nat) : Nat :=
  (((List.range slot.length).map (fun t => (q + t) % slot.length)).find? (fun j => slot.getD j none == none)).getD q

/-- R148: the logical sectors `i, i+1, ...` (`count` of them) put into the slots from `q` on. -/
def placeSectors (n step : Nat) : Nat → Nat → Nat → List (Option Nat) → List (Option Nat)
  | 0, _, _, slot => slot
  | count + 1, i, q, slot =>
    let at' := emptySlot slot q
    placeSectors n step count (i + 1) ((at' + step) % n) (slot.set at' (some i))

/-- `ORDER(n, il, sk, c)` (R148). -/
def sectorOrder (n il sk c : Nat) : List Nat :=
  (placeSectors n (max il 1) n 0 ((sk * c) % n) (List.replicate n none)).map (fun o => o.getD 0)

/-- `SECTOR_LOOP_START` (R146). -/
def elemLoopStart (first last : Nat) (sdl : List SectorDesc) (g : Interp) : ElemResult :=
  if g.loop.isSome ∨ last < first then .fault .desc
  else if sdl.length ≤ last then .fault .bounds
  else
    let order := sectorOrder (last - first + 1) g.il g.sk g.c
    .run { g with
      loop := some { start := g.dpc, first := first, last := last, order := order, k := 0 }
      cur := some (first + order.getD 0 0)
      dpc := g.dpc + 1 }

/-- `SECTOR_LOOP_END` (R146). -/
def elemLoopEnd (g : Interp) : ElemResult :=
  match g.loop with
  | none => .fault .desc
  | some l =>
    if l.k + 1 < l.last - l.first + 1 then
      .run { g with
        loop := some { l with k := l.k + 1 }
        cur := some (l.first + l.order.getD (l.k + 1) 0)
        dpc := l.start + 1 }
    else .run { g with loop := none, cur := none, dpc := g.dpc + 1 }

/-- `SECTOR_INTERLEAVE_SKIP` (R148). -/
def elemInterleave (il sk : Nat) (g : Interp) : ElemResult := .run { g with il := il, sk := sk, dpc := g.dpc + 1 }

/-- `END` (R139). -/
def elemEnd (g : Interp) : ElemResult := if g.loop.isSome then .fault .desc else .done g

/-- Executes one element (R139 to R148). A command is no element, so it is malformed here (R149). -/
def element (i : Instr) (sdl : List SectorDesc) (g : Interp) : ElemResult :=
  match i with
  | .endDesc => elemEnd g
  | .fm byte count => elemRepeat (writeFm 8 byte.toNat g.cellSize) count.toNat g
  | .mfm byte count => elemRepeat (writeMfm 8 byte.toNat g.cellSize) count.toNat g
  | .raw pattern count => elemRepeat (writeRaw 16 pattern.toNat g.cellSize) count.toNat g
  | .trackId => elemByte .mfm g.c g
  | .trackIdFm => elemByte .fm g.c g
  | .headId => elemByte .mfm g.h g
  | .headIdFm => elemByte .fm g.h g
  | .sectorId => elemSectorByte .mfm SectorDesc.sector sdl g
  | .sectorIdFm => elemSectorByte .fm SectorDesc.sector sdl g
  | .sizeId => elemSectorByte .mfm SectorDesc.size sdl g
  | .sizeIdFm => elemSectorByte .fm SectorDesc.size sdl g
  | .crcCcittStart region => elemCrcStart .mfm region.toNat g
  | .crcCcittFmStart region => elemCrcStart .fm region.toNat g
  | .crcEnd region => elemCrcEnd region.toNat g
  | .crc region => elemCrc region.toNat g
  | .sectorLoopStart first last => elemLoopStart first.toNat last.toNat sdl g
  | .sectorLoopEnd => elemLoopEnd g
  | .sectorData => elemSectorData .mfm sdl g
  | .sectorDataFm => elemSectorData .fm sdl g
  | .sectorInterleaveSkip il sk => elemInterleave il.toNat sk.toNat g
  | .setMotor | .indexResync | .timeNextIndex | .phaseOf | .timeOf | .stepTo | .setSide | .getLines | .getFault
  | .getNextTransition | .writeFlux | .setWriteSplice | .setSeed
  | .clClear | .rawW | .fmW | .mfmW | .genTrack | .genFromCells | .genBitstream | .extractMfm | .extractFm
  | .buildPcMfm | .buildPcFm | .crcCells | .crcBytes
  | .insert | .eject | .getBuffer | .putBuffer | .resizeTracks | .trackIsFormatted | .actualGeometry
  | .readSector | .writeSector | .saveState | .loadState | .setWp | .pollChanged | .getFlags | .clearDirty
  | .getProps => .fault .desc

/-- `el <- DESC[DPC]`, executed: `F_BOUNDS` past the end (R137), `F_DESC` on an illegal op (30_encoding.md R77). -/
def fetchElement (desc : List DescElem) (sdl : List SectorDesc) (g : Interp) : ElemResult :=
  match desc[g.dpc]? with
  | none => .fault .bounds
  | some e =>
    match decodeElem e with
    | .error _ => .fault .desc
    | .ok i => element i sdl g

/-- R137 after the loop: the size check, then `GEN_FROM_CELLS(c, h, 0)`. `s` is the state the command began in. -/
def finishTrack (g : Interp) (s : State) : Outcome :=
  if g.cl.length ≠ g.trackSize then raiseFault .trackSize (u64Of .faultInfo g.cl.length) s
  else if !s.diskPresent then complete .noDisk s
  else genFromCells g.c g.h 0 g.cl s

/-- The interpreter's loop (R137) over at most `n` elements. `s` is the state the command began in. -/
def interpret (s : State) : Nat → Interp → Outcome
  | 0, _ => .fault .loopBound
  | n + 1, g =>
    match fetchElement s.desc s.sdl g with
    | .run g' => interpret s n g'
    | .done g' => finishTrack g' s
    | .fault code => raiseFault code 0 s

/-- A bound on the elements a program executes: outside a loop an element runs once, and a loop's body at most once for each
record of `SDL`. -/
def interpBound (s : State) : Nat := s.desc.length * ((s.sdl.length + 1) * (s.desc.length + 1)) + 1

/-- `GEN_TRACK`, opcode 0x24 (R137). -/
def execGenTrack (s : State) : Outcome :=
  if !s.diskPresent then complete .noDisk s
  else if !s.inStore (unsignedOperand s.x.x0) (unsignedOperand s.x.x1) then raiseFault .trackRange s.x.x0 s
  else
    match sizeOperand s.x.x3 with
    | none => raiseFault .operand 0 s
    | some d =>
      interpret s (interpBound s)
        (startInterp (unsignedOperand s.x.x0) (unsignedOperand s.x.x1) (unsignedOperand s.x.x2) d)

/-! ### The descriptor ops as instructions -/

/-- One element on the interpreter that the state holds (log entry 5). Leaving the loop, or a fault, ends the interpreter. -/
def runElement (f : List SectorDesc → Interp → ElemResult) (s : State) : Outcome :=
  match s.gen with
  | none => .refused .noInterpreter
  | some g =>
    match f s.sdl g with
    | .run g' => .next { s with gen := some g' }
    | .done g' => finishTrack g' { s with gen := none }
    | .fault code => raiseFault code 0 { s with gen := none }

/-- `END`, op 0x00 (R139). -/
def execEndDesc (s : State) : Outcome := runElement (element .endDesc) s
/-- `FM`, op 0x01 (R140). -/
def execFm (byte : Byte) (count : Word32) (s : State) : Outcome := runElement (element (.fm byte count)) s
/-- `MFM`, op 0x02 (R140). -/
def execMfm (byte : Byte) (count : Word32) (s : State) : Outcome := runElement (element (.mfm byte count)) s
/-- `RAW`, op 0x03 (R140). -/
def execRaw (pattern : BitVec 16) (count : Word32) (s : State) : Outcome := runElement (element (.raw pattern count)) s
/-- `TRACK_ID`, op 0x04 (R141). -/
def execTrackId (s : State) : Outcome := runElement (element .trackId) s
/-- `TRACK_ID_FM`, op 0x05 (R141). -/
def execTrackIdFm (s : State) : Outcome := runElement (element .trackIdFm) s
/-- `HEAD_ID`, op 0x06 (R141). -/
def execHeadId (s : State) : Outcome := runElement (element .headId) s
/-- `HEAD_ID_FM`, op 0x07 (R141). -/
def execHeadIdFm (s : State) : Outcome := runElement (element .headIdFm) s
/-- `SECTOR_ID`, op 0x08 (R142). -/
def execSectorId (s : State) : Outcome := runElement (element .sectorId) s
/-- `SECTOR_ID_FM`, op 0x09 (R142). -/
def execSectorIdFm (s : State) : Outcome := runElement (element .sectorIdFm) s
/-- `SIZE_ID`, op 0x0A (R142). -/
def execSizeId (s : State) : Outcome := runElement (element .sizeId) s
/-- `SIZE_ID_FM`, op 0x0B (R142). -/
def execSizeIdFm (s : State) : Outcome := runElement (element .sizeIdFm) s
/-- `CRC_CCITT_START`, op 0x0C (R143). -/
def execCrcCcittStart (region : Word32) (s : State) : Outcome := runElement (element (.crcCcittStart region)) s
/-- `CRC_CCITT_FM_START`, op 0x0D (R143). -/
def execCrcCcittFmStart (region : Word32) (s : State) : Outcome := runElement (element (.crcCcittFmStart region)) s
/-- `CRC_END`, op 0x0E (R144). -/
def execCrcEnd (region : Word32) (s : State) : Outcome := runElement (element (.crcEnd region)) s
/-- `CRC`, op 0x0F (R145). -/
def execCrc (region : Word32) (s : State) : Outcome := runElement (element (.crc region)) s
/-- `SECTOR_LOOP_START`, op 0x10 (R146). -/
def execSectorLoopStart (first last : Word32) (s : State) : Outcome :=
  runElement (element (.sectorLoopStart first last)) s
/-- `SECTOR_LOOP_END`, op 0x11 (R146). -/
def execSectorLoopEnd (s : State) : Outcome := runElement (element .sectorLoopEnd) s
/-- `SECTOR_DATA`, op 0x12 (R147). -/
def execSectorData (s : State) : Outcome := runElement (element .sectorData) s
/-- `SECTOR_DATA_FM`, op 0x13 (R147). -/
def execSectorDataFm (s : State) : Outcome := runElement (element .sectorDataFm) s
/-- `SECTOR_INTERLEAVE_SKIP`, op 0x14 (R148). -/
def execSectorInterleaveSkip (il sk : Word32) (s : State) : Outcome :=
  runElement (element (.sectorInterleaveSkip il sk)) s

end Sys2Proof.Machine
end

