-- ==== Sys2Proof/Machine/Phase.lean ====
section
/-!
DEFINITION. PHA: the angle accumulator and quantizer, the index line and its timer, the motor and the head position
(40_phase.md).
-/

namespace Sys2Proof.Machine

/-! ### The quantizer -/

/-- `U(t)`: the accumulated angle at the time `t`, in angular units (R88). -/
def angle (rpm : Nat) (t0 t : Int) : Int := ((t - t0) * rpm * revUnits) / (60 * tps)

/-- `rev(t)` (R88). -/
def angleRev (rpm : Nat) (t0 t : Int) : Int := angle rpm t0 t / revUnits

/-- `pos(t)` (R88). -/
def anglePos (rpm : Nat) (t0 t : Int) : Nat := (angle rpm t0 t % revUnits).toNat

/-- `TOF(k, p)`: the time of the position `p` of revolution `k` (R89). -/
def angleTime (rpm : Nat) (t0 k p : Int) : Int := t0 + ceilDiv ((k * revUnits + p) * 60 * tps) (rpm * revUnits)

/-- `RS(k)`: the start of revolution `k` (R89). -/
def revTime (rpm : Nat) (t0 k : Int) : Int := angleTime rpm t0 k 0

/-- `T0` as a number. -/
def State.epoch (s : State) : Int := s.t0.toNat

/-- `U(t)` of the machine. -/
def State.angleAt (s : State) (t : Nat) : Int := angle s.cfg.rpm s.epoch t

/-- `rev(t)` of the machine. -/
def State.revAt (s : State) (t : Nat) : Int := angleRev s.cfg.rpm s.epoch t

/-- `pos(t)` of the machine. -/
def State.posAt (s : State) (t : Nat) : Nat := anglePos s.cfg.rpm s.epoch t

/-- `TOF(k, p)` of the machine. -/
def State.timeAt (s : State) (k p : Int) : Int := angleTime s.cfg.rpm s.epoch k p

/-- `RS(k)` of the machine. -/
def State.revStartAt (s : State) (k : Int) : Int := revTime s.cfg.rpm s.epoch k

/-! ### Index resynchronisation -/

/-- The index pulses: the motor is on and a disk is bound (R91, R95). -/
def State.spinning (s : State) : Bool := s.motor && s.diskPresent

/-- R95: the edge counts towards `READY`, "if new = 1 and now > T0 and READY_CNT > 0", at an edge. -/
def State.countsPulse (s : State) (level : Bool) (now : Nat) : Bool :=
  (level != s.idx) && level && decide (s.t0.toNat < now) && decide (s.readyCnt ≠ 0)

/-- R95 from `k <- rev(now)` on, with the motor on and a disk bound. This is the one place that arms the timer, and a timer that is armed
anew has not been missed (70_reset_and_hazards.md R221; log entry 24). -/
def State.resyncSpinning (s : State) (now : Nat) : State :=
  let k := s.revAt now
  let level := decide (s.posAt now < indexUnits)
  let counts := s.countsPulse level now
  { s.driveIndex level (some (BitVec.ofNat 64 now)) with
    revCount := revImage k
    revStart := u64Of .revStart (s.revStartAt k)
    readyCnt := if counts then s.readyCnt - 1 else s.readyCnt
    ready := if counts && decide (s.readyCnt = 1) then true else s.ready
    idxTimer := u64Of .idxTimer (if level then s.timeAt k indexUnits else s.revStartAt (k + 1))
    timerMissed := false }

/-- `INDEX_RESYNC(now)` but for its `ST` (R95). -/
def State.resync (s : State) (now : Nat) : State :=
  if s.spinning then s.resyncSpinning now else { s.driveIndex false (some (BitVec.ofNat 64 now)) with idxTimer := never }

/-- `INDEX_RESYNC`, opcode 0x02 (R95). -/
def execIndexResync (s : State) : Outcome :=
  match timeOperand s.x.x0 with
  | none => raiseFault .operand 0 s
  | some now => complete .ok (s.resync now)

/-! ### Motor -/

/-- R92, the motor going on. -/
def State.motorOn (s : State) (now : Word64) : State :=
  { s.dropCache with
    motor := true
    t0 := now
    revCount := 0
    revStart := now
    ready := false
    readyCnt := readyPulses }

/-- R92, the motor going off. -/
def State.motorOff (s : State) (now : Word64) : State :=
  { s.dropCache.driveIndex false (some now) with
    motor := false
    ready := false
    readyCnt := 0
    idxTimer := never }

/-- `SET_MOTOR`, opcode 0x01 (R92). -/
def execSetMotor (s : State) : Outcome :=
  match timeOperand s.x.x1 with
  | none => raiseFault .operand 0 s
  | some now =>
    if boolOperand s.x.x0 && !s.motor then complete .ok ((s.motorOn s.x.x1).resync now)
    else if !boolOperand s.x.x0 && s.motor then complete .ok (s.motorOff s.x.x1)
    else complete .ok s

/-! ### Quantizer commands -/

/-- `TIME_NEXT_INDEX`, opcode 0x03 (R100). -/
def execTimeNextIndex (s : State) : Outcome :=
  match timeOperand s.x.x0 with
  | none => raiseFault .operand 0 s
  | some now =>
    if s.spinning then complete .ok (s.setReg 0 (u64Of .timeNextIndex (s.revStartAt (s.revAt now + 1))))
    else complete .ok (s.setReg 0 never)

/-- `PHASE_OF`, opcode 0x04 (R101). -/
def execPhaseOf (s : State) : Outcome :=
  match timeOperand s.x.x0 with
  | none => raiseFault .operand 0 s
  | some t => complete .ok ((s.setReg 0 (BitVec.ofNat 64 (s.posAt t))).setReg 1 (BitVec.ofInt 64 (s.revAt t)))

/-- `TIME_OF`, opcode 0x05 (R102). -/
def execTimeOf (s : State) : Outcome :=
  let k := signedOperand s.x.x0
  let p := unsignedOperand s.x.x1
  let v := s.timeAt k p
  if revUnits ≤ p then raiseFault .operand s.x.x1 s
  else if v < 0 ∨ (never.toNat : Int) ≤ v then raiseFault .operand s.x.x0 s
  else complete .ok (s.setReg 0 (BitVec.ofInt 64 v))

/-! ### Head position -/

/-- `clamp(cyl, 0, DRIVE_TRACKS - 1)` (R103). -/
def State.clampCyl (s : State) (cyl : Int) : Int := min (max cyl 0) ((s.cfg.driveTracks : Int) - 1)

/-- `STEP_TO`, opcode 0x06 (R103). -/
def execStepTo (s : State) : Outcome :=
  match timeOperand s.x.x1 with
  | none => raiseFault .operand 0 s
  | some now =>
    let target : Word32 := BitVec.ofInt 32 (s.clampCyl (signedOperand s.x.x0))
    let s1 := if s.diskPresent then { s with door := false } else s
    complete .ok
      (if target = s.cyl then s1
       else
        { s1.dropCache with
          cyl := target
          seekSound :=
            if s.motor && decide ((seekSoundDelay : Int) < (now : Int) - s.epoch) then true else s.seekSound })

/-- `SET_SIDE`, opcode 0x07 (R105). -/
def execSetSide (s : State) : Outcome :=
  if boolOperand s.x.x0 = s.ss then complete .ok s
  else complete .ok { s.dropCache with ss := boolOperand s.x.x0 }

/-- `GET_LINES`, opcode 0x08 (R106). -/
def execGetLines (s : State) : Outcome :=
  complete .ok
    { ((s.setReg 0 s.linesWord).setReg 1 (ext64 s.cyl)).setReg 2 (bitWord s.ss) with seekSound := false }

/-! ### The fault registers -/

/-- `GET_FAULT`, opcode 0x09 (60_exceptions.md R207). -/
def execGetFault (s : State) : Outcome :=
  complete .ok (((s.setReg 0 (bitWord s.fault)).setReg 1 (s.fcode.setWidth 64)).setReg 2 s.finfo)

end Sys2Proof.Machine
end

