-- ==== Sys2Proof/Machine/Pll.lean ====
section
/-!
DEFINITION. COD: PLL bit recovery and sector extraction (43_pll_extract.md).
-/

namespace Sys2Proof.Machine

/-! ### Bit recovery -/

/-- `next_edge(x)`: the least unrolled position at or after `x` at which a flux transition stands (R161). -/
def nextEdge (Fl : List Nat) (x : Int) : Option Int :=
  let k := x / revUnits
  let r := x % revUnits
  match Fl.find? (fun f : Nat => decide (r ≤ (f : Int))) with
  | some f => some (k * revUnits + f)
  | none => Fl.head?.map (fun f : Nat => (k + 1) * revUnits + (f : Int))

/-- `clamp(x, lo, hi) = min(max(x, lo), hi)` (00_scope.md R9). -/
def clampInt (x lo hi : Int) : Int := min (max x lo) hi

/-- The variables of the PLL loop (R160). -/
structure Pll where
  P : Int
  ph : Int
  cur : Int
  scanned : Int
deriving DecidableEq, Repr

/-- The width of the next window (R160). -/
def Pll.win (p : Pll) : Int := max 1 (p.P + p.ph)

/-- The edge that the next window holds, if any (R160). -/
def Pll.edge (Fl : List Nat) (p : Pll) : Option Int :=
  match nextEdge Fl p.cur with
  | some e => if e < p.cur + p.win then some e else none
  | none => none

/-- One window: the variables after it (R160, R162). -/
def Pll.window (p0 : Nat) (p : Pll) : Option Int → Pll
  | none => { p with ph := 0, cur := p.cur + p.win, scanned := p.scanned + p.win }
  | some e =>
    let delta := e - (p.cur + p.win - p.P / 2)
    { P := clampInt (p.P + (5 * p0 * delta).tdiv (100 * p.P)) (3 * p0 / 4) (5 * p0 / 4)
      ph := (65 * delta).tdiv 100
      cur := p.cur + p.win
      scanned := p.scanned + p.win }

/-- The loop of R160 over at most `n` windows, the bits so far being held last first; none if it has not ended. -/
def pllBits (Fl : List Nat) (p0 : Nat) : Nat → Pll → List Bool → Option (List Bool)
  | 0, _, _ => none
  | n + 1, p, acc =>
    if p.scanned < revUnits then
      pllBits Fl p0 n (p.window p0 (p.edge Fl)) ((p.edge Fl).isSome :: acc)
    else some acc.reverse

/-- `BS` of a track list with its splice (R160). Every window is at least one unit wide, so `REV_UNITS` windows are a bound. -/
def bitstream (L : List Word32) (splice p0 : Nat) : Option (List Bool) :=
  pllBits (posSet (fluxPositions L)) p0 (revUnits + 1) { P := p0, ph := 0, cur := splice, scanned := 0 } []

/-- `GEN_BITSTREAM`, opcode 0x26 (R160). -/
def execGenBitstream (s : State) : Outcome :=
  let c := unsignedOperand s.x.x0
  let h := unsignedOperand s.x.x1
  if !s.diskPresent then complete .noDisk s
  else if !s.inStore c h then raiseFault .trackRange 0 s
  else
    match sizeOperand s.x.x2 with
    | none => raiseFault .operand 0 s
    | some p0 =>
      match bitstream (s.buf c h) (s.trackAt c h).splice.toNat p0 with
      | none => .fault .loopBound
      | some bs => complete .ok ({ s with bs := bs }.setReg 0 (countWord bs.length))

/-! ### Field reads -/

/-- The bit at an index taken modulo the length (R166). -/
def bitAt (bs : List Bool) (q : Nat) : Bool := bs.getD (q % bs.length) false

/-- The number of a list of bits, the first most significant. -/
def bitsNat (l : List Bool) : Nat := l.foldl (fun v b => 2 * v + (if b then 1 else 0)) 0

/-- `W16(q)` (R166). -/
def w16 (bs : List Bool) (q : Nat) : Nat := bitsNat ((List.range 16).map (fun t => bitAt bs (q + t)))

/-- `DB(w)`: the data bits 14, 12, ..., 0 of a 16-bit cell pair word (R166). -/
def dataByte (w : Nat) : Nat := bitsNat ([14, 12, 10, 8, 6, 4, 2, 0].map (fun t => w.testBit t))

/-- `BYTE(q)` (R166). -/
def fieldByte (bs : List Bool) (q : Nat) : Nat := dataByte (w16 bs q)

/-! ### Assembly -/

/-- `WIN_MFM` (R168). -/
def winMfm (dist : Nat) : Bool :=
  (decide (576 ≤ dist) && decide (dist ≤ 832)) || (decide (880 ≤ dist) && decide (dist ≤ 1136))

/-- `WIN_FM` (R171). -/
def winFm (dist : Nat) : Bool := decide (256 ≤ dist) && decide (dist ≤ 512)

/-- The 256 slots of `SECT`. -/
abbrev Slots := Vector (Option (List Byte)) 256

/-- The payload of a sector whose data starts at bit `d`: `128 << (N mod 8)` bytes (R169). -/
def payload (bs : List Bool) (d n : Nat) : List Byte :=
  (List.range (128 * 2 ^ (n % 8))).map (fun j => BitVec.ofNat 8 (fieldByte bs (d + 16 * j)))

/-- One ID field at bit `q` (R169). -/
def assembleId (bs : List Bool) (dams : List Nat) (win : Nat → Bool) (slots : Slots) (q : Nat) : Slots :=
  let r := fieldByte bs (q + 32)
  match dams.find? (fun d => decide (q < d) && win (d - q)) with
  | none => if (slots[r]?.getD none).isNone then slots.setIfInBounds r (some []) else slots
  | some d => slots.setIfInBounds r (some (payload bs d (fieldByte bs (q + 48))))

/-- `ASSEMBLE(ids, dams, WIN)` but for its count (R169). -/
def assemble (bs : List Bool) (ids dams : List Nat) (win : Nat → Bool) : Slots :=
  ids.foldl (assembleId bs dams win) (Vector.replicate 256 none)

/-- The number of slots that are not absent (R169). -/
def slotCount (slots : Slots) : Nat := slots.toList.countP Option.isSome

/-- `SECT` and `X0` after an extraction (R166, R170). -/
def State.withSlots (s : State) (slots : Slots) : State := { s with sect := slots }.setReg 0 (countWord (slotCount slots))

/-! ### The hunts -/

/-- The marks found: the first bits of the ID fields and of the data fields, in order. -/
structure Marks where
  ids : List Nat
  dams : List Nat
deriving DecidableEq, Repr

/-- The 16-bit shift register after one more bit. -/
def shiftIn (sr : Nat) (b : Bool) : Nat := (2 * sr + (if b then 1 else 0)) % 2 ^ 16

/-- The inner `repeat` of R166 over at most `n` words: the first word that is no sync, and the bit after it. -/
def skipSyncs (bs : List Bool) : Nat → Nat → Option (Nat × Nat)
  | 0, _ => none
  | n + 1, pos =>
    let hdr := w16 bs pos
    if hdr ≠ mfmSync ∨ bs.length ≤ pos + 16 then some (hdr, pos + 16) else skipSyncs bs n (pos + 16)

/-- The hunt of R166 over at most `n` bits from bit `i` on; none if a loop has not ended by then. -/
def huntMfm (bs : List Bool) : Nat → Nat → Nat → Marks → Option Marks
  | 0, _, _, _ => none
  | n + 1, i, sr, m =>
    if bs.length ≤ i then some m
    else
      let sr := shiftIn sr (bs.getD i false)
      if sr = mfmSync then
        match skipSyncs bs (bs.length + 1) (i + 1) with
        | none => none
        | some (hdr, pos) =>
          if dataByte hdr = 0xFE then huntMfm bs n pos hdr { m with ids := m.ids ++ [pos] }
          else if dataByte hdr = 0xFB ∨ dataByte hdr = 0xF8 then huntMfm bs n pos hdr { m with dams := m.dams ++ [pos] }
          else huntMfm bs n (i + 1) sr m
      else huntMfm bs n (i + 1) sr m

/-- `EXTRACT_MFM`, opcode 0x27 (R166). -/
def execExtractMfm (s : State) : Outcome :=
  match huntMfm s.bs (s.bs.length + 1) 0 0 { ids := [], dams := [] } with
  | none => .fault .loopBound
  | some m => complete .ok (s.withSlots (assemble s.bs m.ids m.dams winMfm))

/-- The hunt of R170 over the bits from bit `i` on. -/
def huntFm : List Bool → Nat → Nat → Marks → Marks
  | [], _, _, m => m
  | b :: l, i, sr, m =>
    let sr := shiftIn sr b
    let m :=
      if sr = fmIdMark then { m with ids := m.ids ++ [i + 1] }
      else if sr = fmDataMark ∨ sr = fmDeletedMark then { m with dams := m.dams ++ [i + 1] }
      else m
    huntFm l (i + 1) sr m

/-- `EXTRACT_FM`, opcode 0x28 (R170). -/
def execExtractFm (s : State) : Outcome :=
  let m := huntFm s.bs 0 0 { ids := [], dams := [] }
  complete .ok (s.withSlots (assemble s.bs m.ids m.dams winFm))

end Sys2Proof.Machine
end

