-- ==== Sys2Proof/Machine/Seq.lean ====
section
/-!
DEFINITION. SEQ: the next flux transition with weak-bit injection, the read cache, the flux write, the splice and the seed
(41_flux_sequencer.md).
-/

namespace Sys2Proof.Machine

/-! ### Reading -/

/-- The track that SEQ reads (R111). -/
def State.readTrack (s : State) : List Word32 :=
  if s.diskPresent && !s.props.kind && s.inStore s.cyl.toNat s.head then s.buf s.cyl.toNat s.head else []

/-- The event `i` of the track that SEQ reads. -/
def State.readEvent (s : State) (i : Nat) : Word32 := s.readTrack.getD i 0

/-- `tau(k, i)`: the time of event `i` in revolution `k` (R112). -/
def State.tau (s : State) (k : Int) (i : Nat) : Int := s.timeAt k (evPos (s.readEvent i))

/-- The successor of the unrolled event (k, i) in a track of `n` events (R112). -/
def nextEvent (n : Nat) (k : Int) (i : Nat) : Int × Nat := if i + 1 < n then (k, i + 1) else (k + 1, 0)

/-- The greatest index whose position is at most `p`, if any (R112). -/
def lastAtOrBefore (L : List Word32) (p : Nat) : Option Nat :=
  (List.range L.length).reverse.find? (fun i => decide (evPos (L.getD i 0) ≤ p))

/-- The cell that holds the time `f`: the first two lines of `NT(f)` (R112). -/
def State.locate (s : State) (f : Nat) : Int × Nat :=
  match lastAtOrBefore s.readTrack (s.posAt f) with
  | some i => (s.revAt f, i)
  | none => (s.revAt f - 1, s.readTrack.length - 1)

/-- The end time of the cell (k, i). -/
def State.cellEnd (s : State) (k : Int) (i : Nat) : Int :=
  let e := nextEvent s.readTrack.length k i
  s.tau e.1 e.2

/-- `weak(k, i)` (R113). -/
def State.weakCell (s : State) (k : Int) (i : Nat) : Bool :=
  (tagOf (s.readEvent i) == some .nonMagnetized) || (tagOf (s.readEvent i) == some .damaged)
    || decide ((s.cfg.ampFreakout : Int) < s.cellEnd k i - s.tau k i)

/-- The candidate of the sub-window `j` of a cell that starts at `st` (R114). -/
def candidate (st : Int) (j : Nat) : Int := st + j * weakWindow + weakOffset

/-- The first candidate of the cell (k, i) that is after `f` and taken by the hash (R112, the inner loop). -/
def State.weakTransition (s : State) (f : Nat) (k : Int) (i : Nat) : Option Int :=
  let st := s.tau k i
  let e := s.cellEnd k i
  ((List.range ((e - st).toNat / weakWindow + 1)).find? (fun j =>
    decide (candidate st j < e) && decide ((f : Int) < candidate st j) && Config.weakHash s.seed k i j)).map
    (candidate st)

/-- The loop of `NT(f)` (R112), over at most `n` cells; none if it has not ended by then. -/
def State.walk (s : State) (f : Nat) : Nat → Int → Nat → Option Int
  | 0, _, _ => none
  | n + 1, k, i =>
    match if s.weakCell k i then s.weakTransition f k i else none with
    | some w => some w
    | none =>
      let e := nextEvent s.readTrack.length k i
      if (tagOf (s.readEvent e.2) == some .flux) && decide ((f : Int) < s.cellEnd k i) then some (s.cellEnd k i)
      else s.walk f n e.1 e.2

/-- R111: the case in which `NT(f)` is not `NEVER`. -/
def State.readable (s : State) : Bool := s.motor && hasTag .flux s.readTrack

/-- `NT(f)` where R111 does not give `NEVER`. The walk ends within one revolution plus one cell (R112), for which three
revolutions of cells are a bound. -/
def State.nextTransition (s : State) (f : Nat) : Option Int :=
  let start := s.locate f
  s.walk f (3 * s.readTrack.length + 3) start.1 start.2

/-- The read must refill the cache (R115). -/
def State.mustRefill (s : State) (f : Word64) : Bool :=
  !s.cache.valid || decide (f < s.cache.start) || decide (s.cache.stop ≤ f)

/-- The cache after a fill for `f` (R115); the registers that the fill of a `NEVER` does not name keep their values (log entry 19). -/
def State.filledCache (s : State) (f : Nat) : Cache :=
  if s.readable then
    let cell := s.locate f
    { valid := true
      start := u64Of .cacheStart (s.tau cell.1 cell.2)
      stop := u64Of .cacheEnd (s.cellEnd cell.1 cell.2)
      event := s.readEvent cell.2
      index := BitVec.ofNat 32 cell.2
      rev := u64Of .cacheRev cell.1
      weak := s.weakCell cell.1 cell.2
      weakStart := u64Of .cacheWeakStart (s.tau cell.1 cell.2) }
  else { s.cache with start := 0, stop := never, weak := false, valid := true }

/-- The cache after a read at `f`: filled where it must be, and where it need not be as the implementation likes (R115). -/
def State.cacheAfterRead (s : State) (f : Word64) : Cache :=
  if s.mustRefill f || Config.refillsOnHit f s.cache.start s.cache.stop then s.filledCache f.toNat else s.cache

/-- `GET_NEXT_TRANSITION`, opcode 0x10 (R110). -/
def execGetNextTransition (s : State) : Outcome :=
  match timeOperand s.x.x0 with
  | none => raiseFault .operand 0 s
  | some f =>
    if s.readable then
      match s.nextTransition f with
      | none => .fault .loopBound
      | some e => complete .ok { s.setReg 0 (u64After .nextTransition f e) with cache := s.cacheAfterRead s.x.x0 }
    else complete .ok { s.setReg 0 never with cache := s.cacheAfterRead s.x.x0 }

/-! ### Writing -/

/-- A span of a write: the positions `[ps, pe)`, and the accumulated angle of `ps`'s revolution start. -/
structure Span where
  base : Int
  ps : Nat
  pe : Nat
deriving DecidableEq, Repr

/-- The spans of the accumulated angles `a .. b` (R120). R120 gives them for `a < b`; below 300 rpm `start < end` can give
`a = b`, and neither R119 nor R120 says what then happens. DESIGN CHOICE: the one span of R120's first case, which is then
empty (log entry 23). -/
def splitSpans (a b : Int) : List Span :=
  let base := a / revUnits * revUnits
  let m := base + revUnits
  let ps := (a % revUnits).toNat
  if b ≤ m then [{ base := base, ps := ps, pe := ps + (b - a).toNat }]
  else [{ base := base, ps := ps, pe := revUnits }, { base := m, ps := 0, pe := (b - m).toNat }]

/-- `clip(ps, pe, L)` over the damaged zones in increasing order (R121). -/
def clipZones : List Zone → Nat → Nat → List (Nat × Nat)
  | [], ps, pe => if ps < pe then [(ps, pe)] else []
  | z :: Z, ps, pe =>
    if z.z2 < ps ∨ pe ≤ z.z1 then clipZones Z ps pe
    else (if ps < z.z1 then [(ps, z.z1)] else []) ++ clipZones Z (z.z2 + 1) pe

/-- The damaged zones of a track list. -/
def damagedZones (L : List Word32) : List Zone := (zonesOf L).filter (fun z => z.tag == .damaged)

/-- `clip(ps, pe, L)` (R121). -/
def clip (ps pe : Nat) (L : List Word32) : List (Nat × Nat) := clipZones (damagedZones L) ps pe

/-- `Tq`: the positions in `[qs, qe)` of the transition angles that lie in the span (R119). -/
def transitionsIn (sp : Span) (angles : List Int) (qs qe : Nat) : List Nat :=
  posSet
    ((angles.filter (fun u =>
      decide (sp.base + qs ≤ u) && decide (u < sp.base + qe))).map (fun u => (u - sp.base).toNat))

/-- The pieces of a `NonMagnetized` zone that a write to `[qs, qe)` leaves; a `Damaged` zone is untouched (R122). -/
def cutZone (qs qe : Nat) (z : Zone) : List Zone :=
  if z.tag = .nonMagnetized ∧ z.z1 < qe ∧ qs ≤ z.z2 then
    (if z.z1 + 1 < qs then [{ z with z2 := qs - 1 }] else []) ++ (if qe < z.z2 then [{ z with z1 := qe }] else [])
  else [z]

/-- R123: with `old` transitions before, `q = qe - 1` is toggled in `Tq` when the parity would change. It is the last
position of the span, so an added `q` stands last. -/
def parityToggle (old qe : Nat) (Tq : List Nat) : List Nat :=
  if (old + Tq.length) % 2 = 0 then Tq
  else if (qe - 1) ∈ Tq then Tq.filter (fun p => decide (p ≠ qe - 1))
  else Tq ++ [qe - 1]

/-- `replace(L, qs, qe, Tq)` (R122 to R124). -/
def replaceSpan (L : List Word32) (qs qe : Nat) (Tq : List Nat) : List Word32 :=
  let F := fluxPositions L
  let old := (F.filter (fun p => decide (qs ≤ p) && decide (p < qe))).length
  encodeTrack ((zonesOf L).flatMap (cutZone qs qe))
    (F.filter (fun p => decide (p < qs)) ++ parityToggle old qe Tq ++ F.filter (fun p => decide (qe ≤ p)))

/-- The list after the sub-spans of one span are replaced, in increasing order (R119). -/
def writeSpan (angles : List Int) (L : List Word32) (sp : Span) : List Word32 :=
  (clip sp.ps sp.pe L).foldl (fun L q => replaceSpan L q.1 q.2 (transitionsIn sp angles q.1 q.2)) L

/-- The list after every span of the write from angle `a` to angle `b` is replaced (R119). -/
def writeSpans (angles : List Int) (a b : Int) (L : List Word32) : List Word32 :=
  (splitSpans a b).foldl (writeSpan angles) L

/-- R119: the cases in which `WRITE_FLUX` does nothing. -/
def State.writeIgnored (s : State) (start stop : Nat) : Bool :=
  !s.motor || !s.diskPresent || s.wp || s.props.kind || !s.inStore s.cyl.toNat s.head || decide (stop ≤ start)

/-- The accumulated angles of the transition times in `[start, end)` (R119). -/
def State.writeAngles (s : State) (start stop : Nat) : List Int :=
  (s.trn.filter (fun t => decide (start ≤ t.toNat) && decide (t.toNat < stop))).map (fun t => s.angleAt t.toNat)

/-- The track under the head after the write of `[start, end)` (R119). -/
def State.writtenTrack (s : State) (start stop : Nat) : List Word32 :=
  writeSpans (s.writeAngles start stop) (s.angleAt start) (s.angleAt stop) (s.buf s.cyl.toNat s.head)

/-- `WRITE_FLUX`, opcode 0x11 (R119). -/
def execWriteFlux (s : State) : Outcome :=
  match timeOperand s.x.x0, timeOperand s.x.x1 with
  | some start, some stop =>
    if s.writeIgnored start stop then complete .ignored s
    else if (revUnits : Int) < s.angleAt stop - s.angleAt start then raiseFault .operand s.x.x1 s
    else
      let c := s.cyl.toNat
      let L := s.writtenTrack start stop
      if L = s.buf c s.head then complete .ok s.dropCache
      else complete .ok (s.writeTrack c s.head L (s.trackAt c s.head).splice.toNat).markDirty.dropCache
  | _, _ => raiseFault .operand 0 s

/-! ### Splice and seed -/

/-- `SET_WRITE_SPLICE`, opcode 0x12 (R127). -/
def execSetWriteSplice (s : State) : Outcome :=
  match timeOperand s.x.x0 with
  | none => raiseFault .operand 0 s
  | some t =>
    if !s.motor || !s.diskPresent || !s.inStore s.cyl.toNat s.head then complete .ignored s
    else complete .ok (s.writeSplice s.cyl.toNat s.head (s.posAt t)).markDirty

/-- `SET_SEED`, opcode 0x13 (R128). -/
def execSetSeed (s : State) : Outcome := complete .ok { s.dropCache with seed := s.x.x0 }

end Sys2Proof.Machine
end

