-- ==== Sys2Proof/Machine/Dispatch.lean ====
section
/-!
DEFINITION. One arm for each instruction: a direct call of its meaning.
-/

namespace Sys2Proof.Machine

def exec (i : Instr) (s : State) : Host.Outcome State Fault Refusal :=
  match i with
  | .setMotor => Sys2Proof.Machine.execSetMotor s
  | .indexResync => Sys2Proof.Machine.execIndexResync s
  | .timeNextIndex => Sys2Proof.Machine.execTimeNextIndex s
  | .phaseOf => Sys2Proof.Machine.execPhaseOf s
  | .timeOf => Sys2Proof.Machine.execTimeOf s
  | .stepTo => Sys2Proof.Machine.execStepTo s
  | .setSide => Sys2Proof.Machine.execSetSide s
  | .getLines => Sys2Proof.Machine.execGetLines s
  | .getFault => Sys2Proof.Machine.execGetFault s
  | .getNextTransition => Sys2Proof.Machine.execGetNextTransition s
  | .writeFlux => Sys2Proof.Machine.execWriteFlux s
  | .setWriteSplice => Sys2Proof.Machine.execSetWriteSplice s
  | .setSeed => Sys2Proof.Machine.execSetSeed s
  | .clClear => Sys2Proof.Machine.execClClear s
  | .rawW => Sys2Proof.Machine.execRawW s
  | .fmW => Sys2Proof.Machine.execFmW s
  | .mfmW => Sys2Proof.Machine.execMfmW s
  | .genTrack => Sys2Proof.Machine.execGenTrack s
  | .genFromCells => Sys2Proof.Machine.execGenFromCells s
  | .genBitstream => Sys2Proof.Machine.execGenBitstream s
  | .extractMfm => Sys2Proof.Machine.execExtractMfm s
  | .extractFm => Sys2Proof.Machine.execExtractFm s
  | .buildPcMfm => Sys2Proof.Machine.execBuildPcMfm s
  | .buildPcFm => Sys2Proof.Machine.execBuildPcFm s
  | .crcCells => Sys2Proof.Machine.execCrcCells s
  | .crcBytes => Sys2Proof.Machine.execCrcBytes s
  | .insert => Sys2Proof.Machine.execInsert s
  | .eject => Sys2Proof.Machine.execEject s
  | .getBuffer => Sys2Proof.Machine.execGetBuffer s
  | .putBuffer => Sys2Proof.Machine.execPutBuffer s
  | .resizeTracks => Sys2Proof.Machine.execResizeTracks s
  | .trackIsFormatted => Sys2Proof.Machine.execTrackIsFormatted s
  | .actualGeometry => Sys2Proof.Machine.execActualGeometry s
  | .readSector => Sys2Proof.Machine.execReadSector s
  | .writeSector => Sys2Proof.Machine.execWriteSector s
  | .saveState => Sys2Proof.Machine.execSaveState s
  | .loadState => Sys2Proof.Machine.execLoadState s
  | .setWp => Sys2Proof.Machine.execSetWp s
  | .pollChanged => Sys2Proof.Machine.execPollChanged s
  | .getFlags => Sys2Proof.Machine.execGetFlags s
  | .clearDirty => Sys2Proof.Machine.execClearDirty s
  | .getProps => Sys2Proof.Machine.execGetProps s
  | .endDesc => Sys2Proof.Machine.execEndDesc s
  | .fm byte count => Sys2Proof.Machine.execFm byte count s
  | .mfm byte count => Sys2Proof.Machine.execMfm byte count s
  | .raw pattern count => Sys2Proof.Machine.execRaw pattern count s
  | .trackId => Sys2Proof.Machine.execTrackId s
  | .trackIdFm => Sys2Proof.Machine.execTrackIdFm s
  | .headId => Sys2Proof.Machine.execHeadId s
  | .headIdFm => Sys2Proof.Machine.execHeadIdFm s
  | .sectorId => Sys2Proof.Machine.execSectorId s
  | .sectorIdFm => Sys2Proof.Machine.execSectorIdFm s
  | .sizeId => Sys2Proof.Machine.execSizeId s
  | .sizeIdFm => Sys2Proof.Machine.execSizeIdFm s
  | .crcCcittStart region => Sys2Proof.Machine.execCrcCcittStart region s
  | .crcCcittFmStart region => Sys2Proof.Machine.execCrcCcittFmStart region s
  | .crcEnd region => Sys2Proof.Machine.execCrcEnd region s
  | .crc region => Sys2Proof.Machine.execCrc region s
  | .sectorLoopStart first last => Sys2Proof.Machine.execSectorLoopStart first last s
  | .sectorLoopEnd => Sys2Proof.Machine.execSectorLoopEnd s
  | .sectorData => Sys2Proof.Machine.execSectorData s
  | .sectorDataFm => Sys2Proof.Machine.execSectorDataFm s
  | .sectorInterleaveSkip il sk => Sys2Proof.Machine.execSectorInterleaveSkip il sk s

end Sys2Proof.Machine
end

