-- ==== Sys2Proof/Machine/Issue.lean ====
section
/-!
DEFINITION. How an instruction comes to run: the host's inputs, the decoding procedure of 30_encoding.md R85, the index timer
(40_phase.md R96) and the fetch of a descriptor element (42_codec.md R137).
-/

namespace Sys2Proof.Machine

/-- A refused command word: `ST <- REFUSED` and nothing else (60_exceptions.md R205). -/
def refuseWord (s : State) : Outcome := complete .refused s

/-! ### The index timer -/

/-- The timer's `INDEX_RESYNC` with `now = IDX_TIMER` (40_phase.md R96). -/
def State.timerFires (s : State) : State := (s.resync s.idxTimer.toNat).withStatus .ok

/-- The `now` of a command that carries one (00_scope.md R15): the operand that 40_phase.md calls `now`, and of the three SEQ
commands that 70_reset_and_hazards.md R217 step 9 gives a `now`, their first time operand (log entry 9). -/
def commandNow (i : Instr) (s : State) : Option Word64 :=
  if i = .setMotor ∨ i = .stepTo then some s.x.x1
  else if i = .indexResync ∨ i = .timeNextIndex ∨ i = .getNextTransition ∨ i = .writeFlux ∨ i = .setWriteSplice then
    some s.x.x0
  else none

/-- The timer is armed, and no command has gone past its time: it can still fire (R96; 70_reset_and_hazards.md R221). -/
def State.timerPending (s : State) : Bool := decide (s.idxTimer ≠ never) && !s.timerMissed

/-- The host goes past a pending timer: its edge is "lost, never emitted later" (93_implementation_defined.md U27). -/
def State.missTimer (s : State) : State := { s with timerMissed := true }

/-- What comes of a pending timer when the host issues the command `i`. "If the host issues a command carrying the same `now`, the timer's
resync runs first" (R96; 60_exceptions.md R203); at a later `now` the timer is missed (70_reset_and_hazards.md R221). `NEVER` is no time
(log entry 24). -/
def timerFirst (i : Instr) (s : State) : State :=
  match commandNow i s with
  | none => s
  | some now =>
    if s.timerPending = false ∨ now = never then s
    else if now = s.idxTimer then s.timerFires
    else if s.idxTimer < now then s.missTimer
    else s

/-- The timer reaches its time: it performs `INDEX_RESYNC` while it is armed (R96), but for a time that the host has already gone past
(R221). While `FAULT = 1` that command is refused like every other (10_state.md R40; log entry 9). -/
def timerInput (s : State) : Outcome :=
  if s.timerPending = false then .next s
  else if s.fault then refuseWord s
  else .next s.timerFires

/-! ### The host -/

/-- The decoding procedure of R85: an illegal word is refused, then any command but `GET_FAULT` while `FAULT = 1`, else the
command runs. -/
def acceptWord (w : Word32) (s : State) : Outcome :=
  match decodeWord w with
  | .error _ => refuseWord s
  | .ok i => if s.fault = true ∧ i ≠ .getFault then refuseWord s else exec i (timerFirst i s)

/-- The power-on reset: every piece of state but the parameters, what the host has still to issue and what it has been told
(70_reset_and_hazards.md R215, R216; log entry 16). -/
def State.powerOn (s : State) : State := { State.resetWith s.cfg with inbox := s.inbox, edges := s.edges }

/-- One input from outside (00_scope.md R14, 20_memory.md R51). -/
def hostInput (ev : HostInput) (s : State) : Outcome :=
  match ev with
  | .word w => acceptWord w s
  | .writeX i v => .next (s.setReg i v)
  | .loadCl l => .next { s with cl := l }
  | .loadBs l => .next { s with bs := l }
  | .loadSect slots => .next { s with sect := slots }
  | .loadDesc l => .next { s with desc := l }
  | .loadSdl l => .next { s with sdl := l }
  | .loadTl l => .next { s with tl := l }
  | .loadTrn l => .next { s with trn := l }
  | .loadBytes l => .next { s with bytes := l }
  | .loadCkp l => .next { s with ckp := l }
  | .timer => timerInput s
  | .reset => .next s.powerOn

/-! ### The descriptor interpreter -/

/-- One element of the running descriptor program: `el <- DESC[DPC]`, executed (R137). -/
def elementStep (g : Interp) (s : State) : Outcome :=
  match s.desc[g.dpc]? with
  | none => raiseFault .bounds 0 { s with gen := none }
  | some e =>
    match decodeElem e with
    | .error _ => raiseFault .desc 0 { s with gen := none }
    | .ok i => exec i s

/-- One step of the machine: an element where a descriptor program is being stepped, else the next input of the host; a machine
with no input waits. -/
def nextStep (s : State) : Outcome :=
  match s.gen with
  | some g => elementStep g s
  | none =>
    match s.inbox with
    | [] => .next s
    | ev :: rest => hostInput ev { s with inbox := rest }

/-- A code stored where the next step takes it: a command word as the host's next input, a descriptor element as the whole of
`DESC` under an interpreter that has just been started (log entry 5). -/
def State.place (s : State) (code : Code) : State :=
  match code with
  | .word w => { s with gen := none, inbox := .word w :: s.inbox }
  | .elem e => { s with gen := some (startInterp 0 0 0 cellSizeDefault), desc := [e] }

end Sys2Proof.Machine
end

