-- ==== Sys2Proof/Machine/Step.lean ====
section
/-!
DEFINITION. The step of the machine, and the placing of an instruction where the next step takes it.
-/

namespace Sys2Proof.Machine

/-- One step. -/
def step (s : State) : Host.Outcome State Fault Refusal := nextStep s

/-- The state in which the next step runs the opcode-table row of `nbits` bits whose bits are `w`. -/
def State.withFetchWord (s : State) (nbits w : Nat) : State := s.place (codeOfBits nbits w)

end Sys2Proof.Machine
end

