-- ==== Sys2Proof/Safety.lean ====
section
/-!
DEFINITION. The terms that statements about FLX use: the invariant of the machine, an outcome without its cache, what a flux transition
of the drive's read channel is, a run of a descriptor program, the layout of a built track, the marks and sectors of a bit stream, and the
bytes of a checkpoint.
-/

namespace Sys2Proof.Machine

/-- What every entry of the track store keeps (10_state.md R34, R35, R44; 45_cell_buffer.md R187): the list is WF, the splice is
below `REV_UNITS`, the flag agrees with the list, and the address is that of an allocated track. -/
def trackOk (s : State) (e : Nat × Track) : Prop :=
  wfTrack e.2.events = true ∧ e.2.splice.toNat < revUnits ∧ e.2.hasDamaged = hasTag .damaged e.2.events
    ∧ keyCyl e.1 < s.allocTracks.toNat ∧ keyHead e.1 < s.allocSides.toNat

/-- The number of bytes of `RAWSEC` (10_state.md R46). -/
def State.rawSize (s : State) : Nat :=
  if s.props.kind then
    s.props.tracks.toNat * s.props.sides.toNat * s.props.spt.toNat * s.props.secsize.toNat
  else 0

/-- The empty values of 10_state.md R31. -/
def State.holdsNoDisk (s : State) : Prop :=
  s.props = Props.none ∧ s.allocTracks = 0 ∧ s.allocSides = 0 ∧ s.trk = [] ∧ s.wp = false ∧ s.dirtyLoad = false
    ∧ s.dirtyRestore = false ∧ s.rawsec = []

/-- The invariant of the machine: that of 10_state.md R44, with what R31, R35, R46 and 45_cell_buffer.md R187 say of the store, what
40_phase.md R91 says of the index line, what 60_exceptions.md R201 says of `FCODE`, the canonical form of the model's two memories, and
the legality of the parameters. -/
structure Inv (s : State) : Prop where
  params : s.cfg.legal = true
  memory : Memory.wf s = true
  tracks : ∀ e ∈ s.trk, trackOk s e
  cylinder : s.cyl.toNat < s.cfg.driveTracks
  ready : s.ready = true → s.motor = true ∧ s.readyCnt = 0
  readyCount : s.readyCnt.toNat ≤ 2
  timer : s.motor = false ∨ s.diskPresent = false → s.idxTimer = never
  index : s.idx = true → s.motor = true ∧ s.diskPresent = true
  noDisk : s.diskPresent = false → s.holdsNoDisk
  sides : s.diskPresent = true → s.allocSides = s.props.sides ∧ (s.props.sides = 1 ∨ s.props.sides = 2)
  extent : s.props.tracks.toNat ≤ s.allocTracks.toNat
  rawsec : ∀ e ∈ s.rawsec, e.1 < s.rawSize
  noFault : s.fault = false → s.fcode = 0 ∧ s.finfo = 0
  faultCode : s.fault = true → 1 ≤ s.fcode.toNat ∧ s.fcode.toNat ≤ 6

/-- Every piece of state is as 70_reset_and_hazards.md R215 says, `SEED0` being the parameter's value; `inbox` and `edges`, which are the
model's own, are not asked about. -/
structure AtReset (s : State) : Prop where
  operands : s.x = { x0 := 0, x1 := 0, x2 := 0, x3 := 0, x4 := 0, x5 := 0, x6 := 0, x7 := 0 }
  status : s.st = 0x00
  motor : s.motor = false
  epoch : s.t0 = 0 ∧ s.revCount = 0 ∧ s.revStart = 0
  index : s.idx = false ∧ s.idxTimer = 0xFFFFFFFFFFFFFFFF#64
  ready : s.ready = false ∧ s.readyCnt = 0
  head : s.cyl = 0 ∧ s.ss = false
  lines : s.seekSound = false ∧ s.door = true
  cache : s.cache = { valid := false, start := 0, stop := 0, event := 0, index := 0, rev := 0, weak := false, weakStart := 0 }
  seed : s.seed = s.cfg.seed0
  disk : s.diskPresent = false ∧ s.holdsNoDisk
  changed : s.imgChanged = false
  fault : s.fault = false ∧ s.fcode = 0 ∧ s.finfo = 0
  scratch : s.cl = [] ∧ s.bs = [] ∧ s.desc = [] ∧ s.sdl = [] ∧ s.tl = [] ∧ s.trn = [] ∧ s.bytes = [] ∧ s.ckp = []
  slots : ∀ i : Fin 256, s.sect[i] = none
  interpreter : s.gen = none

/-- The outcome is a next state. -/
def Goes (o : Outcome) : Prop := ∃ t, o = .next t

/-- The outcome with the cache registers, which are invisible (10_state.md R27), put at one value. -/
def forgetCache : Outcome → Outcome
  | .next t => .next { t with cache := Cache.reset }
  | .fault r => .fault r
  | .refused r => .refused r

/-- A flux transition that the read channel shows at the time `e` (41_flux_sequencer.md R112 to R114): a `Flux` event of some
revolution, or a candidate of a weak cell that lies before the cell's end and that the hash takes. -/
def State.transitionAt (s : State) (e : Int) : Prop :=
  (∃ (k : Int) (i : Nat), i < s.readTrack.length ∧ tagOf (s.readEvent i) = some .flux ∧ s.tau k i = e)
    ∨ ∃ (k : Int) (i j : Nat), i < s.readTrack.length ∧ s.weakCell k i = true ∧ candidate (s.tau k i) j = e
        ∧ e < s.cellEnd k i ∧ Config.weakHash s.seed k i j = true

/-- The descriptor program runs from the interpreter `g` to the interpreter `g'` that leaves the loop at `END`
(42_codec.md R137): each element but the last one goes on. -/
inductive ProgramRuns (desc : List DescElem) (sdl : List SectorDesc) : Interp → Interp → Prop
  | last (g g' : Interp) : fetchElement desc sdl g = .done g' → ProgramRuns desc sdl g g'
  | more (g g₁ g' : Interp) : fetchElement desc sdl g = .run g₁ → ProgramRuns desc sdl g₁ g' → ProgramRuns desc sdl g g'

/-! ### The layout of a built track (42_codec.md R150, R152) -/

/-- A unit of sixteen cells that a builder writes: a byte, or a raw mark. -/
inductive TrackItem where
  | byte (b : Byte)
  | mark (pattern : BitVec 16)
deriving DecidableEq, Repr

/-- The cells from cell `16 * q` on are those of an item, each 1000 units long, as far as the list goes: the pattern of a mark; of a byte,
its bits from the most significant on, each after its clock, which is 1 in FM and NOT (previous OR current) in MFM
(42_codec.md R134 to R136). -/
def HoldsItem (enc : Encoding) (cl : List Word32) (q : Nat) : TrackItem → Prop
  | .mark pattern => ∀ j : Nat, j < 16 → 16 * q + j < cl.length → cl[16 * q + j]? = some (bitCell (pattern.getMsbD j) 1000)
  | .byte b => ∀ (j : Nat) (previous clock : Bool), j < 8 →
      previous = (decide (0 < 16 * q + 2 * j) && decide (cl[16 * q + 2 * j - 1]? = some (bitCell true 1000))) →
      clock = (match enc with
               | .fm => true
               | .mfm => !(previous || b.getMsbD j)) →
      (16 * q + 2 * j < cl.length → cl[16 * q + 2 * j]? = some (bitCell clock 1000))
        ∧ (16 * q + 2 * j + 1 < cl.length → cl[16 * q + 2 * j + 1]? = some (bitCell (b.getMsbD j) 1000))

/-- `n` times the byte `b`. -/
def gapItems (n : Nat) (b : Byte) : List TrackItem := List.replicate n (.byte b)

/-- The two CRC bytes of a region whose bytes are `bytes`, high byte first, complemented where `bad`. A raw mark counts as its byte
(44_crc.md R179). -/
def crcItems (bad : Bool) (bytes : List Byte) : List TrackItem :=
  let crc := if bad then ~~~(crcOfBytes bytes) else crcOfBytes bytes
  [.byte (crc.extractLsb' 8 8), .byte (crc.extractLsb' 0 8)]

/-- The C, H, R and N bytes of a record's ID field. -/
def recordId (r : SectorDesc) : List Byte :=
  [BitVec.ofNat 8 r.track, BitVec.ofNat 8 r.head, BitVec.ofNat 8 r.sector, BitVec.ofNat 8 r.size]

/-- The filler byte of a built track. -/
def fillByte : Encoding → Byte
  | .mfm => 0x4E
  | .fm => 0xFF

/-- One sector with its gap3 (R150, R152). -/
def sectorItems (enc : Encoding) (gap2 gap3 : Nat) (r : SectorDesc) : List TrackItem :=
  match enc with
  | .mfm =>
    gapItems 12 0x00 ++ List.replicate 3 (.mark 0x4489) ++ ((0xFE :: recordId r).map .byte)
      ++ crcItems false (0xA1 :: 0xA1 :: 0xA1 :: 0xFE :: recordId r)
      ++ gapItems gap2 0x4E ++ gapItems 12 0x00 ++ List.replicate 3 (.mark 0x4489)
      ++ (((if r.deleted then 0xF8 else 0xFB) :: r.data).map .byte)
      ++ crcItems r.badCrc (0xA1 :: 0xA1 :: 0xA1 :: (if r.deleted then 0xF8 else 0xFB) :: r.data) ++ gapItems gap3 0x4E
  | .fm =>
    gapItems 6 0x00 ++ [.mark 0xF57E] ++ ((recordId r).map .byte) ++ crcItems false (0xFE :: recordId r)
      ++ gapItems gap2 0xFF ++ gapItems 6 0x00 ++ [.mark (if r.deleted then 0xF56A else 0xF56F)] ++ (r.data.map .byte)
      ++ crcItems r.badCrc ((if r.deleted then 0xF8 else 0xFB) :: r.data) ++ gapItems gap3 0xFF

/-- The whole track before its gap4b (R150, R152). -/
def trackItems (enc : Encoding) (noIam : Bool) (gap4a gap1 gap2 gap3 : Nat) (sdl : List SectorDesc) : List TrackItem :=
  match enc with
  | .mfm =>
    gapItems gap4a 0x4E ++ gapItems 12 0x00
      ++ (if noIam then [] else List.replicate 3 (.mark 0x5224) ++ [.byte 0xFC]) ++ gapItems gap1 0x4E
      ++ sdl.flatMap (sectorItems .mfm gap2 gap3)
  | .fm =>
    gapItems gap4a 0xFF ++ gapItems 6 0x00 ++ (if noIam then [] else [.mark 0xF77A]) ++ gapItems gap1 0xFF
      ++ sdl.flatMap (sectorItems .fm gap2 gap3)

/-! ### The marks and sectors of a bit stream (43_pll_extract.md R166 to R171) -/

/-- `W16(q)`: sixteen bits from bit `q` on, every index modulo the length, the first bit most significant (R166). -/
def streamWord (bs : List Bool) (q : Nat) : Nat :=
  ((List.range 16).map (fun j => if bs.getD ((q + j) % bs.length) false then 2 ^ (15 - j) else 0)).sum

/-- `BYTE(q)`: the bits `q + 1`, `q + 3`, ..., `q + 15`, every index modulo the length, the first bit most significant (R166). -/
def streamByte (bs : List Bool) (q : Nat) : Nat :=
  ((List.range 8).map (fun j => if bs.getD ((q + 2 * j + 1) % bs.length) false then 2 ^ (7 - j) else 0)).sum

/-- The sixteen bits that end at bit `i`, the bits before the stream being 0: what the shift register of a hunt holds (R166, R170). -/
def windowWord (bs : List Bool) (i : Nat) : Nat :=
  ((List.range 16).map (fun j => if decide (j ≤ i) && bs.getD (i - j) false then 2 ^ j else 0)).sum

/-- An MFM sync word ends at bit `i`, the run of syncs it opens is passed over, and the word after the run, which ends before bit `q`, holds
the byte `v` (R166, R167). -/
def SyncMark (bs : List Bool) (i q v : Nat) : Prop :=
  i < bs.length ∧ windowWord bs i = 0x4489
    ∧ ∃ k : Nat, q = i + 17 + 16 * k ∧ v = streamByte bs (i + 1 + 16 * k)
      ∧ (∀ j : Nat, j < k → streamWord bs (i + 1 + 16 * j) = 0x4489 ∧ i + 17 + 16 * j < bs.length)
      ∧ (streamWord bs (i + 1 + 16 * k) ≠ 0x4489 ∨ bs.length ≤ q)

/-- The MFM hunt from bit `i` on finds the ID fields `ids` and the data fields `dams`: after a mark it goes on at the field, else at the next
bit (R166, R167). -/
inductive MfmHunt (bs : List Bool) : Nat → List Nat → List Nat → Prop
  | stop (i : Nat) : bs.length ≤ i → MfmHunt bs i [] []
  | pass (i : Nat) (ids dams : List Nat) : i < bs.length →
      (∀ q v : Nat, SyncMark bs i q v → v ≠ 0xFE ∧ v ≠ 0xFB ∧ v ≠ 0xF8) → MfmHunt bs (i + 1) ids dams → MfmHunt bs i ids dams
  | idMark (i q : Nat) (ids dams : List Nat) : SyncMark bs i q 0xFE → MfmHunt bs q ids dams → MfmHunt bs i (q :: ids) dams
  | dataMark (i q v : Nat) (ids dams : List Nat) : SyncMark bs i q v → v = 0xFB ∨ v = 0xF8 → MfmHunt bs q ids dams →
      MfmHunt bs i ids (q :: dams)

/-- What slot `k` holds after `ASSEMBLE(ids, dams, WIN)`: the payload of the last ID field of that sector that has a data mark, the first
in the window; the empty string where none of its ID fields has one; absent where it has no ID field (R169). -/
def slotOf (bs : List Bool) (ids dams : List Nat) (win : Nat → Bool) (k : Nat) : Option (List Byte) :=
  let fields := ids.filter (fun q => decide (streamByte bs (q + 32) = k))
  let payloads := fields.filterMap fun q =>
    (dams.find? (fun d => decide (q < d) && win (d - q))).map fun d =>
      (List.range (128 * 2 ^ (streamByte bs (q + 48) % 8))).map (fun j => BitVec.ofNat 8 (streamByte bs (d + 16 * j)))
  if fields = [] then none else some (payloads.getLast?.getD [])

/-! ### The bytes of a checkpoint (45_cell_buffer.md R195) -/

/-- `u32le` (20_memory.md R54). -/
def u32Bytes (w : Word32) : List Byte :=
  [w.extractLsb' 0 8, w.extractLsb' 8 8, w.extractLsb' 16 8, w.extractLsb' 24 8]

/-- `u64le` (20_memory.md R54). -/
def u64Bytes (w : Word64) : List Byte :=
  [w.extractLsb' 0 8, w.extractLsb' 8 8, w.extractLsb' 16 8, w.extractLsb' 24 8, w.extractLsb' 32 8, w.extractLsb' 40 8,
    w.extractLsb' 48 8, w.extractLsb' 56 8]

/-- The record of one track (R195). -/
def recordBytes (t : Track) : List Byte :=
  u64Bytes (BitVec.ofNat 64 t.events.length) ++ t.events.flatMap u32Bytes ++ u32Bytes t.splice ++ [if t.hasDamaged then 1 else 0]

/-- The stream of the flag `DIRTY_LOAD` and the tracks in row-major order (R195). -/
def streamBytes (dirty : Bool) (tracks : List Track) : List Byte := (if dirty then 1 else 0) :: tracks.flatMap recordBytes

/-- A track that `LOAD_STATE` accepts (R197). -/
def Track.good (t : Track) : Prop :=
  wfTrack t.events = true ∧ t.splice.toNat < revUnits ∧ t.hasDamaged = hasTag .damaged t.events

end Sys2Proof.Machine
end

