-- ==== Sys2Proof/Certificates/Slice0/Obligations.lean ====
section
/-!
DEFINITION. The statements for the provers. Each docstring says which rule of spec/ the statement formalises.
-/

open Sys2Proof Sys2Proof.Machine

/-! ### Encoding -/

/-- 30_encoding.md R76 to R79: decoding what the encoder writes gives the instruction back, for every instruction and every value of
its parameters. -/
def Obligations.DecodeEncode : Prop :=
  ∀ i : Instr, i.wellFormed = true → decode (encode i) = .ok i

/-- R77, R79: a command word that decodes is the word of the command it decodes to, so no two words are one command; and a descriptor
element decodes to an instruction of its own op. -/
def Obligations.EncodeDecode : Prop :=
  (∀ (w : Word32) (i : Instr), decodeWord w = .ok i → i.isCommand = true ∧ encode i = .word w)
    ∧ ∀ (e : DescElem) (i : Instr), decodeElem e = .ok i →
        i.isCommand = false ∧ ∃ p1 p2 : Word32, encode i = .elem { op := e.op, p1 := p1, p2 := p2 }

/-- A few words written out from the tables of R77 and R79 (a sanity statement). -/
def Obligations.SampleWordsDecode : Prop :=
  decodeWord 0x00000001#32 = .ok .setMotor ∧ decodeWord 0x00000009#32 = .ok .getFault
    ∧ decodeWord 0x00000010#32 = .ok .getNextTransition ∧ decodeWord 0x00000024#32 = .ok .genTrack
    ∧ decodeWord 0x00000030#32 = .ok .crcCells ∧ decodeWord 0x0000004F#32 = .ok .getProps
    ∧ decodeWord 0x00000108#32 = .error .reservedBits
    ∧ decodeElem { op := 0x02, p1 := 0x4E, p2 := 12 } = .ok (.mfm 0x4E 12)
    ∧ decodeElem { op := 0x03, p1 := 0x4489, p2 := 3 } = .ok (.raw 0x4489 3)
    ∧ decodeElem { op := 0x10, p1 := 0, p2 := 8 } = .ok (.sectorLoopStart 0 8)
    ∧ decodeElem { op := 0x15, p1 := 0, p2 := 0 } = .error (.illegalDescriptorOp 0x15)

/-- R83 with 60_exceptions.md R205: which words are illegal, and that an illegal word, and while `FAULT = 1` every word but `GET_FAULT`,
is refused: `ST <- REFUSED` and nothing else (the host's input is taken). -/
def Obligations.IllegalWordRefused : Prop :=
  (∀ w : Word32,
    (∃ r : Reject, decodeWord w = .error r) ↔
      w.toNat / 2 ^ 8 ≠ 0 ∨ w.toNat % 2 ^ 8 = 0x00 ∨ (0x0A ≤ w.toNat % 2 ^ 8 ∧ w.toNat % 2 ^ 8 ≤ 0x0F)
        ∨ (0x14 ≤ w.toNat % 2 ^ 8 ∧ w.toNat % 2 ^ 8 ≤ 0x1F) ∨ (0x2B ≤ w.toNat % 2 ^ 8 ∧ w.toNat % 2 ^ 8 ≤ 0x2F)
        ∨ (0x32 ≤ w.toNat % 2 ^ 8 ∧ w.toNat % 2 ^ 8 ≤ 0x3F) ∨ 0x50 ≤ w.toNat % 2 ^ 8)
    ∧ ∀ (s : State) (w : Word32) (rest : List HostInput), s.gen = none → s.inbox = .word w :: rest →
        ((∃ r : Reject, decodeWord w = .error r) ∨ (s.fault = true ∧ w ≠ 0x09#32)) →
        step s = .next { s with inbox := rest, st := 0xFF#8 }

/-! ### How an instruction comes to run -/

/-- R85: a legal word is dispatched to its meaning, after what the command's `now` makes of the index timer: its resync at an equal time,
its loss at a later one (40_phase.md R96, 70_reset_and_hazards.md R221; log entries 9 and 24). -/
def Obligations.StepRunsDecodedWord : Prop :=
  ∀ (s : State) (w : Word32) (rest : List HostInput) (i : Instr), s.gen = none → s.inbox = .word w :: rest →
    decodeWord w = .ok i → (s.fault = false ∨ i = .getFault) →
    step s = exec i (timerFirst i { s with inbox := rest })

/-- 42_codec.md R137: while a descriptor program is stepped (log entry 5), a step runs the element at `DPC`; past the end of `DESC`
the command faults with `F_BOUNDS`, and on an illegal op with `F_DESC` (30_encoding.md R77), with `FINFO = 0` (log entry 12). -/
def Obligations.StepRunsDescriptorElement : Prop :=
  ∀ (s : State) (g : Interp), s.gen = some g →
    (∀ (e : DescElem) (i : Instr), s.desc[g.dpc]? = some e → decodeElem e = .ok i → step s = exec i s)
      ∧ (∀ (e : DescElem) (r : Reject), s.desc[g.dpc]? = some e → decodeElem e = .error r →
          step s = .next ({ s with gen := none }.faulted .desc 0))
      ∧ (s.desc[g.dpc]? = none → step s = .next ({ s with gen := none }.faulted .bounds 0))

/-- 10_state.md R20 and 20_memory.md R51: the host sets an operand register or a scratch space, and nothing else changes; with no input
the machine waits (00_scope.md R14; log entry 2). A reset emits no `IndexEdge` (70_reset_and_hazards.md R216) and drops no input (log
entry 16). -/
def Obligations.HostInputsSetOnePlace : Prop :=
  ∀ (s : State) (rest : List HostInput), s.gen = none →
    (s.inbox = [] → step s = .next s)
      ∧ (∀ (i : Fin 8) (v : Word64), s.inbox = .writeX i v :: rest →
          ∃ t : State, step s = .next t ∧ t = { s with inbox := rest, x := t.x } ∧ t.reg i = v
            ∧ ∀ j : Fin 8, j ≠ i → t.reg j = s.reg j)
      ∧ (∀ l : List Word32, s.inbox = .loadCl l :: rest → step s = .next { s with inbox := rest, cl := l })
      ∧ (∀ l : List Bool, s.inbox = .loadBs l :: rest → step s = .next { s with inbox := rest, bs := l })
      ∧ (∀ v : Vector (Option (List Byte)) 256, s.inbox = .loadSect v :: rest →
          step s = .next { s with inbox := rest, sect := v })
      ∧ (∀ l : List DescElem, s.inbox = .loadDesc l :: rest → step s = .next { s with inbox := rest, desc := l })
      ∧ (∀ l : List SectorDesc, s.inbox = .loadSdl l :: rest → step s = .next { s with inbox := rest, sdl := l })
      ∧ (∀ l : List Word32, s.inbox = .loadTl l :: rest → step s = .next { s with inbox := rest, tl := l })
      ∧ (∀ l : List Word64, s.inbox = .loadTrn l :: rest → step s = .next { s with inbox := rest, trn := l })
      ∧ (∀ l : List Byte, s.inbox = .loadBytes l :: rest → step s = .next { s with inbox := rest, bytes := l })
      ∧ (∀ l : List Byte, s.inbox = .loadCkp l :: rest → step s = .next { s with inbox := rest, ckp := l })
      ∧ (s.inbox = .reset :: rest → ∃ t : State, step s = .next t ∧ t.edges = s.edges ∧ t.inbox = rest)

/-- 40_phase.md R96: while `IDX_TIMER` is armed the timer performs `INDEX_RESYNC` with `now = IDX_TIMER`, and it does so before a command
that carries the same `now`. 70_reset_and_hazards.md R221: a timer that a command with a later `now` has passed is missed: it never fires
late, no step emits an edge, moves the line or counts towards `READY` for it, until a command that resynchronises the line or binds or
removes the disk. Which operands are a `now`, and that the timer's command is refused while `FAULT = 1`, are the model's reading (log
entry 9); so are the field `timerMissed`, and that `NEVER` passes no timer (log entry 24). -/
def Obligations.TimerPerformsResync : Prop :=
  (∀ (s : State) (rest : List HostInput), s.gen = none → s.inbox = .timer :: rest →
    (s.idxTimer = never ∨ s.timerMissed = true → step s = .next { s with inbox := rest })
      ∧ (s.idxTimer ≠ never → s.timerMissed = false → s.fault = true → step s = .next { s with inbox := rest, st := 0xFF#8 })
      ∧ (s.idxTimer ≠ never → s.timerMissed = false → s.fault = false →
          ∃ t : State, exec .indexResync { s with inbox := rest, x := { s.x with x0 := s.idxTimer } } = .next t
            ∧ step s = .next { t with x := s.x }))
    ∧ (∀ (s : State) (i : Instr) (now : Option Word64),
        now = (if i = .setMotor ∨ i = .stepTo then some s.x.x1
          else if i = .indexResync ∨ i = .timeNextIndex ∨ i = .getNextTransition ∨ i = .writeFlux ∨ i = .setWriteSplice then some s.x.x0
          else none) →
        (s.idxTimer ≠ never → s.timerMissed = false → now = some s.idxTimer →
          timerFirst i s = { s.resync s.idxTimer.toNat with st := 0x00#8 })
        ∧ (∀ v : Word64, s.idxTimer ≠ never → now = some v → v ≠ never → s.idxTimer < v →
          timerFirst i s = { s with timerMissed := true })
        ∧ (s.idxTimer = never ∨ s.timerMissed = true ∨ now = none ∨ now = some never
            ∨ (∃ v : Word64, now = some v ∧ v < s.idxTimer) → timerFirst i s = s))
    ∧ ∀ s t : State, step s = .next t → s.timerMissed = true → s.inbox.head? ≠ some .reset →
        (∀ w : Word32, s.inbox.head? = some (.word w) →
          w ≠ 0x01#32 ∧ w ≠ 0x02#32 ∧ w ≠ 0x40#32 ∧ w ≠ 0x41#32) →
        t.timerMissed = true ∧ t.edges = s.edges ∧ t.idx = s.idx ∧ t.readyCnt = s.readyCnt ∧ t.ready = s.ready

/-- 70_reset_and_hazards.md R215: what reset leaves, after power-on and after the input `reset`; it changes no parameter. -/
def Obligations.ResetLeaves : Prop :=
  AtReset State.reset
    ∧ ∀ (s : State) (rest : List HostInput), s.gen = none → s.inbox = .reset :: rest →
        ∃ t : State, step s = .next t ∧ AtReset t ∧ t.cfg = s.cfg

/-- 00_scope.md R16, 41_flux_sequencer.md R112, 43_pll_extract.md R162: no command, and no step, ends in one of the model's own stops:
every loop ends. The premise is a legal `RPM`. -/
def Obligations.StepNeverStops : Prop :=
  ∀ s : State, 1 ≤ s.cfg.rpm → Goes (step s) ∧ ∀ i : Instr, i.isCommand = true → Goes (exec i s)

/-! ### Invariants, faults and statuses -/

/-- The invariant `Inv` holds right after reset. -/
def Obligations.InvAtReset : Prop := Inv State.reset

/-- 10_state.md R44: the invariant `Inv` is kept by every step, from every state that has it. -/
def Obligations.StepKeepsInv : Prop :=
  ∀ s t : State, Inv s → step s = .next t → Inv t

/-- 10_state.md R34: what `WF(L)` says, clause by clause. With the four tags of (c), "an `EndOfZone` event before any other
`NonMagnetized`, `Damaged` or `Flux` event" is the next event. (e) follows from (b) and (d) (log entry 15). -/
def Obligations.WfTrackMeaning : Prop :=
  ∀ L : List Word32, wfTrack L = true ↔
    (∀ (i : Nat) (e : Word32), L[i]? = some e → evPos e < 200000000)
      ∧ (∀ (i : Nat) (e e' : Word32), L[i]? = some e → L[i + 1]? = some e' → evPos e < evPos e')
      ∧ (∀ (i : Nat) (e : Word32), L[i]? = some e → (tagOf e).isSome = true)
      ∧ (∀ (i : Nat) (e : Word32), L[i]? = some e → (tagOf e = some .nonMagnetized ∨ tagOf e = some .damaged) →
          ∃ e' : Word32, L[i + 1]? = some e' ∧ tagOf e' = some .endOfZone)
      ∧ (∀ (i : Nat) (e : Word32), L[i]? = some e → tagOf e = some .endOfZone →
          ∃ (j : Nat) (e' : Word32), i = j + 1 ∧ L[j]? = some e'
            ∧ (tagOf e' = some .nonMagnetized ∨ tagOf e' = some .damaged))

/-- 60_exceptions.md R200: a command that faults has made no write but to the fault registers and `ST`; `FCODE` and `FINFO` hold the
first fault. -/
def Obligations.FaultIsAtomic : Prop :=
  ∀ (i : Instr) (s t : State), i.isCommand = true → exec i s = .next t → t.st = 0xFE#8 →
    ∃ (code : FaultCode) (info : Word64),
      t = { s with
            fault := true
            fcode := if s.fault then s.fcode else faultCode code
            finfo := if s.fault then s.finfo else info
            st := 0xFE#8 }

/-- 60_exceptions.md R204: a command that ends with `IGNORED`, `NOT_IMPLEMENTED`, `NO_DISK`, `LAYOUT_OVERFLOW`, `BAD_CHECKPOINT` or
`GEOMETRY` writes `ST` and nothing else; and a command ends with `OK`, with one of these or with `FAULTED`. -/
def Obligations.StatusChangesOnlySt : Prop :=
  ∀ (i : Instr) (s t : State), i.isCommand = true → exec i s = .next t →
    (t.st = 0x00#8 ∨ t.st = 0x01#8 ∨ t.st = 0x02#8 ∨ t.st = 0x03#8 ∨ t.st = 0x04#8 ∨ t.st = 0x05#8 ∨ t.st = 0x06#8 ∨ t.st = 0xFE#8)
      ∧ (t.st ≠ 0x00#8 → t.st ≠ 0xFE#8 → t = { s with st := t.st })

/-- 10_state.md R40, 60_exceptions.md R209: once set, `FAULT` with its code and information stays, whatever the next step is, but for
reset. -/
def Obligations.FaultIsSticky : Prop :=
  ∀ s t : State, step s = .next t → s.fault = true → s.inbox.head? ≠ some .reset →
    t.fault = true ∧ t.fcode = s.fcode ∧ t.finfo = s.finfo

/-- 60_exceptions.md R206: an event is emitted exactly when `IDX` changes, with the new level, at most one in a command; and no command
but `INDEX_RESYNC`, `SET_MOTOR`, `EJECT` and `INSERT` (which does `EJECT`, 45_cell_buffer.md R182) changes the line. That the record of an
event holds the command's `now` beside the level is the model's choice (log entry 4). -/
def Obligations.IndexEdgeFollowsLine : Prop :=
  ∀ (i : Instr) (s t : State) (time : Option Word64), exec i s = .next t →
    time = (if i = .setMotor then some s.x.x1 else if i = .indexResync then some s.x.x0 else none) →
    (t.edges = if t.idx = s.idx then s.edges else s.edges ++ [{ level := t.idx, time := time }])
      ∧ (i ≠ .indexResync → i ≠ .setMotor → i ≠ .eject → i ≠ .insert → t.idx = s.idx)

/-- The writers that 10_state.md R23, R29, R32 and R37 name: no other instruction changes the register. (`EJECT` sets the empty values of
R31 and so is a writer of `PROPS` and `WP` too, 45_cell_buffer.md R183; it and `INSERT` write `IDX`, `IDX_TIMER`, `READY` and `READY_CNT`
as R182 and R183 say. The model's own `timerMissed`, log entry 24, changes only where the timer is armed.) -/
def Obligations.WritersOfRegisters : Prop :=
  ∀ (i : Instr) (s t : State), exec i s = .next t →
    t.cfg = s.cfg
      ∧ (i ≠ .setMotor → t.motor = s.motor ∧ t.t0 = s.t0)
      ∧ (i ≠ .setMotor → i ≠ .indexResync →
          t.revCount = s.revCount ∧ t.revStart = s.revStart ∧ t.timerMissed = s.timerMissed)
      ∧ (i ≠ .setMotor → i ≠ .indexResync → i ≠ .insert → i ≠ .eject →
          t.idx = s.idx ∧ t.idxTimer = s.idxTimer ∧ t.ready = s.ready ∧ t.readyCnt = s.readyCnt)
      ∧ (i ≠ .stepTo → i ≠ .getLines → t.seekSound = s.seekSound)
      ∧ (i ≠ .stepTo → i ≠ .insert → i ≠ .eject → t.door = s.door)
      ∧ (i ≠ .stepTo → t.cyl = s.cyl)
      ∧ (i ≠ .setSide → t.ss = s.ss)
      ∧ (i ≠ .setSeed → t.seed = s.seed)
      ∧ (i ≠ .insert → i ≠ .eject → t.props = s.props ∧ t.diskPresent = s.diskPresent ∧ t.allocSides = s.allocSides)
      ∧ (i ≠ .insert → i ≠ .eject → i ≠ .setWp → t.wp = s.wp)
      ∧ (i ≠ .insert → i ≠ .eject → i ≠ .resizeTracks → t.allocTracks = s.allocTracks)
      ∧ (i ≠ .insert → i ≠ .eject → i ≠ .writeSector → t.rawsec = s.rawsec)

/-- 30_encoding.md R81: a command given `NEVER` as a time faults with `F_OPERAND`, and `FINFO` is 0 (log entries 10 and 12). -/
def Obligations.NeverTimeFaults : Prop :=
  ∀ (s : State) (i : Instr),
    (i = .indexResync ∨ i = .timeNextIndex ∨ i = .phaseOf ∨ i = .getNextTransition ∨ i = .setWriteSplice)
        ∧ s.x.x0 = 0xFFFFFFFFFFFFFFFF#64
      ∨ (i = .setMotor ∨ i = .stepTo) ∧ s.x.x1 = 0xFFFFFFFFFFFFFFFF#64
      ∨ i = .writeFlux ∧ (s.x.x0 = 0xFFFFFFFFFFFFFFFF#64 ∨ s.x.x1 = 0xFFFFFFFFFFFFFFFF#64) →
    exec i s = .next (s.faulted .operand 0)

/-- The commands that need a disk end with `NO_DISK` without one (30_encoding.md R80), and those that name a track fault with
`F_TRACK_RANGE` outside the allocated store (20_memory.md R52; 60_exceptions.md R201), with `FINFO = c` where the rule passes it
(42_codec.md R137, R150). -/
def Obligations.TrackCommandChecks : Prop :=
  ∀ (s : State) (i : Instr),
    (s.diskPresent = false →
      (i = .eject ∨ i = .getBuffer ∨ i = .putBuffer ∨ i = .resizeTracks ∨ i = .trackIsFormatted ∨ i = .actualGeometry
        ∨ i = .readSector ∨ i = .writeSector ∨ i = .saveState ∨ i = .loadState ∨ i = .setWp ∨ i = .clearDirty
        ∨ i = .genTrack ∨ i = .genFromCells ∨ i = .genBitstream ∨ i = .buildPcMfm ∨ i = .buildPcFm) →
      exec i s = .next { s with st := 0x03#8 })
    ∧ (s.diskPresent = true → (s.allocTracks.toNat ≤ s.x.x0.toNat ∨ s.allocSides.toNat ≤ s.x.x1.toNat) →
      (i = .getBuffer ∨ i = .putBuffer ∨ i = .trackIsFormatted ∨ i = .genFromCells ∨ i = .genBitstream →
        exec i s = .next (s.faulted .trackRange 0))
      ∧ (i = .genTrack ∨ i = .buildPcMfm ∨ i = .buildPcFm → exec i s = .next (s.faulted .trackRange s.x.x0)))

/-! ### PHA -/

/-- 40_phase.md R88 and R90: the quantizer is the floor of the exact rational angle, its revolution and its position are the quotient and
the remainder by `REV_UNITS`; at `RPM = 300` one angular unit is one tick. -/
def Obligations.QuantizerIsExact : Prop :=
  (∀ (rpm : Nat) (t0 t : Int),
    angle rpm t0 t = ⌊((t : ℚ) - t0) * rpm * 200000000 / (60 * 10 ^ 9)⌋
      ∧ angleRev rpm t0 t = ⌊(angle rpm t0 t : ℚ) / 200000000⌋
      ∧ (anglePos rpm t0 t : Int) = angle rpm t0 t - 200000000 * angleRev rpm t0 t
      ∧ anglePos rpm t0 t < 200000000)
    ∧ ∀ t0 t k p : Int,
        angle 300 t0 t = t - t0 ∧ angleTime 300 t0 k p = t0 + 200000000 * k + p ∧ revTime 300 t0 k = t0 + 200000000 * k

/-- 40_phase.md R89: `TOF(k, p)` is the exact ceiling, it is the earliest tick whose accumulated angle is at least `k * REV_UNITS + p`,
and at `ANG_SPEED <= 1` the angle there is exactly that. -/
def Obligations.TimeOfIsEarliest : Prop :=
  ∀ (rpm : Nat) (t0 k p : Int), 1 ≤ rpm → 0 ≤ p → p < 200000000 →
    angleTime rpm t0 k p = t0 + ⌈((k : ℚ) * 200000000 + p) * 60 * 10 ^ 9 / (rpm * 200000000)⌉
      ∧ revTime rpm t0 k = t0 + ⌈(k : ℚ) * 60 * 10 ^ 9 / rpm⌉
      ∧ k * 200000000 + p ≤ angle rpm t0 (angleTime rpm t0 k p)
      ∧ (∀ t : Int, t < angleTime rpm t0 k p → angle rpm t0 t < k * 200000000 + p)
      ∧ (rpm ≤ 300 → angle rpm t0 (angleTime rpm t0 k p) = k * 200000000 + p)

/-- 40_phase.md R107: `U` is non-decreasing; `TOF` is strictly increasing at or below 300 rpm, and at a higher speed two adjacent
positions can map to one tick. -/
def Obligations.QuantizerMonotone : Prop :=
  (∀ (rpm : Nat) (t0 t t' : Int), t ≤ t' → angle rpm t0 t ≤ angle rpm t0 t')
    ∧ (∀ (rpm : Nat) (t0 k p k' p' : Int), 1 ≤ rpm → rpm * 200000000 ≤ 60 * 10 ^ 9 →
        k * 200000000 + p < k' * 200000000 + p' → angleTime rpm t0 k p < angleTime rpm t0 k' p')
    ∧ ∃ p : Int, 0 ≤ p ∧ p + 1 < 200000000 ∧ angleTime 360 0 0 p = angleTime 360 0 0 (p + 1)

/-- 40_phase.md R92: `SET_MOTOR`. Motor-on sets the epoch, arms the ready count and resynchronises; with a disk bound the index line is
active and its timer stands `INDEX_UNITS` on, which is `600000000 / RPM` ticks, rounded up (a free value where 64 bits do not hold it, log
entry 3), and not missed (log entry 24). Motor-off clears the lines. An `on` that is equal to `MOTOR` changes nothing, and `NEVER` as the
time faults first of all (log entry 10). That the record of an event holds the time is the model's choice (log entry 4). -/
def Obligations.SetMotorResult : Prop :=
  ∀ s : State,
    (s.x.x1 = never → ∃ info : Word64, exec .setMotor s = .next (s.faulted .operand info))
    ∧ (s.x.x1 ≠ never →
    (s.x.x0.getLsbD 0 = true → s.motor = false → s.diskPresent = true →
      exec .setMotor s = .next { s with
        motor := true, t0 := s.x.x1, revCount := 0, revStart := s.x.x1, cache := { s.cache with valid := false }
        ready := false, readyCnt := 2, idx := true
        edges := if s.idx then s.edges else s.edges ++ [{ level := true, time := some s.x.x1 }]
        idxTimer := u64Of .idxTimer (s.x.x1.toNat + ceilDiv 600000000 s.cfg.rpm), timerMissed := false, st := 0x00 })
    ∧ (s.x.x0.getLsbD 0 = true → s.motor = false → s.diskPresent = false →
      exec .setMotor s = .next { s with
        motor := true, t0 := s.x.x1, revCount := 0, revStart := s.x.x1, cache := { s.cache with valid := false }
        ready := false, readyCnt := 2, idx := false
        edges := if s.idx then s.edges ++ [{ level := false, time := some s.x.x1 }] else s.edges
        idxTimer := never, st := 0x00 })
    ∧ (s.x.x0.getLsbD 0 = false → s.motor = true →
      exec .setMotor s = .next { s with
        motor := false, cache := { s.cache with valid := false }, ready := false, readyCnt := 0, idx := false
        edges := if s.idx then s.edges ++ [{ level := false, time := some s.x.x1 }] else s.edges, idxTimer := never, st := 0x00 })
    ∧ (s.x.x0.getLsbD 0 = s.motor → exec .setMotor s = .next { s with st := 0x00 }))

/-- 40_phase.md R95: `INDEX_RESYNC`. `k` and `p` are the revolution and the position of `now`. `REV_COUNT`, `REV_START` and `IDX_TIMER`
hold a free value where 64 bits do not hold the number (log entry 3); `NEVER` faults first of all (log entry 10); the time in the record
of an event is the model's choice (log entry 4). The numbers are exact whatever timer the host has missed, and the timer that is armed is
not missed (70_reset_and_hazards.md R221; log entry 24). -/
def Obligations.IndexResyncResult : Prop :=
  ∀ s : State,
    (s.x.x0 = never → ∃ info : Word64, exec .indexResync s = .next (s.faulted .operand info))
    ∧ (s.x.x0 ≠ never →
    ((s.motor = false ∨ s.diskPresent = false) →
      exec .indexResync s = .next { s with
        idx := false, edges := if s.idx then s.edges ++ [{ level := false, time := some s.x.x0 }] else s.edges
        idxTimer := never, st := 0x00 })
    ∧ (s.motor = true → s.diskPresent = true →
      ∀ (k : Int) (p : Nat) (new counts : Bool),
        k = angleRev s.cfg.rpm s.t0.toNat s.x.x0.toNat → p = anglePos s.cfg.rpm s.t0.toNat s.x.x0.toNat →
        new = decide (p < 2000000) → counts = (new && !s.idx && decide (s.t0 < s.x.x0) && decide (0 < s.readyCnt)) →
        exec .indexResync s = .next { s with
          revCount := revImage k, revStart := u64Of .revStart (revTime s.cfg.rpm s.t0.toNat k), idx := new
          edges := if new = s.idx then s.edges else s.edges ++ [{ level := new, time := some s.x.x0 }]
          readyCnt := if counts then s.readyCnt - 1 else s.readyCnt
          ready := s.ready || (counts && decide (s.readyCnt = 1))
          idxTimer := u64Of .idxTimer
            (if new then angleTime s.cfg.rpm s.t0.toNat k 2000000 else revTime s.cfg.rpm s.t0.toNat (k + 1))
          timerMissed := false, st := 0x00 }))

/-- 40_phase.md R108: after `INDEX_RESYNC(now)`, `REV_COUNT = rev(now)` and `REV_START = RS(rev(now)) <= now < RS(rev(now) + 1)`. The
premise `T0 <= now` is the host's duty (00_scope.md R15); `REV_COUNT` holds the number where 64 bits do (10_state.md R49; log entry 3). -/
def Obligations.RevolutionAccounting : Prop :=
  ∀ s : State, s.motor = true → s.diskPresent = true → 1 ≤ s.cfg.rpm → s.x.x0 ≠ never → s.t0 ≤ s.x.x0 →
    ∃ t : State, exec .indexResync s = .next t
      ∧ (angleRev s.cfg.rpm s.t0.toNat s.x.x0.toNat < 2 ^ 64 →
          (t.revCount.toNat : Int) = angleRev s.cfg.rpm s.t0.toNat s.x.x0.toNat)
      ∧ (t.revStart.toNat : Int) = revTime s.cfg.rpm s.t0.toNat (angleRev s.cfg.rpm s.t0.toNat s.x.x0.toNat)
      ∧ t.revStart ≤ s.x.x0
      ∧ (s.x.x0.toNat : Int) < revTime s.cfg.rpm s.t0.toNat (angleRev s.cfg.rpm s.t0.toNat s.x.x0.toNat + 1)

/-- 40_phase.md R97: the resync at the time that a resync armed sees the other level, so each firing of the timer makes exactly one edge.
The bounds on `RPM` and on the time keep the speed far below the index window and the timer inside 64 bits. The time in the record of an
event is the model's choice (log entry 4). -/
def Obligations.TimerFiringMakesOneEdge : Prop :=
  ∀ (s : State) (now : Nat), s.motor = true → s.diskPresent = true → 1 ≤ s.cfg.rpm → s.cfg.rpm ≤ 1000000 →
    s.t0.toNat ≤ now → now < 2 ^ 63 →
      (s.resync now).timerFires.idx = !(s.resync now).idx
        ∧ (s.resync now).timerFires.edges
            = (s.resync now).edges ++ [{ level := !(s.resync now).idx, time := some (s.resync now).idxTimer }]

/-- 40_phase.md R109, and R93: the worked timeline at `RPM = 300`: `SET_MOTOR` on at time 0, then the timer four times. -/
def Obligations.SpinUpTimeline : Prop :=
  ∀ s : State, s.cfg.rpm = 300 → s.gen = none → s.fault = false → s.diskPresent = true → s.motor = false → s.idx = false →
    s.idxTimer = never → s.x.x0 = 1 → s.x.x1 = 0 →
    s.inbox = [.word 0x01#32, .timer, .timer, .timer, .timer] →
    ∃ t₀ t₁ t₂ t₃ t₄ : State,
      step s = .next t₀ ∧ step t₀ = .next t₁ ∧ step t₁ = .next t₂ ∧ step t₂ = .next t₃ ∧ step t₃ = .next t₄
        ∧ (t₀.idx, t₀.readyCnt, t₀.ready, t₀.idxTimer) = (true, 2#2, false, 2000000#64)
        ∧ (t₁.idx, t₁.readyCnt, t₁.ready, t₁.idxTimer) = (false, 2#2, false, 200000000#64)
        ∧ (t₂.idx, t₂.readyCnt, t₂.ready, t₂.idxTimer) = (true, 1#2, false, 202000000#64)
        ∧ (t₃.idx, t₃.readyCnt, t₃.ready, t₃.idxTimer) = (false, 1#2, false, 400000000#64)
        ∧ (t₄.idx, t₄.readyCnt, t₄.ready, t₄.idxTimer) = (true, 0#2, true, 402000000#64)
        ∧ ∃ e : List IndexEdge, t₄.edges = s.edges ++ e ∧ e.map IndexEdge.level = [true, false, true, false, true]

/-- 40_phase.md R100 to R102: `TIME_NEXT_INDEX`, `PHASE_OF` and `TIME_OF`. A time of 2^64 or above has no stated place in X0 (log entry
3). `NEVER` as the time faults before every other check (log entry 10). -/
def Obligations.QuantizerCommands : Prop :=
  ∀ s : State,
    (s.x.x0 = never →
      (∃ info : Word64, exec .timeNextIndex s = .next (s.faulted .operand info))
        ∧ ∃ info : Word64, exec .phaseOf s = .next (s.faulted .operand info))
    ∧ (s.x.x0 ≠ never → (s.motor = false ∨ s.diskPresent = false) →
      exec .timeNextIndex s = .next { s with x := { s.x with x0 := never }, st := 0x00 })
    ∧ (s.x.x0 ≠ never → s.motor = true → s.diskPresent = true →
      ∃ t : State, exec .timeNextIndex s = .next t ∧ t = { s with x := { s.x with x0 := t.x.x0 }, st := 0x00 }
        ∧ ∀ v : Int, v = revTime s.cfg.rpm s.t0.toNat (angleRev s.cfg.rpm s.t0.toNat s.x.x0.toNat + 1) →
            0 ≤ v → v < 2 ^ 64 → (t.x.x0.toNat : Int) = v)
    ∧ (s.x.x0 ≠ never →
      ∃ t : State, exec .phaseOf s = .next t ∧ t = { s with x := { s.x with x0 := t.x.x0, x1 := t.x.x1 }, st := 0x00 }
        ∧ t.x.x0.toNat = anglePos s.cfg.rpm s.t0.toNat s.x.x0.toNat
        ∧ (t.x.x1.toNat : Int) = angleRev s.cfg.rpm s.t0.toNat s.x.x0.toNat % 2 ^ 64)
    ∧ (200000000 ≤ s.x.x1.toNat → exec .timeOf s = .next (s.faulted .operand s.x.x1))
    ∧ ∀ v : Int, v = angleTime s.cfg.rpm s.t0.toNat s.x.x0.toInt s.x.x1.toNat → s.x.x1.toNat < 200000000 →
        ((v < 0 ∨ 2 ^ 64 - 1 ≤ v) → exec .timeOf s = .next (s.faulted .operand s.x.x0))
        ∧ (0 ≤ v → v < 2 ^ 64 - 1 →
          ∃ t : State, exec .timeOf s = .next t ∧ t = { s with x := { s.x with x0 := t.x.x0 }, st := 0x00 }
            ∧ (t.x.x0.toNat : Int) = v)

/-- 40_phase.md R103 and R105: `STEP_TO` clamps to the drive's cylinders, clears `DOOR` with a disk bound, and where the cylinder changes
it drops the cache and, more than `SEEK_SOUND_DELAY` after motor-on, schedules the seek sound; `SET_SIDE`. The premises on `DRIVE_TRACKS`
are its legal values (log entry 20). -/
def Obligations.HeadCommands : Prop :=
  ∀ s : State,
    (s.x.x1 = never → ∃ info : Word64, exec .stepTo s = .next (s.faulted .operand info))
    ∧ (∀ c : Nat, s.x.x1 ≠ never → 1 ≤ s.cfg.driveTracks → s.cfg.driveTracks ≤ 2 ^ 32 →
      (c : Int) = min (max s.x.x0.toInt 0) (s.cfg.driveTracks - 1) →
      (c = s.cyl.toNat → exec .stepTo s = .next { s with door := s.door && !s.diskPresent, st := 0x00 })
      ∧ (c ≠ s.cyl.toNat →
        exec .stepTo s = .next { s with
          door := s.door && !s.diskPresent, cyl := BitVec.ofNat 32 c, cache := { s.cache with valid := false }
          seekSound := s.seekSound || (s.motor && decide ((s.x.x1.toNat : Int) - s.t0.toNat > 500000000)), st := 0x00 }))
    ∧ (s.x.x0.getLsbD 0 = s.ss → exec .setSide s = .next { s with st := 0x00 })
    ∧ (s.x.x0.getLsbD 0 ≠ s.ss →
      exec .setSide s = .next { s with ss := s.x.x0.getLsbD 0, cache := { s.cache with valid := false }, st := 0x00 })

/-- The commands that report and set flags: `GET_LINES` (40_phase.md R106, 30_encoding.md R86), `GET_FAULT` (60_exceptions.md R207),
`POLL_CHANGED`, `GET_FLAGS`, `SET_WP`, `CLEAR_DIRTY` and `GET_PROPS` (45_cell_buffer.md R192 to R194, R198, R199). That the write-protect
line reads 1 with no disk is 10_state.md R23 against a test vector (log entry 18). -/
def Obligations.FlagCommands : Prop :=
  ∀ s : State,
    (∃ t : State, exec .getLines s = .next t
      ∧ t = { s with x := { s.x with x0 := t.x.x0, x1 := s.cyl.setWidth 64, x2 := if s.ss then 1 else 0 }, seekSound := false, st := 0x00 }
      ∧ t.x.x0.getLsbD 0 = s.motor ∧ t.x.x0.getLsbD 1 = s.ready ∧ t.x.x0.getLsbD 2 = s.idx
      ∧ t.x.x0.getLsbD 3 = (if s.diskPresent then s.wp else true) ∧ t.x.x0.getLsbD 4 = s.door
      ∧ t.x.x0.getLsbD 5 = s.seekSound ∧ t.x.x0.getLsbD 6 = s.diskPresent ∧ t.x.x0.getLsbD 7 = decide (s.cyl.toNat = 0)
      ∧ ∀ n : Nat, 8 ≤ n → t.x.x0.getLsbD n = false)
    ∧ exec .getFault s = .next { s with
        x := { s.x with x0 := if s.fault then 1 else 0, x1 := s.fcode.setWidth 64, x2 := s.finfo }, st := 0x00 }
    ∧ exec .pollChanged s = .next { s with x := { s.x with x0 := if s.imgChanged then 1 else 0 }, imgChanged := false, st := 0x00 }
    ∧ (∃ t : State, exec .getFlags s = .next t ∧ t = { s with x := { s.x with x0 := t.x.x0 }, st := 0x00 }
      ∧ t.x.x0.getLsbD 0 = s.diskPresent ∧ t.x.x0.getLsbD 1 = s.wp ∧ t.x.x0.getLsbD 2 = s.dirtyLoad
      ∧ t.x.x0.getLsbD 3 = s.dirtyRestore ∧ t.x.x0.getLsbD 4 = s.imgChanged
      ∧ ∀ n : Nat, 5 ≤ n → t.x.x0.getLsbD n = false)
    ∧ (s.diskPresent = false →
      exec .setWp s = .next { s with st := 0x03 } ∧ exec .clearDirty s = .next { s with st := 0x03 })
    ∧ (s.diskPresent = true → exec .setWp s = .next { s with wp := s.x.x0.getLsbD 0, st := 0x00 })
    ∧ (s.diskPresent = true → s.x.x0.toNat < 4 →
      exec .clearDirty s = .next { s with
        dirtyLoad := s.dirtyLoad && !s.x.x0.getLsbD 0, dirtyRestore := s.dirtyRestore && !s.x.x0.getLsbD 1, st := 0x00 })
    ∧ (s.diskPresent = true → 4 ≤ s.x.x0.toNat → exec .clearDirty s = .next (s.faulted .operand 0))
    ∧ exec .getProps s = .next { s with
        x := { x0 := if s.diskPresent then 1 else 0, x1 := s.props.type.setWidth 64, x2 := s.props.tracks.setWidth 64
               x3 := s.props.sides.setWidth 64, x4 := s.props.spt.setWidth 64, x5 := s.props.secsize.setWidth 64
               x6 := s.props.drate.setWidth 64, x7 := if s.props.kind then 1 else 0 }
        bytes := s.props.desc, st := 0x00 }

/-! ### SEQ -/

/-- 41_flux_sequencer.md R111: the track that SEQ reads, and `NEVER` with the motor off or with no `Flux` event on it. -/
def Obligations.UnformattedReadsNever : Prop :=
  ∀ s : State,
    (s.diskPresent = true → s.props.kind = false → s.cyl.toNat < s.allocTracks.toNat → s.head < s.allocSides.toNat →
      s.readTrack = s.buf s.cyl.toNat s.head)
    ∧ ((s.diskPresent = false ∨ s.props.kind = true ∨ s.allocTracks.toNat ≤ s.cyl.toNat ∨ s.allocSides.toNat ≤ s.head) →
      s.readTrack = [])
    ∧ (s.x.x0 ≠ never → (s.motor = false ∨ ∀ e ∈ s.readTrack, tagOf e ≠ some .flux) →
      ∃ t : State, exec .getNextTransition s = .next t
        ∧ t = { s with x := { s.x with x0 := never }, cache := t.cache, st := 0x00 })

/-- 41_flux_sequencer.md R110 to R114: with the motor on and a `Flux` event on the track, `GET_NEXT_TRANSITION` gives the first flux
transition that the read channel shows strictly after `f`, weak-bit injection included, and writes X0, the cache and `ST` only. X0 is
above `f` (the greatest word is `NEVER`), also where 64 bits do not hold the time (log entry 3). The premises are a legal `RPM` and a WF
track. -/
def Obligations.NextTransitionIsFirst : Prop :=
  ∀ s : State, s.x.x0 ≠ never → s.motor = true → 1 ≤ s.cfg.rpm → wfTrack s.readTrack = true →
    (∃ e ∈ s.readTrack, tagOf e = some .flux) →
    ∃ (t : State) (e : Int), exec .getNextTransition s = .next t
      ∧ t = { s with x := { s.x with x0 := t.x.x0 }, cache := t.cache, st := 0x00 }
      ∧ (e < 2 ^ 64 → (t.x.x0.toNat : Int) = e) ∧ s.x.x0 < t.x.x0
      ∧ (s.x.x0.toNat : Int) < e ∧ s.transitionAt e
      ∧ ∀ e' : Int, (s.x.x0.toNat : Int) < e' → s.transitionAt e' → e ≤ e'

/-- 10_state.md R27, R28, 41_flux_sequencer.md R116: the cache is invisible. Two states that differ in the cache alone give, for every
instruction, outcomes that differ in the cache alone. -/
def Obligations.CacheInvisible : Prop :=
  ∀ (i : Instr) (s : State) (c : Cache), forgetCache (exec i { s with cache := c }) = forgetCache (exec i s)

/-- 41_flux_sequencer.md R117: the commands that set `C_VALID <- 0` when they take effect. -/
def Obligations.CacheInvalidated : Prop :=
  ∀ (i : Instr) (s t : State), exec i s = .next t → t.st = 0x00#8 →
    (i = .setMotor → t.motor ≠ s.motor → t.cache.valid = false)
      ∧ (i = .stepTo → t.cyl ≠ s.cyl → t.cache.valid = false)
      ∧ (i = .setSide → t.ss ≠ s.ss → t.cache.valid = false)
      ∧ (i = .writeFlux ∨ i = .insert ∨ i = .eject ∨ i = .putBuffer ∨ i = .resizeTracks ∨ i = .genTrack ∨ i = .genFromCells
          ∨ i = .buildPcMfm ∨ i = .buildPcFm ∨ i = .loadState ∨ i = .setSeed → t.cache.valid = false)

/-- 41_flux_sequencer.md R119: when `WRITE_FLUX` does nothing, when it faults, and that otherwise it completes and writes the list of the
track under the head only, with the dirty flags where that list changes. That a write whose start and end lie at one accumulated angle
completes so is the model's choice (log entry 23). -/
def Obligations.WriteFluxOutcomes : Prop :=
  ∀ s : State, s.x.x0 ≠ never → s.x.x1 ≠ never →
    ((s.motor = false ∨ s.diskPresent = false ∨ s.wp = true ∨ s.props.kind = true ∨ s.allocTracks.toNat ≤ s.cyl.toNat
        ∨ s.allocSides.toNat ≤ s.head ∨ s.x.x1 ≤ s.x.x0) →
      exec .writeFlux s = .next { s with st := 0x01 })
    ∧ (s.motor = true → s.diskPresent = true → s.wp = false → s.props.kind = false → s.cyl.toNat < s.allocTracks.toNat →
      s.head < s.allocSides.toNat → s.x.x0 < s.x.x1 →
      (200000000 < s.angleAt s.x.x1.toNat - s.angleAt s.x.x0.toNat →
        exec .writeFlux s = .next (s.faulted .operand s.x.x1))
      ∧ (s.angleAt s.x.x1.toNat - s.angleAt s.x.x0.toNat ≤ 200000000 → Memory.wf s = true →
        ∃ t : State, exec .writeFlux s = .next t
          ∧ t = { s with
                  trk := t.trk, dirtyLoad := t.dirtyLoad, dirtyRestore := t.dirtyRestore, imgChanged := t.imgChanged
                  cache := { s.cache with valid := false }, st := 0x00 }
          ∧ (∀ c h : Nat, h < 2 ^ 32 → (c ≠ s.cyl.toNat ∨ h ≠ s.head) → t.trackAt c h = s.trackAt c h)
          ∧ (t.trackAt s.cyl.toNat s.head).splice = (s.trackAt s.cyl.toNat s.head).splice
          ∧ (t.buf s.cyl.toNat s.head = s.buf s.cyl.toNat s.head →
              t.trk = s.trk ∧ t.dirtyLoad = s.dirtyLoad ∧ t.dirtyRestore = s.dirtyRestore ∧ t.imgChanged = s.imgChanged)
          ∧ (t.buf s.cyl.toNat s.head ≠ s.buf s.cyl.toNat s.head →
              t.dirtyLoad = true ∧ t.dirtyRestore = true ∧ t.imgChanged = true
                ∧ (t.trackAt s.cyl.toNat s.head).hasDamaged = hasTag .damaged (t.buf s.cyl.toNat s.head))))

/-- 41_flux_sequencer.md R119 to R124: what `WRITE_FLUX` of the window from angle `a` to angle `b` makes of a track list `L`, position by
position. `u` is the accumulated angle of the position `p` in the revolution that starts at `a`. Outside the window the transitions are
unchanged, and no damaged position holds one. Off the damaged zones the window's transitions are those of `TRN`, but for the last position
of each sub-span (R121: the window, the index and the damaged zones end it): that one is toggled exactly where the sub-span, which starts
at `q`, held and now gets numbers of transitions that differ in parity (R123). A `NonMagnetized` zone keeps its pieces outside the window
of two positions or more (R122). For `a = b`, of which R120 does not speak, this says that the write leaves the track as it was: the
model's choice (log entry 23). -/
def Obligations.WriteFluxContent : Prop :=
  ∀ (s t : State) (a b : Int) (L L' : List Word32) (damaged inWindow : Nat → Prop) (written : Int → Prop),
    Inv s → exec .writeFlux s = .next t → t.st = 0x00#8 →
    a = s.angleAt s.x.x0.toNat → b = s.angleAt s.x.x1.toNat →
    L = s.buf s.cyl.toNat s.head → L' = t.buf s.cyl.toNat s.head →
    (∀ q : Nat, damaged q ↔ ∃ z ∈ damagedZones L, z.z1 ≤ q ∧ q ≤ z.z2) →
    (∀ q : Nat, inWindow q ↔ ∃ v : Int, a ≤ v ∧ v < b ∧ v % 200000000 = q) →
    (∀ v : Int, written v ↔ ∃ w ∈ s.trn, s.x.x0 ≤ w ∧ w < s.x.x1 ∧ s.angleAt w.toNat = v) →
    (∀ (p : Nat) (u : Int), p < 200000000 → a ≤ u → u < a + 200000000 → u % 200000000 = p →
      (b ≤ u → (p ∈ fluxPositions L' ↔ p ∈ fluxPositions L))
      ∧ (u < b → damaged p → p ∉ fluxPositions L')
      ∧ (u + 1 < b → p + 1 < 200000000 → ¬ damaged p → ¬ damaged (p + 1) → (p ∈ fluxPositions L' ↔ written u))
      ∧ ∀ (q : Nat) (old new : Finset Nat), u < b → (u + 1 = b ∨ p + 1 = 200000000 ∨ damaged (p + 1)) →
          q ≤ p → (p : Int) - q ≤ u - a → (∀ x : Nat, q ≤ x → x ≤ p → ¬ damaged x) →
          (q = 0 ∨ (p : Int) - q = u - a ∨ damaged (q - 1)) →
          (∀ x : Nat, x ∈ old ↔ q ≤ x ∧ x ≤ p ∧ x ∈ fluxPositions L) →
          (∀ x : Nat, x ∈ new ↔ q ≤ x ∧ x ≤ p ∧ written (u - p + x)) →
          (p ∈ fluxPositions L' ↔ (written u ↔ (old.card + new.card) % 2 = 0)))
    ∧ ∀ x y : Nat,
        (∃ z ∈ zonesOf L', z.tag = .nonMagnetized ∧ z.z1 = x ∧ z.z2 = y) ↔
          x < y ∧ ∃ z ∈ zonesOf L, z.tag = .nonMagnetized ∧ z.z1 ≤ x ∧ y ≤ z.z2 ∧ (x = z.z1 ∨ inWindow (x - 1))
            ∧ (y = z.z2 ∨ inWindow (y + 1)) ∧ ∀ q : Nat, x ≤ q → q ≤ y → ¬ inWindow q

/-- 41_flux_sequencer.md R126: `WRITE_FLUX` leaves every damaged zone's opener, its `EndOfZone` and every position inside it unchanged;
and the worked write of the rule. -/
def Obligations.WriteFluxKeepsDamaged : Prop :=
  (∀ (s t : State) (c h : Nat), Inv s → exec .writeFlux s = .next t →
    damagedZones (t.buf c h) = damagedZones (s.buf c h)
      ∧ ∀ z ∈ damagedZones (s.buf c h),
          (t.buf c h).filter (fun e => decide (z.z1 ≤ evPos e) && decide (evPos e ≤ z.z2))
            = (s.buf c h).filter (fun e => decide (z.z1 ≤ evPos e) && decide (evPos e ≤ z.z2)))
    ∧ ∀ s : State, s.cfg.rpm = 300 → s.t0 = 0 → s.motor = true → s.diskPresent = true → s.wp = false → s.props.kind = false →
        s.cyl = 0 → s.ss = false → 0 < s.allocTracks.toNat → 0 < s.allocSides.toNat → s.buf 0 0 = [1000, 3000, 5000, 7000] →
        s.x.x0 = 2000 → s.x.x1 = 6000 → s.trn = [2500] → Memory.wf s = true →
        ∃ t : State, exec .writeFlux s = .next t ∧ t.st = 0x00#8 ∧ t.buf 0 0 = [1000, 2500, 5999, 7000]

/-- 41_flux_sequencer.md R125: `WRITE_FLUX` keeps the parity of the number of `Flux` events of every track. -/
def Obligations.WriteFluxKeepsParity : Prop :=
  ∀ (s t : State) (c h : Nat), Inv s → exec .writeFlux s = .next t →
    (fluxPositions (s.buf c h)).length % 2 = 0 → (fluxPositions (t.buf c h)).length % 2 = 0

/-- 41_flux_sequencer.md R127 and R128: `SET_WRITE_SPLICE` writes one track's splice and sets the dirty flags, or is ignored; `SET_SEED`.
That `NEVER` faults before the command can be ignored is the model's reading (log entry 10). -/
def Obligations.SpliceAndSeed : Prop :=
  ∀ s : State,
    (s.x.x0 = never → ∃ info : Word64, exec .setWriteSplice s = .next (s.faulted .operand info))
    ∧ (s.x.x0 ≠ never →
      (s.motor = false ∨ s.diskPresent = false ∨ s.allocTracks.toNat ≤ s.cyl.toNat ∨ s.allocSides.toNat ≤ s.head) →
      exec .setWriteSplice s = .next { s with st := 0x01 })
    ∧ (s.x.x0 ≠ never → s.motor = true → s.diskPresent = true → s.cyl.toNat < s.allocTracks.toNat →
      s.head < s.allocSides.toNat → Memory.wf s = true →
      ∃ t : State, exec .setWriteSplice s = .next t
        ∧ t = { s with trk := t.trk, dirtyLoad := true, dirtyRestore := true, imgChanged := true, st := 0x00 }
        ∧ (t.trackAt s.cyl.toNat s.head).splice.toNat = anglePos s.cfg.rpm s.t0.toNat s.x.x0.toNat
        ∧ t.buf s.cyl.toNat s.head = s.buf s.cyl.toNat s.head
        ∧ (t.trackAt s.cyl.toNat s.head).hasDamaged = (s.trackAt s.cyl.toNat s.head).hasDamaged
        ∧ ∀ c h : Nat, h < 2 ^ 32 → (c ≠ s.cyl.toNat ∨ h ≠ s.head) → t.trackAt c h = s.trackAt c h)
    ∧ exec .setSeed s = .next { s with seed := s.x.x0, cache := { s.cache with valid := false }, st := 0x00 }

/-! ### COD -/

/-- 42_codec.md R130 to R136: the bit writers. `n` bits of X1, from bit n-1 down to bit 0, are appended: one cell each (`RAW_W`), a 1
clock and the data cell (`FM_W`), or the clock NOT(previous OR current) and the data cell (`MFM_W`), each of the size operand's duration.
A count above 32 or a size of 2^28 and above faults. Where the last word of `CL` has a reserved kind or the duration 0, `MFM_W`, which
reads it, faults with `F_CELLS` (30_encoding.md R72; log entry 21). -/
def Obligations.BitWriterCells : Prop :=
  (∀ s : State, exec .clClear s = .next { s with cl := [], st := 0x00 })
    ∧ ∀ (s : State) (n d : Nat), n = s.x.x0.toNat → d = (if s.x.x2.toNat = 0 then 1000 else s.x.x2.toNat) →
      (n ≤ 32 → s.x.x2.toNat < 2 ^ 28 →
        (∃ t : State, exec .rawW s = .next t ∧ t = { s with cl := t.cl, st := 0x00 } ∧ t.cl.length = s.cl.length + n
          ∧ t.cl.take s.cl.length = s.cl
          ∧ ∀ j : Nat, j < n → t.cl[s.cl.length + j]? = some (bitCell (s.x.x1.getLsbD (n - 1 - j)) d))
        ∧ (∃ t : State, exec .fmW s = .next t ∧ t = { s with cl := t.cl, st := 0x00 } ∧ t.cl.length = s.cl.length + 2 * n
          ∧ t.cl.take s.cl.length = s.cl
          ∧ ∀ j : Nat, j < n → t.cl[s.cl.length + 2 * j]? = some (bitCell true d)
              ∧ t.cl[s.cl.length + 2 * j + 1]? = some (bitCell (s.x.x1.getLsbD (n - 1 - j)) d))
        ∧ ((∀ w : Word32, s.cl.getLast? = some w → kindOf w ≠ none ∧ evPos w ≠ 0) →
          ∃ t : State, exec .mfmW s = .next t ∧ t = { s with cl := t.cl, st := 0x00 } ∧ t.cl.length = s.cl.length + 2 * n
            ∧ t.cl.take s.cl.length = s.cl
            ∧ ∀ (j : Nat) (p : Bool), j < n → p = (if j = 0 then prevBit s.cl else s.x.x1.getLsbD (n - j)) →
                t.cl[s.cl.length + 2 * j]? = some (bitCell (!(p || s.x.x1.getLsbD (n - 1 - j))) d)
                  ∧ t.cl[s.cl.length + 2 * j + 1]? = some (bitCell (s.x.x1.getLsbD (n - 1 - j)) d))
        ∧ ((∃ w : Word32, s.cl.getLast? = some w ∧ (kindOf w = none ∨ evPos w = 0)) →
          ∃ info : Word64, exec .mfmW s = .next (s.faulted .cells info)))
      ∧ ((32 < n ∨ 2 ^ 28 ≤ s.x.x2.toNat) →
        (∃ info : Word64, exec .rawW s = .next (s.faulted .operand info))
          ∧ (∃ info : Word64, exec .fmW s = .next (s.faulted .operand info))
          ∧ ∃ info : Word64, exec .mfmW s = .next (s.faulted .operand info))

/-- 42_codec.md R153 to R156: `GEN_FROM_CELLS` on an allocated track. A bad word faults; the empty list gives the empty track; otherwise
the words, parity-fixed from word σ mod m on (an odd number of `BIT1` words is made even by toggling the first bit cell in that cyclic
order), give one event each at their start (a transition at the middle of its cell), scaled to one revolution, and the list is stored
where it is WF and faults where it is not. A list of bit cells of at most one revolution is never rejected, and the number of `Flux`
events is even. Only this track, the flags, the cache and `ST` change. -/
def Obligations.GenFromCellsResult : Prop :=
  ∀ (s : State) (c h m : Nat), c = s.x.x0.toNat → h = s.x.x1.toNat → m = s.cl.length → s.diskPresent = true →
    c < s.allocTracks.toNat → h < s.allocSides.toNat →
    ((∃ w ∈ s.cl, kindOf w = none ∨ evPos w = 0) → exec .genFromCells s = .next (s.faulted .cells 0))
    ∧ ((∀ w ∈ s.cl, kindOf w ≠ none ∧ evPos w ≠ 0) →
      ∀ (W : List Word32) (S : Nat → Nat) (L : List Word32),
        W = parityFix s.cl (s.x.x2.toNat % m) → (∀ i : Nat, S i = ((W.take i).map evPos).sum) →
        L = (List.range m).flatMap (fun i =>
              match kindOf (W.getD i 0) with
              | some .bit1 => [mkEvent .flux (200000000 * (S i + evPos (W.getD i 0) / 2) / S m)]
              | some .nonMag => [mkEvent .nonMagnetized (200000000 * S i / S m)]
              | some .dam => [mkEvent .damaged (200000000 * S i / S m)]
              | some .zoneEnd => [mkEvent .endOfZone (200000000 * S i / S m)]
              | some .bit0 => []
              | none => []) →
        W.countP (fun w => kindOf w == some .bit1) % 2 = 0
          ∧ (s.cl.countP (fun w => kindOf w == some .bit1) % 2 = 0 → W = s.cl)
          ∧ (s.cl.countP (fun w => kindOf w == some .bit1) % 2 = 1 →
            ∃ (k : Nat) (w : Word32), k < m ∧ s.cl[(s.x.x2.toNat % m + k) % m]? = some w
              ∧ (∀ j : Nat, j < k → kindOf (s.cl.getD ((s.x.x2.toNat % m + j) % m) 0) ≠ some .bit0
                  ∧ kindOf (s.cl.getD ((s.x.x2.toNat % m + j) % m) 0) ≠ some .bit1)
              ∧ (kindOf w = some .bit0 ∧ W = s.cl.set ((s.x.x2.toNat % m + k) % m) (mkCell .bit1 (evPos w))
                ∨ kindOf w = some .bit1 ∧ W = s.cl.set ((s.x.x2.toNat % m + k) % m) (mkCell .bit0 (evPos w))))
          ∧ (fluxPositions L).length % 2 = 0
          ∧ (wfTrack L = false → exec .genFromCells s = .next (s.faulted .cells 0))
          ∧ ((∀ w ∈ s.cl, kindOf w = some .bit0 ∨ kindOf w = some .bit1) → S m ≤ 200000000 → wfTrack L = true)
          ∧ (wfTrack L = true → Memory.wf s = true →
            ∃ t : State, exec .genFromCells s = .next t
              ∧ t = { s with
                      trk := t.trk, dirtyLoad := true, dirtyRestore := true, imgChanged := true
                      cache := { s.cache with valid := false }, st := 0x00 }
              ∧ t.buf c h = L ∧ (t.trackAt c h).hasDamaged = hasTag .damaged L
              ∧ (t.trackAt c h).splice.toNat = (if m = 0 then 0 else 200000000 * S (s.x.x2.toNat % m) / S m)
              ∧ ∀ c' h' : Nat, h' < 2 ^ 32 → (c' ≠ c ∨ h' ≠ h) → t.trackAt c' h' = s.trackAt c' h'))

/-- 42_codec.md R137: `GEN_TRACK` on an allocated track. A size operand of 2^28 or above faults (R130), whatever the program is: that this
check comes before the program runs is the model's reading (log entry 13). Where the program runs to its `END`, a cell count that is not
the track size faults with `F_TRACK_SIZE` and the count; otherwise it does `GEN_FROM_CELLS(c, h, 0)` on the cells, and leaves them in
`CL`. -/
def Obligations.GenTrackRunsProgram : Prop :=
  ∀ (s : State) (d : Nat) (g : Interp), s.diskPresent = true → s.x.x0.toNat < s.allocTracks.toNat →
    s.x.x1.toNat < s.allocSides.toNat →
    (2 ^ 28 ≤ s.x.x3.toNat → ∃ info : Word64, exec .genTrack s = .next (s.faulted .operand info))
    ∧ (s.x.x3.toNat < 2 ^ 28 → d = (if s.x.x3.toNat = 0 then 1000 else s.x.x3.toNat) →
    ProgramRuns s.desc s.sdl (startInterp s.x.x0.toNat s.x.x1.toNat s.x.x2.toNat d) g →
    (g.cl.length ≠ s.x.x2.toNat → g.cl.length < 2 ^ 64 →
      exec .genTrack s = .next (s.faulted .trackSize (BitVec.ofNat 64 g.cl.length)))
    ∧ (g.cl.length = s.x.x2.toNat →
      (∀ code : FaultCode, cellsToTrack g.cl 0 = .error code → exec .genTrack s = .next (s.faulted code 0))
      ∧ ∀ (L : List Word32) (splice : Nat), cellsToTrack g.cl 0 = .ok (L, splice) → Memory.wf s = true →
        ∃ t : State, exec .genTrack s = .next t
          ∧ t = { s with
                  cl := g.cl, trk := t.trk, dirtyLoad := true, dirtyRestore := true, imgChanged := true
                  cache := { s.cache with valid := false }, st := 0x00 }
          ∧ t.buf s.x.x0.toNat s.x.x1.toNat = L
          ∧ (t.trackAt s.x.x0.toNat s.x.x1.toNat).splice = BitVec.ofNat 32 splice
          ∧ (t.trackAt s.x.x0.toNat s.x.x1.toNat).hasDamaged = hasTag .damaged L
          ∧ ∀ c h : Nat, h < 2 ^ 32 → (c ≠ s.x.x0.toNat ∨ h ≠ s.x.x1.toNat) → t.trackAt c h = s.trackAt c h))

/-- 42_codec.md R137: `GEN_TRACK` is its elements one after another: some number of single steps of the descriptor interpreter ends in
exactly the state that the command ends in (log entry 5). -/
def Obligations.GenTrackIsItsElements : Prop :=
  ∀ (s : State) (d : Nat), s.gen = none → s.diskPresent = true → s.x.x0.toNat < s.allocTracks.toNat →
    s.x.x1.toNat < s.allocSides.toNat → s.x.x3.toNat < 2 ^ 28 → d = (if s.x.x3.toNat = 0 then 1000 else s.x.x3.toNat) →
    ∃ n : Nat, Host.Core.run core n { s with gen := some (startInterp s.x.x0.toNat s.x.x1.toNat s.x.x2.toNat d) }
      = exec .genTrack s

/-- 42_codec.md R140: the literal elements write their byte, or their 16-bit pattern, `p2` times, most significant bit first, and go on to
the next element. No list of `GEN_TRACK` ends in a word that cannot be read; of one that does, the elements take the previous bit as
`prevBit` gives it (log entry 21). -/
def Obligations.LiteralElements : Prop :=
  ∀ (s : State) (g : Interp), s.gen = some g →
    (∀ (byte : Byte) (count : Word32),
      exec (.fm byte count) s = .next { s with gen := some { g with
        cl := g.cl ++ fmCells g.cellSize (List.replicate count.toNat (byteBits byte)).flatten, dpc := g.dpc + 1 } })
    ∧ (∀ (byte : Byte) (count : Word32),
      exec (.mfm byte count) s = .next { s with gen := some { g with
        cl := g.cl ++ mfmCells g.cellSize (prevBit g.cl) (List.replicate count.toNat (byteBits byte)).flatten
        dpc := g.dpc + 1 } })
    ∧ ∀ (pattern : BitVec 16) (count : Word32),
      exec (.raw pattern count) s = .next { s with gen := some { g with
        cl := g.cl ++ rawCells g.cellSize
          (List.replicate count.toNat ((List.range 16).map (fun j => pattern.getMsbD j))).flatten
        dpc := g.dpc + 1 } }

/-- 42_codec.md R141, R142, R147, R151: the elements that write the track and head numbers, the current sector's id and size, and its
payload. Without a current sector they fault with `F_DESC`, and on a payload that is not `actual_size` bytes with `F_OPERAND`; a field
above a byte writes its low 8 bits (log entry 11), and `FINFO` is 0 for these faults, which the rules state in words (log entry 12). No
list of `GEN_TRACK` ends in a word that cannot be read; of one that does, the elements take the previous bit as `prevBit` gives it (log
entry 21). -/
def Obligations.RecordElements : Prop :=
  ∀ (s : State) (g : Interp), s.gen = some g →
    (∀ l : List Bool, l = byteBits (BitVec.ofNat 8 g.c) →
      exec .trackId s = .next { s with gen := some { g with
        cl := g.cl ++ mfmCells g.cellSize (prevBit g.cl) l, dpc := g.dpc + 1 } }
      ∧ exec .trackIdFm s = .next { s with gen := some { g with cl := g.cl ++ fmCells g.cellSize l, dpc := g.dpc + 1 } })
    ∧ (∀ l : List Bool, l = byteBits (BitVec.ofNat 8 g.h) →
      exec .headId s = .next { s with gen := some { g with
        cl := g.cl ++ mfmCells g.cellSize (prevBit g.cl) l, dpc := g.dpc + 1 } }
      ∧ exec .headIdFm s = .next { s with gen := some { g with cl := g.cl ++ fmCells g.cellSize l, dpc := g.dpc + 1 } })
    ∧ (∀ (k : Nat) (r : SectorDesc), g.cur = some k → s.sdl[k]? = some r →
      exec .sectorId s = .next { s with gen := some { g with
        cl := g.cl ++ mfmCells g.cellSize (prevBit g.cl) (byteBits (BitVec.ofNat 8 r.sector)), dpc := g.dpc + 1 } }
      ∧ exec .sectorIdFm s = .next { s with gen := some { g with
        cl := g.cl ++ fmCells g.cellSize (byteBits (BitVec.ofNat 8 r.sector)), dpc := g.dpc + 1 } }
      ∧ exec .sizeId s = .next { s with gen := some { g with
        cl := g.cl ++ mfmCells g.cellSize (prevBit g.cl) (byteBits (BitVec.ofNat 8 r.size)), dpc := g.dpc + 1 } }
      ∧ exec .sizeIdFm s = .next { s with gen := some { g with
        cl := g.cl ++ fmCells g.cellSize (byteBits (BitVec.ofNat 8 r.size)), dpc := g.dpc + 1 } }
      ∧ (r.data.length = r.actualSize.toNat →
        exec .sectorData s = .next { s with gen := some { g with
          cl := g.cl ++ mfmCells g.cellSize (prevBit g.cl) (r.data.flatMap byteBits), dpc := g.dpc + 1 } }
        ∧ exec .sectorDataFm s = .next { s with gen := some { g with
          cl := g.cl ++ fmCells g.cellSize (r.data.flatMap byteBits), dpc := g.dpc + 1 } })
      ∧ (r.data.length ≠ r.actualSize.toNat →
        exec .sectorData s = .next ({ s with gen := none }.faulted .operand 0)
        ∧ exec .sectorDataFm s = .next ({ s with gen := none }.faulted .operand 0)))
    ∧ (g.cur = none → ∀ i : Instr,
      (i = .sectorId ∨ i = .sectorIdFm ∨ i = .sizeId ∨ i = .sizeIdFm ∨ i = .sectorData ∨ i = .sectorDataFm) →
      exec i s = .next ({ s with gen := none }.faulted .desc 0))

/-- 42_codec.md R143 to R145, R149: the CRC region elements. `CRC_CCITT_START` opens a region at the next cell, `CRC_END` closes it there,
and `CRC` writes the CRC of the region's data cells (44_crc.md R177), most significant bit first, in the region's encoding. A region above
15, one not started, and for `CRC` one not ended, fault with `F_DESC`, with `FINFO = 0` (log entry 12). Where `CRC_CELLS` faults over the
region, so does `CRC`. No list of `GEN_TRACK` holds a word that cannot be read; the previous bit after one, and a region with a bit cell
of duration 0, are the model's reading (log entries 21 and 22). -/
def Obligations.CrcElements : Prop :=
  ∀ (s : State) (g : Interp) (id : Word32), s.gen = some g →
    (id.toNat ≤ 15 → ∀ (i : Instr) (enc : Encoding),
      (i = .crcCcittStart id ∧ enc = .mfm ∨ i = .crcCcittFmStart id ∧ enc = .fm) →
      ∃ g' : Interp, exec i s = .next { s with gen := some g' }
        ∧ g' = { g with regions := g'.regions, dpc := g.dpc + 1 }
        ∧ g'.region id.toNat = some { kind := enc, start := g.cl.length, stop := none }
        ∧ ∀ q : Nat, q ≠ id.toNat → g'.region q = g.region q)
    ∧ (∀ r : CrcRegion, id.toNat ≤ 15 → g.region id.toNat = some r →
      (∃ g' : Interp, exec (.crcEnd id) s = .next { s with gen := some g' }
        ∧ g' = { g with regions := g'.regions, dpc := g.dpc + 1 }
        ∧ g'.region id.toNat = some { kind := r.kind, start := r.start, stop := some g.cl.length }
        ∧ ∀ q : Nat, q ≠ id.toNat → g'.region q = g.region q)
      ∧ (r.stop = none → exec (.crc id) s = .next ({ s with gen := none }.faulted .desc 0))
      ∧ ∀ (stop : Nat) (v : BitVec 16), r.stop = some stop → crcOfCells g.cl r.start stop = .ok v →
        exec (.crc id) s = .next { s with gen := some { g with
          cl := g.cl ++ (match r.kind with
                         | .mfm => mfmCells g.cellSize (prevBit g.cl) ((List.range 16).map (fun j => v.getMsbD j))
                         | .fm => fmCells g.cellSize ((List.range 16).map (fun j => v.getMsbD j)))
          dpc := g.dpc + 1 } })
    ∧ (∀ (r : CrcRegion) (stop : Nat) (code : FaultCode), id.toNat ≤ 15 → g.region id.toNat = some r → r.stop = some stop →
      crcOfCells g.cl r.start stop = .error code → exec (.crc id) s = .next ({ s with gen := none }.faulted code 0))
    ∧ ((15 < id.toNat ∨ g.region id.toNat = none) →
      exec (.crcEnd id) s = .next ({ s with gen := none }.faulted .desc 0)
      ∧ exec (.crc id) s = .next ({ s with gen := none }.faulted .desc 0))
    ∧ (15 < id.toNat →
      exec (.crcCcittStart id) s = .next ({ s with gen := none }.faulted .desc 0)
      ∧ exec (.crcCcittFmStart id) s = .next ({ s with gen := none }.faulted .desc 0))

/-- 42_codec.md R139, R146, R148, R149: the sector loop, `SECTOR_INTERLEAVE_SKIP` and `END`, which does `GEN_FROM_CELLS(c, h, 0)` on the
cells (R137): it faults with the code of a cell list that is rejected, and else writes the one track. `FINFO` is 0 for the faults that the
rules state in words (log entry 12). -/
def Obligations.LoopElements : Prop :=
  ∀ (s : State) (g : Interp), s.gen = some g →
    (∀ il sk : Word32, exec (.sectorInterleaveSkip il sk) s = .next { s with gen := some { g with
      il := il.toNat, sk := sk.toNat, dpc := g.dpc + 1 } })
    ∧ (∀ first last : Word32,
      ((g.loop ≠ none ∨ last < first) →
        exec (.sectorLoopStart first last) s = .next ({ s with gen := none }.faulted .desc 0))
      ∧ (g.loop = none → first ≤ last → s.sdl.length ≤ last.toNat →
        exec (.sectorLoopStart first last) s = .next ({ s with gen := none }.faulted .bounds 0))
      ∧ (g.loop = none → first ≤ last → last.toNat < s.sdl.length →
        ∀ order : List Nat, order = sectorOrder (last.toNat - first.toNat + 1) g.il g.sk g.c →
        exec (.sectorLoopStart first last) s = .next { s with gen := some { g with
          loop := some { start := g.dpc, first := first.toNat, last := last.toNat, order := order, k := 0 }
          cur := some (first.toNat + order.getD 0 0), dpc := g.dpc + 1 } }))
    ∧ (g.loop = none →
      exec .sectorLoopEnd s = .next ({ s with gen := none }.faulted .desc 0)
      ∧ (g.cl.length ≠ g.trackSize → g.cl.length < 2 ^ 64 →
        exec .endDesc s = .next ({ s with gen := none }.faulted .trackSize (BitVec.ofNat 64 g.cl.length)))
      ∧ (g.cl.length = g.trackSize → s.diskPresent = true → g.c < s.allocTracks.toNat → g.h < s.allocSides.toNat →
        (∀ code : FaultCode, cellsToTrack g.cl 0 = .error code → exec .endDesc s = .next ({ s with gen := none }.faulted code 0))
        ∧ ∀ (L : List Word32) (splice : Nat), cellsToTrack g.cl 0 = .ok (L, splice) → Memory.wf s = true →
        ∃ t : State, exec .endDesc s = .next t
          ∧ t = { s with
                  gen := none, cl := g.cl, trk := t.trk, dirtyLoad := true, dirtyRestore := true, imgChanged := true
                  cache := { s.cache with valid := false }, st := 0x00 }
          ∧ t.buf g.c g.h = L ∧ (t.trackAt g.c g.h).splice = BitVec.ofNat 32 splice
          ∧ (t.trackAt g.c g.h).hasDamaged = hasTag .damaged L
          ∧ ∀ c h : Nat, h < 2 ^ 32 → (c ≠ g.c ∨ h ≠ g.h) → t.trackAt c h = s.trackAt c h))
    ∧ ∀ l : SectorLoop, g.loop = some l →
      exec .endDesc s = .next ({ s with gen := none }.faulted .desc 0)
      ∧ (l.k + 1 < l.last - l.first + 1 →
        exec .sectorLoopEnd s = .next { s with gen := some { g with
          loop := some { l with k := l.k + 1 }, cur := some (l.first + l.order.getD (l.k + 1) 0), dpc := l.start + 1 } })
      ∧ (l.last - l.first + 1 ≤ l.k + 1 →
        exec .sectorLoopEnd s = .next { s with gen := some { g with loop := none, cur := none, dpc := g.dpc + 1 } })

/-- 42_codec.md R146 and R148: the physical order of `n` sectors holds each sector once, so a loop's body runs once per sector; and the
two examples of R148. -/
def Obligations.SectorOrderIsPermutation : Prop :=
  (∀ n il sk c : Nat, (sectorOrder n il sk c).Perm (List.range n))
    ∧ (∀ c : Nat, sectorOrder 9 2 0 c = [0, 5, 1, 6, 2, 7, 3, 8, 4])
    ∧ sectorOrder 9 1 1 2 = [7, 8, 0, 1, 2, 3, 4, 5, 6]

/-- 42_codec.md R150 to R152: the PC track builders on an allocated track. Bad operands and records fault, before anything is built and
with `FINFO = 0` (log entries 11, 12 and 13). With no room they end with `LAYOUT_OVERFLOW`. Otherwise there is one list of exactly
`cell_count` cells of 1000 units: the items of the layout one after another, with gap3 shrunk where the sectors need it, then the filler
bytes of gap4b, cut at `cell_count`. The track is what `GEN_FROM_CELLS(c, h, 0)` makes of those cells, which end in `CL`, and at most
200,000 of them (one revolution at the default cell size, R130 and R156) are never rejected. -/
def Obligations.BuilderResult : Prop :=
  ∀ (s : State) (n gap3 gap4a gap1 gap2 : Nat) (noIam : Bool) (i : Instr) (enc : Encoding) (fixed : Nat),
    n = s.x.x2.toNat → gap3 = s.x.x3.toNat → gap4a = s.x.x4.toNat → gap1 = s.x.x5.toNat → gap2 = s.x.x6.toNat →
    noIam = s.x.x7.getLsbD 0 →
    s.diskPresent = true → s.x.x0.toNat < s.allocTracks.toNat → s.x.x1.toNat < s.allocSides.toNat →
    (i = .buildPcMfm ∧ enc = .mfm ∧ fixed = 16 * (gap4a + 12 + (if noIam then 0 else 4) + gap1
        + (s.sdl.map (fun r => 12 + 8 + 2 + gap2 + 12 + 4 + r.data.length + 2)).sum)
      ∨ i = .buildPcFm ∧ enc = .fm ∧ fixed = 16 * (gap4a + 6 + (if noIam then 0 else 1) + gap1
        + (s.sdl.map (fun r => 6 + 5 + 2 + gap2 + 6 + 1 + r.data.length + 2)).sum)) →
    ((n = 0 ∨ ∃ r ∈ s.sdl, 255 < r.track ∨ 255 < r.head ∨ 255 < r.sector ∨ 255 < r.size ∨ r.data.length ≠ r.actualSize.toNat) →
      exec i s = .next (s.faulted .operand 0))
    ∧ (1 ≤ n →
      (∀ r ∈ s.sdl, r.track ≤ 255 ∧ r.head ≤ 255 ∧ r.sector ≤ 255 ∧ r.size ≤ 255 ∧ r.data.length = r.actualSize.toNat) →
      (n < fixed → exec i s = .next { s with st := 0x04 })
      ∧ (fixed ≤ n → ∀ gap : Nat,
        gap = (if s.sdl.length = 0 ∨ fixed + 16 * gap3 * s.sdl.length ≤ n then gap3 else (n - fixed) / (16 * s.sdl.length)) →
        ∃ cl : List Word32, cl.length = n
          ∧ (∀ w ∈ cl, w = bitCell true 1000 ∨ w = bitCell false 1000)
          ∧ (∀ q : Nat, HoldsItem enc cl q
              ((trackItems enc noIam gap4a gap1 gap2 gap s.sdl)[q]?.getD (.byte (fillByte enc))))
          ∧ (n ≤ 200000 → ∃ (L : List Word32) (splice : Nat), cellsToTrack cl 0 = .ok (L, splice))
          ∧ (∀ code : FaultCode, cellsToTrack cl 0 = .error code → exec i s = .next (s.faulted code 0))
          ∧ ∀ (L : List Word32) (splice : Nat), cellsToTrack cl 0 = .ok (L, splice) → Memory.wf s = true →
            ∃ t : State, exec i s = .next t
              ∧ t = { s with
                      cl := cl, trk := t.trk, dirtyLoad := true, dirtyRestore := true, imgChanged := true
                      cache := { s.cache with valid := false }, st := 0x00 }
              ∧ t.buf s.x.x0.toNat s.x.x1.toNat = L
              ∧ (t.trackAt s.x.x0.toNat s.x.x1.toNat).splice.toNat = 0
              ∧ (t.trackAt s.x.x0.toNat s.x.x1.toNat).hasDamaged = false
              ∧ ∀ c h : Nat, h < 2 ^ 32 → (c ≠ s.x.x0.toNat ∨ h ≠ s.x.x1.toNat) → t.trackAt c h = s.trackAt c h))

/-- 43_pll_extract.md R160 to R164: `GEN_BITSTREAM` completes and writes `BS`, X0 and `ST` only. On a WF track its bits are those of the
PLL: window `j` runs from `cur j` over `max(1, P + ph)` units, its bit says whether an unrolled edge lies in it, and the first such edge
corrects the phase and the period for the next window; the windows start at the splice and go on until they have covered one revolution. A
track with no `Flux` event gives `ceil(REV_UNITS / P0)` zeros (R164 a); a regular track with the splice 0, read at its own cell size,
gives its cells (R164 b). -/
def Obligations.BitstreamResult : Prop :=
  ∀ (s : State) (p0 : Nat), s.diskPresent = true → s.x.x0.toNat < s.allocTracks.toNat → s.x.x1.toNat < s.allocSides.toNat →
    (2 ^ 28 ≤ s.x.x2.toNat → exec .genBitstream s = .next (s.faulted .operand 0))
    ∧ (s.x.x2.toNat < 2 ^ 28 → p0 = (if s.x.x2.toNat = 0 then 1000 else s.x.x2.toNat) →
      ∃ bs : List Bool, exec .genBitstream s = .next { s with bs := bs, x := { s.x with x0 := BitVec.ofNat 64 bs.length }, st := 0x00 }
        ∧ (∀ isEdge : Int → Prop, wfTrack (s.buf s.x.x0.toNat s.x.x1.toNat) = true →
            (∀ y : Int, isEdge y ↔ ∃ f ∈ fluxPositions (s.buf s.x.x0.toNat s.x.x1.toNat), y % 200000000 = f) →
            ∃ P ph cur scanned : Nat → Int,
              P 0 = p0 ∧ ph 0 = 0 ∧ cur 0 = (s.trackAt s.x.x0.toNat s.x.x1.toNat).splice.toNat ∧ scanned 0 = 0
              ∧ 200000000 ≤ scanned bs.length
              ∧ ∀ j : Nat, j < bs.length →
                  scanned j < 200000000 ∧ cur (j + 1) = cur j + max 1 (P j + ph j)
                    ∧ scanned (j + 1) = scanned j + max 1 (P j + ph j)
                    ∧ ((∀ y : Int, cur j ≤ y → y < cur (j + 1) → ¬ isEdge y) →
                        bs[j]? = some false ∧ ph (j + 1) = 0 ∧ P (j + 1) = P j)
                    ∧ ∀ e delta : Int, cur j ≤ e → e < cur (j + 1) → isEdge e → (∀ y : Int, cur j ≤ y → y < e → ¬ isEdge y) →
                        delta = e - (cur (j + 1) - P j / 2) →
                        bs[j]? = some true ∧ ph (j + 1) = (65 * delta).tdiv 100
                          ∧ P (j + 1) = min (5 * (p0 : Int) / 4) (max (3 * (p0 : Int) / 4) (P j + (5 * p0 * delta).tdiv (100 * P j))))
        ∧ ((∀ e ∈ s.buf s.x.x0.toNat s.x.x1.toNat, tagOf e ≠ some .flux) →
            bs = List.replicate ((200000000 + p0 - 1) / p0) false)
        ∧ ∀ bits : List Bool, p0 * bits.length = 200000000 → (s.trackAt s.x.x0.toNat s.x.x1.toNat).splice = 0 →
            fluxPositions (s.buf s.x.x0.toNat s.x.x1.toNat)
              = ((List.range bits.length).filter (fun j => bits.getD j false)).map (fun j => p0 * j + p0 / 2) →
            bs = bits)

/-- 43_pll_extract.md R166 to R171: the extractors complete from every state and write `SECT`, X0 and `ST` only. `SECT` is what `ASSEMBLE`
makes of the ID and data fields that the hunt finds: for MFM the fields after a run of syncs and a mark word (R166, R167) with `WIN_MFM`
(R168), for FM those after a mark word (R170) with `WIN_FM` (R171). X0 is the number of slots that are not absent; a slot that is filled
holds no byte or `128 << n` bytes with `n < 8`; and a bit stream of zeros holds no sector. -/
def Obligations.ExtractorsResult : Prop :=
  ∀ (s : State) (i : Instr), i = .extractMfm ∨ i = .extractFm →
    ∃ (v : Vector (Option (List Byte)) 256) (ids dams : List Nat),
      exec i s = .next { s with
        sect := v, x := { s.x with x0 := BitVec.ofNat 64 (v.toList.countP Option.isSome) }, st := 0x00 }
      ∧ (i = .extractMfm → MfmHunt s.bs 0 ids dams
        ∧ ∀ k : Fin 256, v[k] = slotOf s.bs ids dams
            (fun d => decide (576 ≤ d ∧ d ≤ 832 ∨ 880 ≤ d ∧ d ≤ 1136)) k.val)
      ∧ (i = .extractFm →
        ids = ((List.range s.bs.length).filter (fun j => decide (windowWord s.bs j = 0xF57E))).map (· + 1)
        ∧ dams = ((List.range s.bs.length).filter
            (fun j => decide (windowWord s.bs j = 0xF56F ∨ windowWord s.bs j = 0xF56A))).map (· + 1)
        ∧ ∀ k : Fin 256, v[k] = slotOf s.bs ids dams (fun d => decide (256 ≤ d ∧ d ≤ 512)) k.val)
      ∧ (∀ (k : Fin 256) (l : List Byte), v[k] = some l → l.length = 0 ∨ ∃ n : Nat, n < 8 ∧ l.length = 128 * 2 ^ n)
      ∧ ((∀ b ∈ s.bs, b = false) → ∀ k : Fin 256, v[k] = none)

/-! ### CRC -/

/-- 44_crc.md R175, R177, R178, R181: the step of the register, the two commands with the order of their checks, and vectors of R181. That
a bit cell of duration 0 faults as a word of another kind does, with `FINFO = 0`, is the model's reading (log entries 22 and 12). -/
def Obligations.CrcCommands : Prop :=
  (∀ (crc : BitVec 16) (b : Bool),
    (crcStep crc b).toNat
      = if crc.getLsbD 15 != b then (2 * crc.toNat % 2 ^ 16) ^^^ 0x1021 else 2 * crc.toNat % 2 ^ 16)
    ∧ (∀ s : State,
        exec .crcBytes s = .next { s with
          x := { s.x with x0 := ((s.bytes.flatMap byteBits).foldl crcStep 0xFFFF#16).setWidth 64 }, st := 0x00 })
    ∧ (∀ (s : State) (a b : Nat), a = s.x.x0.toNat → b = s.x.x1.toNat →
        ((b < a ∨ (b - a) % 2 = 1) → exec .crcCells s = .next (s.faulted .operand 0))
        ∧ (a ≤ b → (b - a) % 2 = 0 → s.cl.length < b → exec .crcCells s = .next (s.faulted .bounds 0))
        ∧ (a ≤ b → (b - a) % 2 = 0 → b ≤ s.cl.length →
            (∃ j : Nat, a ≤ j ∧ j < b
              ∧ (kindOf (s.cl.getD j 0) ≠ some .bit0 ∧ kindOf (s.cl.getD j 0) ≠ some .bit1 ∨ evPos (s.cl.getD j 0) = 0)) →
            exec .crcCells s = .next (s.faulted .cells 0))
        ∧ (a ≤ b → (b - a) % 2 = 0 → b ≤ s.cl.length →
            (∀ j : Nat, a ≤ j → j < b →
              (kindOf (s.cl.getD j 0) = some .bit0 ∨ kindOf (s.cl.getD j 0) = some .bit1) ∧ evPos (s.cl.getD j 0) ≠ 0) →
            exec .crcCells s = .next { s with
              x := { s.x with
                x0 := (((List.range ((b - a) / 2)).map
                  (fun j => kindOf (s.cl.getD (a + 2 * j + 1) 0) == some .bit1)).foldl crcStep 0xFFFF#16).setWidth 64 }
              st := 0x00 }))
    ∧ crcOfBytes [] = 0xFFFF ∧ crcOfBytes [0xA1] = 0x443B
    ∧ crcOfBytes [0x31, 0x32, 0x33, 0x34, 0x35, 0x36, 0x37, 0x38, 0x39] = 0x29B1
    ∧ crcOfBytes [0xA1, 0xA1, 0xA1, 0xFE, 0, 0, 1, 2] = 0xCA6F

/-- 44_crc.md R179: over cells that a writer wrote for bytes, `CRC_CELLS` equals `CRC_BYTES` of the bytes; and the data cells of each raw
mark are those of its byte. The durations that a size operand gives are 1 to 2^28 - 1 (42_codec.md R130); that cells of duration 0 fault,
with `FINFO = 0`, is the model's reading (log entries 22 and 12). -/
def Obligations.CrcCellsAgreeWithBytes : Prop :=
  (∀ (s : State) (enc : Encoding) (d : Nat) (bytes : List Byte) (before after : List Word32),
    s.cl = writeBytes enc d bytes before ++ after → s.x.x0.toNat = before.length →
    s.x.x1.toNat = (writeBytes enc d bytes before).length →
    (1 ≤ d → d < 2 ^ 28 →
      exec .crcCells s = .next { s with x := { s.x with x0 := (crcOfBytes bytes).setWidth 64 }, st := 0x00 })
    ∧ (d = 0 → bytes ≠ [] → exec .crcCells s = .next (s.faulted .cells 0)))
    ∧ ∀ (d : Nat) (pattern : Nat) (byte : Byte),
        (pattern, byte) ∈ [(0x4489, 0xA1#8), (0x5224, 0xC2#8), (0xF57E, 0xFE#8), (0xF56F, 0xFB#8), (0xF56A, 0xF8#8), (0xF77A, 0xFC#8)] →
        ∀ cl : List Word32, dataBits ((writeRaw 16 pattern d cl).drop cl.length) = byteBits byte

/-- 44_crc.md R180: a byte string followed by its big-endian CRC has the residue 0, and with the CRC complemented it has not. -/
def Obligations.CrcResidue : Prop :=
  ∀ (B : List Byte) (c : BitVec 16), c = crcOfBytes B →
    crcOfBytes (B ++ [c.extractLsb' 8 8, c.extractLsb' 0 8]) = 0
      ∧ crcOfBytes (B ++ [(~~~c).extractLsb' 8 8, (~~~c).extractLsb' 0 8]) ≠ 0

/-! ### BUF -/

/-- 45_cell_buffer.md R182 and R183: `INSERT`, with its operand and geometry checks and its implicit `EJECT`, and `EJECT`. That the record
of their event holds no time is the model's choice (log entry 4). -/
def Obligations.InsertAndEject : Prop :=
  ∀ (s : State) (good : Prop),
    (good ↔ s.x.x1.toNat ≠ 0 ∧ 1 ≤ s.x.x2.toNat ∧ (s.x.x3.toNat = 1 ∨ s.x.x3.toNat = 2) ∧ s.x.x1.toNat < 2 ^ 32
      ∧ s.x.x2.toNat < 2 ^ 32 ∧ s.x.x4.toNat < 2 ^ 32 ∧ s.x.x5.toNat < 2 ^ 32 ∧ s.x.x6.toNat < 2 ^ 32
      ∧ (s.x.x7.getLsbD 0 = true → s.x.x4.toNat ≠ 0 ∧ s.x.x5.toNat ≠ 0)) →
    (¬ good → exec .insert s = .next (s.faulted .operand 0))
    ∧ (good → (s.cfg.driveSides < s.x.x3.toNat ∨ s.cfg.driveTracks + s.cfg.excessTracks < s.x.x2.toNat) →
      exec .insert s = .next { s with st := 0x06 })
    ∧ (good → s.x.x3.toNat ≤ s.cfg.driveSides → s.x.x2.toNat ≤ s.cfg.driveTracks + s.cfg.excessTracks →
      exec .insert s = .next { s with
        diskPresent := true
        props := { type := s.x.x1.setWidth 32, tracks := s.x.x2.setWidth 32, sides := s.x.x3.setWidth 32, spt := s.x.x4.setWidth 32
                   secsize := s.x.x5.setWidth 32, drate := s.x.x6.setWidth 32, desc := s.bytes, kind := s.x.x7.getLsbD 0 }
        allocTracks := s.x.x2.setWidth 32, allocSides := s.x.x3.setWidth 32, trk := [], rawsec := []
        wp := s.x.x0.getLsbD 0, dirtyLoad := false, dirtyRestore := false, imgChanged := true, door := true
        cache := { s.cache with valid := false }
        ready := s.ready && !s.motor && !s.diskPresent
        readyCnt := if s.motor then 2 else if s.diskPresent then 0 else s.readyCnt
        idx := s.idx && !s.diskPresent
        edges := if s.idx && s.diskPresent then s.edges ++ [{ level := false, time := none }] else s.edges
        idxTimer := if s.diskPresent then never else s.idxTimer, st := 0x00 })
    ∧ (s.diskPresent = false → exec .eject s = .next { s with st := 0x03 })
    ∧ (s.diskPresent = true →
      exec .eject s = .next { s with
        diskPresent := false
        props := { type := 0, tracks := 0, sides := 0, spt := 0, secsize := 0, drate := 0, desc := [], kind := false }
        allocTracks := 0, allocSides := 0, trk := [], rawsec := [], wp := false, dirtyLoad := false, dirtyRestore := false
        imgChanged := true, door := true, cache := { s.cache with valid := false }, ready := false, readyCnt := 0
        idx := false, edges := if s.idx then s.edges ++ [{ level := false, time := none }] else s.edges
        idxTimer := never, st := 0x00 })

/-- 45_cell_buffer.md R184, R188, R189: the commands that read the track store. `ACTUAL_GEOMETRY` reports one more than the greatest
cylinder and head of a non-empty list. -/
def Obligations.TrackReads : Prop :=
  ∀ (s : State) (c h : Nat), c = s.x.x0.toNat → h = s.x.x1.toNat →
    (s.diskPresent = false →
      exec .getBuffer s = .next { s with st := 0x03 } ∧ exec .trackIsFormatted s = .next { s with st := 0x03 }
        ∧ exec .actualGeometry s = .next { s with st := 0x03 })
    ∧ (s.diskPresent = true → (s.allocTracks.toNat ≤ c ∨ s.allocSides.toNat ≤ h) →
      exec .getBuffer s = .next (s.faulted .trackRange 0) ∧ exec .trackIsFormatted s = .next (s.faulted .trackRange 0))
    ∧ (s.diskPresent = true → c < s.allocTracks.toNat → h < s.allocSides.toNat →
      exec .getBuffer s = .next { s with
        tl := s.buf c h
        x := { s.x with
          x0 := BitVec.ofNat 64 (s.buf c h).length, x1 := (s.trackAt c h).splice.setWidth 64
          x2 := if (s.trackAt c h).hasDamaged then 1 else 0 }
        st := 0x00 }
      ∧ ((∃ e ∈ s.buf c h, tagOf e = some .flux) →
        exec .trackIsFormatted s = .next { s with x := { s.x with x0 := 1 }, st := 0x00 })
      ∧ ((∀ e ∈ s.buf c h, tagOf e ≠ some .flux) →
        exec .trackIsFormatted s = .next { s with x := { s.x with x0 := 0 }, st := 0x00 }))
    ∧ (s.diskPresent = true → Inv s → ∃ t : State, exec .actualGeometry s = .next t
      ∧ t = { s with x := { s.x with x0 := t.x.x0, x1 := t.x.x1 }, st := 0x00 }
      ∧ (∀ c' h' : Nat, c' < s.allocTracks.toNat → h' < s.allocSides.toNat → s.buf c' h' ≠ [] →
          c' < t.x.x0.toNat ∧ h' < t.x.x1.toNat)
      ∧ (∀ k : Nat, t.x.x0.toNat = k + 1 → ∃ h' : Nat, h' < s.allocSides.toNat ∧ s.buf k h' ≠ [])
      ∧ (∀ k : Nat, t.x.x1.toNat = k + 1 → ∃ c' : Nat, c' < s.allocTracks.toNat ∧ s.buf c' k ≠ []))

/-- 45_cell_buffer.md R185 and R186: `PUT_BUFFER` stores one track, `RESIZE_TRACKS` adds empty tracks, with their checks. -/
def Obligations.TrackWrites : Prop :=
  ∀ (s : State) (c h : Nat), c = s.x.x0.toNat → h = s.x.x1.toNat →
    (s.diskPresent = false →
      exec .putBuffer s = .next { s with st := 0x03 } ∧ exec .resizeTracks s = .next { s with st := 0x03 })
    ∧ (s.diskPresent = true → (s.allocTracks.toNat ≤ c ∨ s.allocSides.toNat ≤ h) →
      exec .putBuffer s = .next (s.faulted .trackRange 0))
    ∧ (s.diskPresent = true → c < s.allocTracks.toNat → h < s.allocSides.toNat →
      (200000000 ≤ s.x.x2.toNat → exec .putBuffer s = .next (s.faulted .operand 0))
      ∧ (s.x.x2.toNat < 200000000 → wfTrack s.tl = false → exec .putBuffer s = .next (s.faulted .cells 0))
      ∧ (s.x.x2.toNat < 200000000 → wfTrack s.tl = true → Memory.wf s = true →
        ∃ t : State, exec .putBuffer s = .next t
          ∧ t = { s with
                  trk := t.trk, dirtyLoad := true, dirtyRestore := true, imgChanged := true
                  cache := { s.cache with valid := false }, st := 0x00 }
          ∧ t.trackAt c h = { events := s.tl, splice := BitVec.ofNat 32 s.x.x2.toNat, hasDamaged := hasTag .damaged s.tl }
          ∧ ∀ c' h' : Nat, h' < 2 ^ 32 → (c' ≠ c ∨ h' ≠ h) → t.trackAt c' h' = s.trackAt c' h'))
    ∧ (s.diskPresent = true → 2 ^ 32 ≤ c → exec .resizeTracks s = .next (s.faulted .operand 0))
    ∧ (s.diskPresent = true → c ≤ s.allocTracks.toNat → exec .resizeTracks s = .next { s with st := 0x01 })
    ∧ (s.diskPresent = true → s.allocTracks.toNat < c → c < 2 ^ 32 →
      ∃ t : State, exec .resizeTracks s = .next t
        ∧ t = { s with
                trk := t.trk, allocTracks := t.allocTracks, cache := { s.cache with valid := false }, st := 0x00 }
        ∧ t.allocTracks.toNat = c
        ∧ (∀ c' h' : Nat, c' < s.allocTracks.toNat → h' < 2 ^ 32 → t.trackAt c' h' = s.trackAt c' h')
        ∧ ∀ c' h' : Nat, s.allocTracks.toNat ≤ c' → h' < 2 ^ 32 →
            t.trackAt c' h' = { events := [], splice := 0, hasDamaged := false })

/-- 45_cell_buffer.md R190 and R191: the sector commands on a raw-sector medium: their checks in order, and the bytes of `RAWSEC` they
read and write, all others unchanged. -/
def Obligations.SectorCommands : Prop :=
  ∀ (s : State) (c h r len off : Nat), c = s.x.x0.toNat → h = s.x.x1.toNat → r = s.x.x2.toNat → len = s.x.x3.toNat →
    off = ((c * s.props.sides.toNat + h) * s.props.spt.toNat + (r - 1)) * s.props.secsize.toNat →
    (s.diskPresent = false →
      exec .readSector s = .next { s with st := 0x03 } ∧ exec .writeSector s = .next { s with st := 0x03 })
    ∧ (s.diskPresent = true → s.props.kind = false →
      exec .readSector s = .next { s with st := 0x02 } ∧ exec .writeSector s = .next { s with st := 0x02 })
    ∧ (s.diskPresent = true → s.props.kind = true →
      (s.props.tracks.toNat ≤ c ∨ s.props.sides.toNat ≤ h ∨ r < 1 ∨ s.props.spt.toNat < r ∨ s.props.secsize.toNat < len) →
      exec .readSector s = .next (s.faulted .operand 0) ∧ exec .writeSector s = .next (s.faulted .operand 0))
    ∧ (s.diskPresent = true → s.props.kind = true → c < s.props.tracks.toNat → h < s.props.sides.toNat → 1 ≤ r → r ≤ s.props.spt.toNat →
      len ≤ s.props.secsize.toNat →
      (∃ t : State, exec .readSector s = .next t
        ∧ t = { s with bytes := t.bytes, x := { s.x with x0 := s.x.x3 }, st := 0x00 } ∧ t.bytes.length = len
        ∧ ∀ j : Nat, j < len → t.bytes[j]? = some (s.rawByte (off + j)))
      ∧ (s.bytes.length < len → exec .writeSector s = .next (s.faulted .bounds 0))
      ∧ (len ≤ s.bytes.length → s.wp = true → exec .writeSector s = .next { s with st := 0x01 })
      ∧ (len ≤ s.bytes.length → s.wp = false → Memory.wf s = true →
        ∃ t : State, exec .writeSector s = .next t
          ∧ t = { s with rawsec := t.rawsec, dirtyLoad := true, dirtyRestore := true, imgChanged := true, st := 0x00 }
          ∧ (∀ j : Nat, j < len → s.bytes[j]? = some (t.rawByte (off + j)))
          ∧ ∀ a : Nat, (a < off ∨ off + len ≤ a) → t.rawByte a = s.rawByte a))

/-- 45_cell_buffer.md R195 and R197: `SAVE_STATE` writes the stream of R195, byte by byte, and `LOAD_STATE` of that stream, on a disk of
the same allocated geometry, gives every track back. Any `LOAD_STATE` accepts exactly the streams of a flag and of acceptable tracks for
the disk's allocated geometry, gives those tracks, and rejects every other stream: one of another length, one with a dirty or has-damaged
byte above 1, a list that is not WF, a splice at or above `REV_UNITS`, or a flag that the list belies. -/
def Obligations.SaveThenLoadRestores : Prop :=
  (∀ s : State, Inv s → s.diskPresent = true →
    ∃ t : State, exec .saveState s = .next t
      ∧ t = { s with ckp := t.ckp, x := { s.x with x0 := BitVec.ofNat 64 t.ckp.length }, st := 0x00 }
      ∧ t.ckp = streamBytes s.dirtyLoad ((List.range s.allocTracks.toNat).flatMap (fun c =>
          (List.range s.allocSides.toNat).map (fun h => s.trackAt c h)))
      ∧ t.ckp.length = 1 + ((List.range s.allocTracks.toNat).map (fun c =>
          ((List.range s.allocSides.toNat).map (fun h => 13 + 4 * (s.buf c h).length)).sum)).sum
      ∧ (∀ u : State, u.diskPresent = true → u.allocTracks = s.allocTracks → u.allocSides = s.allocSides → u.ckp = t.ckp →
          exec .loadState u = .next { u with
            trk := s.trk, dirtyLoad := s.dirtyLoad, dirtyRestore := false, imgChanged := true
            cache := { u.cache with valid := false }, st := 0x00 })
      ∧ ∀ (u : State) (extra : List Byte) (n : Nat), u.diskPresent = true → u.allocTracks = s.allocTracks →
          u.allocSides = s.allocSides →
          (extra ≠ [] ∧ u.ckp = t.ckp ++ extra ∨ n < t.ckp.length ∧ u.ckp = t.ckp.take n) →
          exec .loadState u = .next { u with st := 0x05 })
    ∧ ∀ u : State, u.diskPresent = true →
      (∀ (dirty : Bool) (tracks : List Track), tracks.length = u.allocTracks.toNat * u.allocSides.toNat →
        (∀ r ∈ tracks, r.good) → u.ckp = streamBytes dirty tracks →
        ∃ t : State, exec .loadState u = .next t
          ∧ t = { u with
                  trk := t.trk, dirtyLoad := dirty, dirtyRestore := false, imgChanged := true
                  cache := { u.cache with valid := false }, st := 0x00 }
          ∧ (∀ c h : Nat, c < u.allocTracks.toNat → h < u.allocSides.toNat →
              tracks[c * u.allocSides.toNat + h]? = some (t.trackAt c h))
          ∧ ∀ c h : Nat, h < 2 ^ 32 → (u.allocTracks.toNat ≤ c ∨ u.allocSides.toNat ≤ h) →
              t.trackAt c h = { events := [], splice := 0, hasDamaged := false })
      ∧ ((¬ ∃ (dirty : Bool) (tracks : List Track), tracks.length = u.allocTracks.toNat * u.allocSides.toNat
            ∧ (∀ r ∈ tracks, r.good) ∧ u.ckp = streamBytes dirty tracks) →
          exec .loadState u = .next { u with st := 0x05 })
end

