-- ==== Sys2Proof/Laws/Memory.lean ====
section
/-!
SUPPORT. The laws of the sparse stores: read after write, what a write leaves alone, and the canonical form, which every memory operation
keeps and which makes equal memories equal data.
-/

namespace Sys2Proof.Machine

variable {α : Type}

/-! ### Reading -/

theorem Sparse.get_nil (d : α) (a : Nat) : Sparse.get d [] a = d := rfl

theorem Sparse.get_cons (d : α) (k : Nat) (v : α) (m : Sparse α) (a : Nat) :
    Sparse.get d ((k, v) :: m) a = if a = k then v else Sparse.get d m a := rfl

/-- Filtering by address: a dropped address reads as an unlisted one, a kept one as before. -/
theorem Sparse.get_filter (d : α) (p : Nat → Bool) (m : Sparse α) (a : Nat) :
    Sparse.get d (m.filter (fun e => p e.1)) a = if p a then Sparse.get d m a else d := by
  induction m with
  | nil => simp [Sparse.get_nil]
  | cons e m ih =>
    obtain ⟨k, v⟩ := e
    by_cases hk : p k <;> by_cases ha : a = k <;> simp_all [Sparse.get_cons]

theorem Sparse.length_read (d : α) (m : Sparse α) (a n : Nat) : (Sparse.read d m a n).length = n := by
  simp [Sparse.read]

theorem Sparse.getElem?_read (d : α) (m : Sparse α) (a n j : Nat) (h : j < n) :
    (Sparse.read d m a n)[j]? = some (Sparse.get d m (a + j)) := by
  simp [Sparse.read, h]

/-- An address that does not read as an unlisted one is listed with what it reads as. -/
theorem Sparse.mem_of_get {d : α} {m : Sparse α} {a : Nat} (h : Sparse.get d m a ≠ d) : (a, Sparse.get d m a) ∈ m := by
  induction m with
  | nil => exact absurd rfl h
  | cons e m ih =>
    obtain ⟨k, v⟩ := e
    rw [Sparse.get_cons] at h ⊢
    by_cases ha : a = k
    · simp [ha]
    · rw [if_neg ha] at h ⊢
      exact List.mem_cons_of_mem _ (ih h)

variable [DecidableEq α]

/-! ### The canonical form -/

theorem Sparse.wfFrom_mono {d : α} {lo lo' : Nat} {m : Sparse α} (h : Sparse.wfFrom d lo m = true) (hle : lo' ≤ lo) :
    Sparse.wfFrom d lo' m = true := by
  cases m with
  | nil => rfl
  | cons e m =>
    obtain ⟨k, v⟩ := e
    simp only [Sparse.wfFrom, Bool.and_eq_true, decide_eq_true_eq] at h ⊢
    exact ⟨⟨by omega, h.1.2⟩, h.2⟩

theorem Sparse.get_of_lt {d : α} {lo : Nat} {m : Sparse α} (h : Sparse.wfFrom d lo m = true) {a : Nat} (ha : a < lo) :
    Sparse.get d m a = d := by
  induction m generalizing lo with
  | nil => rfl
  | cons e m ih =>
    obtain ⟨k, v⟩ := e
    simp only [Sparse.wfFrom, Bool.and_eq_true, decide_eq_true_eq] at h
    rw [Sparse.get_cons, if_neg (by omega)]
    exact ih h.2 (by omega)

/-- Two canonical stores that read alike are one. -/
theorem Sparse.ext_from {d : α} {lo : Nat} {m m' : Sparse α} (h : Sparse.wfFrom d lo m = true)
    (h' : Sparse.wfFrom d lo m' = true) (hg : ∀ a, Sparse.get d m a = Sparse.get d m' a) : m = m' := by
  induction m generalizing lo m' with
  | nil =>
    cases m' with
    | nil => rfl
    | cons e m' =>
      obtain ⟨k, v⟩ := e
      have := hg k
      simp_all [Sparse.wfFrom, Sparse.get_cons, Sparse.get_nil]
  | cons e m ih =>
    obtain ⟨k, v⟩ := e
    cases m' with
    | nil =>
      have := hg k
      simp_all [Sparse.wfFrom, Sparse.get_cons, Sparse.get_nil]
    | cons e' m' =>
      obtain ⟨k', v'⟩ := e'
      simp only [Sparse.wfFrom, Bool.and_eq_true, decide_eq_true_eq, Bool.not_eq_true', decide_eq_false_iff_not] at h h'
      have hk : k = k' := by
        rcases Nat.lt_trichotomy k k' with hlt | heq | hgt
        · have := hg k
          rw [Sparse.get_cons, if_pos rfl, Sparse.get_cons, if_neg (by omega), Sparse.get_of_lt h'.2 (by omega)] at this
          exact absurd this h.1.2
        · exact heq
        · have := hg k'
          rw [Sparse.get_cons, if_neg (by omega), Sparse.get_cons, if_pos rfl, Sparse.get_of_lt h.2 (by omega)] at this
          exact absurd this.symm h'.1.2
      subst hk
      have hv : v = v' := by have := hg k; simpa [Sparse.get_cons] using this
      subst hv
      congr 1
      refine ih h.2 h'.2 (fun a => ?_)
      by_cases ha : a = k
      · subst ha
        rw [Sparse.get_of_lt h.2 (by omega), Sparse.get_of_lt h'.2 (by omega)]
      · have := hg a
        simpa [Sparse.get_cons, ha] using this

theorem Sparse.ext {d : α} {m m' : Sparse α} (h : Sparse.wf d m = true) (h' : Sparse.wf d m' = true)
    (hg : ∀ a, Sparse.get d m a = Sparse.get d m' a) : m = m' :=
  Sparse.ext_from h h' hg

/-- An entry of a canonical store is what its address reads as, and is not what an unlisted one reads as. -/
theorem Sparse.get_of_mem {d : α} {lo : Nat} {m : Sparse α} (h : Sparse.wfFrom d lo m = true) {e : Nat × α} (he : e ∈ m) :
    Sparse.get d m e.1 = e.2 ∧ e.2 ≠ d ∧ lo ≤ e.1 := by
  induction m generalizing lo with
  | nil => cases he
  | cons e' m ih =>
    obtain ⟨k, v⟩ := e'
    simp only [Sparse.wfFrom, Bool.and_eq_true, decide_eq_true_eq, Bool.not_eq_true', decide_eq_false_iff_not] at h
    rcases List.mem_cons.mp he with rfl | hm
    · exact ⟨by simp [Sparse.get_cons], h.1.2, h.1.1⟩
    · obtain ⟨h1, h2, h3⟩ := ih h.2 hm
      exact ⟨by rw [Sparse.get_cons, if_neg (by omega), h1], h2, by omega⟩

/-! ### Writing -/

/-- A write leaves every other address alone. -/
theorem Sparse.get_set_ne (d : α) (m : Sparse α) {a b : Nat} (v : α) (h : b ≠ a) :
    Sparse.get d (Sparse.set d m a v) b = Sparse.get d m b := by
  induction m with
  | nil =>
    by_cases hv : v = d <;> simp [Sparse.set, Sparse.get, hv, h]
  | cons e m ih =>
    obtain ⟨k, w⟩ := e
    simp only [Sparse.set]
    by_cases h1 : a < k
    · by_cases hv : v = d <;> simp [h1, hv, Sparse.get_cons, h]
    · by_cases h2 : a = k
      · subst h2
        by_cases hv : v = d <;> simp [hv, Sparse.get_cons, h]
      · simp [h1, h2, Sparse.get_cons, ih]

theorem Sparse.wfFrom_set {d : α} {lo : Nat} {m : Sparse α} (h : Sparse.wfFrom d lo m = true) {a : Nat} (ha : lo ≤ a) (v : α) :
    Sparse.wfFrom d lo (Sparse.set d m a v) = true := by
  induction m generalizing lo with
  | nil => by_cases hv : v = d <;> simp [Sparse.set, Sparse.wfFrom, hv, ha]
  | cons e m ih =>
    obtain ⟨k, w⟩ := e
    have h0 := h
    simp only [Sparse.wfFrom, Bool.and_eq_true, decide_eq_true_eq] at h
    simp only [Sparse.set]
    by_cases h1 : a < k
    · by_cases hv : v = d
      · simp [h1, hv, h0]
      · have hw : w ≠ d := by simpa using h.1.2
        simp [h1, hv, Sparse.wfFrom, ha, hw, h.2]
    · by_cases h2 : a = k
      · subst h2
        by_cases hv : v = d
        · simp [hv, Sparse.wfFrom_mono h.2 (show lo ≤ a + 1 by omega)]
        · simp [hv, Sparse.wfFrom, ha, h.2]
      · simp only [if_neg h1, if_neg h2, Sparse.wfFrom, Bool.and_eq_true, decide_eq_true_eq]
        exact ⟨h.1, ih h.2 (by omega)⟩

/-- A write keeps the canonical form. -/
theorem Sparse.wf_set {d : α} {m : Sparse α} (h : Sparse.wf d m = true) (a : Nat) (v : α) :
    Sparse.wf d (Sparse.set d m a v) = true :=
  Sparse.wfFrom_set h (Nat.zero_le a) v

/-- A read after a write to the same address gives the value written. -/
theorem Sparse.get_set_self {d : α} {lo : Nat} {m : Sparse α} (h : Sparse.wfFrom d lo m = true) (a : Nat) (v : α) :
    Sparse.get d (Sparse.set d m a v) a = v := by
  induction m generalizing lo with
  | nil => by_cases hv : v = d <;> simp [Sparse.set, Sparse.get, hv]
  | cons e m ih =>
    obtain ⟨k, w⟩ := e
    simp only [Sparse.wfFrom, Bool.and_eq_true, decide_eq_true_eq] at h
    simp only [Sparse.set]
    by_cases h1 : a < k
    · by_cases hv : v = d
      · simp only [if_pos h1, if_pos hv, Sparse.get_cons, if_neg (show a ≠ k by omega)]
        rw [Sparse.get_of_lt h.2 (by omega), hv]
      · simp [h1, hv, Sparse.get_cons]
    · by_cases h2 : a = k
      · subst h2
        by_cases hv : v = d
        · simp only [Nat.lt_irrefl, if_false, if_true, if_pos hv]
          rw [Sparse.get_of_lt h.2 (by omega), hv]
        · simp [hv, Sparse.get_cons]
      · simp only [if_neg h1, if_neg h2, Sparse.get_cons]
        exact ih h.2

/-- What an entry of a written store can be. -/
theorem Sparse.mem_set {d : α} {m : Sparse α} {a : Nat} {v : α} {e : Nat × α} (h : e ∈ Sparse.set d m a v) :
    e = (a, v) ∨ e ∈ m := by
  induction m with
  | nil => by_cases hv : v = d <;> simp_all [Sparse.set]
  | cons e' m ih =>
    obtain ⟨k, w⟩ := e'
    simp only [Sparse.set] at h
    split at h
    · split at h
      · exact .inr h
      · rcases List.mem_cons.mp h with rfl | h
        · exact .inl rfl
        · exact .inr h
    · split at h
      · split at h
        · exact .inr (List.mem_cons_of_mem _ h)
        · rcases List.mem_cons.mp h with rfl | h
          · exact .inl rfl
          · exact .inr (List.mem_cons_of_mem _ h)
      · rcases List.mem_cons.mp h with rfl | h
        · exact .inr List.mem_cons_self
        · rcases ih h with h | h
          · exact .inl h
          · exact .inr (List.mem_cons_of_mem _ h)

/-- Dropping entries keeps the canonical form. -/
theorem Sparse.wf_filter {d : α} {lo : Nat} {m : Sparse α} (h : Sparse.wfFrom d lo m = true) (p : Nat × α → Bool) :
    Sparse.wfFrom d lo (m.filter p) = true := by
  induction m generalizing lo with
  | nil => rfl
  | cons e m ih =>
    obtain ⟨k, v⟩ := e
    simp only [Sparse.wfFrom, Bool.and_eq_true, decide_eq_true_eq] at h
    by_cases hp : p (k, v) = true
    · rw [List.filter_cons_of_pos hp]
      simp only [Sparse.wfFrom, Bool.and_eq_true, decide_eq_true_eq]
      exact ⟨h.1, ih h.2⟩
    · rw [List.filter_cons_of_neg hp]
      exact Sparse.wfFrom_mono (ih h.2) (by omega)

/-! ### Writing a list of values -/

theorem Sparse.wf_write {d : α} {m : Sparse α} (h : Sparse.wf d m = true) (a : Nat) (l : List α) :
    Sparse.wf d (Sparse.write d m a l) = true := by
  induction l generalizing m a with
  | nil => exact h
  | cons v l ih => exact ih (Sparse.wf_set h a v) (a + 1)

/-- Every address outside the written ones reads as before. -/
theorem Sparse.get_write_of_outside (d : α) (m : Sparse α) (a : Nat) (l : List α) {b : Nat} (h : b < a ∨ a + l.length ≤ b) :
    Sparse.get d (Sparse.write d m a l) b = Sparse.get d m b := by
  induction l generalizing m a with
  | nil => rfl
  | cons v l ih =>
    simp only [List.length_cons] at h
    show Sparse.get d (Sparse.write d (Sparse.set d m a v) (a + 1) l) b = _
    rw [ih _ _ (by omega), Sparse.get_set_ne _ _ _ (by omega)]

/-- Every written address reads as the value written. -/
theorem Sparse.get_write_of_inside {d : α} {m : Sparse α} (h : Sparse.wf d m = true) (a : Nat) (l : List α) {j : Nat}
    (hj : j < l.length) : l[j]? = some (Sparse.get d (Sparse.write d m a l) (a + j)) := by
  induction l generalizing m a j with
  | nil => simp at hj
  | cons v l ih =>
    show _ = some (Sparse.get d (Sparse.write d (Sparse.set d m a v) (a + 1) l) (a + j))
    cases j with
    | zero =>
      rw [Sparse.get_write_of_outside _ _ _ _ (by omega), Nat.add_zero, Sparse.get_set_self h]
      rfl
    | succ j =>
      simp only [List.length_cons] at hj
      rw [show a + (j + 1) = a + 1 + j by omega]
      simpa using ih (Sparse.wf_set h a v) (a + 1) (j := j) (by omega)

theorem Sparse.mem_write {d : α} {m : Sparse α} {a : Nat} {l : List α} {e : Nat × α} (h : e ∈ Sparse.write d m a l) :
    (a ≤ e.1 ∧ e.1 < a + l.length) ∨ e ∈ m := by
  induction l generalizing m a with
  | nil => exact .inr h
  | cons v l ih =>
    simp only [List.length_cons]
    rcases ih (m := Sparse.set d m a v) (a := a + 1) h with h | h
    · exact .inl (by omega)
    · rcases Sparse.mem_set h with rfl | h
      · exact .inl (by simp)
      · exact .inr h

end Sys2Proof.Machine
end

