-- ==== Sys2Proof/Laws/State.lean ====
section
/-!
SUPPORT. One lemma for each field under each update of State, true by rfl, so that no later proof unfolds a record update.
-/

namespace Sys2Proof.Machine

/-! ### `withStatus` -/

@[simp] theorem State.withStatus_cfg (s : State) (st : Status) :
    (s.withStatus st).cfg = s.cfg := rfl
@[simp] theorem State.withStatus_inbox (s : State) (st : Status) :
    (s.withStatus st).inbox = s.inbox := rfl
@[simp] theorem State.withStatus_edges (s : State) (st : Status) :
    (s.withStatus st).edges = s.edges := rfl
@[simp] theorem State.withStatus_gen (s : State) (st : Status) :
    (s.withStatus st).gen = s.gen := rfl
@[simp] theorem State.withStatus_x (s : State) (st : Status) :
    (s.withStatus st).x = s.x := rfl
@[simp] theorem State.withStatus_st (s : State) (st : Status) :
    (s.withStatus st).st = statusCode st := rfl
@[simp] theorem State.withStatus_motor (s : State) (st : Status) :
    (s.withStatus st).motor = s.motor := rfl
@[simp] theorem State.withStatus_t0 (s : State) (st : Status) :
    (s.withStatus st).t0 = s.t0 := rfl
@[simp] theorem State.withStatus_revCount (s : State) (st : Status) :
    (s.withStatus st).revCount = s.revCount := rfl
@[simp] theorem State.withStatus_revStart (s : State) (st : Status) :
    (s.withStatus st).revStart = s.revStart := rfl
@[simp] theorem State.withStatus_idx (s : State) (st : Status) :
    (s.withStatus st).idx = s.idx := rfl
@[simp] theorem State.withStatus_idxTimer (s : State) (st : Status) :
    (s.withStatus st).idxTimer = s.idxTimer := rfl
@[simp] theorem State.withStatus_timerMissed (s : State) (st : Status) :
    (s.withStatus st).timerMissed = s.timerMissed := rfl
@[simp] theorem State.withStatus_ready (s : State) (st : Status) :
    (s.withStatus st).ready = s.ready := rfl
@[simp] theorem State.withStatus_readyCnt (s : State) (st : Status) :
    (s.withStatus st).readyCnt = s.readyCnt := rfl
@[simp] theorem State.withStatus_cyl (s : State) (st : Status) :
    (s.withStatus st).cyl = s.cyl := rfl
@[simp] theorem State.withStatus_ss (s : State) (st : Status) :
    (s.withStatus st).ss = s.ss := rfl
@[simp] theorem State.withStatus_seekSound (s : State) (st : Status) :
    (s.withStatus st).seekSound = s.seekSound := rfl
@[simp] theorem State.withStatus_door (s : State) (st : Status) :
    (s.withStatus st).door = s.door := rfl
@[simp] theorem State.withStatus_cache (s : State) (st : Status) :
    (s.withStatus st).cache = s.cache := rfl
@[simp] theorem State.withStatus_seed (s : State) (st : Status) :
    (s.withStatus st).seed = s.seed := rfl
@[simp] theorem State.withStatus_diskPresent (s : State) (st : Status) :
    (s.withStatus st).diskPresent = s.diskPresent := rfl
@[simp] theorem State.withStatus_props (s : State) (st : Status) :
    (s.withStatus st).props = s.props := rfl
@[simp] theorem State.withStatus_allocTracks (s : State) (st : Status) :
    (s.withStatus st).allocTracks = s.allocTracks := rfl
@[simp] theorem State.withStatus_allocSides (s : State) (st : Status) :
    (s.withStatus st).allocSides = s.allocSides := rfl
@[simp] theorem State.withStatus_trk (s : State) (st : Status) :
    (s.withStatus st).trk = s.trk := rfl
@[simp] theorem State.withStatus_wp (s : State) (st : Status) :
    (s.withStatus st).wp = s.wp := rfl
@[simp] theorem State.withStatus_dirtyLoad (s : State) (st : Status) :
    (s.withStatus st).dirtyLoad = s.dirtyLoad := rfl
@[simp] theorem State.withStatus_dirtyRestore (s : State) (st : Status) :
    (s.withStatus st).dirtyRestore = s.dirtyRestore := rfl
@[simp] theorem State.withStatus_imgChanged (s : State) (st : Status) :
    (s.withStatus st).imgChanged = s.imgChanged := rfl
@[simp] theorem State.withStatus_rawsec (s : State) (st : Status) :
    (s.withStatus st).rawsec = s.rawsec := rfl
@[simp] theorem State.withStatus_fault (s : State) (st : Status) :
    (s.withStatus st).fault = s.fault := rfl
@[simp] theorem State.withStatus_fcode (s : State) (st : Status) :
    (s.withStatus st).fcode = s.fcode := rfl
@[simp] theorem State.withStatus_finfo (s : State) (st : Status) :
    (s.withStatus st).finfo = s.finfo := rfl
@[simp] theorem State.withStatus_cl (s : State) (st : Status) :
    (s.withStatus st).cl = s.cl := rfl
@[simp] theorem State.withStatus_bs (s : State) (st : Status) :
    (s.withStatus st).bs = s.bs := rfl
@[simp] theorem State.withStatus_sect (s : State) (st : Status) :
    (s.withStatus st).sect = s.sect := rfl
@[simp] theorem State.withStatus_desc (s : State) (st : Status) :
    (s.withStatus st).desc = s.desc := rfl
@[simp] theorem State.withStatus_sdl (s : State) (st : Status) :
    (s.withStatus st).sdl = s.sdl := rfl
@[simp] theorem State.withStatus_tl (s : State) (st : Status) :
    (s.withStatus st).tl = s.tl := rfl
@[simp] theorem State.withStatus_trn (s : State) (st : Status) :
    (s.withStatus st).trn = s.trn := rfl
@[simp] theorem State.withStatus_bytes (s : State) (st : Status) :
    (s.withStatus st).bytes = s.bytes := rfl
@[simp] theorem State.withStatus_ckp (s : State) (st : Status) :
    (s.withStatus st).ckp = s.ckp := rfl

/-! ### `faulted` -/

@[simp] theorem State.faulted_cfg (s : State) (code : FaultCode) (info : Word64) :
    (s.faulted code info).cfg = s.cfg := rfl
@[simp] theorem State.faulted_inbox (s : State) (code : FaultCode) (info : Word64) :
    (s.faulted code info).inbox = s.inbox := rfl
@[simp] theorem State.faulted_edges (s : State) (code : FaultCode) (info : Word64) :
    (s.faulted code info).edges = s.edges := rfl
@[simp] theorem State.faulted_gen (s : State) (code : FaultCode) (info : Word64) :
    (s.faulted code info).gen = s.gen := rfl
@[simp] theorem State.faulted_x (s : State) (code : FaultCode) (info : Word64) :
    (s.faulted code info).x = s.x := rfl
@[simp] theorem State.faulted_st (s : State) (code : FaultCode) (info : Word64) :
    (s.faulted code info).st = statusCode .faulted := rfl
@[simp] theorem State.faulted_motor (s : State) (code : FaultCode) (info : Word64) :
    (s.faulted code info).motor = s.motor := rfl
@[simp] theorem State.faulted_t0 (s : State) (code : FaultCode) (info : Word64) :
    (s.faulted code info).t0 = s.t0 := rfl
@[simp] theorem State.faulted_revCount (s : State) (code : FaultCode) (info : Word64) :
    (s.faulted code info).revCount = s.revCount := rfl
@[simp] theorem State.faulted_revStart (s : State) (code : FaultCode) (info : Word64) :
    (s.faulted code info).revStart = s.revStart := rfl
@[simp] theorem State.faulted_idx (s : State) (code : FaultCode) (info : Word64) :
    (s.faulted code info).idx = s.idx := rfl
@[simp] theorem State.faulted_idxTimer (s : State) (code : FaultCode) (info : Word64) :
    (s.faulted code info).idxTimer = s.idxTimer := rfl
@[simp] theorem State.faulted_timerMissed (s : State) (code : FaultCode) (info : Word64) :
    (s.faulted code info).timerMissed = s.timerMissed := rfl
@[simp] theorem State.faulted_ready (s : State) (code : FaultCode) (info : Word64) :
    (s.faulted code info).ready = s.ready := rfl
@[simp] theorem State.faulted_readyCnt (s : State) (code : FaultCode) (info : Word64) :
    (s.faulted code info).readyCnt = s.readyCnt := rfl
@[simp] theorem State.faulted_cyl (s : State) (code : FaultCode) (info : Word64) :
    (s.faulted code info).cyl = s.cyl := rfl
@[simp] theorem State.faulted_ss (s : State) (code : FaultCode) (info : Word64) :
    (s.faulted code info).ss = s.ss := rfl
@[simp] theorem State.faulted_seekSound (s : State) (code : FaultCode) (info : Word64) :
    (s.faulted code info).seekSound = s.seekSound := rfl
@[simp] theorem State.faulted_door (s : State) (code : FaultCode) (info : Word64) :
    (s.faulted code info).door = s.door := rfl
@[simp] theorem State.faulted_cache (s : State) (code : FaultCode) (info : Word64) :
    (s.faulted code info).cache = s.cache := rfl
@[simp] theorem State.faulted_seed (s : State) (code : FaultCode) (info : Word64) :
    (s.faulted code info).seed = s.seed := rfl
@[simp] theorem State.faulted_diskPresent (s : State) (code : FaultCode) (info : Word64) :
    (s.faulted code info).diskPresent = s.diskPresent := rfl
@[simp] theorem State.faulted_props (s : State) (code : FaultCode) (info : Word64) :
    (s.faulted code info).props = s.props := rfl
@[simp] theorem State.faulted_allocTracks (s : State) (code : FaultCode) (info : Word64) :
    (s.faulted code info).allocTracks = s.allocTracks := rfl
@[simp] theorem State.faulted_allocSides (s : State) (code : FaultCode) (info : Word64) :
    (s.faulted code info).allocSides = s.allocSides := rfl
@[simp] theorem State.faulted_trk (s : State) (code : FaultCode) (info : Word64) :
    (s.faulted code info).trk = s.trk := rfl
@[simp] theorem State.faulted_wp (s : State) (code : FaultCode) (info : Word64) :
    (s.faulted code info).wp = s.wp := rfl
@[simp] theorem State.faulted_dirtyLoad (s : State) (code : FaultCode) (info : Word64) :
    (s.faulted code info).dirtyLoad = s.dirtyLoad := rfl
@[simp] theorem State.faulted_dirtyRestore (s : State) (code : FaultCode) (info : Word64) :
    (s.faulted code info).dirtyRestore = s.dirtyRestore := rfl
@[simp] theorem State.faulted_imgChanged (s : State) (code : FaultCode) (info : Word64) :
    (s.faulted code info).imgChanged = s.imgChanged := rfl
@[simp] theorem State.faulted_rawsec (s : State) (code : FaultCode) (info : Word64) :
    (s.faulted code info).rawsec = s.rawsec := rfl
@[simp] theorem State.faulted_fault (s : State) (code : FaultCode) (info : Word64) :
    (s.faulted code info).fault = true := rfl
@[simp] theorem State.faulted_fcode (s : State) (code : FaultCode) (info : Word64) :
    (s.faulted code info).fcode = if s.fault then s.fcode else faultCode code := rfl
@[simp] theorem State.faulted_finfo (s : State) (code : FaultCode) (info : Word64) :
    (s.faulted code info).finfo = if s.fault then s.finfo else info := rfl
@[simp] theorem State.faulted_cl (s : State) (code : FaultCode) (info : Word64) :
    (s.faulted code info).cl = s.cl := rfl
@[simp] theorem State.faulted_bs (s : State) (code : FaultCode) (info : Word64) :
    (s.faulted code info).bs = s.bs := rfl
@[simp] theorem State.faulted_sect (s : State) (code : FaultCode) (info : Word64) :
    (s.faulted code info).sect = s.sect := rfl
@[simp] theorem State.faulted_desc (s : State) (code : FaultCode) (info : Word64) :
    (s.faulted code info).desc = s.desc := rfl
@[simp] theorem State.faulted_sdl (s : State) (code : FaultCode) (info : Word64) :
    (s.faulted code info).sdl = s.sdl := rfl
@[simp] theorem State.faulted_tl (s : State) (code : FaultCode) (info : Word64) :
    (s.faulted code info).tl = s.tl := rfl
@[simp] theorem State.faulted_trn (s : State) (code : FaultCode) (info : Word64) :
    (s.faulted code info).trn = s.trn := rfl
@[simp] theorem State.faulted_bytes (s : State) (code : FaultCode) (info : Word64) :
    (s.faulted code info).bytes = s.bytes := rfl
@[simp] theorem State.faulted_ckp (s : State) (code : FaultCode) (info : Word64) :
    (s.faulted code info).ckp = s.ckp := rfl

/-! ### `setReg` -/

@[simp] theorem State.setReg_cfg (s : State) (i : Fin 8) (v : Word64) :
    (s.setReg i v).cfg = s.cfg := rfl
@[simp] theorem State.setReg_inbox (s : State) (i : Fin 8) (v : Word64) :
    (s.setReg i v).inbox = s.inbox := rfl
@[simp] theorem State.setReg_edges (s : State) (i : Fin 8) (v : Word64) :
    (s.setReg i v).edges = s.edges := rfl
@[simp] theorem State.setReg_gen (s : State) (i : Fin 8) (v : Word64) :
    (s.setReg i v).gen = s.gen := rfl
@[simp] theorem State.setReg_x (s : State) (i : Fin 8) (v : Word64) :
    (s.setReg i v).x = s.x.set i v := rfl
@[simp] theorem State.setReg_st (s : State) (i : Fin 8) (v : Word64) :
    (s.setReg i v).st = s.st := rfl
@[simp] theorem State.setReg_motor (s : State) (i : Fin 8) (v : Word64) :
    (s.setReg i v).motor = s.motor := rfl
@[simp] theorem State.setReg_t0 (s : State) (i : Fin 8) (v : Word64) :
    (s.setReg i v).t0 = s.t0 := rfl
@[simp] theorem State.setReg_revCount (s : State) (i : Fin 8) (v : Word64) :
    (s.setReg i v).revCount = s.revCount := rfl
@[simp] theorem State.setReg_revStart (s : State) (i : Fin 8) (v : Word64) :
    (s.setReg i v).revStart = s.revStart := rfl
@[simp] theorem State.setReg_idx (s : State) (i : Fin 8) (v : Word64) :
    (s.setReg i v).idx = s.idx := rfl
@[simp] theorem State.setReg_idxTimer (s : State) (i : Fin 8) (v : Word64) :
    (s.setReg i v).idxTimer = s.idxTimer := rfl
@[simp] theorem State.setReg_timerMissed (s : State) (i : Fin 8) (v : Word64) :
    (s.setReg i v).timerMissed = s.timerMissed := rfl
@[simp] theorem State.setReg_ready (s : State) (i : Fin 8) (v : Word64) :
    (s.setReg i v).ready = s.ready := rfl
@[simp] theorem State.setReg_readyCnt (s : State) (i : Fin 8) (v : Word64) :
    (s.setReg i v).readyCnt = s.readyCnt := rfl
@[simp] theorem State.setReg_cyl (s : State) (i : Fin 8) (v : Word64) :
    (s.setReg i v).cyl = s.cyl := rfl
@[simp] theorem State.setReg_ss (s : State) (i : Fin 8) (v : Word64) :
    (s.setReg i v).ss = s.ss := rfl
@[simp] theorem State.setReg_seekSound (s : State) (i : Fin 8) (v : Word64) :
    (s.setReg i v).seekSound = s.seekSound := rfl
@[simp] theorem State.setReg_door (s : State) (i : Fin 8) (v : Word64) :
    (s.setReg i v).door = s.door := rfl
@[simp] theorem State.setReg_cache (s : State) (i : Fin 8) (v : Word64) :
    (s.setReg i v).cache = s.cache := rfl
@[simp] theorem State.setReg_seed (s : State) (i : Fin 8) (v : Word64) :
    (s.setReg i v).seed = s.seed := rfl
@[simp] theorem State.setReg_diskPresent (s : State) (i : Fin 8) (v : Word64) :
    (s.setReg i v).diskPresent = s.diskPresent := rfl
@[simp] theorem State.setReg_props (s : State) (i : Fin 8) (v : Word64) :
    (s.setReg i v).props = s.props := rfl
@[simp] theorem State.setReg_allocTracks (s : State) (i : Fin 8) (v : Word64) :
    (s.setReg i v).allocTracks = s.allocTracks := rfl
@[simp] theorem State.setReg_allocSides (s : State) (i : Fin 8) (v : Word64) :
    (s.setReg i v).allocSides = s.allocSides := rfl
@[simp] theorem State.setReg_trk (s : State) (i : Fin 8) (v : Word64) :
    (s.setReg i v).trk = s.trk := rfl
@[simp] theorem State.setReg_wp (s : State) (i : Fin 8) (v : Word64) :
    (s.setReg i v).wp = s.wp := rfl
@[simp] theorem State.setReg_dirtyLoad (s : State) (i : Fin 8) (v : Word64) :
    (s.setReg i v).dirtyLoad = s.dirtyLoad := rfl
@[simp] theorem State.setReg_dirtyRestore (s : State) (i : Fin 8) (v : Word64) :
    (s.setReg i v).dirtyRestore = s.dirtyRestore := rfl
@[simp] theorem State.setReg_imgChanged (s : State) (i : Fin 8) (v : Word64) :
    (s.setReg i v).imgChanged = s.imgChanged := rfl
@[simp] theorem State.setReg_rawsec (s : State) (i : Fin 8) (v : Word64) :
    (s.setReg i v).rawsec = s.rawsec := rfl
@[simp] theorem State.setReg_fault (s : State) (i : Fin 8) (v : Word64) :
    (s.setReg i v).fault = s.fault := rfl
@[simp] theorem State.setReg_fcode (s : State) (i : Fin 8) (v : Word64) :
    (s.setReg i v).fcode = s.fcode := rfl
@[simp] theorem State.setReg_finfo (s : State) (i : Fin 8) (v : Word64) :
    (s.setReg i v).finfo = s.finfo := rfl
@[simp] theorem State.setReg_cl (s : State) (i : Fin 8) (v : Word64) :
    (s.setReg i v).cl = s.cl := rfl
@[simp] theorem State.setReg_bs (s : State) (i : Fin 8) (v : Word64) :
    (s.setReg i v).bs = s.bs := rfl
@[simp] theorem State.setReg_sect (s : State) (i : Fin 8) (v : Word64) :
    (s.setReg i v).sect = s.sect := rfl
@[simp] theorem State.setReg_desc (s : State) (i : Fin 8) (v : Word64) :
    (s.setReg i v).desc = s.desc := rfl
@[simp] theorem State.setReg_sdl (s : State) (i : Fin 8) (v : Word64) :
    (s.setReg i v).sdl = s.sdl := rfl
@[simp] theorem State.setReg_tl (s : State) (i : Fin 8) (v : Word64) :
    (s.setReg i v).tl = s.tl := rfl
@[simp] theorem State.setReg_trn (s : State) (i : Fin 8) (v : Word64) :
    (s.setReg i v).trn = s.trn := rfl
@[simp] theorem State.setReg_bytes (s : State) (i : Fin 8) (v : Word64) :
    (s.setReg i v).bytes = s.bytes := rfl
@[simp] theorem State.setReg_ckp (s : State) (i : Fin 8) (v : Word64) :
    (s.setReg i v).ckp = s.ckp := rfl

/-! ### `driveIndex` -/

@[simp] theorem State.driveIndex_cfg (s : State) (level : Bool) (time : Option Word64) :
    (s.driveIndex level time).cfg = s.cfg := rfl
@[simp] theorem State.driveIndex_inbox (s : State) (level : Bool) (time : Option Word64) :
    (s.driveIndex level time).inbox = s.inbox := rfl
@[simp] theorem State.driveIndex_edges (s : State) (level : Bool) (time : Option Word64) :
    (s.driveIndex level time).edges = if level = s.idx then s.edges else s.edges ++ [{ level := level, time := time }] := rfl
@[simp] theorem State.driveIndex_gen (s : State) (level : Bool) (time : Option Word64) :
    (s.driveIndex level time).gen = s.gen := rfl
@[simp] theorem State.driveIndex_x (s : State) (level : Bool) (time : Option Word64) :
    (s.driveIndex level time).x = s.x := rfl
@[simp] theorem State.driveIndex_st (s : State) (level : Bool) (time : Option Word64) :
    (s.driveIndex level time).st = s.st := rfl
@[simp] theorem State.driveIndex_motor (s : State) (level : Bool) (time : Option Word64) :
    (s.driveIndex level time).motor = s.motor := rfl
@[simp] theorem State.driveIndex_t0 (s : State) (level : Bool) (time : Option Word64) :
    (s.driveIndex level time).t0 = s.t0 := rfl
@[simp] theorem State.driveIndex_revCount (s : State) (level : Bool) (time : Option Word64) :
    (s.driveIndex level time).revCount = s.revCount := rfl
@[simp] theorem State.driveIndex_revStart (s : State) (level : Bool) (time : Option Word64) :
    (s.driveIndex level time).revStart = s.revStart := rfl
@[simp] theorem State.driveIndex_idx (s : State) (level : Bool) (time : Option Word64) :
    (s.driveIndex level time).idx = level := rfl
@[simp] theorem State.driveIndex_idxTimer (s : State) (level : Bool) (time : Option Word64) :
    (s.driveIndex level time).idxTimer = s.idxTimer := rfl
@[simp] theorem State.driveIndex_timerMissed (s : State) (level : Bool) (time : Option Word64) :
    (s.driveIndex level time).timerMissed = s.timerMissed := rfl
@[simp] theorem State.driveIndex_ready (s : State) (level : Bool) (time : Option Word64) :
    (s.driveIndex level time).ready = s.ready := rfl
@[simp] theorem State.driveIndex_readyCnt (s : State) (level : Bool) (time : Option Word64) :
    (s.driveIndex level time).readyCnt = s.readyCnt := rfl
@[simp] theorem State.driveIndex_cyl (s : State) (level : Bool) (time : Option Word64) :
    (s.driveIndex level time).cyl = s.cyl := rfl
@[simp] theorem State.driveIndex_ss (s : State) (level : Bool) (time : Option Word64) :
    (s.driveIndex level time).ss = s.ss := rfl
@[simp] theorem State.driveIndex_seekSound (s : State) (level : Bool) (time : Option Word64) :
    (s.driveIndex level time).seekSound = s.seekSound := rfl
@[simp] theorem State.driveIndex_door (s : State) (level : Bool) (time : Option Word64) :
    (s.driveIndex level time).door = s.door := rfl
@[simp] theorem State.driveIndex_cache (s : State) (level : Bool) (time : Option Word64) :
    (s.driveIndex level time).cache = s.cache := rfl
@[simp] theorem State.driveIndex_seed (s : State) (level : Bool) (time : Option Word64) :
    (s.driveIndex level time).seed = s.seed := rfl
@[simp] theorem State.driveIndex_diskPresent (s : State) (level : Bool) (time : Option Word64) :
    (s.driveIndex level time).diskPresent = s.diskPresent := rfl
@[simp] theorem State.driveIndex_props (s : State) (level : Bool) (time : Option Word64) :
    (s.driveIndex level time).props = s.props := rfl
@[simp] theorem State.driveIndex_allocTracks (s : State) (level : Bool) (time : Option Word64) :
    (s.driveIndex level time).allocTracks = s.allocTracks := rfl
@[simp] theorem State.driveIndex_allocSides (s : State) (level : Bool) (time : Option Word64) :
    (s.driveIndex level time).allocSides = s.allocSides := rfl
@[simp] theorem State.driveIndex_trk (s : State) (level : Bool) (time : Option Word64) :
    (s.driveIndex level time).trk = s.trk := rfl
@[simp] theorem State.driveIndex_wp (s : State) (level : Bool) (time : Option Word64) :
    (s.driveIndex level time).wp = s.wp := rfl
@[simp] theorem State.driveIndex_dirtyLoad (s : State) (level : Bool) (time : Option Word64) :
    (s.driveIndex level time).dirtyLoad = s.dirtyLoad := rfl
@[simp] theorem State.driveIndex_dirtyRestore (s : State) (level : Bool) (time : Option Word64) :
    (s.driveIndex level time).dirtyRestore = s.dirtyRestore := rfl
@[simp] theorem State.driveIndex_imgChanged (s : State) (level : Bool) (time : Option Word64) :
    (s.driveIndex level time).imgChanged = s.imgChanged := rfl
@[simp] theorem State.driveIndex_rawsec (s : State) (level : Bool) (time : Option Word64) :
    (s.driveIndex level time).rawsec = s.rawsec := rfl
@[simp] theorem State.driveIndex_fault (s : State) (level : Bool) (time : Option Word64) :
    (s.driveIndex level time).fault = s.fault := rfl
@[simp] theorem State.driveIndex_fcode (s : State) (level : Bool) (time : Option Word64) :
    (s.driveIndex level time).fcode = s.fcode := rfl
@[simp] theorem State.driveIndex_finfo (s : State) (level : Bool) (time : Option Word64) :
    (s.driveIndex level time).finfo = s.finfo := rfl
@[simp] theorem State.driveIndex_cl (s : State) (level : Bool) (time : Option Word64) :
    (s.driveIndex level time).cl = s.cl := rfl
@[simp] theorem State.driveIndex_bs (s : State) (level : Bool) (time : Option Word64) :
    (s.driveIndex level time).bs = s.bs := rfl
@[simp] theorem State.driveIndex_sect (s : State) (level : Bool) (time : Option Word64) :
    (s.driveIndex level time).sect = s.sect := rfl
@[simp] theorem State.driveIndex_desc (s : State) (level : Bool) (time : Option Word64) :
    (s.driveIndex level time).desc = s.desc := rfl
@[simp] theorem State.driveIndex_sdl (s : State) (level : Bool) (time : Option Word64) :
    (s.driveIndex level time).sdl = s.sdl := rfl
@[simp] theorem State.driveIndex_tl (s : State) (level : Bool) (time : Option Word64) :
    (s.driveIndex level time).tl = s.tl := rfl
@[simp] theorem State.driveIndex_trn (s : State) (level : Bool) (time : Option Word64) :
    (s.driveIndex level time).trn = s.trn := rfl
@[simp] theorem State.driveIndex_bytes (s : State) (level : Bool) (time : Option Word64) :
    (s.driveIndex level time).bytes = s.bytes := rfl
@[simp] theorem State.driveIndex_ckp (s : State) (level : Bool) (time : Option Word64) :
    (s.driveIndex level time).ckp = s.ckp := rfl

/-! ### `dropCache` -/

@[simp] theorem State.dropCache_cfg (s : State) :
    (s.dropCache).cfg = s.cfg := rfl
@[simp] theorem State.dropCache_inbox (s : State) :
    (s.dropCache).inbox = s.inbox := rfl
@[simp] theorem State.dropCache_edges (s : State) :
    (s.dropCache).edges = s.edges := rfl
@[simp] theorem State.dropCache_gen (s : State) :
    (s.dropCache).gen = s.gen := rfl
@[simp] theorem State.dropCache_x (s : State) :
    (s.dropCache).x = s.x := rfl
@[simp] theorem State.dropCache_st (s : State) :
    (s.dropCache).st = s.st := rfl
@[simp] theorem State.dropCache_motor (s : State) :
    (s.dropCache).motor = s.motor := rfl
@[simp] theorem State.dropCache_t0 (s : State) :
    (s.dropCache).t0 = s.t0 := rfl
@[simp] theorem State.dropCache_revCount (s : State) :
    (s.dropCache).revCount = s.revCount := rfl
@[simp] theorem State.dropCache_revStart (s : State) :
    (s.dropCache).revStart = s.revStart := rfl
@[simp] theorem State.dropCache_idx (s : State) :
    (s.dropCache).idx = s.idx := rfl
@[simp] theorem State.dropCache_idxTimer (s : State) :
    (s.dropCache).idxTimer = s.idxTimer := rfl
@[simp] theorem State.dropCache_timerMissed (s : State) :
    (s.dropCache).timerMissed = s.timerMissed := rfl
@[simp] theorem State.dropCache_ready (s : State) :
    (s.dropCache).ready = s.ready := rfl
@[simp] theorem State.dropCache_readyCnt (s : State) :
    (s.dropCache).readyCnt = s.readyCnt := rfl
@[simp] theorem State.dropCache_cyl (s : State) :
    (s.dropCache).cyl = s.cyl := rfl
@[simp] theorem State.dropCache_ss (s : State) :
    (s.dropCache).ss = s.ss := rfl
@[simp] theorem State.dropCache_seekSound (s : State) :
    (s.dropCache).seekSound = s.seekSound := rfl
@[simp] theorem State.dropCache_door (s : State) :
    (s.dropCache).door = s.door := rfl
@[simp] theorem State.dropCache_cache (s : State) :
    (s.dropCache).cache = { s.cache with valid := false } := rfl
@[simp] theorem State.dropCache_seed (s : State) :
    (s.dropCache).seed = s.seed := rfl
@[simp] theorem State.dropCache_diskPresent (s : State) :
    (s.dropCache).diskPresent = s.diskPresent := rfl
@[simp] theorem State.dropCache_props (s : State) :
    (s.dropCache).props = s.props := rfl
@[simp] theorem State.dropCache_allocTracks (s : State) :
    (s.dropCache).allocTracks = s.allocTracks := rfl
@[simp] theorem State.dropCache_allocSides (s : State) :
    (s.dropCache).allocSides = s.allocSides := rfl
@[simp] theorem State.dropCache_trk (s : State) :
    (s.dropCache).trk = s.trk := rfl
@[simp] theorem State.dropCache_wp (s : State) :
    (s.dropCache).wp = s.wp := rfl
@[simp] theorem State.dropCache_dirtyLoad (s : State) :
    (s.dropCache).dirtyLoad = s.dirtyLoad := rfl
@[simp] theorem State.dropCache_dirtyRestore (s : State) :
    (s.dropCache).dirtyRestore = s.dirtyRestore := rfl
@[simp] theorem State.dropCache_imgChanged (s : State) :
    (s.dropCache).imgChanged = s.imgChanged := rfl
@[simp] theorem State.dropCache_rawsec (s : State) :
    (s.dropCache).rawsec = s.rawsec := rfl
@[simp] theorem State.dropCache_fault (s : State) :
    (s.dropCache).fault = s.fault := rfl
@[simp] theorem State.dropCache_fcode (s : State) :
    (s.dropCache).fcode = s.fcode := rfl
@[simp] theorem State.dropCache_finfo (s : State) :
    (s.dropCache).finfo = s.finfo := rfl
@[simp] theorem State.dropCache_cl (s : State) :
    (s.dropCache).cl = s.cl := rfl
@[simp] theorem State.dropCache_bs (s : State) :
    (s.dropCache).bs = s.bs := rfl
@[simp] theorem State.dropCache_sect (s : State) :
    (s.dropCache).sect = s.sect := rfl
@[simp] theorem State.dropCache_desc (s : State) :
    (s.dropCache).desc = s.desc := rfl
@[simp] theorem State.dropCache_sdl (s : State) :
    (s.dropCache).sdl = s.sdl := rfl
@[simp] theorem State.dropCache_tl (s : State) :
    (s.dropCache).tl = s.tl := rfl
@[simp] theorem State.dropCache_trn (s : State) :
    (s.dropCache).trn = s.trn := rfl
@[simp] theorem State.dropCache_bytes (s : State) :
    (s.dropCache).bytes = s.bytes := rfl
@[simp] theorem State.dropCache_ckp (s : State) :
    (s.dropCache).ckp = s.ckp := rfl

/-! ### `markDirty` -/

@[simp] theorem State.markDirty_cfg (s : State) :
    (s.markDirty).cfg = s.cfg := rfl
@[simp] theorem State.markDirty_inbox (s : State) :
    (s.markDirty).inbox = s.inbox := rfl
@[simp] theorem State.markDirty_edges (s : State) :
    (s.markDirty).edges = s.edges := rfl
@[simp] theorem State.markDirty_gen (s : State) :
    (s.markDirty).gen = s.gen := rfl
@[simp] theorem State.markDirty_x (s : State) :
    (s.markDirty).x = s.x := rfl
@[simp] theorem State.markDirty_st (s : State) :
    (s.markDirty).st = s.st := rfl
@[simp] theorem State.markDirty_motor (s : State) :
    (s.markDirty).motor = s.motor := rfl
@[simp] theorem State.markDirty_t0 (s : State) :
    (s.markDirty).t0 = s.t0 := rfl
@[simp] theorem State.markDirty_revCount (s : State) :
    (s.markDirty).revCount = s.revCount := rfl
@[simp] theorem State.markDirty_revStart (s : State) :
    (s.markDirty).revStart = s.revStart := rfl
@[simp] theorem State.markDirty_idx (s : State) :
    (s.markDirty).idx = s.idx := rfl
@[simp] theorem State.markDirty_idxTimer (s : State) :
    (s.markDirty).idxTimer = s.idxTimer := rfl
@[simp] theorem State.markDirty_timerMissed (s : State) :
    (s.markDirty).timerMissed = s.timerMissed := rfl
@[simp] theorem State.markDirty_ready (s : State) :
    (s.markDirty).ready = s.ready := rfl
@[simp] theorem State.markDirty_readyCnt (s : State) :
    (s.markDirty).readyCnt = s.readyCnt := rfl
@[simp] theorem State.markDirty_cyl (s : State) :
    (s.markDirty).cyl = s.cyl := rfl
@[simp] theorem State.markDirty_ss (s : State) :
    (s.markDirty).ss = s.ss := rfl
@[simp] theorem State.markDirty_seekSound (s : State) :
    (s.markDirty).seekSound = s.seekSound := rfl
@[simp] theorem State.markDirty_door (s : State) :
    (s.markDirty).door = s.door := rfl
@[simp] theorem State.markDirty_cache (s : State) :
    (s.markDirty).cache = s.cache := rfl
@[simp] theorem State.markDirty_seed (s : State) :
    (s.markDirty).seed = s.seed := rfl
@[simp] theorem State.markDirty_diskPresent (s : State) :
    (s.markDirty).diskPresent = s.diskPresent := rfl
@[simp] theorem State.markDirty_props (s : State) :
    (s.markDirty).props = s.props := rfl
@[simp] theorem State.markDirty_allocTracks (s : State) :
    (s.markDirty).allocTracks = s.allocTracks := rfl
@[simp] theorem State.markDirty_allocSides (s : State) :
    (s.markDirty).allocSides = s.allocSides := rfl
@[simp] theorem State.markDirty_trk (s : State) :
    (s.markDirty).trk = s.trk := rfl
@[simp] theorem State.markDirty_wp (s : State) :
    (s.markDirty).wp = s.wp := rfl
@[simp] theorem State.markDirty_dirtyLoad (s : State) :
    (s.markDirty).dirtyLoad = true := rfl
@[simp] theorem State.markDirty_dirtyRestore (s : State) :
    (s.markDirty).dirtyRestore = true := rfl
@[simp] theorem State.markDirty_imgChanged (s : State) :
    (s.markDirty).imgChanged = true := rfl
@[simp] theorem State.markDirty_rawsec (s : State) :
    (s.markDirty).rawsec = s.rawsec := rfl
@[simp] theorem State.markDirty_fault (s : State) :
    (s.markDirty).fault = s.fault := rfl
@[simp] theorem State.markDirty_fcode (s : State) :
    (s.markDirty).fcode = s.fcode := rfl
@[simp] theorem State.markDirty_finfo (s : State) :
    (s.markDirty).finfo = s.finfo := rfl
@[simp] theorem State.markDirty_cl (s : State) :
    (s.markDirty).cl = s.cl := rfl
@[simp] theorem State.markDirty_bs (s : State) :
    (s.markDirty).bs = s.bs := rfl
@[simp] theorem State.markDirty_sect (s : State) :
    (s.markDirty).sect = s.sect := rfl
@[simp] theorem State.markDirty_desc (s : State) :
    (s.markDirty).desc = s.desc := rfl
@[simp] theorem State.markDirty_sdl (s : State) :
    (s.markDirty).sdl = s.sdl := rfl
@[simp] theorem State.markDirty_tl (s : State) :
    (s.markDirty).tl = s.tl := rfl
@[simp] theorem State.markDirty_trn (s : State) :
    (s.markDirty).trn = s.trn := rfl
@[simp] theorem State.markDirty_bytes (s : State) :
    (s.markDirty).bytes = s.bytes := rfl
@[simp] theorem State.markDirty_ckp (s : State) :
    (s.markDirty).ckp = s.ckp := rfl

/-! ### `setTrack` -/

@[simp] theorem State.setTrack_cfg (s : State) (c h : Nat) (t : Track) :
    (s.setTrack c h t).cfg = s.cfg := rfl
@[simp] theorem State.setTrack_inbox (s : State) (c h : Nat) (t : Track) :
    (s.setTrack c h t).inbox = s.inbox := rfl
@[simp] theorem State.setTrack_edges (s : State) (c h : Nat) (t : Track) :
    (s.setTrack c h t).edges = s.edges := rfl
@[simp] theorem State.setTrack_gen (s : State) (c h : Nat) (t : Track) :
    (s.setTrack c h t).gen = s.gen := rfl
@[simp] theorem State.setTrack_x (s : State) (c h : Nat) (t : Track) :
    (s.setTrack c h t).x = s.x := rfl
@[simp] theorem State.setTrack_st (s : State) (c h : Nat) (t : Track) :
    (s.setTrack c h t).st = s.st := rfl
@[simp] theorem State.setTrack_motor (s : State) (c h : Nat) (t : Track) :
    (s.setTrack c h t).motor = s.motor := rfl
@[simp] theorem State.setTrack_t0 (s : State) (c h : Nat) (t : Track) :
    (s.setTrack c h t).t0 = s.t0 := rfl
@[simp] theorem State.setTrack_revCount (s : State) (c h : Nat) (t : Track) :
    (s.setTrack c h t).revCount = s.revCount := rfl
@[simp] theorem State.setTrack_revStart (s : State) (c h : Nat) (t : Track) :
    (s.setTrack c h t).revStart = s.revStart := rfl
@[simp] theorem State.setTrack_idx (s : State) (c h : Nat) (t : Track) :
    (s.setTrack c h t).idx = s.idx := rfl
@[simp] theorem State.setTrack_idxTimer (s : State) (c h : Nat) (t : Track) :
    (s.setTrack c h t).idxTimer = s.idxTimer := rfl
@[simp] theorem State.setTrack_timerMissed (s : State) (c h : Nat) (t : Track) :
    (s.setTrack c h t).timerMissed = s.timerMissed := rfl
@[simp] theorem State.setTrack_ready (s : State) (c h : Nat) (t : Track) :
    (s.setTrack c h t).ready = s.ready := rfl
@[simp] theorem State.setTrack_readyCnt (s : State) (c h : Nat) (t : Track) :
    (s.setTrack c h t).readyCnt = s.readyCnt := rfl
@[simp] theorem State.setTrack_cyl (s : State) (c h : Nat) (t : Track) :
    (s.setTrack c h t).cyl = s.cyl := rfl
@[simp] theorem State.setTrack_ss (s : State) (c h : Nat) (t : Track) :
    (s.setTrack c h t).ss = s.ss := rfl
@[simp] theorem State.setTrack_seekSound (s : State) (c h : Nat) (t : Track) :
    (s.setTrack c h t).seekSound = s.seekSound := rfl
@[simp] theorem State.setTrack_door (s : State) (c h : Nat) (t : Track) :
    (s.setTrack c h t).door = s.door := rfl
@[simp] theorem State.setTrack_cache (s : State) (c h : Nat) (t : Track) :
    (s.setTrack c h t).cache = s.cache := rfl
@[simp] theorem State.setTrack_seed (s : State) (c h : Nat) (t : Track) :
    (s.setTrack c h t).seed = s.seed := rfl
@[simp] theorem State.setTrack_diskPresent (s : State) (c h : Nat) (t : Track) :
    (s.setTrack c h t).diskPresent = s.diskPresent := rfl
@[simp] theorem State.setTrack_props (s : State) (c h : Nat) (t : Track) :
    (s.setTrack c h t).props = s.props := rfl
@[simp] theorem State.setTrack_allocTracks (s : State) (c h : Nat) (t : Track) :
    (s.setTrack c h t).allocTracks = s.allocTracks := rfl
@[simp] theorem State.setTrack_allocSides (s : State) (c h : Nat) (t : Track) :
    (s.setTrack c h t).allocSides = s.allocSides := rfl
@[simp] theorem State.setTrack_trk (s : State) (c h : Nat) (t : Track) :
    (s.setTrack c h t).trk = Sparse.set Track.empty s.trk (trackKey c h) t := rfl
@[simp] theorem State.setTrack_wp (s : State) (c h : Nat) (t : Track) :
    (s.setTrack c h t).wp = s.wp := rfl
@[simp] theorem State.setTrack_dirtyLoad (s : State) (c h : Nat) (t : Track) :
    (s.setTrack c h t).dirtyLoad = s.dirtyLoad := rfl
@[simp] theorem State.setTrack_dirtyRestore (s : State) (c h : Nat) (t : Track) :
    (s.setTrack c h t).dirtyRestore = s.dirtyRestore := rfl
@[simp] theorem State.setTrack_imgChanged (s : State) (c h : Nat) (t : Track) :
    (s.setTrack c h t).imgChanged = s.imgChanged := rfl
@[simp] theorem State.setTrack_rawsec (s : State) (c h : Nat) (t : Track) :
    (s.setTrack c h t).rawsec = s.rawsec := rfl
@[simp] theorem State.setTrack_fault (s : State) (c h : Nat) (t : Track) :
    (s.setTrack c h t).fault = s.fault := rfl
@[simp] theorem State.setTrack_fcode (s : State) (c h : Nat) (t : Track) :
    (s.setTrack c h t).fcode = s.fcode := rfl
@[simp] theorem State.setTrack_finfo (s : State) (c h : Nat) (t : Track) :
    (s.setTrack c h t).finfo = s.finfo := rfl
@[simp] theorem State.setTrack_cl (s : State) (c h : Nat) (t : Track) :
    (s.setTrack c h t).cl = s.cl := rfl
@[simp] theorem State.setTrack_bs (s : State) (c h : Nat) (t : Track) :
    (s.setTrack c h t).bs = s.bs := rfl
@[simp] theorem State.setTrack_sect (s : State) (c h : Nat) (t : Track) :
    (s.setTrack c h t).sect = s.sect := rfl
@[simp] theorem State.setTrack_desc (s : State) (c h : Nat) (t : Track) :
    (s.setTrack c h t).desc = s.desc := rfl
@[simp] theorem State.setTrack_sdl (s : State) (c h : Nat) (t : Track) :
    (s.setTrack c h t).sdl = s.sdl := rfl
@[simp] theorem State.setTrack_tl (s : State) (c h : Nat) (t : Track) :
    (s.setTrack c h t).tl = s.tl := rfl
@[simp] theorem State.setTrack_trn (s : State) (c h : Nat) (t : Track) :
    (s.setTrack c h t).trn = s.trn := rfl
@[simp] theorem State.setTrack_bytes (s : State) (c h : Nat) (t : Track) :
    (s.setTrack c h t).bytes = s.bytes := rfl
@[simp] theorem State.setTrack_ckp (s : State) (c h : Nat) (t : Track) :
    (s.setTrack c h t).ckp = s.ckp := rfl

/-! ### `writeTrack` -/

@[simp] theorem State.writeTrack_cfg (s : State) (c h : Nat) (L : List Word32) (p : Nat) :
    (s.writeTrack c h L p).cfg = s.cfg := rfl
@[simp] theorem State.writeTrack_inbox (s : State) (c h : Nat) (L : List Word32) (p : Nat) :
    (s.writeTrack c h L p).inbox = s.inbox := rfl
@[simp] theorem State.writeTrack_edges (s : State) (c h : Nat) (L : List Word32) (p : Nat) :
    (s.writeTrack c h L p).edges = s.edges := rfl
@[simp] theorem State.writeTrack_gen (s : State) (c h : Nat) (L : List Word32) (p : Nat) :
    (s.writeTrack c h L p).gen = s.gen := rfl
@[simp] theorem State.writeTrack_x (s : State) (c h : Nat) (L : List Word32) (p : Nat) :
    (s.writeTrack c h L p).x = s.x := rfl
@[simp] theorem State.writeTrack_st (s : State) (c h : Nat) (L : List Word32) (p : Nat) :
    (s.writeTrack c h L p).st = s.st := rfl
@[simp] theorem State.writeTrack_motor (s : State) (c h : Nat) (L : List Word32) (p : Nat) :
    (s.writeTrack c h L p).motor = s.motor := rfl
@[simp] theorem State.writeTrack_t0 (s : State) (c h : Nat) (L : List Word32) (p : Nat) :
    (s.writeTrack c h L p).t0 = s.t0 := rfl
@[simp] theorem State.writeTrack_revCount (s : State) (c h : Nat) (L : List Word32) (p : Nat) :
    (s.writeTrack c h L p).revCount = s.revCount := rfl
@[simp] theorem State.writeTrack_revStart (s : State) (c h : Nat) (L : List Word32) (p : Nat) :
    (s.writeTrack c h L p).revStart = s.revStart := rfl
@[simp] theorem State.writeTrack_idx (s : State) (c h : Nat) (L : List Word32) (p : Nat) :
    (s.writeTrack c h L p).idx = s.idx := rfl
@[simp] theorem State.writeTrack_idxTimer (s : State) (c h : Nat) (L : List Word32) (p : Nat) :
    (s.writeTrack c h L p).idxTimer = s.idxTimer := rfl
@[simp] theorem State.writeTrack_timerMissed (s : State) (c h : Nat) (L : List Word32) (p : Nat) :
    (s.writeTrack c h L p).timerMissed = s.timerMissed := rfl
@[simp] theorem State.writeTrack_ready (s : State) (c h : Nat) (L : List Word32) (p : Nat) :
    (s.writeTrack c h L p).ready = s.ready := rfl
@[simp] theorem State.writeTrack_readyCnt (s : State) (c h : Nat) (L : List Word32) (p : Nat) :
    (s.writeTrack c h L p).readyCnt = s.readyCnt := rfl
@[simp] theorem State.writeTrack_cyl (s : State) (c h : Nat) (L : List Word32) (p : Nat) :
    (s.writeTrack c h L p).cyl = s.cyl := rfl
@[simp] theorem State.writeTrack_ss (s : State) (c h : Nat) (L : List Word32) (p : Nat) :
    (s.writeTrack c h L p).ss = s.ss := rfl
@[simp] theorem State.writeTrack_seekSound (s : State) (c h : Nat) (L : List Word32) (p : Nat) :
    (s.writeTrack c h L p).seekSound = s.seekSound := rfl
@[simp] theorem State.writeTrack_door (s : State) (c h : Nat) (L : List Word32) (p : Nat) :
    (s.writeTrack c h L p).door = s.door := rfl
@[simp] theorem State.writeTrack_cache (s : State) (c h : Nat) (L : List Word32) (p : Nat) :
    (s.writeTrack c h L p).cache = s.cache := rfl
@[simp] theorem State.writeTrack_seed (s : State) (c h : Nat) (L : List Word32) (p : Nat) :
    (s.writeTrack c h L p).seed = s.seed := rfl
@[simp] theorem State.writeTrack_diskPresent (s : State) (c h : Nat) (L : List Word32) (p : Nat) :
    (s.writeTrack c h L p).diskPresent = s.diskPresent := rfl
@[simp] theorem State.writeTrack_props (s : State) (c h : Nat) (L : List Word32) (p : Nat) :
    (s.writeTrack c h L p).props = s.props := rfl
@[simp] theorem State.writeTrack_allocTracks (s : State) (c h : Nat) (L : List Word32) (p : Nat) :
    (s.writeTrack c h L p).allocTracks = s.allocTracks := rfl
@[simp] theorem State.writeTrack_allocSides (s : State) (c h : Nat) (L : List Word32) (p : Nat) :
    (s.writeTrack c h L p).allocSides = s.allocSides := rfl
@[simp] theorem State.writeTrack_trk (s : State) (c h : Nat) (L : List Word32) (p : Nat) :
    (s.writeTrack c h L p).trk = Sparse.set Track.empty s.trk (trackKey c h)
      { events := L, splice := BitVec.ofNat 32 p, hasDamaged := hasTag .damaged L } := rfl
@[simp] theorem State.writeTrack_wp (s : State) (c h : Nat) (L : List Word32) (p : Nat) :
    (s.writeTrack c h L p).wp = s.wp := rfl
@[simp] theorem State.writeTrack_dirtyLoad (s : State) (c h : Nat) (L : List Word32) (p : Nat) :
    (s.writeTrack c h L p).dirtyLoad = s.dirtyLoad := rfl
@[simp] theorem State.writeTrack_dirtyRestore (s : State) (c h : Nat) (L : List Word32) (p : Nat) :
    (s.writeTrack c h L p).dirtyRestore = s.dirtyRestore := rfl
@[simp] theorem State.writeTrack_imgChanged (s : State) (c h : Nat) (L : List Word32) (p : Nat) :
    (s.writeTrack c h L p).imgChanged = s.imgChanged := rfl
@[simp] theorem State.writeTrack_rawsec (s : State) (c h : Nat) (L : List Word32) (p : Nat) :
    (s.writeTrack c h L p).rawsec = s.rawsec := rfl
@[simp] theorem State.writeTrack_fault (s : State) (c h : Nat) (L : List Word32) (p : Nat) :
    (s.writeTrack c h L p).fault = s.fault := rfl
@[simp] theorem State.writeTrack_fcode (s : State) (c h : Nat) (L : List Word32) (p : Nat) :
    (s.writeTrack c h L p).fcode = s.fcode := rfl
@[simp] theorem State.writeTrack_finfo (s : State) (c h : Nat) (L : List Word32) (p : Nat) :
    (s.writeTrack c h L p).finfo = s.finfo := rfl
@[simp] theorem State.writeTrack_cl (s : State) (c h : Nat) (L : List Word32) (p : Nat) :
    (s.writeTrack c h L p).cl = s.cl := rfl
@[simp] theorem State.writeTrack_bs (s : State) (c h : Nat) (L : List Word32) (p : Nat) :
    (s.writeTrack c h L p).bs = s.bs := rfl
@[simp] theorem State.writeTrack_sect (s : State) (c h : Nat) (L : List Word32) (p : Nat) :
    (s.writeTrack c h L p).sect = s.sect := rfl
@[simp] theorem State.writeTrack_desc (s : State) (c h : Nat) (L : List Word32) (p : Nat) :
    (s.writeTrack c h L p).desc = s.desc := rfl
@[simp] theorem State.writeTrack_sdl (s : State) (c h : Nat) (L : List Word32) (p : Nat) :
    (s.writeTrack c h L p).sdl = s.sdl := rfl
@[simp] theorem State.writeTrack_tl (s : State) (c h : Nat) (L : List Word32) (p : Nat) :
    (s.writeTrack c h L p).tl = s.tl := rfl
@[simp] theorem State.writeTrack_trn (s : State) (c h : Nat) (L : List Word32) (p : Nat) :
    (s.writeTrack c h L p).trn = s.trn := rfl
@[simp] theorem State.writeTrack_bytes (s : State) (c h : Nat) (L : List Word32) (p : Nat) :
    (s.writeTrack c h L p).bytes = s.bytes := rfl
@[simp] theorem State.writeTrack_ckp (s : State) (c h : Nat) (L : List Word32) (p : Nat) :
    (s.writeTrack c h L p).ckp = s.ckp := rfl

/-! ### `writeSplice` -/

@[simp] theorem State.writeSplice_cfg (s : State) (c h p : Nat) :
    (s.writeSplice c h p).cfg = s.cfg := rfl
@[simp] theorem State.writeSplice_inbox (s : State) (c h p : Nat) :
    (s.writeSplice c h p).inbox = s.inbox := rfl
@[simp] theorem State.writeSplice_edges (s : State) (c h p : Nat) :
    (s.writeSplice c h p).edges = s.edges := rfl
@[simp] theorem State.writeSplice_gen (s : State) (c h p : Nat) :
    (s.writeSplice c h p).gen = s.gen := rfl
@[simp] theorem State.writeSplice_x (s : State) (c h p : Nat) :
    (s.writeSplice c h p).x = s.x := rfl
@[simp] theorem State.writeSplice_st (s : State) (c h p : Nat) :
    (s.writeSplice c h p).st = s.st := rfl
@[simp] theorem State.writeSplice_motor (s : State) (c h p : Nat) :
    (s.writeSplice c h p).motor = s.motor := rfl
@[simp] theorem State.writeSplice_t0 (s : State) (c h p : Nat) :
    (s.writeSplice c h p).t0 = s.t0 := rfl
@[simp] theorem State.writeSplice_revCount (s : State) (c h p : Nat) :
    (s.writeSplice c h p).revCount = s.revCount := rfl
@[simp] theorem State.writeSplice_revStart (s : State) (c h p : Nat) :
    (s.writeSplice c h p).revStart = s.revStart := rfl
@[simp] theorem State.writeSplice_idx (s : State) (c h p : Nat) :
    (s.writeSplice c h p).idx = s.idx := rfl
@[simp] theorem State.writeSplice_idxTimer (s : State) (c h p : Nat) :
    (s.writeSplice c h p).idxTimer = s.idxTimer := rfl
@[simp] theorem State.writeSplice_timerMissed (s : State) (c h p : Nat) :
    (s.writeSplice c h p).timerMissed = s.timerMissed := rfl
@[simp] theorem State.writeSplice_ready (s : State) (c h p : Nat) :
    (s.writeSplice c h p).ready = s.ready := rfl
@[simp] theorem State.writeSplice_readyCnt (s : State) (c h p : Nat) :
    (s.writeSplice c h p).readyCnt = s.readyCnt := rfl
@[simp] theorem State.writeSplice_cyl (s : State) (c h p : Nat) :
    (s.writeSplice c h p).cyl = s.cyl := rfl
@[simp] theorem State.writeSplice_ss (s : State) (c h p : Nat) :
    (s.writeSplice c h p).ss = s.ss := rfl
@[simp] theorem State.writeSplice_seekSound (s : State) (c h p : Nat) :
    (s.writeSplice c h p).seekSound = s.seekSound := rfl
@[simp] theorem State.writeSplice_door (s : State) (c h p : Nat) :
    (s.writeSplice c h p).door = s.door := rfl
@[simp] theorem State.writeSplice_cache (s : State) (c h p : Nat) :
    (s.writeSplice c h p).cache = s.cache := rfl
@[simp] theorem State.writeSplice_seed (s : State) (c h p : Nat) :
    (s.writeSplice c h p).seed = s.seed := rfl
@[simp] theorem State.writeSplice_diskPresent (s : State) (c h p : Nat) :
    (s.writeSplice c h p).diskPresent = s.diskPresent := rfl
@[simp] theorem State.writeSplice_props (s : State) (c h p : Nat) :
    (s.writeSplice c h p).props = s.props := rfl
@[simp] theorem State.writeSplice_allocTracks (s : State) (c h p : Nat) :
    (s.writeSplice c h p).allocTracks = s.allocTracks := rfl
@[simp] theorem State.writeSplice_allocSides (s : State) (c h p : Nat) :
    (s.writeSplice c h p).allocSides = s.allocSides := rfl
@[simp] theorem State.writeSplice_trk (s : State) (c h p : Nat) :
    (s.writeSplice c h p).trk = Sparse.set Track.empty s.trk (trackKey c h)
      { s.trackAt c h with splice := BitVec.ofNat 32 p } := rfl
@[simp] theorem State.writeSplice_wp (s : State) (c h p : Nat) :
    (s.writeSplice c h p).wp = s.wp := rfl
@[simp] theorem State.writeSplice_dirtyLoad (s : State) (c h p : Nat) :
    (s.writeSplice c h p).dirtyLoad = s.dirtyLoad := rfl
@[simp] theorem State.writeSplice_dirtyRestore (s : State) (c h p : Nat) :
    (s.writeSplice c h p).dirtyRestore = s.dirtyRestore := rfl
@[simp] theorem State.writeSplice_imgChanged (s : State) (c h p : Nat) :
    (s.writeSplice c h p).imgChanged = s.imgChanged := rfl
@[simp] theorem State.writeSplice_rawsec (s : State) (c h p : Nat) :
    (s.writeSplice c h p).rawsec = s.rawsec := rfl
@[simp] theorem State.writeSplice_fault (s : State) (c h p : Nat) :
    (s.writeSplice c h p).fault = s.fault := rfl
@[simp] theorem State.writeSplice_fcode (s : State) (c h p : Nat) :
    (s.writeSplice c h p).fcode = s.fcode := rfl
@[simp] theorem State.writeSplice_finfo (s : State) (c h p : Nat) :
    (s.writeSplice c h p).finfo = s.finfo := rfl
@[simp] theorem State.writeSplice_cl (s : State) (c h p : Nat) :
    (s.writeSplice c h p).cl = s.cl := rfl
@[simp] theorem State.writeSplice_bs (s : State) (c h p : Nat) :
    (s.writeSplice c h p).bs = s.bs := rfl
@[simp] theorem State.writeSplice_sect (s : State) (c h p : Nat) :
    (s.writeSplice c h p).sect = s.sect := rfl
@[simp] theorem State.writeSplice_desc (s : State) (c h p : Nat) :
    (s.writeSplice c h p).desc = s.desc := rfl
@[simp] theorem State.writeSplice_sdl (s : State) (c h p : Nat) :
    (s.writeSplice c h p).sdl = s.sdl := rfl
@[simp] theorem State.writeSplice_tl (s : State) (c h p : Nat) :
    (s.writeSplice c h p).tl = s.tl := rfl
@[simp] theorem State.writeSplice_trn (s : State) (c h p : Nat) :
    (s.writeSplice c h p).trn = s.trn := rfl
@[simp] theorem State.writeSplice_bytes (s : State) (c h p : Nat) :
    (s.writeSplice c h p).bytes = s.bytes := rfl
@[simp] theorem State.writeSplice_ckp (s : State) (c h p : Nat) :
    (s.writeSplice c h p).ckp = s.ckp := rfl

/-! ### `rawWrite` -/

@[simp] theorem State.rawWrite_cfg (s : State) (a : Nat) (l : List Byte) :
    (s.rawWrite a l).cfg = s.cfg := rfl
@[simp] theorem State.rawWrite_inbox (s : State) (a : Nat) (l : List Byte) :
    (s.rawWrite a l).inbox = s.inbox := rfl
@[simp] theorem State.rawWrite_edges (s : State) (a : Nat) (l : List Byte) :
    (s.rawWrite a l).edges = s.edges := rfl
@[simp] theorem State.rawWrite_gen (s : State) (a : Nat) (l : List Byte) :
    (s.rawWrite a l).gen = s.gen := rfl
@[simp] theorem State.rawWrite_x (s : State) (a : Nat) (l : List Byte) :
    (s.rawWrite a l).x = s.x := rfl
@[simp] theorem State.rawWrite_st (s : State) (a : Nat) (l : List Byte) :
    (s.rawWrite a l).st = s.st := rfl
@[simp] theorem State.rawWrite_motor (s : State) (a : Nat) (l : List Byte) :
    (s.rawWrite a l).motor = s.motor := rfl
@[simp] theorem State.rawWrite_t0 (s : State) (a : Nat) (l : List Byte) :
    (s.rawWrite a l).t0 = s.t0 := rfl
@[simp] theorem State.rawWrite_revCount (s : State) (a : Nat) (l : List Byte) :
    (s.rawWrite a l).revCount = s.revCount := rfl
@[simp] theorem State.rawWrite_revStart (s : State) (a : Nat) (l : List Byte) :
    (s.rawWrite a l).revStart = s.revStart := rfl
@[simp] theorem State.rawWrite_idx (s : State) (a : Nat) (l : List Byte) :
    (s.rawWrite a l).idx = s.idx := rfl
@[simp] theorem State.rawWrite_idxTimer (s : State) (a : Nat) (l : List Byte) :
    (s.rawWrite a l).idxTimer = s.idxTimer := rfl
@[simp] theorem State.rawWrite_timerMissed (s : State) (a : Nat) (l : List Byte) :
    (s.rawWrite a l).timerMissed = s.timerMissed := rfl
@[simp] theorem State.rawWrite_ready (s : State) (a : Nat) (l : List Byte) :
    (s.rawWrite a l).ready = s.ready := rfl
@[simp] theorem State.rawWrite_readyCnt (s : State) (a : Nat) (l : List Byte) :
    (s.rawWrite a l).readyCnt = s.readyCnt := rfl
@[simp] theorem State.rawWrite_cyl (s : State) (a : Nat) (l : List Byte) :
    (s.rawWrite a l).cyl = s.cyl := rfl
@[simp] theorem State.rawWrite_ss (s : State) (a : Nat) (l : List Byte) :
    (s.rawWrite a l).ss = s.ss := rfl
@[simp] theorem State.rawWrite_seekSound (s : State) (a : Nat) (l : List Byte) :
    (s.rawWrite a l).seekSound = s.seekSound := rfl
@[simp] theorem State.rawWrite_door (s : State) (a : Nat) (l : List Byte) :
    (s.rawWrite a l).door = s.door := rfl
@[simp] theorem State.rawWrite_cache (s : State) (a : Nat) (l : List Byte) :
    (s.rawWrite a l).cache = s.cache := rfl
@[simp] theorem State.rawWrite_seed (s : State) (a : Nat) (l : List Byte) :
    (s.rawWrite a l).seed = s.seed := rfl
@[simp] theorem State.rawWrite_diskPresent (s : State) (a : Nat) (l : List Byte) :
    (s.rawWrite a l).diskPresent = s.diskPresent := rfl
@[simp] theorem State.rawWrite_props (s : State) (a : Nat) (l : List Byte) :
    (s.rawWrite a l).props = s.props := rfl
@[simp] theorem State.rawWrite_allocTracks (s : State) (a : Nat) (l : List Byte) :
    (s.rawWrite a l).allocTracks = s.allocTracks := rfl
@[simp] theorem State.rawWrite_allocSides (s : State) (a : Nat) (l : List Byte) :
    (s.rawWrite a l).allocSides = s.allocSides := rfl
@[simp] theorem State.rawWrite_trk (s : State) (a : Nat) (l : List Byte) :
    (s.rawWrite a l).trk = s.trk := rfl
@[simp] theorem State.rawWrite_wp (s : State) (a : Nat) (l : List Byte) :
    (s.rawWrite a l).wp = s.wp := rfl
@[simp] theorem State.rawWrite_dirtyLoad (s : State) (a : Nat) (l : List Byte) :
    (s.rawWrite a l).dirtyLoad = s.dirtyLoad := rfl
@[simp] theorem State.rawWrite_dirtyRestore (s : State) (a : Nat) (l : List Byte) :
    (s.rawWrite a l).dirtyRestore = s.dirtyRestore := rfl
@[simp] theorem State.rawWrite_imgChanged (s : State) (a : Nat) (l : List Byte) :
    (s.rawWrite a l).imgChanged = s.imgChanged := rfl
@[simp] theorem State.rawWrite_rawsec (s : State) (a : Nat) (l : List Byte) :
    (s.rawWrite a l).rawsec = Sparse.write (0 : Byte) s.rawsec a l := rfl
@[simp] theorem State.rawWrite_fault (s : State) (a : Nat) (l : List Byte) :
    (s.rawWrite a l).fault = s.fault := rfl
@[simp] theorem State.rawWrite_fcode (s : State) (a : Nat) (l : List Byte) :
    (s.rawWrite a l).fcode = s.fcode := rfl
@[simp] theorem State.rawWrite_finfo (s : State) (a : Nat) (l : List Byte) :
    (s.rawWrite a l).finfo = s.finfo := rfl
@[simp] theorem State.rawWrite_cl (s : State) (a : Nat) (l : List Byte) :
    (s.rawWrite a l).cl = s.cl := rfl
@[simp] theorem State.rawWrite_bs (s : State) (a : Nat) (l : List Byte) :
    (s.rawWrite a l).bs = s.bs := rfl
@[simp] theorem State.rawWrite_sect (s : State) (a : Nat) (l : List Byte) :
    (s.rawWrite a l).sect = s.sect := rfl
@[simp] theorem State.rawWrite_desc (s : State) (a : Nat) (l : List Byte) :
    (s.rawWrite a l).desc = s.desc := rfl
@[simp] theorem State.rawWrite_sdl (s : State) (a : Nat) (l : List Byte) :
    (s.rawWrite a l).sdl = s.sdl := rfl
@[simp] theorem State.rawWrite_tl (s : State) (a : Nat) (l : List Byte) :
    (s.rawWrite a l).tl = s.tl := rfl
@[simp] theorem State.rawWrite_trn (s : State) (a : Nat) (l : List Byte) :
    (s.rawWrite a l).trn = s.trn := rfl
@[simp] theorem State.rawWrite_bytes (s : State) (a : Nat) (l : List Byte) :
    (s.rawWrite a l).bytes = s.bytes := rfl
@[simp] theorem State.rawWrite_ckp (s : State) (a : Nat) (l : List Byte) :
    (s.rawWrite a l).ckp = s.ckp := rfl

end Sys2Proof.Machine
end

