-- ==== Sys2Proof/Laws/Ops.lean ====
section
/-!
SUPPORT. What each named operation can do: the track store and RAWSEC through their accessors, the operand registers, numbers in 64-bit
places, completion and faults.
-/

namespace Sys2Proof.Machine

/-! ### Completion and faults -/

theorem complete_eq_next {st : Status} {s t : State} (h : complete st s = .next t) : t = { s with st := statusCode st } := by
  cases h; rfl

theorem raiseFault_eq_next {code : FaultCode} {info : Word64} {s t : State} (h : raiseFault code info s = .next t) :
    t = s.faulted code info := by
  cases h; rfl

theorem faultCode_range (code : FaultCode) : 1 ≤ (faultCode code).toNat ∧ (faultCode code).toNat ≤ 6 := by
  cases code <;> decide

theorem statusCode_injective {a b : Status} (h : statusCode a = statusCode b) : a = b := by
  cases a <;> cases b <;> first | rfl | exact absurd h (by decide)

/-! ### Numbers in 64-bit places -/

theorem toNat_ofInt_64 {v : Int} (h0 : 0 ≤ v) (h : v < 2 ^ 64) : ((BitVec.ofInt 64 v).toNat : Int) = v := by
  rw [BitVec.toNat_ofInt]; omega

theorem u64Of_of_fits (slot : Slot) {v : Int} (h0 : 0 ≤ v) (h : v < 2 ^ 64) : u64Of slot v = BitVec.ofInt 64 v := by
  rw [u64Of, if_pos ⟨h0, h⟩]

theorem toNat_u64Of (slot : Slot) {v : Int} (h0 : 0 ≤ v) (h : v < 2 ^ 64) : ((u64Of slot v).toNat : Int) = v := by
  rw [u64Of_of_fits slot h0 h, toNat_ofInt_64 h0 h]

theorem u64Of_natCast (slot : Slot) (w : Word64) : u64Of slot (w.toNat : Int) = w := by
  rw [u64Of_of_fits slot (by omega) (by have := w.isLt; omega)]
  simp

theorem toNat_revImage {k : Int} (h0 : 0 ≤ k) (h : k < 2 ^ 64) : ((revImage k).toNat : Int) = k := by
  rw [revImage, if_pos h, toNat_ofInt_64 h0 h]

/-- The word is above `f`, whatever the number. -/
theorem lt_toNat_u64After (slot : Slot) {f : Nat} (hf : f < never.toNat) (v : Int) : f < (u64After slot f v).toNat := by
  unfold u64After
  split
  · assumption
  · exact hf

theorem toNat_u64After (slot : Slot) {f : Nat} {v : Int} (h0 : (f : Int) < v) (h : v < 2 ^ 64) :
    ((u64After slot f v).toNat : Int) = v := by
  have hv := toNat_u64Of slot (by omega : 0 ≤ v) h
  rw [u64After, if_pos (by omega), hv]

/-! ### Operand registers -/

theorem OpRegs.get_set_self (x : OpRegs) (i : Fin 8) (v : Word64) : (x.set i v).get i = v := by
  fin_cases i <;> rfl

theorem OpRegs.get_set_ne (x : OpRegs) {i j : Fin 8} (v : Word64) (h : j ≠ i) : (x.set i v).get j = x.get j := by
  fin_cases i <;> fin_cases j <;> first | rfl | exact absurd rfl h

@[simp] theorem OpRegs.set_zero (x : OpRegs) (v : Word64) : x.set 0 v = { x with x0 := v } := rfl
@[simp] theorem OpRegs.set_one (x : OpRegs) (v : Word64) : x.set 1 v = { x with x1 := v } := rfl
@[simp] theorem OpRegs.set_two (x : OpRegs) (v : Word64) : x.set 2 v = { x with x2 := v } := rfl

/-! ### Operand forms -/

theorem timeOperand_of_ne {v : Word64} (h : v ≠ never) : timeOperand v = some v.toNat := if_neg h

@[simp] theorem timeOperand_never : timeOperand never = none := if_pos rfl

theorem sizeOperand_of_lt {v : Word64} (h : v.toNat < 2 ^ 28) :
    sizeOperand v = some (if v.toNat = 0 then 1000 else v.toNat) := by
  unfold sizeOperand
  by_cases h0 : v.toNat = 0 <;> simp_all [cellSizeDefault]

theorem sizeOperand_of_ge {v : Word64} (h : 2 ^ 28 ≤ v.toNat) : sizeOperand v = none := by
  unfold sizeOperand
  rw [if_neg (by omega), if_neg (by omega)]

/-! ### The track store -/

theorem keyCyl_trackKey {c h : Nat} (hh : h < 2 ^ 32) : keyCyl (trackKey c h) = c := by
  unfold keyCyl trackKey; omega

theorem keyHead_trackKey {c h : Nat} (hh : h < 2 ^ 32) : keyHead (trackKey c h) = h := by
  unfold keyHead trackKey; omega

theorem trackKey_of_key (k : Nat) : trackKey (keyCyl k) (keyHead k) = k := by
  unfold keyCyl keyHead trackKey; omega

theorem trackKey_inj {c h c' h' : Nat} (hh : h < 2 ^ 32) (hh' : h' < 2 ^ 32) (he : trackKey c h = trackKey c' h') :
    c = c' ∧ h = h' := by
  unfold trackKey at he; omega

theorem State.inStore_iff (s : State) (c h : Nat) :
    s.inStore c h = true ↔ c < s.allocTracks.toNat ∧ h < s.allocSides.toNat := by
  simp [State.inStore]

theorem State.head_lt (s : State) : s.head < 2 ^ 32 := by
  unfold State.head; split <;> omega

theorem Memory.wf_iff (s : State) :
    Memory.wf s = true ↔ Sparse.wf Track.empty s.trk = true ∧ Sparse.wf (0 : Byte) s.rawsec = true := by
  simp [Memory.wf]

theorem State.trackAt_setTrack_self {s : State} (h : Memory.wf s = true) (c k : Nat) (t : Track) :
    (s.setTrack c k t).trackAt c k = t :=
  Sparse.get_set_self ((Memory.wf_iff s).mp h).1 _ _

theorem State.trackAt_setTrack_ne (s : State) {c h c' h' : Nat} (t : Track) (hh : h < 2 ^ 32) (hh' : h' < 2 ^ 32)
    (hne : c' ≠ c ∨ h' ≠ h) : (s.setTrack c h t).trackAt c' h' = s.trackAt c' h' :=
  Sparse.get_set_ne _ _ _ (fun he => by have := trackKey_inj hh' hh he; omega)

theorem State.trackAt_writeTrack_self {s : State} (h : Memory.wf s = true) (c k : Nat) (L : List Word32) (p : Nat) :
    (s.writeTrack c k L p).trackAt c k = { events := L, splice := BitVec.ofNat 32 p, hasDamaged := hasTag .damaged L } :=
  State.trackAt_setTrack_self h _ _ _

theorem State.trackAt_writeTrack_ne (s : State) {c h c' h' : Nat} (L : List Word32) (p : Nat) (hh : h < 2 ^ 32)
    (hh' : h' < 2 ^ 32) (hne : c' ≠ c ∨ h' ≠ h) : (s.writeTrack c h L p).trackAt c' h' = s.trackAt c' h' :=
  State.trackAt_setTrack_ne s _ hh hh' hne

theorem Memory.wf_setTrack {s : State} (h : Memory.wf s = true) (c k : Nat) (t : Track) :
    Memory.wf (s.setTrack c k t) = true := by
  rw [Memory.wf_iff] at h ⊢
  exact ⟨Sparse.wf_set h.1 _ _, h.2⟩

theorem Memory.wf_writeTrack {s : State} (h : Memory.wf s = true) (c k : Nat) (L : List Word32) (p : Nat) :
    Memory.wf (s.writeTrack c k L p) = true :=
  Memory.wf_setTrack h _ _ _

theorem Memory.wf_writeSplice {s : State} (h : Memory.wf s = true) (c k p : Nat) : Memory.wf (s.writeSplice c k p) = true :=
  Memory.wf_setTrack h _ _ _

/-! ### RAWSEC -/

theorem State.rawByte_rawWrite_outside (s : State) (a : Nat) (l : List Byte) {b : Nat} (h : b < a ∨ a + l.length ≤ b) :
    (s.rawWrite a l).rawByte b = s.rawByte b :=
  Sparse.get_write_of_outside _ _ _ _ h

theorem State.rawByte_rawWrite_inside {s : State} (h : Memory.wf s = true) (a : Nat) (l : List Byte) {j : Nat}
    (hj : j < l.length) : l[j]? = some ((s.rawWrite a l).rawByte (a + j)) :=
  Sparse.get_write_of_inside ((Memory.wf_iff s).mp h).2 _ _ hj

theorem Memory.wf_rawWrite {s : State} (h : Memory.wf s = true) (a : Nat) (l : List Byte) :
    Memory.wf (s.rawWrite a l) = true := by
  rw [Memory.wf_iff] at h ⊢
  exact ⟨h.1, Sparse.wf_write h.2 _ _⟩

/-! ### The memory at reset -/

theorem Memory.wf_resetWith (p : Params) : Memory.wf (State.resetWith p) = true := rfl

end Sys2Proof.Machine
end

