-- ==== Sys2Proof/Laws/Track.lean ====
section
/-!
SUPPORT. Cell events, well-formed tracks and their view as zones and flux positions (10_state.md R34, 41_flux_sequencer.md R122, R124).
-/

namespace Sys2Proof.Machine

/-! ### Events -/

theorem evPos_mkEvent (t : CellTag) {p : Nat} (hp : p < 2 ^ 28) : evPos (mkEvent t p) = p := by
  unfold evPos mkEvent
  rw [BitVec.extractLsb'_append_eq_right]
  simpa using hp

theorem evTagBits_mkEvent (t : CellTag) (p : Nat) : evTagBits (mkEvent t p) = (tagNum t).toNat := by
  unfold evTagBits mkEvent
  rw [BitVec.extractLsb'_append_eq_left]

theorem tagOf_mkEvent (t : CellTag) (p : Nat) : tagOf (mkEvent t p) = some t := by
  unfold tagOf
  rw [evTagBits_mkEvent]
  cases t <;> rfl

theorem evPos_lt (e : Word32) : evPos e < 2 ^ 28 := (e.extractLsb' 0 28).isLt

theorem mkEvent_of_tag {e : Word32} {t : CellTag} (h : tagOf e = some t) : mkEvent t (evPos e) = e := by
  have ht : tagNum t = e.extractLsb' 28 4 := by
    apply BitVec.eq_of_toNat_eq
    unfold tagOf evTagBits at h
    split at h <;> cases h <;> (rename_i hn; rw [hn]; rfl)
  unfold mkEvent evPos
  rw [ht, BitVec.ofNat_toNat, BitVec.setWidth_eq]
  apply BitVec.eq_of_getLsbD_eq
  intro i hi
  rw [BitVec.getLsbD_append]
  by_cases h28 : i < 28
  · simp [h28]
  · simp only [h28, decide_false, if_false, BitVec.getLsbD_extractLsb']
    rw [show 28 + (i - 28) = i by omega]
    have : i - 28 < 4 := by omega
    simp [this]

/-! ### Events listed in rising order -/

/-- The positions rise strictly. -/
abbrev Rising (L : List Word32) : Prop := L.Pairwise (fun e e' => evPos e < evPos e')

theorem rising_iff (L : List Word32) : rising L = true ↔ Rising L := by
  induction L with
  | nil => simp [rising]
  | cons e L ih =>
    cases L with
    | nil => simp [rising]
    | cons e' L =>
      simp only [rising, Bool.and_eq_true, decide_eq_true_eq, ih, Rising, List.pairwise_cons, List.mem_cons,
        forall_eq_or_imp]
      constructor
      · rintro ⟨h1, h2, h3⟩
        exact ⟨⟨h1, fun x hx => h1.trans (h2 x hx)⟩, h2, h3⟩
      · rintro ⟨⟨h1, -⟩, h2, h3⟩
        exact ⟨h1, h2, h3⟩

theorem wfTrack_iff (L : List Word32) :
    wfTrack L = true ↔ (∀ e ∈ L, evPos e < revUnits) ∧ Rising L ∧ bracketed false L = true := by
  simp only [wfTrack, Bool.and_eq_true, List.all_eq_true, decide_eq_true_eq, rising_iff, and_assoc]

/-- A bracketed list with an open zone begins with its `EndOfZone`. -/
theorem bracketed_true_cases {L : List Word32} (h : bracketed true L = true) :
    ∃ (e : Word32) (L' : List Word32), L = e :: L' ∧ tagOf e = some .endOfZone ∧ bracketed false L' = true := by
  cases L with
  | nil => simp [bracketed] at h
  | cons e L' =>
    unfold bracketed at h
    split at h
    · cases h
    · simp at h
    · simp at h
    · simp at h
    · rename_i ht
      exact ⟨e, L', rfl, ht, by simpa using h⟩

theorem bracketed_flux_append (F : List Nat) (L : List Word32) :
    bracketed false (F.map (mkEvent .flux) ++ L) = bracketed false L := by
  induction F with
  | nil => rfl
  | cons p F ih => simp [bracketed, tagOf_mkEvent, ih]

theorem bracketed_flux (F : List Nat) : bracketed false (F.map (mkEvent .flux)) = true := by
  have := bracketed_flux_append F []
  simpa [bracketed] using this

/-! ### The view of a track -/

/-- What the zones and the flux positions of a well-formed track are (10_state.md R34). -/
structure View (Z : List Zone) (F : List Nat) : Prop where
  zones : Z.Pairwise (fun a b => a.z2 < b.z1)
  each : ∀ z ∈ Z, z.z1 < z.z2 ∧ z.z2 < revUnits ∧ (z.tag = .nonMagnetized ∨ z.tag = .damaged)
  flux : F.Pairwise (· < ·)
  bound : ∀ f ∈ F, f < revUnits
  apart : ∀ z ∈ Z, ∀ f ∈ F, f < z.z1 ∨ z.z2 < f

theorem View.tail {z : Zone} {Z : List Zone} {F : List Nat} (h : View (z :: Z) F) :
    View Z (F.filter (fun p => decide (z.z1 ≤ p))) where
  zones := (List.pairwise_cons.mp h.zones).2
  each := fun z' hz => h.each z' (List.mem_cons_of_mem _ hz)
  flux := h.flux.filter _
  bound := fun f hf => h.bound f (List.mem_filter.mp hf).1
  apart := fun z' hz f hf => h.apart z' (List.mem_cons_of_mem _ hz) f (List.mem_filter.mp hf).1

theorem revUnits_lt : revUnits < 2 ^ 28 := by decide

theorem evPos_flux {F : List Nat} (h : ∀ f ∈ F, f < revUnits) : (F.map (mkEvent .flux)).map evPos = F := by
  rw [List.map_map]
  conv => rhs; rw [← List.map_id F]
  apply List.map_congr_left
  intro f hf
  exact evPos_mkEvent _ ((h f hf).trans revUnits_lt)

/-- The positions of a list that begins with flux events. -/
theorem rising_flux {F : List Nat} (hb : ∀ f ∈ F, f < revUnits) (hs : F.Pairwise (· < ·)) :
    Rising (F.map (mkEvent .flux)) := by
  rw [Rising, List.pairwise_map]
  exact hs.imp_of_mem fun ha hb' hlt => by
    rw [evPos_mkEvent _ ((hb _ ha).trans revUnits_lt), evPos_mkEvent _ ((hb _ hb').trans revUnits_lt)]
    exact hlt

/-- The events of an encoded view are at the positions of its zones and of its flux positions. -/
theorem mem_encodeTrack {Z : List Zone} {F : List Nat} {e : Word32} (h : e ∈ encodeTrack Z F) :
    (∃ f ∈ F, e = mkEvent .flux f) ∨ ∃ z ∈ Z, e = mkEvent z.tag z.z1 ∨ e = mkEvent .endOfZone z.z2 := by
  induction Z generalizing F with
  | nil =>
    simp only [encodeTrack, List.mem_map] at h
    obtain ⟨f, hf, rfl⟩ := h
    exact .inl ⟨f, hf, rfl⟩
  | cons z Z ih =>
    simp only [encodeTrack, List.mem_append, List.mem_map, List.mem_cons] at h
    rcases h with ⟨f, hf, rfl⟩ | rfl | rfl | h
    · exact .inl ⟨f, (List.mem_filter.mp hf).1, rfl⟩
    · exact .inr ⟨z, List.mem_cons_self, .inl rfl⟩
    · exact .inr ⟨z, List.mem_cons_self, .inr rfl⟩
    · rcases ih h with ⟨f, hf, rfl⟩ | ⟨z', hz', h'⟩
      · exact .inl ⟨f, (List.mem_filter.mp hf).1, rfl⟩
      · exact .inr ⟨z', List.mem_cons_of_mem _ hz', h'⟩

/-- An encoded view is a well-formed track. -/
theorem wfTrack_encodeTrack {Z : List Zone} {F : List Nat} (h : View Z F) : wfTrack (encodeTrack Z F) = true := by
  induction Z generalizing F with
  | nil =>
    rw [wfTrack_iff]
    refine ⟨?_, rising_flux h.bound h.flux, bracketed_flux F⟩
    intro e he
    obtain ⟨f, hf, rfl⟩ := List.mem_map.mp he
    rw [evPos_mkEvent _ ((h.bound f hf).trans revUnits_lt)]
    exact h.bound f hf
  | cons z Z ih =>
    obtain ⟨hz1, hz2, ht⟩ := h.each z List.mem_cons_self
    have hrest := (wfTrack_iff _).mp (ih h.tail)
    have hu := revUnits_lt
    have hp1 : evPos (mkEvent z.tag z.z1) = z.z1 := evPos_mkEvent _ (by omega)
    have hp2 : evPos (mkEvent .endOfZone z.z2) = z.z2 := evPos_mkEvent _ (by omega)
    -- everything after the zone lies above it
    have hafter : ∀ e ∈ encodeTrack Z (F.filter (fun p => decide (z.z1 ≤ p))), z.z2 < evPos e := by
      intro e he
      rcases mem_encodeTrack he with ⟨f, hf, rfl⟩ | ⟨z', hz', h'⟩
      · obtain ⟨hf, hle⟩ := List.mem_filter.mp hf
        simp only [decide_eq_true_eq] at hle
        rw [evPos_mkEvent _ ((h.bound f hf).trans hu)]
        rcases h.apart z List.mem_cons_self f hf with h1 | h1 <;> omega
      · have h1 := (List.pairwise_cons.mp h.zones).1 z' hz'
        have h2 := h.each z' (List.mem_cons_of_mem _ hz')
        rcases h' with rfl | rfl
        · rw [evPos_mkEvent _ (by omega)]; exact h1
        · rw [evPos_mkEvent _ (by omega)]; omega
    have hbefore : ∀ e ∈ (F.filter (fun p => decide (p < z.z1))).map (mkEvent .flux), evPos e < z.z1 := by
      intro e he
      obtain ⟨f, hf, rfl⟩ := List.mem_map.mp he
      obtain ⟨hf, hlt⟩ := List.mem_filter.mp hf
      rw [evPos_mkEvent _ ((h.bound f hf).trans hu)]
      simpa using hlt
    rw [wfTrack_iff]
    simp only [encodeTrack]
    refine ⟨?_, ?_, ?_⟩
    · intro e he
      rw [List.mem_append, List.mem_cons, List.mem_cons] at he
      rcases he with he | rfl | rfl | he
      · have := hbefore e he; omega
      · omega
      · omega
      · exact hrest.1 e he
    · rw [Rising, List.pairwise_append]
      refine ⟨?_, ?_, ?_⟩
      · exact rising_flux (fun f hf => h.bound f (List.mem_filter.mp hf).1) (h.flux.filter _)
      · rw [List.pairwise_cons, List.pairwise_cons]
        refine ⟨?_, ?_, hrest.2.1⟩
        · intro e he
          rw [List.mem_cons] at he
          rcases he with rfl | he
          · omega
          · have := hafter e he; omega
        · intro e he
          have := hafter e he; omega
      · intro e he e' he'
        have h1 := hbefore e he
        rw [List.mem_cons, List.mem_cons] at he'
        rcases he' with rfl | rfl | he'
        · omega
        · omega
        · have := hafter e' he'; omega
    · rw [bracketed_flux_append]
      have hopen : bracketed false (mkEvent z.tag z.z1 :: mkEvent .endOfZone z.z2
          :: encodeTrack Z (F.filter (fun p => decide (z.z1 ≤ p))))
          = bracketed true (mkEvent .endOfZone z.z2 :: encodeTrack Z (F.filter (fun p => decide (z.z1 ≤ p)))) := by
        rcases ht with ht | ht <;> simp [bracketed, ht, tagOf_mkEvent]
      rw [hopen]
      simp [bracketed, tagOf_mkEvent, hrest.2.2]

theorem zonesFrom_flux_append (F : List Nat) (L : List Word32) (o : Option (CellTag × Nat)) :
    zonesFrom o (F.map (mkEvent .flux) ++ L) = zonesFrom o L := by
  induction F with
  | nil => rfl
  | cons p F ih => simp [zonesFrom, tagOf_mkEvent, ih]

theorem fluxPositions_append (L L' : List Word32) : fluxPositions (L ++ L') = fluxPositions L ++ fluxPositions L' := by
  simp [fluxPositions]

theorem fluxPositions_flux {F : List Nat} (h : ∀ f ∈ F, f < revUnits) : fluxPositions (F.map (mkEvent .flux)) = F := by
  unfold fluxPositions
  rw [List.filter_eq_self.mpr]
  · exact evPos_flux h
  · intro e he
    obtain ⟨f, -, rfl⟩ := List.mem_map.mp he
    simp [tagOf_mkEvent]

theorem fluxPositions_cons_flux {e : Word32} (h : tagOf e = some .flux) (L : List Word32) :
    fluxPositions (e :: L) = evPos e :: fluxPositions L := by
  simp [fluxPositions, h]

theorem fluxPositions_cons_other {e : Word32} (h : tagOf e ≠ some .flux) (L : List Word32) :
    fluxPositions (e :: L) = fluxPositions L := by
  simp [fluxPositions, h]

theorem zonesOf_encodeTrack {Z : List Zone} {F : List Nat} (h : View Z F) : zonesOf (encodeTrack Z F) = Z := by
  induction Z generalizing F with
  | nil =>
    have := zonesFrom_flux_append F [] none
    simpa [zonesOf, encodeTrack, zonesFrom] using this
  | cons z Z ih =>
    obtain ⟨hz1, hz2, ht⟩ := h.each z List.mem_cons_self
    have hu := revUnits_lt
    unfold zonesOf encodeTrack
    rw [zonesFrom_flux_append]
    have h1 : zonesFrom none (mkEvent z.tag z.z1 :: mkEvent .endOfZone z.z2
        :: encodeTrack Z (F.filter (fun p => decide (z.z1 ≤ p))))
        = { tag := z.tag, z1 := z.z1, z2 := z.z2 } :: zonesFrom none (encodeTrack Z (F.filter (fun p => decide (z.z1 ≤ p)))) := by
      rcases ht with ht | ht <;>
        simp [zonesFrom, ht, tagOf_mkEvent, evPos_mkEvent _ (show z.z1 < 2 ^ 28 by omega),
          evPos_mkEvent _ (show z.z2 < 2 ^ 28 by omega)]
      all_goals rw [← ht]
    rw [h1]
    exact congrArg _ (ih h.tail)

theorem filter_lt_append_ge {F : List Nat} (h : F.Pairwise (· < ·)) (a : Nat) :
    F.filter (fun p => decide (p < a)) ++ F.filter (fun p => decide (a ≤ p)) = F := by
  induction F with
  | nil => rfl
  | cons p F ih =>
    obtain ⟨h1, h2⟩ := List.pairwise_cons.mp h
    by_cases hp : p < a
    · rw [List.filter_cons_of_pos (by simpa using hp), List.filter_cons_of_neg (by simpa using hp)]
      rw [List.cons_append, ih h2]
    · rw [List.filter_cons_of_neg (by simpa using hp), List.filter_cons_of_pos (by simpa using hp)]
      have hnil : F.filter (fun p => decide (p < a)) = [] := by
        rw [List.filter_eq_nil_iff]
        intro q hq
        have := h1 q hq
        simp only [decide_eq_true_eq]
        omega
      have hall : F.filter (fun p => decide (a ≤ p)) = F := by
        rw [List.filter_eq_self]
        intro q hq
        have := h1 q hq
        simp only [decide_eq_true_eq]
        omega
      rw [hnil, hall]
      rfl

theorem fluxPositions_encodeTrack {Z : List Zone} {F : List Nat} (h : View Z F) : fluxPositions (encodeTrack Z F) = F := by
  induction Z generalizing F with
  | nil => exact fluxPositions_flux h.bound
  | cons z Z ih =>
    obtain ⟨-, -, ht⟩ := h.each z List.mem_cons_self
    unfold encodeTrack
    rw [fluxPositions_append, fluxPositions_flux (fun f hf => h.bound f (List.mem_filter.mp hf).1),
      fluxPositions_cons_other (by rw [tagOf_mkEvent]; rcases ht with ht | ht <;> simp [ht]),
      fluxPositions_cons_other (by simp [tagOf_mkEvent]), ih h.tail]
    exact filter_lt_append_ge h.flux _

/-- A flux position below every zone stands first. -/
theorem encodeTrack_cons_flux {Z : List Zone} {F : List Nat} {p : Nat} (hz : ∀ z ∈ Z, p < z.z1) :
    encodeTrack Z (p :: F) = mkEvent .flux p :: encodeTrack Z F := by
  cases Z with
  | nil => rfl
  | cons z Z =>
    have h1 := hz z List.mem_cons_self
    simp only [encodeTrack]
    rw [List.filter_cons_of_pos (by simpa using h1), List.filter_cons_of_neg (by simpa using h1)]
    rfl

/-- A zone put before a view that lies above it. -/
theorem View.cons {z : Zone} {Z : List Zone} {F : List Nat} (h : View Z F) (hz : z.z1 < z.z2) (hu : z.z2 < revUnits)
    (ht : z.tag = .nonMagnetized ∨ z.tag = .damaged) (hZ : ∀ z' ∈ Z, z.z2 < z'.z1) (hF : ∀ f ∈ F, z.z2 < f) :
    View (z :: Z) F where
  zones := List.pairwise_cons.mpr ⟨hZ, h.zones⟩
  each := fun z' hz' => (List.mem_cons.mp hz').elim (fun he => he ▸ ⟨hz, hu, ht⟩) (h.each z')
  flux := h.flux
  bound := h.bound
  apart := fun z' hz' f hf => (List.mem_cons.mp hz').elim (fun he => he ▸ .inr (hF f hf)) (fun hz' => h.apart z' hz' f hf)

/-- A zone below every flux position stands first. -/
theorem encodeTrack_cons_zone {z : Zone} {Z : List Zone} {F : List Nat} (h : ∀ f ∈ F, z.z1 < f) :
    encodeTrack (z :: Z) F = mkEvent z.tag z.z1 :: mkEvent .endOfZone z.z2 :: encodeTrack Z F := by
  simp only [encodeTrack]
  have h1 : F.filter (fun p => decide (p < z.z1)) = [] := by
    rw [List.filter_eq_nil_iff]
    intro f hf
    have := h f hf
    simp only [decide_eq_true_eq]
    omega
  have h2 : F.filter (fun p => decide (z.z1 ≤ p)) = F := by
    rw [List.filter_eq_self]
    intro f hf
    have := h f hf
    simp only [decide_eq_true_eq]
    omega
  rw [h1, h2]
  rfl

/-- The view of a list is one, the list is its encoding, and every zone begins at an event. -/
def Viewed (L : List Word32) : Prop :=
  View (zonesOf L) (fluxPositions L) ∧ encodeTrack (zonesOf L) (fluxPositions L) = L
    ∧ ∀ z ∈ zonesOf L, ∃ e ∈ L, evPos e = z.z1

/-- The list that begins with a zone, where the shorter lists are viewed. -/
theorem view_of_opener {e : Word32} {L : List Word32} {n : Nat}
    (ih : ∀ m < n, ∀ {L : List Word32}, (∀ e ∈ L, evPos e < revUnits) → Rising L → bracketed false L = true →
      L.length = m → Viewed L)
    (hn : (e :: L).length = n) (hb : ∀ x ∈ e :: L, evPos x < revUnits) (hr : Rising (e :: L))
    (ht : tagOf e = some .nonMagnetized ∨ tagOf e = some .damaged) (hk : bracketed true L = true) : Viewed (e :: L) := by
  obtain ⟨t, ht', htt⟩ : ∃ t, tagOf e = some t ∧ (t = .nonMagnetized ∨ t = .damaged) := by
    rcases ht with ht | ht
    · exact ⟨_, ht, .inl rfl⟩
    · exact ⟨_, ht, .inr rfl⟩
  obtain ⟨e', L', rfl, hte', hk'⟩ := bracketed_true_cases hk
  obtain ⟨hlt, hr'⟩ := List.pairwise_cons.mp hr
  obtain ⟨hlt', hr''⟩ := List.pairwise_cons.mp hr'
  have h1 := hlt e' List.mem_cons_self
  have h2 := hb e' (by simp)
  obtain ⟨hv, he, hm⟩ := ih L'.length (by rw [← hn]; simp only [List.length_cons]; omega)
    (fun x hx => hb x (by simp [hx])) hr'' hk' rfl
  have hz : zonesOf (e :: e' :: L') = { tag := t, z1 := evPos e, z2 := evPos e' } :: zonesOf L' := by
    rcases htt with rfl | rfl <;> simp [zonesOf, zonesFrom, ht', hte']
  have hf : fluxPositions (e :: e' :: L') = fluxPositions L' := by
    rw [fluxPositions_cons_other (by rw [ht']; rcases htt with rfl | rfl <;> simp),
      fluxPositions_cons_other (by simp [hte'])]
  have hF : ∀ f ∈ fluxPositions L', evPos e' < f := by
    intro f hf
    obtain ⟨x, hx, rfl⟩ := List.mem_map.mp hf
    exact hlt' x (List.mem_filter.mp hx).1
  have hZ : ∀ z ∈ zonesOf L', evPos e' < z.z1 := by
    intro z hz
    obtain ⟨x, hx, hxz⟩ := hm z hz
    rw [← hxz]
    exact hlt' x hx
  unfold Viewed
  rw [hz, hf]
  refine ⟨hv.cons h1 h2 htt hZ hF, ?_, ?_⟩
  · rw [encodeTrack_cons_zone (fun f hf => by have := hF f hf; simp only; omega), he, mkEvent_of_tag ht',
      mkEvent_of_tag hte']
  · intro z hz
    rcases List.mem_cons.mp hz with rfl | hz
    · exact ⟨e, List.mem_cons_self, rfl⟩
    · obtain ⟨x, hx, hxz⟩ := hm z hz
      exact ⟨x, by simp [hx], hxz⟩

theorem view_of_bracketed {L : List Word32} (hb : ∀ e ∈ L, evPos e < revUnits) (hr : Rising L)
    (hk : bracketed false L = true) : Viewed L := by
  induction hn : L.length using Nat.strong_induction_on generalizing L with
  | _ n ih =>
    cases L with
    | nil =>
      exact ⟨⟨by simp [zonesOf, zonesFrom], by simp [zonesOf, zonesFrom], by simp [fluxPositions], by simp [fluxPositions],
        by simp [zonesOf, zonesFrom]⟩, rfl, by simp [zonesOf, zonesFrom]⟩
    | cons e L =>
      obtain ⟨hlt, hr'⟩ := List.pairwise_cons.mp hr
      have hb' : ∀ x ∈ L, evPos x < revUnits := fun x hx => hb x (List.mem_cons_of_mem _ hx)
      unfold bracketed at hk
      split at hk
      · cases hk
      · -- a flux event
        rename_i ht
        obtain ⟨hv, he, hm⟩ := ih _ (by rw [← hn]; exact Nat.lt_succ_self _) hb' hr' (by simpa using hk) rfl
        have hz : zonesOf (e :: L) = zonesOf L := by simp [zonesOf, zonesFrom, ht]
        have hf := fluxPositions_cons_flux ht L
        have hfirst : ∀ z ∈ zonesOf L, evPos e < z.z1 := by
          intro z hz
          obtain ⟨x, hx, hxz⟩ := hm z hz
          rw [← hxz]
          exact hlt x hx
        unfold Viewed
        rw [hz, hf]
        refine ⟨⟨hv.zones, hv.each, ?_, ?_, ?_⟩, ?_, ?_⟩
        · rw [List.pairwise_cons]
          refine ⟨?_, hv.flux⟩
          intro f hf
          obtain ⟨x, hx, rfl⟩ := List.mem_map.mp hf
          exact hlt x (List.mem_filter.mp hx).1
        · intro f hf
          rcases List.mem_cons.mp hf with rfl | hf
          · exact hb e List.mem_cons_self
          · exact hv.bound f hf
        · intro z hz f hf
          rcases List.mem_cons.mp hf with rfl | hf
          · exact .inl (hfirst z hz)
          · exact hv.apart z hz f hf
        · rw [encodeTrack_cons_flux hfirst, he, mkEvent_of_tag ht]
        · intro z hz
          obtain ⟨x, hx, hxz⟩ := hm z hz
          exact ⟨x, List.mem_cons_of_mem _ hx, hxz⟩
      · exact view_of_opener ih hn hb hr (.inl ‹_›) (by simpa using hk)
      · exact view_of_opener ih hn hb hr (.inr ‹_›) (by simpa using hk)
      · simp at hk

/-- A well-formed track is the encoding of its view, and the view is one. -/
theorem view_of_wfTrack {L : List Word32} (h : wfTrack L = true) : View (zonesOf L) (fluxPositions L) :=
  (view_of_bracketed ((wfTrack_iff L).mp h).1 ((wfTrack_iff L).mp h).2.1 ((wfTrack_iff L).mp h).2.2).1

theorem encodeTrack_of_wfTrack {L : List Word32} (h : wfTrack L = true) : encodeTrack (zonesOf L) (fluxPositions L) = L :=
  (view_of_bracketed ((wfTrack_iff L).mp h).1 ((wfTrack_iff L).mp h).2.1 ((wfTrack_iff L).mp h).2.2).2.1

end Sys2Proof.Machine
end

