-- ==== Sys2Proof/Laws/Buffer.lean ====
section
/-!
SUPPORT. The tracks of a machine in its invariant, and the checkpoint stream: what is written is read back, and nothing else is
accepted (45_cell_buffer.md R195 to R197).
-/

namespace Sys2Proof.Machine

/-! ### Tracks under the invariant -/

theorem Track.good_empty : Track.empty.good := ⟨rfl, by decide, rfl⟩

/-- Every track of a machine in its invariant, listed or not, is a good one. -/
theorem Inv.trackAt {s : State} (h : Inv s) (c k : Nat) : (s.trackAt c k).good := by
  by_cases he : s.trackAt c k = Track.empty
  · rw [he]
    exact Track.good_empty
  · have := h.tracks _ (Sparse.mem_of_get he)
    exact ⟨this.1, this.2.1, this.2.2.1⟩

theorem Inv.wfTrack_buf {s : State} (h : Inv s) (c k : Nat) : wfTrack (s.buf c k) = true := (h.trackAt c k).1

/-- Outside the allocated store a track is empty. -/
theorem Inv.trackAt_outside {s : State} (h : Inv s) {c k : Nat} (hk : k < 2 ^ 32) (ho : s.inStore c k = false) :
    s.trackAt c k = Track.empty := by
  by_contra he
  have hm := h.tracks _ (Sparse.mem_of_get he)
  have h1 := hm.2.2.2.1
  have h2 := hm.2.2.2.2
  simp only [keyCyl_trackKey hk, keyHead_trackKey hk] at h1 h2
  have := (State.inStore_iff s c k).mpr ⟨h1, h2⟩
  rw [ho] at this
  cases this

/-- A well-formed track has at most one event a position. -/
theorem length_le_of_rising {L : List Word32} (hr : Rising L) (lo hi : Nat) (hb : ∀ e ∈ L, lo ≤ evPos e ∧ evPos e < hi) :
    L.length ≤ hi - lo := by
  induction L generalizing lo with
  | nil => simp
  | cons e L ih =>
    obtain ⟨h1, h2⟩ := List.pairwise_cons.mp hr
    have he := hb e List.mem_cons_self
    have := ih h2 (evPos e + 1) (fun x hx => ⟨h1 x hx, (hb x (List.mem_cons_of_mem _ hx)).2⟩)
    rw [List.length_cons]
    omega

theorem length_le_of_wfTrack {L : List Word32} (h : wfTrack L = true) : L.length ≤ revUnits := by
  have hw := (wfTrack_iff L).mp h
  exact length_le_of_rising hw.2.1 0 revUnits (fun e he => ⟨Nat.zero_le _, hw.1 e he⟩)

/-! ### Little-endian numbers (20_memory.md R54) -/

theorem leBytes_succ (n v : Nat) : leBytes (n + 1) v = BitVec.ofNat 8 v :: leBytes n (v / 256) := by
  unfold leBytes
  rw [List.range_succ_eq_map, List.map_cons, List.map_map]
  simp only [Nat.mul_zero, pow_zero, Nat.div_one, List.cons.injEq, true_and]
  apply List.map_congr_left
  intro j _
  simp only [Function.comp_apply, Nat.succ_eq_add_one]
  rw [Nat.div_div_eq_div_mul, show 2 ^ (8 * (j + 1)) = 256 * 2 ^ (8 * j) by rw [Nat.mul_add, pow_add]; ring]

theorem length_leBytes (n v : Nat) : (leBytes n v).length = n := by simp [leBytes]

theorem leNat_leBytes (n v : Nat) (h : v < 256 ^ n) : leNat (leBytes n v) = v := by
  induction n generalizing v with
  | zero => simp only [pow_zero, Nat.lt_one_iff] at h; subst h; rfl
  | succ n ih =>
    rw [leBytes_succ, leNat, ih _ (by rw [pow_succ] at h; omega), BitVec.toNat_ofNat]
    omega

/-! ### One record -/

theorem parseWords_flatMap (L : List Word32) (rest : List Byte) :
    parseWords L.length (L.flatMap (fun w => leBytes 4 w.toNat) ++ rest) = L := by
  induction L with
  | nil => rfl
  | cons w L ih =>
    have hw : w.toNat < 256 ^ 4 := w.isLt
    rw [List.length_cons, parseWords, List.flatMap_cons, List.append_assoc,
      List.take_left' (length_leBytes 4 _), List.drop_left' (length_leBytes 4 _), leNat_leBytes 4 _ hw, ih]
    simp

theorem length_flatMap_words (L : List Word32) : (L.flatMap (fun w => leBytes 4 w.toNat)).length = 4 * L.length := by
  induction L with
  | nil => rfl
  | cons w L ih => rw [List.flatMap_cons, List.length_append, ih, length_leBytes, List.length_cons]; omega

theorem length_trackRecord (t : Track) : (trackRecord t).length = 13 + 4 * t.events.length := by
  unfold trackRecord
  simp only [List.length_append, length_leBytes, length_flatMap_words, List.length_singleton]
  omega

/-- The record of a good track is read back, and the rest of the stream is left. -/
theorem parseTrack_trackRecord {t : Track} (h : t.good) (rest : List Byte) :
    parseTrack (trackRecord t ++ rest) = some (t, rest) := by
  have hlen := length_le_of_wfTrack h.1
  have hu : revUnits < 256 ^ 4 := by decide
  have hlt : t.events.length < 256 ^ 8 := lt_of_le_of_lt hlen (by decide)
  have hsp : t.splice.toNat < 256 ^ 4 := t.splice.isLt
  have e1 : (trackRecord t ++ rest).take 8 = leBytes 8 t.events.length := by
    simp only [trackRecord, List.append_assoc]
    exact List.take_left' (length_leBytes 8 _)
  have e2 : (trackRecord t ++ rest).drop 8
      = t.events.flatMap (fun w => leBytes 4 w.toNat) ++ (leBytes 4 t.splice.toNat ++ (boolByte t.hasDamaged :: rest)) := by
    simp only [trackRecord, List.append_assoc]
    exact List.drop_left' (length_leBytes 8 _)
  have e3 : (trackRecord t ++ rest).drop (8 + 4 * t.events.length)
      = leBytes 4 t.splice.toNat ++ (boolByte t.hasDamaged :: rest) := by
    rw [← List.drop_drop, e2]
    exact List.drop_left' (length_flatMap_words _)
  have e4 : (leBytes 4 t.splice.toNat ++ (boolByte t.hasDamaged :: rest)).take 4 = leBytes 4 t.splice.toNat :=
    List.take_left' (length_leBytes 4 _)
  have e5 : (leBytes 4 t.splice.toNat ++ (boolByte t.hasDamaged :: rest)).getD 4 0 = boolByte t.hasDamaged := by
    rw [List.getD_eq_getElem?_getD, List.getElem?_append_right (by simp [length_leBytes])]
    simp [length_leBytes]
  have e6 : (leBytes 4 t.splice.toNat ++ (boolByte t.hasDamaged :: rest)).drop 5 = rest := by
    rw [show (5 : Nat) = 4 + 1 from rfl, ← List.drop_drop, List.drop_left' (length_leBytes 4 _)]
    rfl
  have hp : parseBool (boolByte t.hasDamaged) = some t.hasDamaged := by cases t.hasDamaged <;> rfl
  unfold parseTrack
  simp only [e1, leNat_leBytes 8 _ hlt, e2, e3, e4, e5, e6, hp, leNat_leBytes 4 _ hsp, parseWords_flatMap]
  rw [if_neg (by simp only [List.length_append, length_trackRecord]; omega)]
  rw [if_pos (by simp [h.1, h.2.1, ← h.2.2])]
  simp

/-! ### The stream read back, and nothing else accepted -/

theorem leNat_lt (l : List Byte) : leNat l < 256 ^ l.length := by
  induction l with
  | nil => simp [leNat]
  | cons b l ih => rw [leNat, List.length_cons, pow_succ]; have := b.isLt; omega

theorem leBytes_leNat (l : List Byte) : leBytes l.length (leNat l) = l := by
  induction l with
  | nil => rfl
  | cons b l ih =>
    have hb := b.isLt
    rw [List.length_cons, leBytes_succ, leNat, show (b.toNat + 256 * leNat l) / 256 = leNat l by omega, ih]
    congr 1
    apply BitVec.eq_of_toNat_eq
    rw [BitVec.toNat_ofNat]
    omega

theorem leBytes_take (n : Nat) (l : List Byte) (h : n ≤ l.length) : leBytes n (leNat (l.take n)) = l.take n := by
  have := leBytes_leNat (l.take n)
  rwa [List.length_take, min_eq_left h] at this

theorem flatMap_parseWords (n : Nat) (l : List Byte) (h : 4 * n ≤ l.length) :
    (parseWords n l).flatMap (fun w => leBytes 4 w.toNat) = l.take (4 * n) := by
  induction n generalizing l with
  | zero => simp [parseWords]
  | succ n ih =>
    have hlt : leNat (l.take 4) < 2 ^ 32 := by
      have := leNat_lt (l.take 4)
      rw [List.length_take, min_eq_left (by omega)] at this
      exact this
    rw [parseWords, List.flatMap_cons, ih _ (by rw [List.length_drop]; omega), BitVec.toNat_ofNat, Nat.mod_eq_of_lt hlt,
      leBytes_take 4 l (by omega), show 4 * (n + 1) = 4 + 4 * n by ring, List.take_add]

theorem length_parseWords (n : Nat) (l : List Byte) : (parseWords n l).length = n := by
  induction n generalizing l with
  | zero => rfl
  | succ n ih => rw [parseWords, List.length_cons, ih]

theorem parseBool_some {b : Byte} {x : Bool} (h : parseBool b = some x) : boolByte x = b := by
  unfold parseBool at h
  split at h
  · obtain rfl := Option.some.inj h; simp_all [boolByte]
  · split at h
    · obtain rfl := Option.some.inj h; simp_all [boolByte]
    · cases h

/-- A record that is accepted is the record of the good track that it gives. -/
theorem parseTrack_some {l rest : List Byte} {t : Track} (h : parseTrack l = some (t, rest)) :
    t.good ∧ l = trackRecord t ++ rest := by
  unfold parseTrack at h
  simp only at h
  split at h
  · cases h
  · rename_i hl
    split at h
    · cases h
    · rename_i damaged hb
      split at h
      · rename_i hg
        simp only [Bool.and_eq_true, decide_eq_true_eq, beq_iff_eq] at hg
        obtain ⟨rfl, rfl⟩ := Prod.mk.inj (Option.some.inj h)
        generalize hn : leNat (l.take 8) = n at *
        generalize hw : l.drop (8 + 4 * n) = tail at *
        have htl : tail.length = l.length - (8 + 4 * n) := by rw [← hw, List.length_drop]
        have hs : leNat (tail.take 4) < 2 ^ 32 := lt_trans hg.1.2 (by decide)
        refine ⟨⟨hg.1.1, ?_, hg.2⟩, ?_⟩
        · rw [BitVec.toNat_ofNat, Nat.mod_eq_of_lt hs]; exact hg.1.2
        · have e1 : leBytes 8 n = l.take 8 := by rw [← hn]; exact leBytes_take 8 l (by omega)
          have e2 := flatMap_parseWords n (l.drop 8) (by rw [List.length_drop]; omega)
          have e3 : leBytes 4 (leNat (tail.take 4)) = tail.take 4 := leBytes_take 4 tail (by omega)
          have e4 : [boolByte damaged] ++ tail.drop 5 = tail.drop 4 := by
            rw [parseBool_some hb, List.drop_eq_getElem_cons (show 4 < tail.length by omega),
              List.getD_eq_getElem _ _ (show 4 < tail.length by omega)]
            rfl
          simp only [trackRecord, length_parseWords, BitVec.toNat_ofNat, Nat.mod_eq_of_lt hs, e1, e2, e3, List.append_assoc, e4,
            List.take_append_drop]
          rw [← hw, ← List.drop_drop, List.take_append_drop, List.take_append_drop]
      · cases h

/-- The tracks that stand at the given places, put into a store. -/
def storeTracks (m : Sparse Track) (places : List (Nat × Nat)) (tracks : List Track) : Sparse Track :=
  (places.zip tracks).foldl (fun m e => Sparse.set Track.empty m (trackKey e.1.1 e.1.2) e.2) m

/-- Exactly the streams of good tracks are accepted. -/
theorem parseTracks_eq_some {places : List (Nat × Nat)} {l : List Byte} {m m' : Sparse Track} :
    parseTracks places l m = some m' ↔
      ∃ tracks : List Track, tracks.length = places.length ∧ (∀ t ∈ tracks, t.good) ∧ l = tracks.flatMap trackRecord
        ∧ m' = storeTracks m places tracks := by
  induction places generalizing l m with
  | nil =>
    cases l with
    | nil =>
      constructor
      · intro h
        exact ⟨[], rfl, by simp, rfl, (Option.some.inj h).symm⟩
      · rintro ⟨tracks, h, -, -, rfl⟩
        obtain rfl := List.length_eq_zero_iff.mp h
        rfl
    | cons b l =>
      simp only [parseTracks, List.length_nil, false_iff, reduceCtorEq]
      rintro ⟨tracks, h, -, hl, -⟩
      obtain rfl := List.length_eq_zero_iff.mp h
      cases hl
  | cons p places ih =>
    constructor
    · intro h
      unfold parseTracks at h
      split at h
      · cases h
      · rename_i t rest ht
        obtain ⟨hg, rfl⟩ := parseTrack_some ht
        obtain ⟨tracks, h1, h2, rfl, rfl⟩ := ih.mp h
        exact ⟨t :: tracks, by simp [h1], by simpa using ⟨hg, h2⟩, by simp, rfl⟩
    · rintro ⟨tracks, h1, h2, rfl, rfl⟩
      cases tracks with
      | nil => cases h1
      | cons t tracks =>
        rw [List.flatMap_cons, parseTracks, parseTrack_trackRecord (h2 t List.mem_cons_self)]
        exact ih.mpr ⟨tracks, by simpa using h1, fun t ht => h2 t (List.mem_cons_of_mem _ ht), rfl, rfl⟩

theorem wf_storeTracks {m : Sparse Track} (h : Sparse.wf Track.empty m = true) (places : List (Nat × Nat)) (tracks : List Track) :
    Sparse.wf Track.empty (storeTracks m places tracks) = true := by
  unfold storeTracks
  induction places.zip tracks generalizing m with
  | nil => exact h
  | cons e l ih => exact ih (Sparse.wf_set h _ _)

/-- What stands at an address after tracks are put at places whose addresses differ. -/
theorem get_storeTracks_of_not_mem (m : Sparse Track) (places : List (Nat × Nat)) (tracks : List Track) (k : Nat)
    (h : ∀ p ∈ places, trackKey p.1 p.2 ≠ k) : Sparse.get Track.empty (storeTracks m places tracks) k = Sparse.get Track.empty m k := by
  induction places generalizing m tracks with
  | nil => rfl
  | cons p places ih =>
    cases tracks with
    | nil => rfl
    | cons t tracks =>
      have := ih (Sparse.set Track.empty m (trackKey p.1 p.2) t) tracks (fun q hq => h q (List.mem_cons_of_mem _ hq))
      rw [Sparse.get_set_ne _ _ _ (h p List.mem_cons_self).symm] at this
      exact this

theorem get_storeTracks {m : Sparse Track} (hm : Sparse.wf Track.empty m = true) {places : List (Nat × Nat)} {tracks : List Track}
    (hl : tracks.length = places.length) (hd : (places.map (fun p => trackKey p.1 p.2)).Nodup) {j : Nat} {p : Nat × Nat}
    (hp : places[j]? = some p) : tracks[j]? = some (Sparse.get Track.empty (storeTracks m places tracks) (trackKey p.1 p.2)) := by
  induction places generalizing m tracks j with
  | nil => cases hp
  | cons q places ih =>
    cases tracks with
    | nil => cases hl
    | cons t tracks =>
      rw [List.map_cons, List.nodup_cons] at hd
      cases j with
      | zero =>
        obtain rfl := Option.some.inj hp
        have := get_storeTracks_of_not_mem (Sparse.set Track.empty m (trackKey q.1 q.2) t) places tracks (trackKey q.1 q.2)
          (fun r hr he => hd.1 (List.mem_map.mpr ⟨r, hr, he⟩))
        rw [Sparse.get_set_self hm] at this
        exact congrArg some this.symm
      | succ j => exact ih (Sparse.wf_set hm _ _) (by simpa using hl) hd.2 hp

/-! ### The stream in bytes (45_cell_buffer.md R195) -/

theorem leBytes_u32 (w : Word32) : leBytes 4 w.toNat = u32Bytes w := by
  simp only [leBytes, u32Bytes, List.range, List.range.loop, List.map_cons, List.map_nil, List.cons.injEq, and_true]
  refine ⟨?_, ?_, ?_, ?_⟩ <;> (apply BitVec.eq_of_toNat_eq; simp [Nat.shiftRight_eq_div_pow])

theorem leBytes_u64 (n : Nat) : leBytes 8 n = u64Bytes (BitVec.ofNat 64 n) := by
  simp only [leBytes, u64Bytes, List.range, List.range.loop, List.map_cons, List.map_nil, List.cons.injEq, and_true]
  refine ⟨?_, ?_, ?_, ?_, ?_, ?_, ?_, ?_⟩ <;>
    (apply BitVec.eq_of_toNat_eq; simp [Nat.shiftRight_eq_div_pow]; try omega)

theorem trackRecord_eq (t : Track) : trackRecord t = recordBytes t := by
  unfold trackRecord recordBytes
  rw [leBytes_u64, leBytes_u32]
  simp only [leBytes_u32]
  rfl

theorem trackOrder_length (s : State) : s.trackOrder.length = s.allocTracks.toNat * s.allocSides.toNat := by
  simp [State.trackOrder]

theorem getElem?_trackOrder (s : State) {c h : Nat} (hc : c < s.allocTracks.toNat) (hh : h < s.allocSides.toNat) :
    s.trackOrder[c * s.allocSides.toNat + h]? = some (c, h) := by
  have key : ∀ (n : Nat) (c : Nat), c < n →
      ((List.range n).flatMap fun c => (List.range s.allocSides.toNat).map fun h => (c, h))[c * s.allocSides.toNat + h]? = some (c, h) := by
    intro n
    induction n with
    | zero => intro c hc; omega
    | succ n ih =>
      intro c hc
      have hlen : ((List.range n).flatMap fun c => (List.range s.allocSides.toNat).map fun h => (c, h)).length = n * s.allocSides.toNat := by
        simp
      rw [List.range_succ, List.flatMap_append]
      by_cases hcn : c < n
      · rw [List.getElem?_append_left (by rw [hlen]; nlinarith)]
        exact ih c hcn
      · obtain rfl : c = n := by omega
        rw [List.getElem?_append_right (by rw [hlen]; omega), hlen]
        simp [hh]
  exact key _ c hc

theorem nodup_trackOrder (s : State) : (s.trackOrder.map (fun p => trackKey p.1 p.2)).Nodup := by
  apply List.Nodup.map_on
  · intro p hp q hq he
    simp only [State.trackOrder, List.mem_flatMap, List.mem_map, List.mem_range] at hp hq
    obtain ⟨c, -, h, hh, rfl⟩ := hp
    obtain ⟨c', -, h', hh', rfl⟩ := hq
    have := s.allocSides.isLt
    obtain ⟨rfl, rfl⟩ := trackKey_inj (by omega) (by omega) he
    rfl
  · unfold State.trackOrder
    rw [List.nodup_flatMap]
    refine ⟨fun c _ => (List.nodup_range).map (fun a b h => by simpa using h), ?_⟩
    refine (List.nodup_range).imp ?_
    intro a b hab x hx hy
    simp only [List.mem_map] at hx hy
    obtain ⟨_, _, rfl⟩ := hx
    obtain ⟨_, _, h⟩ := hy
    exact hab (by simpa using (congrArg Prod.fst h).symm)

theorem parseCheckpoint_iff (s : State) (dirty : Bool) (m : Sparse Track) :
    s.parseCheckpoint = some (dirty, m) ↔
      ∃ tracks : List Track, tracks.length = s.allocTracks.toNat * s.allocSides.toNat ∧ (∀ t ∈ tracks, t.good)
        ∧ s.ckp = streamBytes dirty tracks ∧ m = storeTracks [] s.trackOrder tracks := by
  have hrec : ∀ tracks : List Track, tracks.flatMap trackRecord = tracks.flatMap recordBytes := fun tracks => by
    rw [show trackRecord = recordBytes from funext trackRecord_eq]
  constructor
  · intro h
    unfold State.parseCheckpoint at h
    split at h
    · cases h
    · rename_i b l hl
      split at h
      · rename_i dirty' m' hb hm
        obtain ⟨rfl, rfl⟩ := Prod.mk.inj (Option.some.inj h)
        obtain ⟨tracks, h1, h2, rfl, rfl⟩ := parseTracks_eq_some.mp hm
        refine ⟨tracks, by rw [h1, trackOrder_length], h2, ?_, rfl⟩
        rw [hl, hrec, streamBytes, ← parseBool_some hb]
        rfl
      · cases h
  · rintro ⟨tracks, h1, h2, h3, rfl⟩
    have hm := (parseTracks_eq_some (m := [])).mpr ⟨tracks, by rw [h1, trackOrder_length], h2, rfl, rfl⟩
    unfold State.parseCheckpoint
    rw [h3, streamBytes, ← hrec]
    simp only [hm]
    cases dirty <;> rfl

end Sys2Proof.Machine
end

