-- ==== Sys2Proof/Laws/Codec.lean ====
section
/-!
SUPPORT. Cell words, the parity fix and the conversion of a cell list into a track (42_codec.md R153 to R157).
-/

namespace Sys2Proof.Machine

/-! ### Cell words -/

theorem evPos_mkCell (k : CellKind) {d : Nat} (hd : d < 2 ^ 28) : evPos (mkCell k d) = d := by
  unfold evPos mkCell
  rw [BitVec.extractLsb'_append_eq_right]
  simpa using hd

theorem kindOf_mkCell (k : CellKind) (d : Nat) : kindOf (mkCell k d) = some k := by
  unfold kindOf
  have : evTagBits (mkCell k d) = (kindNum k).toNat := by
    unfold evTagBits mkCell
    rw [BitVec.extractLsb'_append_eq_left]
  rw [this]
  cases k <;> rfl

theorem kindOf_bitCell (b : Bool) (d : Nat) : kindOf (bitCell b d) = some (if b then .bit1 else .bit0) :=
  kindOf_mkCell _ _

theorem evPos_bitCell (b : Bool) {d : Nat} (hd : d < 2 ^ 28) : evPos (bitCell b d) = d := evPos_mkCell _ hd

theorem isBit1_bitCell (b : Bool) (d : Nat) : isBit1 (bitCell b d) = b := by
  unfold isBit1
  rw [kindOf_bitCell]
  cases b <;> rfl

theorem evPos_toggleBit (w : Word32) : evPos (toggleBit w) = evPos w := evPos_mkCell _ (evPos_lt w)

theorem goodCell_iff (w : Word32) : goodCell w = true ↔ kindOf w ≠ none ∧ evPos w ≠ 0 := by
  simp [goodCell, Option.isSome_iff_ne_none]

/-- What `MFM_W` asks of `CL` (30_encoding.md R72). -/
theorem prevReadable_iff (cl : List Word32) :
    prevReadable cl = true ↔ ∀ w : Word32, cl.getLast? = some w → kindOf w ≠ none ∧ evPos w ≠ 0 := by
  unfold prevReadable
  cases cl.getLast? with
  | none => simp
  | some w => simp [goodCell_iff]

/-! ### The parity fix (R154) -/

/-- The parity fix is the list itself, or the list with the word at one index toggled. -/
theorem parityFix_cases (W : List Word32) (s : Nat) :
    (W.countP isBit1 % 2 = 0 ∧ parityFix W s = W)
      ∨ (W.countP isBit1 % 2 = 1 ∧ firstBitFrom W s = none ∧ parityFix W s = W)
      ∨ (W.countP isBit1 % 2 = 1 ∧ ∃ j, firstBitFrom W s = some j ∧ j < W.length ∧ isBit (W.getD j 0) = true
          ∧ parityFix W s = W.set j (toggleBit (W.getD j 0))) := by
  unfold parityFix
  split
  · exact .inl ⟨by assumption, rfl⟩
  · have hodd : W.countP isBit1 % 2 = 1 := by omega
    cases hf : firstBitFrom W s with
    | none => exact .inr (.inl ⟨hodd, rfl, rfl⟩)
    | some j =>
      refine .inr (.inr ⟨hodd, j, rfl, ?_, ?_, rfl⟩)
      · have := List.mem_of_find?_eq_some hf
        obtain ⟨t, ht, rfl⟩ := List.mem_map.mp this
        exact Nat.mod_lt _ (by have := List.mem_range.mp ht; omega)
      · have := List.find?_some hf
        simpa using this

/-- R154: with an odd number of `BIT1` words the fix toggles the first bit cell in the cyclic order from place `s`. -/
theorem parityFix_odd {W : List Word32} (h : W.countP isBit1 % 2 = 1) (s : Nat) :
    ∃ (k : Nat) (w : Word32), k < W.length ∧ W[(s + k) % W.length]? = some w ∧ isBit w = true
      ∧ (∀ j : Nat, j < k → isBit (W.getD ((s + j) % W.length) 0) = false)
      ∧ parityFix W s = W.set ((s + k) % W.length) (toggleBit w) := by
  have hpos : 0 < W.length := by
    cases W with
    | nil => simp at h
    | cons a l => simp
  have hex : ∃ k : Nat, k < W.length ∧ isBit (W.getD ((s + k) % W.length) 0) = true := by
    obtain ⟨w, hw, hb⟩ := List.countP_pos_iff.mp (show 0 < W.countP isBit1 by omega)
    obtain ⟨i, hi, rfl⟩ := List.getElem_of_mem hw
    refine ⟨(i + W.length - s % W.length) % W.length, Nat.mod_lt _ hpos, ?_⟩
    have hs := Nat.mod_lt s hpos
    have : (s + (i + W.length - s % W.length) % W.length) % W.length = i := by
      rw [Nat.add_mod_mod, Nat.add_mod, ← Nat.add_mod_mod (s % W.length)]
      rw [Nat.mod_mod, Nat.add_mod_mod, show s % W.length + (i + W.length - s % W.length) = i + W.length by omega, Nat.add_mod_right,
        Nat.mod_eq_of_lt hi]
    rw [this, List.getD_eq_getElem?_getD, List.getElem?_eq_getElem hi]
    revert hb
    simp only [Option.getD_some, isBit1, isBit]
    cases kindOf W[i] with
    | none => simp
    | some c => cases c <;> simp
  obtain ⟨h1, h2⟩ := Nat.find_spec hex
  generalize hk : Nat.find hex = k at h1 h2
  have hmin : ∀ j : Nat, j < k → isBit (W.getD ((s + j) % W.length) 0) = false := by
    intro j hj
    have := Nat.find_min hex (by omega : j < Nat.find hex)
    simp only [not_and, Bool.not_eq_true] at this
    exact this (by omega)
  have hlt : (s + k) % W.length < W.length := Nat.mod_lt _ hpos
  refine ⟨k, W.getD ((s + k) % W.length) 0, h1, ?_, h2, hmin, ?_⟩
  · rw [List.getD_eq_getElem?_getD, List.getElem?_eq_getElem hlt]
    rfl
  · have hf : firstBitFrom W s = some ((s + k) % W.length) := by
      unfold firstBitFrom
      rw [List.find?_map]
      have : (List.range W.length).find? ((fun j => isBit (W.getD j 0)) ∘ fun t => (s + t) % W.length) = some k := by
        rw [List.find?_range_eq_some]
        refine ⟨h2, List.mem_range.mpr h1, fun j hj => ?_⟩
        simpa using hmin j hj
      rw [this]
      rfl
    unfold parityFix
    rw [if_neg (by omega), hf]

theorem length_parityFix (W : List Word32) (s : Nat) : (parityFix W s).length = W.length := by
  rcases parityFix_cases W s with ⟨-, h⟩ | ⟨-, -, h⟩ | ⟨-, j, -, -, -, h⟩ <;> rw [h]
  simp

/-- The parity fix changes no duration. -/
theorem map_evPos_parityFix (W : List Word32) (s : Nat) : (parityFix W s).map evPos = W.map evPos := by
  rcases parityFix_cases W s with ⟨-, h⟩ | ⟨-, -, h⟩ | ⟨-, j, -, hj, -, h⟩ <;> rw [h]
  rw [List.map_set, evPos_toggleBit]
  apply List.ext_getElem
  · simp
  · intro i h1 h2
    rw [List.getElem_set]
    split
    · rename_i he
      subst he
      simp [hj]
    · rfl

theorem durations_take_parityFix (W : List Word32) (s i : Nat) :
    durations ((parityFix W s).take i) = ((W.map evPos).take i).sum := by
  unfold durations
  rw [List.map_take, map_evPos_parityFix]

/-! ### The conversion (R153) -/

/-- A proper part of a list of positive durations takes less than the whole. -/
theorem sum_take_lt {l : List Nat} (h : ∀ d ∈ l, 0 < d) {i : Nat} (hi : i < l.length) : (l.take i).sum < l.sum := by
  have h1 := List.sum_take_add_sum_drop l i
  have h2 : 0 < (l.drop i).sum := by
    rw [List.drop_eq_getElem_cons hi, List.sum_cons]
    have := h l[i] (List.getElem_mem hi)
    omega
  omega

/-- What `GEN_FROM_CELLS` stores: a well-formed track and a splice in it. -/
theorem cellsToTrack_ok {cl L : List Word32} {sigma splice : Nat} (h : cellsToTrack cl sigma = .ok (L, splice)) :
    wfTrack L = true ∧ splice < revUnits := by
  unfold cellsToTrack at h
  split at h
  · cases h
  · rename_i hgood
    split at h
    · cases h
      decide
    · rename_i hne
      simp only at h
      split at h
      · rename_i hwf
        cases h
        refine ⟨hwf, ?_⟩
        have hlen : 0 < cl.length := List.length_pos_iff.mpr hne
        have hpos : ∀ d ∈ cl.map evPos, 0 < d := by
          intro d hd
          obtain ⟨w, hw, rfl⟩ := List.mem_map.mp hd
          simp only [List.any_eq_true, not_exists, not_and, Bool.not_eq_true, Bool.not_eq_false'] at hgood
          have := hgood w hw
          unfold goodCell at this
          simp only [Bool.and_eq_true, decide_eq_true_eq] at this
          omega
        have hlt := sum_take_lt hpos (i := sigma % cl.length) (by simpa using Nat.mod_lt _ hlen)
        rw [durations_take_parityFix]
        unfold durations
        rw [map_evPos_parityFix]
        apply Nat.div_lt_of_lt_mul
        rw [Nat.mul_comm]
        exact Nat.mul_lt_mul_of_pos_right hlt (by decide)
      · cases h

end Sys2Proof.Machine
end

