-- ==== Sys2Proof/Laws/Writers.lean ====
section
/-!
SUPPORT. What the bit writers append, and the CRC over what they append (42_codec.md R134 to R136, 44_crc.md R175 to R179).
-/

namespace Sys2Proof.Machine

/-! ### Bits -/

theorem length_writtenBits (n v : Nat) : (writtenBits n v).length = n := by simp [writtenBits]

theorem getElem?_writtenBits (n v j : Nat) (h : j < n) : (writtenBits n v)[j]? = some (v.testBit (n - 1 - j)) := by
  have hr : j < (List.range n).reverse.length := by simpa using h
  simp only [writtenBits, List.getElem?_map, List.getElem?_eq_getElem hr, Option.map_some, List.getElem_reverse,
    List.length_range, List.getElem_range]

/-- The bits of a byte, as a writer writes them. -/
theorem writtenBits_byte (v : Nat) : writtenBits 8 v = byteBits (BitVec.ofNat 8 v) := by
  simp [writtenBits, byteBits, List.range, List.range.loop, BitVec.getMsbD, BitVec.getLsbD_ofNat]

theorem writtenBits_toNat_byte (b : Byte) : writtenBits 8 b.toNat = byteBits b := by
  rw [writtenBits_byte, BitVec.ofNat_toNat, BitVec.setWidth_eq]

theorem length_byteBits (b : Byte) : (byteBits b).length = 8 := by simp [byteBits]

/-! ### Cells -/

theorem length_rawCells (d : Nat) (l : List Bool) : (rawCells d l).length = l.length := by simp [rawCells]

theorem length_fmCells (d : Nat) (l : List Bool) : (fmCells d l).length = 2 * l.length := by
  induction l with
  | nil => rfl
  | cons b l ih => simp only [fmCells, List.length_cons, ih]; omega

theorem length_mfmCells (d : Nat) (p : Bool) (l : List Bool) : (mfmCells d p l).length = 2 * l.length := by
  induction l generalizing p with
  | nil => rfl
  | cons b l ih => simp only [mfmCells, List.length_cons, ih]; omega

theorem rawCells_append (d : Nat) (l l' : List Bool) : rawCells d (l ++ l') = rawCells d l ++ rawCells d l' := by
  simp [rawCells]

theorem fmCells_append (d : Nat) (l l' : List Bool) : fmCells d (l ++ l') = fmCells d l ++ fmCells d l' := by
  induction l with
  | nil => rfl
  | cons b l ih => simp [fmCells, ih]

/-- The data bit that the next MFM cell follows. -/
def lastBit (p : Bool) (l : List Bool) : Bool := l.getLast?.getD p

theorem mfmCells_append (d : Nat) (p : Bool) (l l' : List Bool) :
    mfmCells d p (l ++ l') = mfmCells d p l ++ mfmCells d (lastBit p l) l' := by
  induction l generalizing p with
  | nil => rfl
  | cons b l ih =>
    have : lastBit p (b :: l) = lastBit b l := by
      unfold lastBit
      rw [List.getLast?_cons]
      simp
    simp [mfmCells, ih, this]

theorem prevBit_append_mfmCells (d : Nat) (cl : List Word32) (l : List Bool) :
    prevBit (cl ++ mfmCells d (prevBit cl) l) = lastBit (prevBit cl) l := by
  rcases l.eq_nil_or_concat with rfl | ⟨l', b, rfl⟩
  · simp [mfmCells, lastBit]
  · rw [List.concat_eq_append, mfmCells_append, ← List.append_assoc]
    simp only [mfmCells, lastBit, List.getLast?_append, List.getLast?_singleton, Option.some_or, Option.getD_some]
    unfold prevBit
    rw [List.getLast?_append]
    simp only [List.getLast?_cons_cons, List.getLast?_singleton, Option.some_or, kindOf_bitCell]
    cases b <;> rfl

/-- The same write again and again is one write of the repeated bits. -/
theorem iterate_writeRaw (n v d count : Nat) (cl : List Word32) :
    (writeRaw n v d)^[count] cl = cl ++ rawCells d (List.replicate count (writtenBits n v)).flatten := by
  induction count generalizing cl with
  | zero => simp [rawCells]
  | succ count ih =>
    rw [Function.iterate_succ_apply, ih, List.replicate_succ, List.flatten_cons, rawCells_append, ← List.append_assoc]
    rfl

theorem iterate_writeFm (n v d count : Nat) (cl : List Word32) :
    (writeFm n v d)^[count] cl = cl ++ fmCells d (List.replicate count (writtenBits n v)).flatten := by
  induction count generalizing cl with
  | zero => simp [fmCells]
  | succ count ih =>
    rw [Function.iterate_succ_apply, ih, List.replicate_succ, List.flatten_cons, fmCells_append, ← List.append_assoc]
    rfl

theorem iterate_writeMfm (n v d count : Nat) (cl : List Word32) :
    (writeMfm n v d)^[count] cl
      = cl ++ mfmCells d (prevBit cl) (List.replicate count (writtenBits n v)).flatten := by
  induction count generalizing cl with
  | zero => simp [mfmCells]
  | succ count ih =>
    rw [Function.iterate_succ_apply, ih, List.replicate_succ, List.flatten_cons, mfmCells_append, ← List.append_assoc]
    unfold writeMfm
    rw [prevBit_append_mfmCells]

/-- The cells that `bytes` are written to. -/
def byteCells (enc : Encoding) (d : Nat) (p : Bool) (bytes : List Byte) : List Word32 :=
  match enc with
  | .mfm => mfmCells d p (bytes.flatMap byteBits)
  | .fm => fmCells d (bytes.flatMap byteBits)

theorem writeBytes_eq (enc : Encoding) (d : Nat) (bytes : List Byte) (cl : List Word32) :
    writeBytes enc d bytes cl = cl ++ byteCells enc d (prevBit cl) bytes := by
  induction bytes generalizing cl with
  | nil => cases enc <;> simp [writeBytes, byteCells, mfmCells, fmCells]
  | cons b bytes ih =>
    have h1 : writeBytes enc d (b :: bytes) cl = writeBytes enc d bytes (writeEnc enc 8 b.toNat d cl) := rfl
    rw [h1, ih]
    cases enc with
    | mfm =>
      simp only [writeEnc, writeMfm, byteCells, writtenBits_toNat_byte, List.flatMap_cons]
      rw [prevBit_append_mfmCells, mfmCells_append, List.append_assoc]
    | fm =>
      simp only [writeEnc, writeFm, byteCells, writtenBits_toNat_byte, List.flatMap_cons]
      rw [fmCells_append, List.append_assoc]

/-! ### The data bits of written cells (R177, R179) -/

theorem dataBits_fmCells (d : Nat) (l : List Bool) : dataBits (fmCells d l) = l := by
  induction l with
  | nil => rfl
  | cons b l ih => simp only [fmCells, dataBits, ih, kindOf_bitCell]; cases b <;> rfl

theorem dataBits_mfmCells (d : Nat) (p : Bool) (l : List Bool) : dataBits (mfmCells d p l) = l := by
  induction l generalizing p with
  | nil => rfl
  | cons b l ih => simp only [mfmCells, dataBits, ih, kindOf_bitCell]; cases b <;> rfl

theorem dataBits_byteCells (enc : Encoding) (d : Nat) (p : Bool) (bytes : List Byte) :
    dataBits (byteCells enc d p bytes) = bytes.flatMap byteBits := by
  cases enc
  · exact dataBits_mfmCells _ _ _
  · exact dataBits_fmCells _ _

theorem isBitCell_iff (w : Word32) :
    isBitCell w = true ↔ (kindOf w = some .bit0 ∨ kindOf w = some .bit1) ∧ evPos w ≠ 0 := by
  simp [isBitCell]

/-- A span holds a word that `CRC_CELLS` cannot read exactly when some place of it does (R177). -/
theorem any_cellSpan_iff {cl : List Word32} {a b : Nat} (hb : b ≤ cl.length) :
    (cellSpan cl a b).any (fun w => !isBitCell w) = true ↔ ∃ j, a ≤ j ∧ j < b ∧ isBitCell (cl.getD j 0) = false := by
  rw [List.any_eq_true]
  constructor
  · rintro ⟨w, hw, hn⟩
    obtain ⟨i, hi, rfl⟩ := List.getElem_of_mem hw
    simp only [cellSpan, List.length_take, List.length_drop] at hi
    refine ⟨a + i, by omega, by omega, ?_⟩
    rw [List.getD_eq_getElem?_getD, List.getElem?_eq_getElem (by omega)]
    simpa [cellSpan] using hn
  · rintro ⟨j, h1, h2, h3⟩
    have hl : j - a < (cellSpan cl a b).length := by simp [cellSpan]; omega
    refine ⟨(cellSpan cl a b)[j-a], List.getElem_mem hl, ?_⟩
    rw [List.getD_eq_getElem?_getD, List.getElem?_eq_getElem (by omega)] at h3
    simp [cellSpan, show a + (j - a) = j by omega]
    simpa using h3

/-- A bit cell can be read exactly when its duration is not 0. -/
theorem isBitCell_bitCell (b : Bool) {d : Nat} (hd : d < 2 ^ 28) : isBitCell (bitCell b d) = decide (d ≠ 0) := by
  unfold isBitCell
  rw [kindOf_bitCell, evPos_bitCell b hd]
  cases b <;> simp

theorem all_isBitCell_fmCells {d : Nat} (h1 : 1 ≤ d) (hd : d < 2 ^ 28) (l : List Bool) : (fmCells d l).all isBitCell = true := by
  induction l with
  | nil => rfl
  | cons b l ih => simp [fmCells, isBitCell_bitCell _ hd, ih]; omega

theorem all_isBitCell_mfmCells {d : Nat} (h1 : 1 ≤ d) (hd : d < 2 ^ 28) (p : Bool) (l : List Bool) :
    (mfmCells d p l).all isBitCell = true := by
  induction l generalizing p with
  | nil => rfl
  | cons b l ih => simp [mfmCells, isBitCell_bitCell _ hd, ih]; omega

theorem length_byteCells (enc : Encoding) (d : Nat) (p : Bool) (bytes : List Byte) :
    (byteCells enc d p bytes).length = 16 * bytes.length := by
  have h : ∀ l : List Byte, (l.flatMap byteBits).length = 8 * l.length := by
    intro l
    induction l with
    | nil => rfl
    | cons b l ih => rw [List.flatMap_cons, List.length_append, length_byteBits, ih, List.length_cons]; omega
  cases enc
  · simp only [byteCells, length_mfmCells, h]; omega
  · simp only [byteCells, length_fmCells, h]; omega

end Sys2Proof.Machine
end

