-- ==== Sys2Proof/Laws/Builder.lean ====
section
/-!
SUPPORT. Laws of the PC track builders (42_codec.md R150 to R152): each piece of a track is its items, written one after another; every item
stands at its sixteen cells; and what a built track holds at each of its places.
-/

namespace Sys2Proof.Machine

/-- One item written at the end of a cell list. -/
def writeItem (enc : Encoding) (cl : List Word32) : TrackItem → List Word32
  | .byte b => writeEnc enc 8 b.toNat cellSizeDefault cl
  | .mark pattern => writeRaw 16 pattern.toNat cellSizeDefault cl

/-- Items written one after another. -/
def writeItems (enc : Encoding) (items : List TrackItem) (cl : List Word32) : List Word32 := items.foldl (writeItem enc) cl

/-- The data bits of an item. -/
def itemBits : TrackItem → List Bool
  | .byte b => byteBits b
  | .mark pattern => (List.range 8).map (fun j => pattern.getMsbD (2 * j + 1))

theorem writeItems_append (enc : Encoding) (l l' : List TrackItem) (cl : List Word32) :
    writeItems enc (l ++ l') cl = writeItems enc l' (writeItems enc l cl) := List.foldl_append

theorem writeItems_nil (enc : Encoding) (cl : List Word32) : writeItems enc [] cl = cl := rfl

theorem writtenBits_16 (v : BitVec 16) : writtenBits 16 v.toNat = (List.range 16).map (fun j => v.getMsbD j) := by
  simp [writtenBits, List.range, List.range.loop, BitVec.getMsbD, BitVec.testBit_toNat]

theorem dataBits_append (l l' : List Word32) (h : l.length % 2 = 0) : dataBits (l ++ l') = dataBits l ++ dataBits l' := by
  induction l using dataBits.induct with
  | case1 c w l ih =>
    simp only [List.cons_append, dataBits]
    rw [ih (by simp only [List.length_cons] at h; omega)]
  | case2 l hl =>
    match l, hl with
    | [], _ => rfl
    | [w], _ => simp at h
    | a :: b :: l, hl => exact absurd rfl (hl a b l)

/-- What an item adds: sixteen cells, with its data bits. -/
theorem writeItem_spec (enc : Encoding) (cl : List Word32) (it : TrackItem) :
    ∃ cells : List Word32, writeItem enc cl it = cl ++ cells ∧ cells.length = 16 ∧ dataBits cells = itemBits it
      ∧ ∀ w ∈ cells, w = bitCell true 1000 ∨ w = bitCell false 1000 := by
  have hb : ∀ b : Bool, bitCell b 1000 = bitCell true 1000 ∨ bitCell b 1000 = bitCell false 1000 := by decide
  cases it with
  | byte b =>
    cases enc with
    | fm =>
      refine ⟨fmCells 1000 (byteBits b), by simp only [writeItem, writeEnc, writeFm, writtenBits_toNat_byte], ?_, dataBits_fmCells _ _, ?_⟩
      · rw [length_fmCells, length_byteBits]
      · generalize byteBits b = l
        induction l with
        | nil => intro w h; cases h
        | cons x l ih =>
          intro w h
          simp only [fmCells, List.mem_cons] at h
          rcases h with rfl | rfl | h
          · exact hb _
          · exact hb _
          · exact ih w h
    | mfm =>
      refine ⟨mfmCells 1000 (prevBit cl) (byteBits b), by simp only [writeItem, writeEnc, writeMfm, writtenBits_toNat_byte], ?_,
        dataBits_mfmCells _ _ _, ?_⟩
      · rw [length_mfmCells, length_byteBits]
      · generalize byteBits b = l
        generalize prevBit cl = p
        induction l generalizing p with
        | nil => intro w h; cases h
        | cons x l ih =>
          intro w h
          simp only [mfmCells, List.mem_cons] at h
          rcases h with rfl | rfl | h
          · exact hb _
          · exact hb _
          · exact ih _ w h
  | mark pattern =>
    refine ⟨rawCells 1000 ((List.range 16).map (fun j => pattern.getMsbD j)),
      by simp only [writeItem, writeRaw, writtenBits_16], by simp [length_rawCells], ?_, ?_⟩
    · simp [rawCells, List.range, List.range.loop, dataBits, kindOf_bitCell, itemBits]
      have : ∀ b : Bool, (((if b = true then CellKind.bit1 else CellKind.bit0) == CellKind.bit1)) = b := by decide
      simp [this]
    · intro w h
      simp only [rawCells, List.mem_map] at h
      obtain ⟨b, -, rfl⟩ := h
      exact hb _

theorem writeItems_spec (enc : Encoding) (items : List TrackItem) (cl : List Word32) :
    ∃ cells : List Word32, writeItems enc items cl = cl ++ cells ∧ cells.length = 16 * items.length
      ∧ dataBits cells = items.flatMap itemBits ∧ ∀ w ∈ cells, w = bitCell true 1000 ∨ w = bitCell false 1000 := by
  induction items generalizing cl with
  | nil => exact ⟨[], by simp [writeItems], rfl, rfl, by simp⟩
  | cons it items ih =>
    obtain ⟨a, h1, h2, h3, h4⟩ := writeItem_spec enc cl it
    obtain ⟨b, g1, g2, g3, g4⟩ := ih (cl ++ a)
    refine ⟨a ++ b, ?_, ?_, ?_, ?_⟩
    · show writeItems enc items (writeItem enc cl it) = _
      rw [h1, g1, List.append_assoc]
    · rw [List.length_append, h2, g2, List.length_cons]; ring
    · rw [dataBits_append _ _ (by omega), h3, g3, List.flatMap_cons]
    · intro w hw
      rcases List.mem_append.mp hw with hw | hw
      · exact h4 w hw
      · exact g4 w hw

/-- The CRC of the items written since a place. -/
theorem crcFrom_writeItems (enc : Encoding) (items : List TrackItem) (cl : List Word32) :
    crcFrom cl.length (writeItems enc items cl) = crcBits crcInit (items.flatMap itemBits) := by
  obtain ⟨cells, h1, -, h3, -⟩ := writeItems_spec enc items cl
  rw [crcFrom, h1, List.drop_left, h3]

/-! ### The model's builder, item by item -/

theorem mfmByte_eq (v : Nat) (hv : v < 256) (cl : List Word32) : mfmByte v cl = writeItem .mfm cl (.byte (BitVec.ofNat 8 v)) := by
  unfold mfmByte writeItem writeEnc
  simp only [BitVec.toNat_ofNat]
  rw [Nat.mod_eq_of_lt hv]

theorem fmByte_eq (v : Nat) (hv : v < 256) (cl : List Word32) : fmByte v cl = writeItem .fm cl (.byte (BitVec.ofNat 8 v)) := by
  unfold fmByte writeItem writeEnc
  simp only [BitVec.toNat_ofNat]
  rw [Nat.mod_eq_of_lt hv]

theorem iterate_item (enc : Encoding) (f : List Word32 → List Word32) (it : TrackItem) (hf : ∀ cl, f cl = writeItem enc cl it) (n : Nat)
    (cl : List Word32) : f^[n] cl = writeItems enc (List.replicate n it) cl := by
  induction n generalizing cl with
  | zero => rfl
  | succ n ih => rw [Function.iterate_succ_apply, ih, hf]; rfl

theorem mfmFill_eq (n v : Nat) (hv : v < 256) (cl : List Word32) :
    mfmFill n v cl = writeItems .mfm (gapItems n (BitVec.ofNat 8 v)) cl := iterate_item _ _ _ (mfmByte_eq v hv) n cl

theorem fmFill_eq (n v : Nat) (hv : v < 256) (cl : List Word32) :
    fmFill n v cl = writeItems .fm (gapItems n (BitVec.ofNat 8 v)) cl := iterate_item _ _ _ (fmByte_eq v hv) n cl

theorem rawMark_eq (enc : Encoding) (x : Nat) (hx : x < 65536) (cl : List Word32) :
    rawMark x cl = writeItem enc cl (.mark (BitVec.ofNat 16 x)) := by
  unfold rawMark writeItem
  simp only [BitVec.toNat_ofNat]
  rw [Nat.mod_eq_of_lt hx]

theorem mfmBytes_eq (l : List Nat) (hl : ∀ v ∈ l, v < 256) (cl : List Word32) :
    mfmBytes l cl = writeItems .mfm (l.map (fun v => .byte (BitVec.ofNat 8 v))) cl := by
  induction l generalizing cl with
  | nil => rfl
  | cons v l ih =>
    show mfmBytes l (mfmByte v cl) = _
    rw [ih (fun v hv => hl v (List.mem_cons_of_mem _ hv)), mfmByte_eq v (hl v List.mem_cons_self)]
    rfl

theorem fmBytes_eq (l : List Nat) (hl : ∀ v ∈ l, v < 256) (cl : List Word32) :
    fmBytes l cl = writeItems .fm (l.map (fun v => .byte (BitVec.ofNat 8 v))) cl := by
  induction l generalizing cl with
  | nil => rfl
  | cons v l ih =>
    show fmBytes l (fmByte v cl) = _
    rw [ih (fun v hv => hl v (List.mem_cons_of_mem _ hv)), fmByte_eq v (hl v List.mem_cons_self)]
    rfl

theorem writtenBits_crc (v : BitVec 16) :
    writtenBits 16 v.toNat = byteBits (v.extractLsb' 8 8) ++ byteBits (v.extractLsb' 0 8) := by
  rw [writtenBits_16]
  simp [byteBits, List.range, List.range.loop, BitVec.getMsbD]

theorem writeMfm_crc (v : BitVec 16) (cl : List Word32) :
    writeMfm 16 v.toNat cellSizeDefault cl
      = writeItems .mfm [.byte (v.extractLsb' 8 8), .byte (v.extractLsb' 0 8)] cl := by
  show _ = writeMfm 8 _ cellSizeDefault (writeMfm 8 _ cellSizeDefault cl)
  unfold writeMfm
  rw [writtenBits_crc, writtenBits_toNat_byte, writtenBits_toNat_byte, prevBit_append_mfmCells, mfmCells_append, List.append_assoc]

theorem writeFm_crc (v : BitVec 16) (cl : List Word32) :
    writeFm 16 v.toNat cellSizeDefault cl
      = writeItems .fm [.byte (v.extractLsb' 8 8), .byte (v.extractLsb' 0 8)] cl := by
  show _ = writeFm 8 _ cellSizeDefault (writeFm 8 _ cellSizeDefault cl)
  unfold writeFm
  rw [writtenBits_crc, writtenBits_toNat_byte, writtenBits_toNat_byte, fmCells_append, List.append_assoc]

theorem flatMap_itemBits_bytes (l : List Byte) : (l.map TrackItem.byte).flatMap itemBits = l.flatMap byteBits := by
  induction l with
  | nil => rfl
  | cons b l ih => simp [itemBits, ih]

theorem idBytes_eq {r : SectorDesc} (h : goodRecord r = true) :
    (∀ v ∈ idBytes r, v < 256) ∧ (idBytes r).map (fun v => TrackItem.byte (BitVec.ofNat 8 v)) = (recordId r).map .byte := by
  simp only [goodRecord, Bool.and_eq_true, decide_eq_true_eq] at h
  refine ⟨?_, rfl⟩
  intro v hv
  simp only [idBytes, List.mem_cons, List.not_mem_nil, or_false] at hv
  omega

theorem dataBytes_eq (r : SectorDesc) :
    (∀ v ∈ dataBytes r, v < 256) ∧ (dataBytes r).map (fun v => TrackItem.byte (BitVec.ofNat 8 v)) = r.data.map .byte := by
  constructor
  · intro v hv
    obtain ⟨b, -, rfl⟩ := List.mem_map.mp hv
    exact b.isLt
  · simp [dataBytes, Function.comp_def]

theorem mfmIdField_eq {r : SectorDesc} (h : goodRecord r = true) (cl : List Word32) :
    mfmIdField r cl = writeItems .mfm (gapItems 12 0x00 ++ List.replicate 3 (.mark 0x4489) ++ ((0xFE :: recordId r).map .byte)
      ++ crcItems false (0xA1 :: 0xA1 :: 0xA1 :: 0xFE :: recordId r)) cl := by
  obtain ⟨h1, h2⟩ := idBytes_eq h
  have hcl : mfmBytes (0xFE :: idBytes r) ((rawMark mfmSync)^[3] (mfmFill 12 0x00 cl))
      = writeItems .mfm (List.replicate 3 (.mark 0x4489) ++ ((0xFE :: recordId r).map .byte)) (mfmFill 12 0x00 cl) := by
    rw [mfmBytes_eq _ (by simpa using h1), iterate_item .mfm _ _ (rawMark_eq .mfm mfmSync (by decide)), writeItems_append, List.map_cons, h2]
    rfl
  unfold mfmIdField
  simp only [hcl]
  rw [crcFrom_writeItems, writeMfm_crc, mfmFill_eq _ _ (by decide), ← writeItems_append, ← writeItems_append]
  congr 1

theorem mfmDataField_eq (lay : Layout) (r : SectorDesc) (cl : List Word32) :
    mfmDataField lay r cl = writeItems .mfm (gapItems lay.gap2 0x4E ++ gapItems 12 0x00 ++ List.replicate 3 (.mark 0x4489)
      ++ (((if r.deleted then 0xF8 else 0xFB) :: r.data).map .byte)
      ++ crcItems r.badCrc (0xA1 :: 0xA1 :: 0xA1 :: (if r.deleted then 0xF8 else 0xFB) :: r.data)) cl := by
  obtain ⟨h1, h2⟩ := dataBytes_eq r
  have hm : (if r.deleted then 0xF8 else 0xFB) < 256
      ∧ BitVec.ofNat 8 (if r.deleted then 0xF8 else 0xFB) = (if r.deleted then 0xF8 else 0xFB : Byte) := by
    cases r.deleted <;> decide
  have hcl : mfmBytes ((if r.deleted then 0xF8 else 0xFB) :: dataBytes r) ((rawMark mfmSync)^[3] (mfmFill 12 0x00 (mfmFill lay.gap2 0x4E cl)))
      = writeItems .mfm (List.replicate 3 (.mark 0x4489) ++ (((if r.deleted then 0xF8 else 0xFB) :: r.data).map .byte))
          (mfmFill 12 0x00 (mfmFill lay.gap2 0x4E cl)) := by
    rw [mfmBytes_eq _ (by simpa using ⟨hm.1, h1⟩), iterate_item .mfm _ _ (rawMark_eq .mfm mfmSync (by decide)), writeItems_append,
      List.map_cons, h2, hm.2]
    rfl
  unfold mfmDataField
  simp only [hcl]
  rw [crcFrom_writeItems, writeMfm_crc, mfmFill_eq _ _ (by decide), mfmFill_eq _ _ (by decide), ← writeItems_append, ← writeItems_append,
    ← writeItems_append]
  congr 1
  simp only [List.append_assoc]
  have hb : (List.replicate 3 (TrackItem.mark 0x4489) ++ ((if r.deleted then 0xF8 else 0xFB) :: r.data).map TrackItem.byte).flatMap itemBits
      = (0xA1 :: 0xA1 :: 0xA1 :: (if r.deleted then 0xF8 else 0xFB) :: r.data).flatMap byteBits := by
    rw [List.flatMap_append, flatMap_itemBits_bytes]
    rfl
  rw [hb]
  rfl

theorem mfmSector_eq (lay : Layout) (gap3 : Nat) (cl : List Word32) {r : SectorDesc} (h : goodRecord r = true) :
    mfmSector lay gap3 cl r = writeItems .mfm (sectorItems .mfm lay.gap2 gap3 r) cl := by
  unfold mfmSector
  rw [mfmIdField_eq h, mfmDataField_eq, mfmFill_eq _ _ (by decide), ← writeItems_append, ← writeItems_append]
  simp only [sectorItems, List.append_assoc]
  rfl

theorem mfmLead_eq (lay : Layout) :
    mfmLead lay [] = writeItems .mfm (gapItems lay.gap4a 0x4E ++ gapItems 12 0x00
      ++ (if lay.noIam then [] else List.replicate 3 (.mark 0x5224) ++ [.byte 0xFC]) ++ gapItems lay.gap1 0x4E) [] := by
  unfold mfmLead
  simp only [mfmFill_eq _ 0 (by decide), mfmFill_eq _ 0x4E (by decide), iterate_item .mfm _ _ (rawMark_eq .mfm mfmIndexSync (by decide)),
    mfmByte_eq 0xFC (by decide), writeItems_append]
  cases lay.noIam <;> rfl

/-! ### FM -/

theorem fmIdField_eq {r : SectorDesc} (h : goodRecord r = true) (cl : List Word32) :
    fmIdField r cl = writeItems .fm (gapItems 6 0x00 ++ [.mark 0xF57E] ++ ((recordId r).map .byte)
      ++ crcItems false (0xFE :: recordId r)) cl := by
  obtain ⟨h1, h2⟩ := idBytes_eq h
  have hcl : fmBytes (idBytes r) (rawMark fmIdMark (fmFill 6 0x00 cl))
      = writeItems .fm ([.mark 0xF57E] ++ ((recordId r).map .byte)) (fmFill 6 0x00 cl) := by
    rw [fmBytes_eq _ h1, rawMark_eq .fm fmIdMark (by decide), writeItems_append, h2]
    rfl
  unfold fmIdField
  simp only [hcl]
  rw [crcFrom_writeItems, writeFm_crc, fmFill_eq _ _ (by decide), ← writeItems_append, ← writeItems_append]
  congr 1

theorem fmDataField_eq (lay : Layout) (r : SectorDesc) (cl : List Word32) :
    fmDataField lay r cl = writeItems .fm (gapItems lay.gap2 0xFF ++ gapItems 6 0x00
      ++ [.mark (if r.deleted then 0xF56A else 0xF56F)] ++ (r.data.map .byte)
      ++ crcItems r.badCrc ((if r.deleted then 0xF8 else 0xFB) :: r.data)) cl := by
  obtain ⟨h1, h2⟩ := dataBytes_eq r
  have hm : (if r.deleted then fmDeletedMark else fmDataMark) < 65536
      ∧ BitVec.ofNat 16 (if r.deleted then fmDeletedMark else fmDataMark) = (if r.deleted then 0xF56A else 0xF56F : BitVec 16) := by
    cases r.deleted <;> decide
  have hcl : fmBytes (dataBytes r) (rawMark (if r.deleted then fmDeletedMark else fmDataMark) (fmFill 6 0x00 (fmFill lay.gap2 0xFF cl)))
      = writeItems .fm ([.mark (if r.deleted then 0xF56A else 0xF56F)] ++ (r.data.map .byte))
          (fmFill 6 0x00 (fmFill lay.gap2 0xFF cl)) := by
    rw [fmBytes_eq _ h1, rawMark_eq .fm _ hm.1, writeItems_append, h2, hm.2]
    rfl
  unfold fmDataField
  simp only [hcl]
  rw [crcFrom_writeItems, writeFm_crc, fmFill_eq _ _ (by decide), fmFill_eq _ _ (by decide), ← writeItems_append, ← writeItems_append,
    ← writeItems_append]
  congr 1
  simp only [List.append_assoc]
  have hb : ([TrackItem.mark (if r.deleted then 0xF56A else 0xF56F)] ++ r.data.map TrackItem.byte).flatMap itemBits
      = ((if r.deleted then 0xF8 else 0xFB) :: r.data).flatMap byteBits := by
    rw [List.flatMap_append, flatMap_itemBits_bytes]
    cases r.deleted <;> rfl
  rw [hb]
  rfl

theorem fmSector_eq (lay : Layout) (gap3 : Nat) (cl : List Word32) {r : SectorDesc} (h : goodRecord r = true) :
    fmSector lay gap3 cl r = writeItems .fm (sectorItems .fm lay.gap2 gap3 r) cl := by
  unfold fmSector
  rw [fmIdField_eq h, fmDataField_eq, fmFill_eq _ _ (by decide), ← writeItems_append, ← writeItems_append]
  simp only [sectorItems, List.append_assoc]
  rfl

theorem fmLead_eq (lay : Layout) :
    fmLead lay [] = writeItems .fm (gapItems lay.gap4a 0xFF ++ gapItems 6 0x00
      ++ (if lay.noIam then [] else [.mark 0xF77A]) ++ gapItems lay.gap1 0xFF) [] := by
  unfold fmLead
  simp only [fmFill_eq _ 0 (by decide), fmFill_eq _ 0xFF (by decide), rawMark_eq .fm fmIndexMark (by decide), writeItems_append]
  cases lay.noIam <;> rfl

/-! ### The whole track -/

theorem foldl_sectors (enc : Encoding) (f : List Word32 → SectorDesc → List Word32) (g : SectorDesc → List TrackItem) (sdl : List SectorDesc)
    (hf : ∀ r ∈ sdl, ∀ cl, f cl r = writeItems enc (g r) cl) (cl : List Word32) :
    sdl.foldl f cl = writeItems enc (sdl.flatMap g) cl := by
  induction sdl generalizing cl with
  | nil => rfl
  | cons r sdl ih =>
    rw [List.foldl_cons, hf r List.mem_cons_self, ih (fun r hr => hf r (List.mem_cons_of_mem _ hr)), List.flatMap_cons, writeItems_append]

theorem fillTrack_eq (enc : Encoding) (f : List Word32 → List Word32) (b : Byte) (hf : ∀ cl, f cl = writeItem enc cl (.byte b)) (n : Nat)
    (items : List TrackItem) :
    ∃ m : Nat, n ≤ 16 * (items.length + m)
      ∧ fillTrack f n (writeItems enc items []) = (writeItems enc (items ++ gapItems m b) []).take n := by
  obtain ⟨cells, h1, h2, -, -⟩ := writeItems_spec enc items []
  have hlen : (writeItems enc items []).length = 16 * items.length := by rw [h1, List.nil_append, h2]
  refine ⟨(n - 16 * items.length) / 16 + 1, by omega, ?_⟩
  unfold fillTrack
  simp only [hlen]
  rw [iterate_item enc f _ hf, hf, writeItems_append, gapItems, List.replicate_succ', writeItems_append]
  rfl

theorem mfmTrack_eq (lay : Layout) (gap3 : Nat) (sdl : List SectorDesc) (h : ∀ r ∈ sdl, goodRecord r = true) :
    ∃ m : Nat, lay.cellCount ≤ 16 * ((trackItems .mfm lay.noIam lay.gap4a lay.gap1 lay.gap2 gap3 sdl).length + m)
      ∧ mfmTrack lay gap3 sdl = (writeItems .mfm (trackItems .mfm lay.noIam lay.gap4a lay.gap1 lay.gap2 gap3 sdl
          ++ gapItems m 0x4E) []).take lay.cellCount := by
  unfold mfmTrack
  rw [mfmLead_eq, foldl_sectors .mfm _ (sectorItems .mfm lay.gap2 gap3) sdl (fun r hr cl => mfmSector_eq lay gap3 cl (h r hr)),
    ← writeItems_append]
  exact fillTrack_eq .mfm _ _ (mfmByte_eq 0x4E (by decide)) _ _

theorem fmTrack_eq (lay : Layout) (gap3 : Nat) (sdl : List SectorDesc) (h : ∀ r ∈ sdl, goodRecord r = true) :
    ∃ m : Nat, lay.cellCount ≤ 16 * ((trackItems .fm lay.noIam lay.gap4a lay.gap1 lay.gap2 gap3 sdl).length + m)
      ∧ fmTrack lay gap3 sdl = (writeItems .fm (trackItems .fm lay.noIam lay.gap4a lay.gap1 lay.gap2 gap3 sdl
          ++ gapItems m 0xFF) []).take lay.cellCount := by
  unfold fmTrack
  rw [fmLead_eq, foldl_sectors .fm _ (sectorItems .fm lay.gap2 gap3) sdl (fun r hr cl => fmSector_eq lay gap3 cl (h r hr)),
    ← writeItems_append]
  exact fillTrack_eq .fm _ _ (fmByte_eq 0xFF (by decide)) _ _

/-! ### The cells of each item -/

/-- The cells of an item stand where they are written, and stay as more is written or the list is cut. -/
theorem HoldsItem.mono {enc : Encoding} {cl cl' : List Word32} {q : Nat} {it : TrackItem} (h : HoldsItem enc cl q it)
    (he : ∀ i : Nat, i < 16 * q + 16 → i < cl'.length → i < cl.length ∧ cl'[i]? = cl[i]?) : HoldsItem enc cl' q it := by
  cases it with
  | mark p =>
    intro j hj hl
    obtain ⟨h1, h2⟩ := he (16 * q + j) (by omega) hl
    rw [h2]
    exact h j hj h1
  | byte b =>
    intro j previous clock hj hp hc
    constructor
    · intro hl
      obtain ⟨h1, h2⟩ := he (16 * q + 2 * j) (by omega) hl
      rw [h2]
      refine (h j previous clock hj ?_ hc).1 h1
      rw [hp]
      by_cases h0 : 0 < 16 * q + 2 * j
      · rw [(he (16 * q + 2 * j - 1) (by omega) (by omega)).2]
      · simp [h0]
    · intro hl
      obtain ⟨h1, h2⟩ := he (16 * q + 2 * j + 1) (by omega) hl
      rw [h2]
      exact (h j _ _ hj rfl rfl).2 h1

theorem prevBit_eq (cl : List Word32) (h : ∀ w ∈ cl, w = bitCell true 1000 ∨ w = bitCell false 1000) :
    prevBit cl = (decide (0 < cl.length) && decide (cl[cl.length - 1]? = some (bitCell true 1000))) := by
  unfold prevBit
  rw [List.getLast?_eq_getElem?]
  cases hc : cl[cl.length - 1]? with
  | none =>
    have := List.getElem?_eq_none_iff.mp hc
    have h0 : cl.length = 0 := by omega
    simp [h0]
  | some w =>
    have h0 : 0 < cl.length := by
      obtain ⟨hl, -⟩ := List.getElem?_eq_some_iff.mp hc
      omega
    rcases h w (List.mem_of_getElem? hc) with rfl | rfl
    · simp [h0, kindOf_bitCell]
    · simp [h0, kindOf_bitCell]
      decide

theorem getElem?_fmCells (d : Nat) (l : List Bool) (j : Nat) (b : Bool) (h : l[j]? = some b) :
    (fmCells d l)[2 * j]? = some (bitCell true d) ∧ (fmCells d l)[2 * j + 1]? = some (bitCell b d) := by
  induction l generalizing j with
  | nil => cases h
  | cons x l ih =>
    cases j with
    | zero => obtain rfl := Option.some.inj h; exact ⟨rfl, rfl⟩
    | succ j =>
      have := ih j h
      rw [show 2 * (j + 1) = 2 * j + 1 + 1 by ring]
      exact this

theorem getElem?_mfmCells (d : Nat) (p : Bool) (l : List Bool) (j : Nat) (b : Bool) (h : l[j]? = some b) :
    (mfmCells d p l)[2 * j]? = some (bitCell (!((if j = 0 then p else l.getD (j - 1) false) || b)) d)
      ∧ (mfmCells d p l)[2 * j + 1]? = some (bitCell b d) := by
  induction l generalizing j p with
  | nil => cases h
  | cons x l ih =>
    cases j with
    | zero => obtain rfl := Option.some.inj h; exact ⟨rfl, rfl⟩
    | succ j =>
      have := ih x j h
      rw [show 2 * (j + 1) = 2 * j + 1 + 1 by ring]
      refine ⟨?_, this.2⟩
      show (mfmCells d x l)[2 * j]? = _
      rw [this.1]
      cases j <;> simp

theorem getElem?_byteBits (b : Byte) {j : Nat} (hj : j < 8) : (byteBits b)[j]? = some (b.getMsbD j) := by
  simp [byteBits, hj]

theorem holdsItem_writeItem (enc : Encoding) (cl : List Word32) (it : TrackItem) (q : Nat) (hl : cl.length = 16 * q)
    (hw : ∀ w ∈ cl, w = bitCell true 1000 ∨ w = bitCell false 1000) : HoldsItem enc (writeItem enc cl it) q it := by
  have hat : ∀ (cells : List Word32) (i : Nat), (cl ++ cells)[16 * q + i]? = cells[i]? := by
    intro cells i
    rw [List.getElem?_append_right (by omega), hl]
    congr 1
    omega
  cases it with
  | mark p =>
    intro j hj _
    simp only [writeItem, writeRaw, writtenBits_16, hat]
    simp [rawCells, hj, cellSizeDefault]
  | byte b =>
    intro j previous clock hj hp hc
    have hbit := getElem?_byteBits b hj
    cases enc with
    | fm =>
      simp only at hc
      subst hc
      have := getElem?_fmCells 1000 _ j _ hbit
      simp only [writeItem, writeEnc, writeFm, writtenBits_toNat_byte, hat, add_assoc]
      exact ⟨fun _ => this.1, fun _ => this.2⟩
    | mfm =>
      simp only at hc
      have := getElem?_mfmCells 1000 (prevBit cl) _ j _ hbit
      simp only [writeItem, writeEnc, writeMfm, writtenBits_toNat_byte, hat, add_assoc]
      refine ⟨fun _ => ?_, fun _ => this.2⟩
      have hprev : previous = (if j = 0 then prevBit cl else (byteBits b).getD (j - 1) false) := by
        rw [hp]
        simp only [writeItem, writeEnc, writeMfm, writtenBits_toNat_byte]
        split
        · subst j
          rw [prevBit_eq cl hw, hl]
          by_cases h0 : 0 < 16 * q
          · simp only [Nat.mul_zero, Nat.add_zero]
            have e : ∀ l : List Word32, (cl ++ l)[16 * q - 1]? = cl[16 * q - 1]? := fun l => List.getElem?_append_left (by omega)
            simp only [e]
          · simp [h0]
        · rename_i hj0
          have h1 : 16 * q + 2 * j - 1 = 16 * q + (2 * (j - 1) + 1) := by omega
          have h2 := (getElem?_mfmCells 1000 (prevBit cl) _ (j - 1) _ (getElem?_byteBits b (show j - 1 < 8 by omega))).2
          rw [h1, hat, show cellSizeDefault = 1000 from rfl, h2, List.getD_eq_getElem?_getD, getElem?_byteBits b (show j - 1 < 8 by omega)]
          have : ∀ x : Bool, decide (some (bitCell x 1000) = some (bitCell true 1000)) = x := by decide
          rw [this]
          simp
          omega
      rw [hc, hprev]
      exact this.1

/-- Every item stands at its sixteen cells. -/
theorem holdsItem_writeItems (enc : Encoding) (items : List TrackItem) (q : Nat) (it : TrackItem) (h : items[q]? = some it) :
    HoldsItem enc (writeItems enc items []) q it := by
  induction items using List.reverseRecOn with
  | nil => cases h
  | append_singleton items last ih =>
    obtain ⟨cells, h1, h2, -, h4⟩ := writeItems_spec enc items []
    rw [List.nil_append] at h1
    obtain ⟨more, g1, g2, -, -⟩ := writeItem_spec enc (writeItems enc items []) last
    rw [writeItems_append]
    show HoldsItem enc (writeItem enc (writeItems enc items []) last) q it
    by_cases hq : q < items.length
    · rw [List.getElem?_append_left hq] at h
      refine (ih h).mono ?_
      intro i hi _
      have : i < (writeItems enc items []).length := by rw [h1, h2]; omega
      refine ⟨this, ?_⟩
      rw [g1, List.getElem?_append_left this]
    · have hq' : q = items.length := by
        have := (List.getElem?_eq_some_iff.mp h).1
        simp at this
        omega
      subst hq'
      simp only [List.getElem?_append_right (le_refl _), Nat.sub_self] at h
      obtain rfl := Option.some.inj h
      exact holdsItem_writeItem enc _ _ _ (by rw [h1, h2]) (by rw [h1]; exact h4)

/-- The cells of a built track: the items of its layout, then the filler, cut at the cell count. -/
theorem holdsItem_track (enc : Encoding) (items : List TrackItem) (m n : Nat) (b : Byte) (hn : n ≤ 16 * (items.length + m)) (q : Nat) :
    HoldsItem enc ((writeItems enc (items ++ gapItems m b) []).take n) q (items[q]?.getD (.byte b)) := by
  have hi : (items ++ gapItems m b).length = items.length + m := by simp [gapItems]
  by_cases hq : q < items.length + m
  · have hit : (items ++ gapItems m b)[q]? = some (items[q]?.getD (.byte b)) := by
      by_cases h1 : q < items.length
      · rw [List.getElem?_append_left h1, List.getElem?_eq_getElem h1]
        rfl
      · rw [List.getElem?_append_right (by omega), List.getElem?_eq_none (by omega : items.length ≤ q)]
        have h2 : q - items.length < m := by omega
        simp [gapItems, h2]
    refine (holdsItem_writeItems enc _ q _ hit).mono ?_
    intro i _ hl
    rw [List.length_take] at hl
    exact ⟨by omega, List.getElem?_take_of_lt (by omega)⟩
  · have hl : ((writeItems enc (items ++ gapItems m b) []).take n).length ≤ 16 * q := by
      rw [List.length_take]
      exact le_trans (min_le_left _ _) (by omega)
    generalize (writeItems enc (items ++ gapItems m b) []).take n = cl at hl
    cases items[q]?.getD (.byte b) with
    | mark p => exact fun j _ h => absurd h (by omega)
    | byte b => exact fun j _ _ _ _ _ => ⟨fun h => absurd h (by omega), fun h => absurd h (by omega)⟩

end Sys2Proof.Machine
end

