-- ==== Sys2Proof/Laws/Phase.lean ====
section
/-!
SUPPORT. The arithmetic of the quantizer, and what the resynchronisation of the index line leaves alone.
-/

namespace Sys2Proof.Machine

theorem ceilDiv_le_iff {a b c : Int} (hb : 0 < b) : ceilDiv a b ≤ c ↔ a ≤ c * b := by
  unfold ceilDiv
  have : -c ≤ (-a) / b ↔ -c * b ≤ -a := Int.le_ediv_iff_mul_le hb
  constructor
  · intro h
    have h2 := this.mp (by omega)
    rw [Int.neg_mul] at h2
    omega
  · intro h
    have h2 := this.mpr (by rw [Int.neg_mul]; omega)
    omega

/-- The angle has reached `x` exactly when the elapsed time, scaled, has. -/
theorem le_angle_iff (rpm : Nat) (t0 t x : Int) : x ≤ angle rpm t0 t ↔ x * (60 * tps) ≤ (t - t0) * rpm * revUnits :=
  Int.le_ediv_iff_mul_le (by decide)

/-- `TOF` and `U` are adjoint: a time is at or after `TOF(k, p)` exactly when its angle has reached `k * REV_UNITS + p`. -/
theorem angleTime_le_iff {rpm : Nat} (h : 1 ≤ rpm) (t0 t k p : Int) :
    angleTime rpm t0 k p ≤ t ↔ k * revUnits + p ≤ angle rpm t0 t := by
  have hr : (0 : Int) < rpm * revUnits := by positivity
  have h1 := ceilDiv_le_iff (a := (k * revUnits + p) * 60 * tps) (c := t - t0) hr
  rw [le_angle_iff, ← mul_assoc, mul_assoc (t - t0)]
  rw [← h1]
  unfold angleTime
  omega

theorem lt_angleTime_iff {rpm : Nat} (h : 1 ≤ rpm) (t0 t k p : Int) :
    t < angleTime rpm t0 k p ↔ angle rpm t0 t < k * revUnits + p := by
  have := angleTime_le_iff h t0 t k p
  omega

theorem le_angle_angleTime {rpm : Nat} (h : 1 ≤ rpm) (t0 k p : Int) :
    k * revUnits + p ≤ angle rpm t0 (angleTime rpm t0 k p) :=
  (angleTime_le_iff h t0 _ k p).mp (le_refl _)

theorem angle_mono (rpm : Nat) (t0 : Int) {t t' : Int} (h : t ≤ t') : angle rpm t0 t ≤ angle rpm t0 t' := by
  unfold angle
  apply Int.ediv_le_ediv (by decide)
  have h1 : (t - t0) * (rpm : Int) ≤ (t' - t0) * rpm := mul_le_mul_of_nonneg_right (by omega) (by positivity)
  exact mul_le_mul_of_nonneg_right h1 (by positivity)

/-- A later angle has a later time, or the same. -/
theorem angleTime_mono {rpm : Nat} (h : 1 ≤ rpm) (t0 : Int) {k p k' p' : Int} (hx : k * revUnits + p ≤ k' * revUnits + p') :
    angleTime rpm t0 k p ≤ angleTime rpm t0 k' p' :=
  (angleTime_le_iff h _ _ _ _).mpr (hx.trans (le_angle_angleTime h t0 k' p'))

theorem angle_eq_rev_pos (rpm : Nat) (t0 t : Int) :
    angle rpm t0 t = revUnits * angleRev rpm t0 t + (anglePos rpm t0 t : Int) := by
  unfold angleRev anglePos
  have h := Int.emod_nonneg (angle rpm t0 t) (show (revUnits : Int) ≠ 0 by decide)
  rw [Int.toNat_of_nonneg h, Int.mul_ediv_add_emod]

theorem anglePos_lt (rpm : Nat) (t0 t : Int) : anglePos rpm t0 t < revUnits := by
  unfold anglePos
  have h := Int.emod_nonneg (angle rpm t0 t) (show (revUnits : Int) ≠ 0 by decide)
  have h2 := Int.emod_lt_of_pos (angle rpm t0 t) (show (0 : Int) < revUnits by decide)
  omega

/-- A time lies in its revolution. -/
theorem revTime_le_lt {rpm : Nat} (h : 1 ≤ rpm) (t0 t : Int) :
    revTime rpm t0 (angleRev rpm t0 t) ≤ t ∧ t < revTime rpm t0 (angleRev rpm t0 t + 1) := by
  have h1 := angle_eq_rev_pos rpm t0 t
  have h2 := anglePos_lt rpm t0 t
  unfold revTime
  rw [angleTime_le_iff h, lt_angleTime_iff h]
  constructor
  · rw [mul_comm]; omega
  · rw [add_mul, mul_comm]; omega

theorem angle_at_epoch (rpm : Nat) (t0 : Int) : angle rpm t0 t0 = 0 := by
  simp [angle]

theorem angle_nonneg (rpm : Nat) {t0 t : Int} (h : t0 ≤ t) : 0 ≤ angle rpm t0 t := by
  rw [← angle_at_epoch rpm t0]
  exact angle_mono rpm t0 h

theorem angleRev_nonneg (rpm : Nat) {t0 t : Int} (h : t0 ≤ t) : 0 ≤ angleRev rpm t0 t :=
  Int.ediv_nonneg (angle_nonneg rpm h) (by decide)

theorem le_angleTime {rpm : Nat} {t0 k p : Int} (hx : 0 ≤ k * revUnits + p) : t0 ≤ angleTime rpm t0 k p := by
  unfold angleTime ceilDiv
  have h1 : 0 ≤ (k * revUnits + p) * 60 * tps := by positivity
  have h2 : (-((k * revUnits + p) * 60 * tps)) / (rpm * revUnits) ≤ 0 := by
    rcases Nat.eq_zero_or_pos rpm with h0 | h0
    · simp [h0]
    · have h3 := (Int.le_ediv_iff_mul_le (a := 1) (b := -((k * revUnits + p) * 60 * tps))
        (show (0 : Int) < rpm * revUnits by positivity)).not
      have h4 : (0 : Int) < rpm * revUnits := by positivity
      omega
  omega

/-! ### What a resynchronisation leaves alone -/

theorem State.resync_of_not_spinning {s : State} (h : s.spinning = false) (now : Nat) :
    s.resync now = { s.driveIndex false (some (BitVec.ofNat 64 now)) with idxTimer := never } := by
  unfold State.resync
  rw [if_neg (by simp [h])]

theorem State.resync_of_spinning {s : State} (h : s.spinning = true) (now : Nat) : s.resync now = s.resyncSpinning now := by
  unfold State.resync
  rw [if_pos h]

/-- A resynchronisation that arms the timer arms one that can fire (70_reset_and_hazards.md R221). -/
@[simp] theorem State.resyncSpinning_timerMissed (s : State) (now : Nat) : (s.resyncSpinning now).timerMissed = false := rfl

/-- A resynchronisation writes the registers that 40_phase.md R95 lists, the log of edges and whether the timer is missed, and nothing
else. -/
theorem State.resync_frame (s : State) (now : Nat) :
    s.resync now =
      { s with
        idx := (s.resync now).idx
        edges := if (s.resync now).idx = s.idx then s.edges
          else s.edges ++ [{ level := (s.resync now).idx, time := some (BitVec.ofNat 64 now) }]
        revCount := (s.resync now).revCount
        revStart := (s.resync now).revStart
        readyCnt := (s.resync now).readyCnt
        ready := (s.resync now).ready
        idxTimer := (s.resync now).idxTimer
        timerMissed := (s.resync now).timerMissed } := by
  by_cases h : s.spinning = true
  · rw [State.resync_of_spinning h]; rfl
  · rw [State.resync_of_not_spinning (by simpa using h)]; rfl

end Sys2Proof.Machine
end

