-- ==== Sys2Proof/Laws/Loops.lean ====
section
/-!
SUPPORT. The loops of SEQ, of the PLL and of the MFM hunt end within the bounds the model gives them.
-/

namespace Sys2Proof.Machine

/-! ### The PLL (43_pll_extract.md R162) -/

theorem Pll.one_le_win (p : Pll) : 1 ≤ p.win := le_max_left _ _

theorem Pll.scanned_window (p0 : Nat) (p : Pll) (e : Option Int) : (p.window p0 e).scanned = p.scanned + p.win := by
  cases e <;> rfl

/-- "`win >= 1` makes the loop end after at most `REV_UNITS` iterations." -/
theorem pllBits_isSome (Fl : List Nat) (p0 : Nat) (n : Nat) (p : Pll) (acc : List Bool) (hn : 1 ≤ n)
    (h : (revUnits : Int) < p.scanned + n) : (pllBits Fl p0 n p acc).isSome = true := by
  induction n generalizing p acc with
  | zero => omega
  | succ n ih =>
    unfold pllBits
    have hu : ((revUnits : Nat) : Int) = 200000000 := rfl
    split
    · have := p.one_le_win
      push_cast at h
      apply ih
      · omega
      · rw [Pll.scanned_window]
        omega
    · rfl

theorem bitstream_isSome (L : List Word32) (splice p0 : Nat) : (bitstream L splice p0).isSome = true :=
  pllBits_isSome _ _ _ _ _ (by omega) (by simp)

/-! ### The MFM hunt (43_pll_extract.md R166) -/

theorem skipSyncs_isSome (bs : List Bool) (n pos : Nat) (hn : 1 ≤ n) (h : bs.length < pos + n) :
    (skipSyncs bs n pos).isSome = true := by
  induction n generalizing pos with
  | zero => omega
  | succ n ih =>
    unfold skipSyncs
    simp only
    split
    · rfl
    · exact ih _ (by omega) (by omega)

theorem skipSyncs_after (bs : List Bool) (n pos : Nat) (r : Nat × Nat) (h : skipSyncs bs n pos = some r) :
    pos < r.2 := by
  induction n generalizing pos with
  | zero => simp [skipSyncs] at h
  | succ n ih =>
    unfold skipSyncs at h
    simp only at h
    split at h
    · obtain rfl := Option.some.inj h
      simp
    · exact lt_trans (by omega) (ih _ h)

/-- The hunt passes at least one bit in each round. -/
theorem huntMfm_isSome (bs : List Bool) (n i sr : Nat) (m : Marks) (hn : 1 ≤ n) (h : bs.length < i + n) :
    (huntMfm bs n i sr m).isSome = true := by
  induction n generalizing i sr m with
  | zero => omega
  | succ n ih =>
    unfold huntMfm
    split
    · rfl
    · simp only
      split
      · have hs := skipSyncs_isSome bs (bs.length + 1) (i + 1) (by omega) (by omega)
        obtain ⟨r, hr⟩ := Option.isSome_iff_exists.mp hs
        have := skipSyncs_after _ _ _ _ hr
        rw [hr]
        simp only
        split
        · exact ih _ _ _ (by omega) (by omega)
        · split <;> exact ih _ _ _ (by omega) (by omega)
      · exact ih _ _ _ (by omega) (by omega)

/-! ### The read of SEQ (41_flux_sequencer.md R112) -/

theorem State.lt_tau (s : State) (hr : 1 ≤ s.cfg.rpm) (f : Nat) (k : Int) (i : Nat) (hk : s.revAt f + 1 ≤ k) :
    (f : Int) < s.tau k i := by
  refine lt_of_lt_of_le (revTime_le_lt hr s.epoch f).2 (angleTime_mono hr _ ?_)
  have h0 : (0 : Int) ≤ evPos (s.readEvent i) := by positivity
  have h1 : ((s.revAt f + 1) * revUnits : Int) ≤ k * revUnits := by nlinarith
  have h2 : angleRev s.cfg.rpm s.epoch f = s.revAt f := rfl
  rw [h2]
  omega

/-- The walk from the cell (k, i) ends when it comes to an event (K, j) that is a flux transition after `f`. -/
theorem State.walk_isSome (s : State) (f m : Nat) (k K : Int) (i j : Nat)
    (hi : i < s.readTrack.length) (hj : j < s.readTrack.length)
    (hflux : tagOf (s.readEvent j) = some .flux) (hf : (f : Int) < s.tau K j)
    (h1 : 1 ≤ (K - k) * s.readTrack.length + j - i) (h2 : (K - k) * s.readTrack.length + j - i ≤ m) :
    (s.walk f m k i).isSome = true := by
  induction m generalizing k i with
  | zero => simp only [Nat.cast_zero] at h2; omega
  | succ m ih =>
    unfold State.walk
    split
    · rfl
    · simp only
      split
      · rfl
      · rename_i hstop
        have hn : (nextEvent s.readTrack.length k i).2 < s.readTrack.length
            ∧ (K - (nextEvent s.readTrack.length k i).1) * s.readTrack.length + j - (nextEvent s.readTrack.length k i).2
              = (K - k) * s.readTrack.length + j - i - 1 := by
          unfold nextEvent
          split
          · exact ⟨by assumption, by push_cast; ring⟩
          · refine ⟨by show 0 < _; omega, ?_⟩
            have : (s.readTrack.length : Int) = i + 1 := by omega
            rw [this]
            push_cast
            ring
        by_cases hlast : (K - k) * s.readTrack.length + j - i = 1
        · exfalso
          have he := hn.2
          rw [hlast] at he
          have hlt := hn.1
          generalize hE : nextEvent s.readTrack.length k i = E at *
          have hk : K = E.1 := by
            by_contra hne
            rcases lt_or_gt_of_ne hne with hlt' | hgt
            · nlinarith
            · nlinarith
          have hje : j = E.2 := by
            rw [hk] at he
            simp at he
            omega
          apply hstop
          have hend : s.cellEnd k i = s.tau K j := by
            simp only [State.cellEnd, hE, hk, hje]
          rw [hend, ← hje, hflux]
          simp [hf]
        · apply ih
          · exact hn.1
          · rw [hn.2]; omega
          · rw [hn.2]; push_cast at h2; omega

/-- 41_flux_sequencer.md R112, "the scan ends": with a flux transition on the track the read gives a time. -/
theorem State.nextTransition_isSome (s : State) (hr : 1 ≤ s.cfg.rpm) (f : Nat) (h : hasTag .flux s.readTrack = true) :
    (s.nextTransition f).isSome = true := by
  obtain ⟨e, he, ht⟩ := List.any_eq_true.mp h
  obtain ⟨j, hj, rfl⟩ := List.getElem_of_mem he
  have hev : s.readEvent j = s.readTrack[j] := by simp [State.readEvent, hj]
  have hflux : tagOf (s.readEvent j) = some .flux := by rw [hev]; simpa using ht
  unfold State.nextTransition State.locate
  cases hl : lastAtOrBefore s.readTrack (s.posAt f) with
  | some i =>
    have hi : i < s.readTrack.length := by
      have := List.mem_of_find?_eq_some hl
      simpa using this
    apply s.walk_isSome f _ _ (s.revAt f + 1) i j hi hj hflux (s.lt_tau hr f _ _ (le_refl _))
    · simp only [add_sub_cancel_left, one_mul]; omega
    · simp only [add_sub_cancel_left, one_mul]; push_cast; omega
  | none =>
    apply s.walk_isSome f _ _ (s.revAt f + 1) (s.readTrack.length - 1) j (by omega) hj hflux (s.lt_tau hr f _ _ (le_refl _))
    · have : s.revAt f + 1 - (s.revAt f - 1) = 2 := by ring
      simp only [this]; omega
    · have : s.revAt f + 1 - (s.revAt f - 1) = 2 := by ring
      simp only [this]; push_cast; omega

end Sys2Proof.Machine
end

