-- ==== Sys2Proof/Laws/Extract.lean ====
section
/-!
SUPPORT. What the bit readers of 43_pll_extract.md give, what the two hunts find (R166, R170), and what `ASSEMBLE` leaves in each slot (R169).
-/

namespace Sys2Proof.Machine

/-! ### Bits and words -/

theorem bitsNat_concat (l : List Bool) (b : Bool) : bitsNat (l ++ [b]) = 2 * bitsNat l + (if b then 1 else 0) := by
  simp [bitsNat, List.foldl_append]

/-- Bit `t` of a number read from bits is the `t`-th bit from the end. -/
theorem testBit_bitsNat (l : List Bool) (t : Nat) : (bitsNat l).testBit t = l.reverse.getD t false := by
  induction l using List.reverseRecOn generalizing t with
  | nil => simp [bitsNat]
  | append_singleton l b ih =>
    rw [bitsNat_concat, List.reverse_append]
    cases t with
    | zero => cases b <;> simp [Nat.testBit_zero]
    | succ t =>
      have h : (2 * bitsNat l + (if b then 1 else 0)) / 2 = bitsNat l := by split <;> omega
      rw [Nat.testBit_succ, h, ih]
      simp

/-- A number read from bits is the sum of the places of its ones. -/
theorem bitsNat_eq_sum (n : Nat) (f : Nat → Bool) :
    bitsNat ((List.range n).map f) = ((List.range n).map (fun j => if f j then 2 ^ (n - 1 - j) else 0)).sum := by
  induction n with
  | zero => rfl
  | succ n ih =>
    rw [List.range_succ, List.map_append, List.map_append, List.map_singleton, bitsNat_concat, ih, List.sum_append]
    have h : (List.range n).map (fun j => if f j then 2 ^ (n + 1 - 1 - j) else 0)
        = ((List.range n).map (fun j => if f j then 2 ^ (n - 1 - j) else 0)).map (2 * ·) := by
      rw [List.map_map]
      refine List.map_congr_left fun j hj => ?_
      have : n + 1 - 1 - j = (n - 1 - j) + 1 := by have := List.mem_range.mp hj; omega
      simp only [Function.comp, this, Nat.pow_succ]
      split <;> omega
    rw [h, List.sum_map_mul_left]
    simp only [Nat.add_sub_cancel, Nat.sub_self, Nat.pow_zero, List.map_singleton, List.sum_singleton, List.map_id']

theorem w16_eq_streamWord (bs : List Bool) (q : Nat) : w16 bs q = streamWord bs q := bitsNat_eq_sum 16 _

theorem fieldByte_eq_streamByte (bs : List Bool) (q : Nat) : fieldByte bs q = streamByte bs q := by
  have h : fieldByte bs q = bitsNat ((List.range 8).map (fun j => bitAt bs (q + (2 * j + 1)))) := by
    unfold fieldByte dataByte w16
    simp only [testBit_bitsNat]
    rfl
  rw [h]
  exact bitsNat_eq_sum 8 _

theorem streamByte_lt (bs : List Bool) (q : Nat) : streamByte bs q < 256 := by
  unfold streamByte
  simp only [List.range, List.range.loop, List.map_cons, List.map_nil, List.sum_cons, List.sum_nil]
  have h : ∀ (b : Bool) (n : Nat), (if b then n else 0) ≤ n := by intro b n; split <;> omega
  have h0 := h (bs.getD ((q + 2 * 0 + 1) % bs.length) false) (2 ^ (7 - 0))
  have h1 := h (bs.getD ((q + 2 * 1 + 1) % bs.length) false) (2 ^ (7 - 1))
  have h2 := h (bs.getD ((q + 2 * 2 + 1) % bs.length) false) (2 ^ (7 - 2))
  have h3 := h (bs.getD ((q + 2 * 3 + 1) % bs.length) false) (2 ^ (7 - 3))
  have h4 := h (bs.getD ((q + 2 * 4 + 1) % bs.length) false) (2 ^ (7 - 4))
  have h5 := h (bs.getD ((q + 2 * 5 + 1) % bs.length) false) (2 ^ (7 - 5))
  have h6 := h (bs.getD ((q + 2 * 6 + 1) % bs.length) false) (2 ^ (7 - 6))
  have h7 := h (bs.getD ((q + 2 * 7 + 1) % bs.length) false) (2 ^ (7 - 7))
  omega

/-- The number whose bit `j` is `f j`, of `n` bits. -/
def lowBits (n : Nat) (f : Nat → Bool) : Nat := ((List.range n).map (fun j => if f j then 2 ^ j else 0)).sum

theorem lowBits_succ (n : Nat) (f : Nat → Bool) : lowBits (n + 1) f = lowBits n f + (if f n then 2 ^ n else 0) := by
  simp [lowBits, List.range_succ]

theorem lowBits_lt (n : Nat) (f : Nat → Bool) : lowBits n f < 2 ^ n := by
  induction n with
  | zero => simp [lowBits]
  | succ n ih => rw [lowBits_succ, Nat.pow_succ]; split <;> omega

theorem lowBits_shift (n : Nat) (f g : Nat → Bool) (h : ∀ j, g (j + 1) = f j) :
    lowBits (n + 1) g = 2 * lowBits n f + (if g 0 then 1 else 0) := by
  induction n with
  | zero => simp [lowBits]
  | succ n ih =>
    have hd : (if f n then 2 ^ n * 2 else 0) = 2 * (if f n then 2 ^ n else 0) := by split <;> omega
    rw [lowBits_succ, ih, lowBits_succ, h, Nat.pow_succ, hd]
    omega

/-- What the shift register of a hunt holds before it takes bit `i`. -/
def heldWord (bs : List Bool) (i : Nat) : Nat := if i = 0 then 0 else windowWord bs (i - 1)

theorem shiftIn_heldWord (bs : List Bool) (i : Nat) : shiftIn (heldWord bs i) (bs.getD i false) = windowWord bs i := by
  have hw : windowWord bs i = lowBits 16 (fun j => decide (j ≤ i) && bs.getD (i - j) false) := rfl
  have hh : heldWord bs i = lowBits 16 (fun j => decide (j + 1 ≤ i) && bs.getD (i - (j + 1)) false) := by
    unfold heldWord
    split
    · subst i
      simp [lowBits]
    · unfold windowWord lowBits
      congr 1
      refine List.map_congr_left fun j _ => ?_
      have h1 : decide (j ≤ i - 1) = decide (j + 1 ≤ i) := by rw [decide_eq_decide]; omega
      rw [h1, show i - 1 - j = i - (j + 1) by omega]
  have hs := lowBits_shift 16 (fun j => decide (j + 1 ≤ i) && bs.getD (i - (j + 1)) false)
    (fun j => decide (j ≤ i) && bs.getD (i - j) false) (fun _ => rfl)
  have hl := lowBits_lt 16 (fun j => decide (j ≤ i) && bs.getD (i - j) false)
  have h1 := lowBits_succ 16 (fun j => decide (j ≤ i) && bs.getD (i - j) false)
  rw [hw, shiftIn, hh]
  simp only [Nat.zero_le, decide_true, Bool.true_and, Nat.sub_zero] at hs
  rw [← hs, h1]
  split <;> omega

/-- Sixteen bits inside the stream are the window that ends at the last of them. -/
theorem streamWord_eq_windowWord (bs : List Bool) (q : Nat) (h : q + 16 ≤ bs.length) :
    streamWord bs q = windowWord bs (q + 15) := by
  unfold streamWord windowWord
  have e : ∀ j, j < 16 → bs.getD ((q + j) % bs.length) false = (decide (15 - j ≤ q + 15) && bs.getD (q + 15 - (15 - j)) false) := by
    intro j hj
    rw [Nat.mod_eq_of_lt (by omega), show q + 15 - (15 - j) = q + j by omega, decide_eq_true (by omega), Bool.true_and]
  simp only [List.range, List.range.loop, List.map_cons, List.map_nil, List.sum_cons, List.sum_nil]
  rw [e 0 (by decide), e 1 (by decide), e 2 (by decide), e 3 (by decide), e 4 (by decide), e 5 (by decide), e 6 (by decide),
    e 7 (by decide), e 8 (by decide), e 9 (by decide), e 10 (by decide), e 11 (by decide), e 12 (by decide), e 13 (by decide),
    e 14 (by decide), e 15 (by decide)]
  simp only [Nat.sub_self, Nat.reduceSub]
  omega

/-! ### The hunts -/

theorem skipSyncs_spec (bs : List Bool) (n pos : Nat) (r : Nat × Nat) (h : skipSyncs bs n pos = some r) :
    ∃ k : Nat, r = (streamWord bs (pos + 16 * k), pos + 16 * k + 16)
      ∧ (∀ j < k, streamWord bs (pos + 16 * j) = 0x4489 ∧ pos + 16 * j + 16 < bs.length)
      ∧ (streamWord bs (pos + 16 * k) ≠ 0x4489 ∨ bs.length ≤ pos + 16 * k + 16) := by
  induction n generalizing pos with
  | zero => simp [skipSyncs] at h
  | succ n ih =>
    unfold skipSyncs at h
    simp only [w16_eq_streamWord] at h
    split at h
    · rename_i hs
      obtain rfl := Option.some.inj h
      exact ⟨0, rfl, by simp, hs⟩
    · rename_i hs
      rw [not_or] at hs
      obtain ⟨k, hk, h1, h2⟩ := ih _ h
      refine ⟨k + 1, by rw [hk]; congr 2 <;> ring, ?_, ?_⟩
      · intro j hj
        cases j with
        | zero => exact ⟨by simpa [mfmSync] using hs.1, by simpa using hs.2⟩
        | succ j =>
          have := h1 j (by omega)
          rw [show pos + 16 * (j + 1) = pos + 16 + 16 * j by ring]
          exact this
      · rw [show pos + 16 * (k + 1) = pos + 16 + 16 * k by ring]
        exact h2

/-- A sync word has one mark. -/
theorem SyncMark.unique {bs : List Bool} {i q v q' v' : Nat} (h : SyncMark bs i q v) (h' : SyncMark bs i q' v') :
    q = q' ∧ v = v' := by
  obtain ⟨-, -, k, rfl, rfl, h1, h2⟩ := h
  obtain ⟨-, -, k', rfl, rfl, h1', h2'⟩ := h'
  have : k = k' := by
    rcases Nat.lt_trichotomy k k' with hk | hk | hk
    · have := h1' k hk
      rcases h2 with h2 | h2
      · exact absurd this.1 h2
      · omega
    · exact hk
    · have := h1 k' hk
      rcases h2' with h2 | h2
      · exact absurd this.1 h2
      · omega
  subst this
  exact ⟨rfl, rfl⟩

theorem huntMfm_spec (bs : List Bool) (n i : Nat) (sr : Nat) (m m' : Marks) (hs : i < bs.length → sr = heldWord bs i)
    (h : huntMfm bs n i sr m = some m') :
    ∃ ids dams : List Nat, MfmHunt bs i ids dams ∧ m' = { ids := m.ids ++ ids, dams := m.dams ++ dams } := by
  induction n generalizing i sr m with
  | zero => simp [huntMfm] at h
  | succ n ih =>
    unfold huntMfm at h
    split at h
    · rename_i hi
      obtain rfl := Option.some.inj h
      exact ⟨[], [], .stop i hi, by simp⟩
    · rename_i hi
      have hi' : i < bs.length := by omega
      simp only [hs hi', shiftIn_heldWord] at h
      have hnext : heldWord bs (i + 1) = windowWord bs i := rfl
      split at h
      · rename_i hw
        split at h
        · cases h
        · rename_i hdr pos hsk
          obtain ⟨k, hk, h1, h2⟩ := skipSyncs_spec _ _ _ _ hsk
          obtain ⟨rfl, rfl⟩ := Prod.mk.inj hk
          have hmark : SyncMark bs i (i + 1 + 16 * k + 16) (dataByte (streamWord bs (i + 1 + 16 * k))) := by
            refine ⟨hi', hw, k, by omega, ?_, ?_, ?_⟩
            · rw [← w16_eq_streamWord]
              exact fieldByte_eq_streamByte bs _
            · intro j hj
              have := h1 j hj
              exact ⟨this.1, by omega⟩
            · exact h2
          have hheld : i + 1 + 16 * k + 16 < bs.length →
              streamWord bs (i + 1 + 16 * k) = heldWord bs (i + 1 + 16 * k + 16) := by
            intro hl
            rw [streamWord_eq_windowWord _ _ (by omega)]
            rfl
          split at h
          · rename_i hv
            obtain ⟨ids, dams, hh, rfl⟩ := ih _ _ _ hheld h
            rw [hv] at hmark
            exact ⟨_, _, .idMark _ _ _ _ hmark hh, by simp⟩
          · rename_i hv
            split at h
            · rename_i hv'
              obtain ⟨ids, dams, hh, rfl⟩ := ih _ _ _ hheld h
              exact ⟨_, _, .dataMark _ _ _ _ _ hmark hv' hh, by simp⟩
            · rename_i hv'
              obtain ⟨ids, dams, hh, rfl⟩ := ih _ _ _ (fun _ => hnext.symm) h
              refine ⟨_, _, .pass _ _ _ hi' ?_ hh, rfl⟩
              intro q v hqv
              obtain ⟨-, rfl⟩ := hmark.unique hqv
              exact ⟨hv, fun e => hv' (.inl e), fun e => hv' (.inr e)⟩
      · rename_i hw
        obtain ⟨ids, dams, hh, rfl⟩ := ih _ _ _ (fun _ => hnext.symm) h
        exact ⟨_, _, .pass _ _ _ hi' (fun q v hqv => absurd hqv.2.1 hw) hh, rfl⟩

theorem huntFm_spec (bs l : List Bool) (i : Nat) (m : Marks) (h : l = bs.drop i) :
    huntFm l i (heldWord bs i) m
      = { ids := m.ids ++ ((List.range' i l.length).filter (fun j => decide (windowWord bs j = 0xF57E))).map (· + 1)
          dams := m.dams ++ ((List.range' i l.length).filter
            (fun j => decide (windowWord bs j = 0xF56F ∨ windowWord bs j = 0xF56A))).map (· + 1) } := by
  induction l generalizing i m with
  | nil => simp [huntFm]
  | cons b l ih =>
    have hl : l = bs.drop (i + 1) := by rw [← List.tail_drop, ← h]; rfl
    have hb : bs.getD i false = b := by
      have := congrArg (fun l => l[0]?) h
      simp at this
      simp [← this]
    unfold huntFm
    simp only
    rw [← hb, shiftIn_heldWord, show windowWord bs i = heldWord bs (i + 1) from rfl, ih _ _ hl]
    rw [show heldWord bs (i + 1) = windowWord bs i from rfl]
    simp only [List.length_cons, List.range'_succ, List.filter_cons, fmIdMark, fmDataMark, fmDeletedMark]
    by_cases h1 : windowWord bs i = 0xF57E
    · simp [h1]
    · by_cases h2 : windowWord bs i = 0xF56F ∨ windowWord bs i = 0xF56A <;> simp [h1, h2]

/-! ### Assembly -/

theorem setSlot_get (slots : Slots) (r : Nat) (v : Option (List Byte)) (k : Fin 256) :
    (slots.setIfInBounds r v)[k] = if r = k.val then v else slots[k] :=
  Vector.getElem_setIfInBounds k.isLt

theorem assembleId_get (bs : List Bool) (dams : List Nat) (win : Nat → Bool) (slots : Slots) (q : Nat) (k : Fin 256) :
    (assembleId bs dams win slots q)[k] =
      if streamByte bs (q + 32) = k.val then
        match dams.find? (fun d => decide (q < d) && win (d - q)) with
        | none => some (slots[k].getD [])
        | some d => some (payload bs d (streamByte bs (q + 48)))
      else slots[k] := by
  have hr := streamByte_lt bs (q + 32)
  unfold assembleId
  simp only [fieldByte_eq_streamByte]
  cases dams.find? (fun d => decide (q < d) && win (d - q)) with
  | some d => exact setSlot_get _ _ _ _
  | none =>
    simp only [Vector.getElem?_eq_getElem hr, Option.getD_some]
    split
    · rename_i hn
      rw [setSlot_get]
      split
      · rename_i hk
        have : slots[k] = none := by simpa [hk] using hn
        rw [this]
        rfl
      · rfl
    · rename_i hn
      split
      · rename_i hk
        have : slots[k] ≠ none := by simpa [hk] using hn
        cases hs : slots[k] with
        | none => exact absurd hs this
        | some l => rfl
      · rfl

theorem slotOf_append (bs : List Bool) (ids dams : List Nat) (win : Nat → Bool) (q : Nat) (k : Nat) :
    slotOf bs (ids ++ [q]) dams win k =
      if streamByte bs (q + 32) = k then
        match dams.find? (fun d => decide (q < d) && win (d - q)) with
        | none => some ((slotOf bs ids dams win k).getD [])
        | some d => some ((List.range (128 * 2 ^ (streamByte bs (q + 48) % 8))).map
            (fun j => BitVec.ofNat 8 (streamByte bs (d + 16 * j))))
      else slotOf bs ids dams win k := by
  unfold slotOf
  simp only [List.filter_append, List.filter_cons, List.filter_nil]
  by_cases hk : streamByte bs (q + 32) = k
  · simp only [hk, decide_true, if_true, List.append_eq_nil_iff, List.cons_ne_self, and_false, if_false, List.filterMap_append]
    cases hd : dams.find? (fun d => decide (q < d) && win (d - q)) with
    | none =>
      simp only [List.filterMap_cons, hd, Option.map_none, List.filterMap_nil, List.append_nil]
      by_cases he : List.filter (fun q => decide (streamByte bs (q + 32) = k)) ids = []
      · simp [he]
      · simp [he]
    | some d => simp [hd]
  · simp [hk]

/-- What `ASSEMBLE` leaves in each slot. -/
theorem assemble_get (bs : List Bool) (ids dams : List Nat) (win : Nat → Bool) (k : Fin 256) :
    (assemble bs ids dams win)[k] = slotOf bs ids dams win k.val := by
  induction ids using List.reverseRecOn with
  | nil => simp [assemble, slotOf]
  | append_singleton ids q ih =>
    have : assemble bs (ids ++ [q]) dams win = assembleId bs dams win (assemble bs ids dams win) q := by
      simp [assemble, List.foldl_append]
    rw [this, assembleId_get, slotOf_append, ih]
    have hp : ∀ d n, payload bs d n = (List.range (128 * 2 ^ (n % 8))).map (fun j => BitVec.ofNat 8 (streamByte bs (d + 16 * j))) := by
      intro d n
      simp [payload, fieldByte_eq_streamByte]
    simp only [hp]

end Sys2Proof.Machine
end

