-- ==== Sys2Proof/Laws/Interp.lean ====
section
/-!
SUPPORT. What one element of a descriptor program can do, and that a program ends within the model's bound.
-/

namespace Sys2Proof.Machine

/-- What an element that goes on does to the loop and to `DPC` (42_codec.md R137, R146): the next element, the loop being as it was;
or a loop is opened; or its body runs again for the next sector; or the loop is closed. -/
def Advances (sdl : List SectorDesc) (g g' : Interp) : Prop :=
  (g'.dpc = g.dpc + 1 ∧ g'.loop = g.loop ∧ g'.cur = g.cur)
    ∨ (g.loop = none ∧ g'.dpc = g.dpc + 1 ∧ ∃ l : SectorLoop, g'.loop = some l ∧ l.start = g.dpc ∧ l.k = 0
        ∧ l.first ≤ l.last ∧ l.last < sdl.length)
    ∨ (∃ l : SectorLoop, g.loop = some l ∧ l.k + 1 < l.last - l.first + 1 ∧ g'.loop = some { l with k := l.k + 1 }
        ∧ g'.dpc = l.start + 1)
    ∨ (∃ l : SectorLoop, g.loop = some l ∧ g'.loop = none ∧ g'.cur = none ∧ g'.dpc = g.dpc + 1)

theorem elemLoopStart_run {first last : Nat} {sdl : List SectorDesc} {g g' : Interp}
    (h : elemLoopStart first last sdl g = .run g') : Advances sdl g g' := by
  unfold elemLoopStart at h
  split at h
  · cases h
  · rename_i h1
    simp only [not_or, Bool.not_eq_true, Option.isSome_eq_false_iff, Option.isNone_iff_eq_none] at h1
    split at h
    · cases h
    · obtain rfl := ElemResult.run.inj h
      exact .inr (.inl ⟨h1.1, rfl, _, rfl, rfl, rfl, by simp only; omega, by simp only; omega⟩)

theorem elemLoopEnd_run {sdl : List SectorDesc} {g g' : Interp} (h : elemLoopEnd g = .run g') : Advances sdl g g' := by
  unfold elemLoopEnd at h
  split at h
  · cases h
  · rename_i l hl
    split at h
    · obtain rfl := ElemResult.run.inj h
      exact .inr (.inr (.inl ⟨l, hl, by assumption, rfl, rfl⟩))
    · obtain rfl := ElemResult.run.inj h
      exact .inr (.inr (.inr ⟨l, hl, rfl, rfl, rfl⟩))

theorem Interp.wrote_run {sdl : List SectorDesc} {g g' : Interp} {cl : List Word32} (h : g.wrote cl = .run g') :
    Advances sdl g g' := by
  obtain rfl := ElemResult.run.inj h
  exact .inl ⟨rfl, rfl, rfl⟩

theorem elemSectorByte_run {enc : Encoding} {field : SectorDesc → Nat} {sdl : List SectorDesc} {g g' : Interp}
    (h : elemSectorByte enc field sdl g = .run g') : Advances sdl g g' := by
  unfold elemSectorByte at h
  split at h
  · cases h
  · exact Interp.wrote_run h

theorem elemSectorData_run {enc : Encoding} {sdl : List SectorDesc} {g g' : Interp}
    (h : elemSectorData enc sdl g = .run g') : Advances sdl g g' := by
  unfold elemSectorData at h
  split at h
  · cases h
  · split at h
    · exact Interp.wrote_run h
    · cases h

theorem elemCrcStart_run {enc : Encoding} {id : Nat} {sdl : List SectorDesc} {g g' : Interp}
    (h : elemCrcStart enc id g = .run g') : Advances sdl g g' := by
  unfold elemCrcStart at h
  split at h
  · cases h
  · obtain rfl := ElemResult.run.inj h
    exact .inl ⟨rfl, rfl, rfl⟩

theorem elemCrcEnd_run {id : Nat} {sdl : List SectorDesc} {g g' : Interp}
    (h : elemCrcEnd id g = .run g') : Advances sdl g g' := by
  unfold elemCrcEnd at h
  split at h
  · cases h
  · split at h
    · cases h
    · obtain rfl := ElemResult.run.inj h
      exact .inl ⟨rfl, rfl, rfl⟩

theorem elemCrc_run {id : Nat} {sdl : List SectorDesc} {g g' : Interp}
    (h : elemCrc id g = .run g') : Advances sdl g g' := by
  unfold elemCrc at h
  split at h
  · cases h
  · split at h
    · cases h
    · split at h
      · cases h
      · split at h
        · cases h
        · exact Interp.wrote_run h

theorem element_run {i : Instr} {sdl : List SectorDesc} {g g' : Interp} (h : element i sdl g = .run g') :
    Advances sdl g g' := by
  cases i with
  | endDesc => simp only [element, elemEnd] at h; split at h <;> cases h
  | fm | mfm | raw | trackId | trackIdFm | headId | headIdFm => exact Interp.wrote_run h
  | sectorId | sectorIdFm | sizeId | sizeIdFm => exact elemSectorByte_run h
  | crcCcittStart | crcCcittFmStart => exact elemCrcStart_run h
  | crcEnd => exact elemCrcEnd_run h
  | crc => exact elemCrc_run h
  | sectorLoopStart => exact elemLoopStart_run h
  | sectorLoopEnd => exact elemLoopEnd_run h
  | sectorData | sectorDataFm => exact elemSectorData_run h
  | sectorInterleaveSkip =>
    obtain rfl := ElemResult.run.inj h
    exact .inl ⟨rfl, rfl, rfl⟩
  | _ => cases h

theorem fetchElement_run {desc : List DescElem} {sdl : List SectorDesc} {g g' : Interp}
    (h : fetchElement desc sdl g = .run g') : g.dpc < desc.length ∧ Advances sdl g g' := by
  unfold fetchElement at h
  split at h
  · cases h
  · rename_i e he
    have hlt := (List.getElem?_eq_some_iff.mp he).1
    split at h
    · cases h
    · exact ⟨hlt, element_run h⟩

/-! ### The bound -/

/-- The loop that is open began before `DPC` and has a sector for each of its rounds. -/
def Interp.LoopOk (sdl : List SectorDesc) (g : Interp) : Prop :=
  ∀ l : SectorLoop, g.loop = some l → l.start < g.dpc ∧ l.last - l.first + 1 ≤ sdl.length

/-- The elements that are still to come, at most, in a program of `D` elements over `S` records. -/
def remaining (D S : Nat) (g : Interp) : Nat :=
  match g.loop with
  | none => (D - g.dpc) * ((S + 1) * (D + 1))
  | some l =>
    (D - (l.start + 1)) * ((S + 1) * (D + 1)) + (l.last - l.first - l.k) * (D + 1) + (D - g.dpc)

theorem LoopOk.advance {sdl : List SectorDesc} {g g' : Interp} (hok : g.LoopOk sdl) (h : Advances sdl g g') :
    g'.LoopOk sdl := by
  intro l' hl'
  rcases h with ⟨h1, h2, -⟩ | ⟨h1, h2, l, h3, h4, -, h5, h6⟩ | ⟨l, h1, h2, h3, h4⟩ | ⟨l, h1, h2, -, h3⟩
  · have := hok l' (h2 ▸ hl')
    omega
  · rw [h3] at hl'
    obtain rfl := Option.some.inj hl'
    omega
  · rw [h3] at hl'
    obtain rfl := Option.some.inj hl'
    have := hok l h1
    simp only
    omega
  · rw [h2] at hl'
    cases hl'

/-- Each element that goes on lowers the count. -/
theorem remaining_lt {D : Nat} {sdl : List SectorDesc} {g g' : Interp} (hok : g.LoopOk sdl) (hd : g.dpc < D)
    (h : Advances sdl g g') : remaining D sdl.length g' < remaining D sdl.length g := by
  have hsucc : ∀ a : Nat, a < D → (D - a) * ((sdl.length + 1) * (D + 1))
      = (D - (a + 1)) * ((sdl.length + 1) * (D + 1)) + (sdl.length + 1) * (D + 1) := by
    intro a ha
    rw [show D - a = (D - (a + 1)) + 1 by omega, Nat.succ_mul]
  have hC : (sdl.length + 1) * (D + 1) = sdl.length * (D + 1) + (D + 1) := Nat.succ_mul _ _
  rcases h with ⟨h1, h2, -⟩ | ⟨h1, h2, l, h3, h4, h5, h6, h7⟩ | ⟨l, h1, h2, h3, h4⟩ | ⟨l, h1, h2, -, h3⟩
  · unfold remaining
    rw [h2]
    cases hl : g.loop with
    | none =>
      simp only [h1]
      have := hsucc _ hd
      omega
    | some l => simp only [h1]; omega
  · unfold remaining
    rw [h1, h3]
    simp only [h2, h4, h5]
    have hs := hsucc _ hd
    have hm : (l.last - l.first - 0) * (D + 1) ≤ sdl.length * (D + 1) := Nat.mul_le_mul_right _ (by omega)
    omega
  · unfold remaining
    rw [h1, h3]
    simp only [h4]
    have hs : (l.last - l.first - l.k) * (D + 1) = (l.last - l.first - (l.k + 1)) * (D + 1) + (D + 1) := by
      rw [show l.last - l.first - l.k = (l.last - l.first - (l.k + 1)) + 1 by omega, Nat.succ_mul]
    omega
  · unfold remaining
    rw [h1, h2]
    simp only [h3]
    have := (hok l h1).1
    have hs := hsucc _ hd
    have hm : (D - g.dpc) * ((sdl.length + 1) * (D + 1)) ≤ (D - (l.start + 1)) * ((sdl.length + 1) * (D + 1)) :=
      Nat.mul_le_mul_right _ (by omega)
    omega

/-- The interpreter's answer comes before the bound: the elements end, in `END` or in a fault. -/
theorem interpret_ends (s : State) (n : Nat) (g : Interp) (hok : g.LoopOk s.sdl)
    (hn : remaining s.desc.length s.sdl.length g < n) :
    (∃ g' : Interp, interpret s n g = finishTrack g' s) ∨ ∃ code : FaultCode, interpret s n g = raiseFault code 0 s := by
  induction n generalizing g with
  | zero => omega
  | succ n ih =>
    unfold interpret
    split
    · rename_i g' hg'
      obtain ⟨hd, ha⟩ := fetchElement_run hg'
      exact ih g' (LoopOk.advance hok ha) (by have := remaining_lt hok hd ha; omega)
    · exact .inl ⟨_, rfl⟩
    · exact .inr ⟨_, rfl⟩

theorem interpret_startInterp (s : State) (c h n d : Nat) :
    (∃ g' : Interp, interpret s (interpBound s) (startInterp c h n d) = finishTrack g' s)
      ∨ ∃ code : FaultCode, interpret s (interpBound s) (startInterp c h n d) = raiseFault code 0 s := by
  apply interpret_ends
  · intro l hl
    cases hl
  · simp [remaining, startInterp, interpBound]

end Sys2Proof.Machine
end

