-- ==== Sys2Proof/Laws/Issue.lean ====
section
/-!
SUPPORT. What one step is, case by case, what taking a word does, and what becomes of a pending index timer.
-/

namespace Sys2Proof.Machine

theorem step_of_input {s : State} {ev : HostInput} {rest : List HostInput} (hg : s.gen = none) (hi : s.inbox = ev :: rest) :
    step s = hostInput ev { s with inbox := rest } := by
  unfold step nextStep
  split
  · simp_all
  · split
    · simp_all
    · rename_i ev' rest' h
      rw [hi] at h
      cases h
      rfl

theorem step_of_no_input {s : State} (hg : s.gen = none) (hi : s.inbox = []) : step s = .next s := by
  unfold step nextStep
  split
  · simp_all
  · split
    · rfl
    · simp_all

theorem step_of_gen {s : State} {g : Interp} (hg : s.gen = some g) : step s = elementStep g s := by
  unfold step nextStep
  split
  · rename_i g' h
    rw [hg] at h
    cases h
    rfl
  · simp_all

theorem elementStep_of_element {g : Interp} {s : State} {e : DescElem} {i : Instr} (h : s.desc[g.dpc]? = some e)
    (hd : decodeElem e = .ok i) : elementStep g s = exec i s := by
  unfold elementStep
  split
  · simp_all
  · rename_i e' h'
    rw [h] at h'
    cases h'
    rw [hd]

theorem elementStep_of_illegal {g : Interp} {s : State} {e : DescElem} {r : Reject} (h : s.desc[g.dpc]? = some e)
    (hd : decodeElem e = .error r) : elementStep g s = raiseFault .desc 0 { s with gen := none } := by
  unfold elementStep
  split
  · simp_all
  · rename_i e' h'
    rw [h] at h'
    cases h'
    rw [hd]

theorem elementStep_of_end {g : Interp} {s : State} (h : s.desc[g.dpc]? = none) :
    elementStep g s = raiseFault .bounds 0 { s with gen := none } := by
  unfold elementStep
  split
  · rfl
  · simp_all

theorem acceptWord_of_illegal {w : Word32} {r : Reject} (h : decodeWord w = .error r) (s : State) :
    acceptWord w s = refuseWord s := by
  unfold acceptWord
  rw [h]

theorem acceptWord_of_legal {w : Word32} {i : Instr} {s : State} (h : decodeWord w = .ok i)
    (hf : s.fault = false ∨ i = .getFault) : acceptWord w s = exec i (timerFirst i s) := by
  unfold acceptWord
  rw [h]
  simp only
  rw [if_neg]
  rintro ⟨h1, h2⟩
  rcases hf with hf | hf
  · rw [hf] at h1
    cases h1
  · exact h2 hf

theorem acceptWord_of_faulted {w : Word32} {i : Instr} {s : State} (h : decodeWord w = .ok i) (hf : s.fault = true)
    (hi : i ≠ .getFault) : acceptWord w s = refuseWord s := by
  unfold acceptWord
  rw [h]
  simp only
  rw [if_pos ⟨hf, hi⟩]

/-! ### The index timer -/

@[simp] theorem State.missTimer_timerMissed (s : State) : s.missTimer.timerMissed = true := rfl

@[simp] theorem State.missTimer_idxTimer (s : State) : s.missTimer.idxTimer = s.idxTimer := rfl

@[simp] theorem State.missTimer_idx (s : State) : s.missTimer.idx = s.idx := rfl

@[simp] theorem State.missTimer_edges (s : State) : s.missTimer.edges = s.edges := rfl

@[simp] theorem State.missTimer_readyCnt (s : State) : s.missTimer.readyCnt = s.readyCnt := rfl

theorem State.missTimer_of_missed {s : State} (h : s.timerMissed = true) : s.missTimer = s := by
  cases s
  cases h
  rfl

theorem State.timerPending_iff {s : State} : s.timerPending = true ↔ s.idxTimer ≠ never ∧ s.timerMissed = false := by
  simp [State.timerPending]

theorem State.timerPending_of_never {s : State} (h : s.idxTimer = never) : s.timerPending = false := by
  simp [State.timerPending, h]

theorem State.timerPending_of_missed {s : State} (h : s.timerMissed = true) : s.timerPending = false := by
  simp [State.timerPending, h]

theorem timerFirst_of_not_pending {i : Instr} {s : State} (h : s.timerPending = false) : timerFirst i s = s := by
  unfold timerFirst
  split
  · rfl
  · exact if_pos (.inl h)

theorem timerFirst_of_never {i : Instr} {s : State} (h : s.idxTimer = never) : timerFirst i s = s :=
  timerFirst_of_not_pending (State.timerPending_of_never h)

/-- A timer that the host has gone past does not run before a command. -/
theorem timerFirst_of_missed {i : Instr} {s : State} (h : s.timerMissed = true) : timerFirst i s = s :=
  timerFirst_of_not_pending (State.timerPending_of_missed h)

theorem timerFirst_of_no_time {i : Instr} {s : State} (h : commandNow i s = none ∨ commandNow i s = some never) :
    timerFirst i s = s := by
  unfold timerFirst
  rcases h with h | h <;> rw [h]
  exact if_pos (.inr rfl)

theorem timerFirst_of_equal {i : Instr} {s : State} (hp : s.timerPending = true) (h : commandNow i s = some s.idxTimer) :
    timerFirst i s = s.timerFires := by
  have hn := (State.timerPending_iff.mp hp).1
  unfold timerFirst
  rw [h]
  simp [hp, hn]

theorem timerFirst_of_later {i : Instr} {s : State} {now : Word64} (hp : s.timerPending = true) (h : commandNow i s = some now)
    (hn : now ≠ never) (hl : s.idxTimer < now) : timerFirst i s = s.missTimer := by
  have hne : now ≠ s.idxTimer := fun e => absurd (e ▸ hl) (BitVec.lt_irrefl _)
  unfold timerFirst
  rw [h]
  simp [hp, hn, hne, hl]

theorem timerFirst_of_earlier {i : Instr} {s : State} {now : Word64} (h : commandNow i s = some now) (hl : now < s.idxTimer) :
    timerFirst i s = s := by
  have hne : now ≠ s.idxTimer := fun e => absurd (e ▸ hl) (BitVec.lt_irrefl _)
  have hnl : ¬ s.idxTimer < now := fun hc => absurd (BitVec.lt_trans hl hc) (BitVec.lt_irrefl _)
  unfold timerFirst
  rw [h]
  simp [hne, hnl]

/-- What `timerFirst` can give: the state, or of a pending timer the state after its resync, or the state with it missed. -/
theorem timerFirst_cases (i : Instr) (s : State) :
    timerFirst i s = s
      ∨ s.timerPending = true ∧ commandNow i s = some s.idxTimer ∧ timerFirst i s = s.timerFires
      ∨ s.timerPending = true ∧ timerFirst i s = s.missTimer := by
  cases h : commandNow i s with
  | none => exact .inl (timerFirst_of_no_time (.inl h))
  | some now =>
    unfold timerFirst
    rw [h]
    simp only
    split
    · exact .inl rfl
    · rename_i hc
      have hp : s.timerPending = true := by simpa using fun hf => hc (.inl hf)
      split
      · rename_i he
        exact .inr (.inl ⟨hp, congrArg some he, rfl⟩)
      · split
        · exact .inr (.inr ⟨hp, rfl⟩)
        · exact .inl rfl

/-- The timer's time is reached when the timer can no longer fire: nothing happens. -/
theorem timerInput_of_not_pending {s : State} (h : s.timerPending = false) : timerInput s = .next s := if_pos h

theorem timerInput_of_faulted {s : State} (hp : s.timerPending = true) (hf : s.fault = true) : timerInput s = refuseWord s := by
  unfold timerInput
  rw [if_neg (by simp [hp]), if_pos hf]

theorem timerInput_of_pending {s : State} (hp : s.timerPending = true) (hf : s.fault = false) :
    timerInput s = .next s.timerFires := by
  unfold timerInput
  rw [if_neg (by simp [hp]), if_neg (by simp [hf])]

/-- What accepting a word can be: a refusal, or a command on the state or on the state after the timer's resync. -/
theorem acceptWord_cases (w : Word32) (s : State) :
    acceptWord w s = refuseWord s
      ∨ ∃ i : Instr, decodeWord w = .ok i ∧ (s.fault = false ∨ i = .getFault) ∧ acceptWord w s = exec i (timerFirst i s) := by
  cases h : decodeWord w with
  | error r => exact .inl (acceptWord_of_illegal h s)
  | ok i =>
    by_cases hf : s.fault = true ∧ i ≠ .getFault
    · exact .inl (acceptWord_of_faulted h hf.1 hf.2)
    · refine .inr ⟨i, rfl, ?_, acceptWord_of_legal h ?_⟩ <;>
        · by_cases hs : s.fault = true
          · exact .inr (by_contra fun hi => hf ⟨hs, hi⟩)
          · exact .inl (by simpa using hs)

end Sys2Proof.Machine
end

