-- ==== Sys2Proof/Laws/PerInstr.lean ====
section
/-!
SUPPORT. One lemma per instruction: what the encoder writes for it decodes to it (30_encoding.md R76 to R79).
-/

namespace Sys2Proof.Laws

/-- A field put into a wider word is read back from its low bits. -/
theorem extract_setWidth {n m : Nat} (h : n ≤ m) (b : BitVec n) : (b.setWidth m).extractLsb' 0 n = b := by
  ext j hj
  simp only [BitVec.getElem_extractLsb', BitVec.getLsbD_setWidth, BitVec.getLsbD_eq_getElem hj, Nat.zero_add]
  simp
  omega

namespace RoundTrip

/-- The encoding of the instruction decodes to it. -/
def Statement (i : Instr) : Prop := i.wellFormed = true → decode (encode i) = .ok i

theorem setMotor : Statement .setMotor := fun _ => rfl

theorem indexResync : Statement .indexResync := fun _ => rfl

theorem timeNextIndex : Statement .timeNextIndex := fun _ => rfl

theorem phaseOf : Statement .phaseOf := fun _ => rfl

theorem timeOf : Statement .timeOf := fun _ => rfl

theorem stepTo : Statement .stepTo := fun _ => rfl

theorem setSide : Statement .setSide := fun _ => rfl

theorem getLines : Statement .getLines := fun _ => rfl

theorem getFault : Statement .getFault := fun _ => rfl

theorem getNextTransition : Statement .getNextTransition := fun _ => rfl

theorem writeFlux : Statement .writeFlux := fun _ => rfl

theorem setWriteSplice : Statement .setWriteSplice := fun _ => rfl

theorem setSeed : Statement .setSeed := fun _ => rfl

theorem clClear : Statement .clClear := fun _ => rfl

theorem rawW : Statement .rawW := fun _ => rfl

theorem fmW : Statement .fmW := fun _ => rfl

theorem mfmW : Statement .mfmW := fun _ => rfl

theorem genTrack : Statement .genTrack := fun _ => rfl

theorem genFromCells : Statement .genFromCells := fun _ => rfl

theorem genBitstream : Statement .genBitstream := fun _ => rfl

theorem extractMfm : Statement .extractMfm := fun _ => rfl

theorem extractFm : Statement .extractFm := fun _ => rfl

theorem buildPcMfm : Statement .buildPcMfm := fun _ => rfl

theorem buildPcFm : Statement .buildPcFm := fun _ => rfl

theorem crcCells : Statement .crcCells := fun _ => rfl

theorem crcBytes : Statement .crcBytes := fun _ => rfl

theorem insert : Statement .insert := fun _ => rfl

theorem eject : Statement .eject := fun _ => rfl

theorem getBuffer : Statement .getBuffer := fun _ => rfl

theorem putBuffer : Statement .putBuffer := fun _ => rfl

theorem resizeTracks : Statement .resizeTracks := fun _ => rfl

theorem trackIsFormatted : Statement .trackIsFormatted := fun _ => rfl

theorem actualGeometry : Statement .actualGeometry := fun _ => rfl

theorem readSector : Statement .readSector := fun _ => rfl

theorem writeSector : Statement .writeSector := fun _ => rfl

theorem saveState : Statement .saveState := fun _ => rfl

theorem loadState : Statement .loadState := fun _ => rfl

theorem setWp : Statement .setWp := fun _ => rfl

theorem pollChanged : Statement .pollChanged := fun _ => rfl

theorem getFlags : Statement .getFlags := fun _ => rfl

theorem clearDirty : Statement .clearDirty := fun _ => rfl

theorem getProps : Statement .getProps := fun _ => rfl

theorem endDesc : Statement .endDesc := fun _ => rfl

theorem fm (byte : Byte) (count : Word32) : Statement (.fm byte count) := by
  intro _
  show Except.ok (Instr.fm ((byte.setWidth 32).extractLsb' 0 8) count) = _
  rw [extract_setWidth (by decide)]

theorem mfm (byte : Byte) (count : Word32) : Statement (.mfm byte count) := by
  intro _
  show Except.ok (Instr.mfm ((byte.setWidth 32).extractLsb' 0 8) count) = _
  rw [extract_setWidth (by decide)]

theorem raw (pattern : BitVec 16) (count : Word32) : Statement (.raw pattern count) := by
  intro _
  show Except.ok (Instr.raw ((pattern.setWidth 32).extractLsb' 0 16) count) = _
  rw [extract_setWidth (by decide)]

theorem trackId : Statement .trackId := fun _ => rfl

theorem trackIdFm : Statement .trackIdFm := fun _ => rfl

theorem headId : Statement .headId := fun _ => rfl

theorem headIdFm : Statement .headIdFm := fun _ => rfl

theorem sectorId : Statement .sectorId := fun _ => rfl

theorem sectorIdFm : Statement .sectorIdFm := fun _ => rfl

theorem sizeId : Statement .sizeId := fun _ => rfl

theorem sizeIdFm : Statement .sizeIdFm := fun _ => rfl

theorem crcCcittStart (region : Word32) : Statement (.crcCcittStart region) := fun _ => rfl

theorem crcCcittFmStart (region : Word32) : Statement (.crcCcittFmStart region) := fun _ => rfl

theorem crcEnd (region : Word32) : Statement (.crcEnd region) := fun _ => rfl

theorem crc (region : Word32) : Statement (.crc region) := fun _ => rfl

theorem sectorLoopStart (first last : Word32) : Statement (.sectorLoopStart first last) := fun _ => rfl

theorem sectorLoopEnd : Statement .sectorLoopEnd := fun _ => rfl

theorem sectorData : Statement .sectorData := fun _ => rfl

theorem sectorDataFm : Statement .sectorDataFm := fun _ => rfl

theorem sectorInterleaveSkip (interleave skew : Word32) : Statement (.sectorInterleaveSkip interleave skew) := fun _ => rfl

end RoundTrip

end Sys2Proof.Laws
end

