-- ==== Sys2Proof/Laws/Write.lean ====
section
/-!
SUPPORT. The flux write: the sub-spans off the damaged zones, and what replacing one does to a track (41_flux_sequencer.md R119 to R126).
-/

namespace Sys2Proof.Machine

/-! ### Position sets -/

theorem mem_insertPos {p q : Nat} {l : List Nat} : q ∈ insertPos p l ↔ q = p ∨ q ∈ l := by
  induction l with
  | nil => simp [insertPos]
  | cons a l ih =>
    unfold insertPos
    split
    · simp
    · split
      · rename_i h; subst h; simp
      · simp only [List.mem_cons, ih]; tauto

theorem pairwise_insertPos {p : Nat} {l : List Nat} (h : l.Pairwise (· < ·)) : (insertPos p l).Pairwise (· < ·) := by
  induction l with
  | nil => simp [insertPos]
  | cons a l ih =>
    obtain ⟨h1, h2⟩ := List.pairwise_cons.mp h
    unfold insertPos
    split
    · rename_i hp
      rw [List.pairwise_cons]
      refine ⟨?_, h⟩
      intro b hb
      rcases List.mem_cons.mp hb with rfl | hb
      · exact hp
      · exact hp.trans (h1 b hb)
    · split
      · exact h
      · rw [List.pairwise_cons]
        refine ⟨?_, ih h2⟩
        intro b hb
        rcases mem_insertPos.mp hb with rfl | hb
        · omega
        · exact h1 b hb

theorem mem_posSet {p : Nat} {l : List Nat} : p ∈ posSet l ↔ p ∈ l := by
  induction l with
  | nil => rfl
  | cons a l ih =>
    show p ∈ insertPos a (posSet l) ↔ _
    rw [mem_insertPos, ih, List.mem_cons]

theorem pairwise_posSet (l : List Nat) : (posSet l).Pairwise (· < ·) := by
  induction l with
  | nil => exact List.Pairwise.nil
  | cons a l ih => exact pairwise_insertPos ih

/-- A rising list is its own set. -/
theorem posSet_of_pairwise {l : List Nat} (h : l.Pairwise (· < ·)) : posSet l = l := by
  induction l with
  | nil => rfl
  | cons a l ih =>
    obtain ⟨h1, h2⟩ := List.pairwise_cons.mp h
    show insertPos a (posSet l) = _
    rw [ih h2]
    cases l with
    | nil => rfl
    | cons b l =>
      unfold insertPos
      rw [if_pos (h1 b List.mem_cons_self)]

/-! ### Sub-spans (R121) -/

/-- Zones in increasing order, as a track has them. -/
def Ordered (Z : List Zone) : Prop := Z.Pairwise (fun a b => a.z2 < b.z1) ∧ ∀ z ∈ Z, z.z1 < z.z2

theorem Ordered.tail {z : Zone} {Z : List Zone} (h : Ordered (z :: Z)) : Ordered Z :=
  ⟨(List.pairwise_cons.mp h.1).2, fun z' hz => h.2 z' (List.mem_cons_of_mem _ hz)⟩

theorem Ordered.filter {Z : List Zone} (h : Ordered Z) (p : Zone → Bool) : Ordered (Z.filter p) :=
  ⟨h.1.filter _, fun z hz => h.2 z (List.mem_filter.mp hz).1⟩

theorem View.ordered {Z : List Zone} {F : List Nat} (h : View Z F) : Ordered Z := ⟨h.zones, fun z hz => (h.each z hz).1⟩

/-- A sub-span is a non-empty part of the span, off every zone. -/
theorem mem_clipZones {Z : List Zone} (h : Ordered Z) {ps pe : Nat} {q : Nat × Nat} (hq : q ∈ clipZones Z ps pe) :
    ps ≤ q.1 ∧ q.1 < q.2 ∧ q.2 ≤ pe ∧ ∀ z ∈ Z, q.2 ≤ z.z1 ∨ z.z2 < q.1 := by
  induction Z generalizing ps with
  | nil =>
    unfold clipZones at hq
    split at hq
    · obtain rfl := List.mem_singleton.mp hq
      exact ⟨le_refl _, by assumption, le_refl _, by simp⟩
    · cases hq
  | cons z Z ih =>
    obtain ⟨h1, -⟩ := List.pairwise_cons.mp h.1
    have hz := h.2 z List.mem_cons_self
    unfold clipZones at hq
    split at hq
    · rename_i hskip
      obtain ⟨a, b, c, d⟩ := ih h.tail hq
      refine ⟨a, b, c, ?_⟩
      intro z' hz'
      rcases List.mem_cons.mp hz' with rfl | hz'
      · omega
      · exact d z' hz'
    · rename_i hskip
      rcases List.mem_append.mp hq with hq | hq
      · split at hq
        · obtain rfl := List.mem_singleton.mp hq
          refine ⟨le_refl _, by assumption, by simp only; omega, ?_⟩
          intro z' hz'
          rcases List.mem_cons.mp hz' with rfl | hz'
          · exact .inl (le_refl _)
          · have := h1 z' hz'
            exact .inl (by simp only; omega)
        · cases hq
      · obtain ⟨a, b, c, d⟩ := ih h.tail hq
        refine ⟨by omega, b, c, ?_⟩
        intro z' hz'
        rcases List.mem_cons.mp hz' with rfl | hz'
        · omega
        · exact d z' hz'

/-- Every position of the span off the zones lies in a sub-span. -/
theorem exists_clipZones {Z : List Zone} (h : Ordered Z) {ps pe p : Nat} (h1 : ps ≤ p) (h2 : p < pe)
    (h3 : ∀ z ∈ Z, p < z.z1 ∨ z.z2 < p) : ∃ q ∈ clipZones Z ps pe, q.1 ≤ p ∧ p < q.2 := by
  induction Z generalizing ps with
  | nil =>
    unfold clipZones
    rw [if_pos (by omega)]
    exact ⟨_, List.mem_singleton.mpr rfl, h1, h2⟩
  | cons z Z ih =>
    have hz := h3 z List.mem_cons_self
    have h3' : ∀ z' ∈ Z, p < z'.z1 ∨ z'.z2 < p := fun z' hz' => h3 z' (List.mem_cons_of_mem _ hz')
    unfold clipZones
    split
    · exact ih h.tail h1 h3'
    · rcases hz with hz | hz
      · refine ⟨(ps, z.z1), ?_, h1, hz⟩
        rw [if_pos (by omega)]
        simp
      · obtain ⟨q, hq, hq'⟩ := ih h.tail (ps := z.z2 + 1) (by omega) h3'
        exact ⟨q, List.mem_append_right _ hq, hq'⟩

/-- The sub-spans come in increasing order, with a zone between two of them. -/
theorem pairwise_clipZones {Z : List Zone} (h : Ordered Z) (ps pe : Nat) :
    (clipZones Z ps pe).Pairwise (fun a b => a.2 < b.1) := by
  induction Z generalizing ps with
  | nil =>
    unfold clipZones
    split <;> simp
  | cons z Z ih =>
    have hz := h.2 z List.mem_cons_self
    unfold clipZones
    split
    · exact ih h.tail ps
    · rw [List.pairwise_append]
      refine ⟨by split <;> simp, ih h.tail _, ?_⟩
      intro a ha b hb
      have := mem_clipZones h.tail hb
      split at ha
      · obtain rfl := List.mem_singleton.mp ha
        simp only
        omega
      · cases ha

/-- Two different sub-spans lie apart. -/
theorem apart_of_pairwise {l : List (Nat × Nat)} (h : l.Pairwise (fun a b => a.2 < b.1)) {a b : Nat × Nat} (ha : a ∈ l)
    (hb : b ∈ l) (hne : a ≠ b) : a.2 < b.1 ∨ b.2 < a.1 := by
  induction l with
  | nil => cases ha
  | cons c l ih =>
    obtain ⟨h1, h2⟩ := List.pairwise_cons.mp h
    rcases List.mem_cons.mp ha with rfl | ha' <;> rcases List.mem_cons.mp hb with rfl | hb'
    · exact absurd rfl hne
    · exact .inl (h1 b hb')
    · exact .inr (h1 a ha')
    · exact ih h2 ha' hb'

/-! ### Replacing a sub-span (R122 to R124) -/

/-- A sub-span of the track: its positions, and no damaged zone on them. -/
structure SubSpan (L : List Word32) (qs qe : Nat) : Prop where
  pos : qs < qe
  top : qe ≤ revUnits
  clear : ∀ z ∈ damagedZones L, qe ≤ z.z1 ∨ z.z2 < qs

theorem mem_parityToggle {old qs qe p : Nat} {Tq : List Nat} (hq : qs < qe) (hT : ∀ t ∈ Tq, qs ≤ t ∧ t < qe)
    (hp : p ∈ parityToggle old qe Tq) : qs ≤ p ∧ p < qe := by
  unfold parityToggle at hp
  split at hp
  · exact hT p hp
  · split at hp
    · exact hT p (List.mem_filter.mp hp).1
    · rcases List.mem_append.mp hp with hp | hp
      · exact hT p hp
      · have := List.mem_singleton.mp hp; omega

theorem pairwise_parityToggle {old qe : Nat} {Tq : List Nat} (hs : Tq.Pairwise (· < ·)) (hT : ∀ t ∈ Tq, t < qe) :
    (parityToggle old qe Tq).Pairwise (· < ·) := by
  unfold parityToggle
  split
  · exact hs
  · split
    · exact hs.filter _
    · rename_i hm
      rw [List.pairwise_append]
      refine ⟨hs, List.pairwise_singleton _ _, ?_⟩
      intro a ha b hb
      have := hT a ha
      obtain rfl := List.mem_singleton.mp hb
      have : a ≠ qe - 1 := fun he => hm (he ▸ ha)
      omega

/-- Off its last position the toggle changes nothing. -/
theorem mem_parityToggle_iff {old qe p : Nat} {Tq : List Nat} (hp : p + 1 < qe) :
    p ∈ parityToggle old qe Tq ↔ p ∈ Tq := by
  unfold parityToggle
  split
  · rfl
  · split
    · rw [List.mem_filter]
      simp only [decide_eq_true_eq]
      exact ⟨And.left, fun h => ⟨h, by omega⟩⟩
    · rw [List.mem_append, List.mem_singleton]
      constructor
      · rintro (h | h)
        · exact h
        · omega
      · exact .inl

theorem length_filter_ne {l : List Nat} (h : l.Pairwise (· < ·)) {a : Nat} (ha : a ∈ l) :
    (l.filter (fun p => decide (p ≠ a))).length + 1 = l.length := by
  induction l with
  | nil => cases ha
  | cons b l ih =>
    obtain ⟨h1, h2⟩ := List.pairwise_cons.mp h
    by_cases hb : b = a
    · subst hb
      rw [List.filter_cons_of_neg (by simp), List.filter_eq_self.mpr]
      · rfl
      · intro c hc
        have := h1 c hc
        simp only [decide_eq_true_eq]
        omega
    · rw [List.filter_cons_of_pos (by simpa using hb), List.length_cons, List.length_cons,
        ih h2 ((List.mem_cons.mp ha).resolve_left (Ne.symm hb))]

/-- R123: the number of transitions keeps its parity. -/
theorem length_parityToggle {old qe : Nat} {Tq : List Nat} (hs : Tq.Pairwise (· < ·)) :
    (old + (parityToggle old qe Tq).length) % 2 = 0 := by
  unfold parityToggle
  split
  · assumption
  · split
    · rename_i hm
      have := length_filter_ne hs hm
      omega
    · rw [List.length_append, List.length_singleton]
      omega

/-- A piece of a cut zone lies in the zone, and off the sub-span. -/
theorem mem_cutZone {qs qe : Nat} {z y : Zone} (hz : z.z1 < z.z2) (hc : z.tag = .damaged → qe ≤ z.z1 ∨ z.z2 < qs)
    (ht : z.tag = .nonMagnetized ∨ z.tag = .damaged) (h : y ∈ cutZone qs qe z) :
    y.tag = z.tag ∧ z.z1 ≤ y.z1 ∧ y.z1 < y.z2 ∧ y.z2 ≤ z.z2 ∧ (qe ≤ y.z1 ∨ y.z2 < qs) := by
  unfold cutZone at h
  split at h
  · rcases List.mem_append.mp h with h | h
    · split at h
      · obtain rfl := List.mem_singleton.mp h
        simp only
        exact ⟨trivial, le_refl _, by omega, by omega, by omega⟩
      · cases h
    · split at h
      · obtain rfl := List.mem_singleton.mp h
        simp only
        exact ⟨trivial, by omega, by omega, le_refl _, by omega⟩
      · cases h
  · rename_i hn
    obtain rfl := List.mem_singleton.mp h
    refine ⟨rfl, le_refl _, hz, le_refl _, ?_⟩
    rcases ht with ht | ht
    · by_contra hc'
      exact hn ⟨ht, by omega, by omega⟩
    · exact hc ht

theorem pairwise_cutZone (qs qe : Nat) (z : Zone) (hq : qs < qe) : (cutZone qs qe z).Pairwise (fun a b => a.z2 < b.z1) := by
  unfold cutZone
  split
  · rw [List.pairwise_append]
    refine ⟨by split <;> simp, by split <;> simp, ?_⟩
    intro a ha b hb
    split at ha
    · split at hb
      · obtain rfl := List.mem_singleton.mp ha
        obtain rfl := List.mem_singleton.mp hb
        simp only
        omega
      · cases hb
    · cases ha
  · simp

/-- The zones and the flux positions of the track after a replacement. -/
theorem View.replace {L : List Word32} {qs qe : Nat} {T : List Nat} (h : View (zonesOf L) (fluxPositions L))
    (hq : SubSpan L qs qe) (hs : T.Pairwise (· < ·)) (hT : ∀ t ∈ T, qs ≤ t ∧ t < qe) :
    View ((zonesOf L).flatMap (cutZone qs qe))
      ((fluxPositions L).filter (fun p => decide (p < qs)) ++ T ++ (fluxPositions L).filter (fun p => decide (qe ≤ p))) := by
  have hcut : ∀ z ∈ zonesOf L, ∀ y ∈ cutZone qs qe z,
      y.tag = z.tag ∧ z.z1 ≤ y.z1 ∧ y.z1 < y.z2 ∧ y.z2 ≤ z.z2 ∧ (qe ≤ y.z1 ∨ y.z2 < qs) := by
    intro z hz y hy
    refine mem_cutZone (h.each z hz).1 ?_ (h.each z hz).2.2 hy
    intro ht
    exact hq.clear z (List.mem_filter.mpr ⟨hz, by simp [ht]⟩)
  have hq1 := hq.pos
  have hq2 := hq.top
  refine ⟨?_, ?_, ?_, ?_, ?_⟩
  · rw [List.pairwise_flatMap]
    refine ⟨fun z _ => pairwise_cutZone qs qe z hq.pos, ?_⟩
    refine h.zones.imp_of_mem ?_
    intro z z' hz hz' hlt y hy y' hy'
    have h1 := hcut z hz y hy
    have h2 := hcut z' hz' y' hy'
    omega
  · intro y hy
    obtain ⟨z, hz, hy⟩ := List.mem_flatMap.mp hy
    have h1 := hcut z hz y hy
    have h2 := h.each z hz
    exact ⟨h1.2.2.1, by omega, by rw [h1.1]; exact h2.2.2⟩
  · rw [List.pairwise_append, List.pairwise_append]
    refine ⟨⟨h.flux.filter _, hs, ?_⟩, h.flux.filter _, ?_⟩
    · intro a ha b hb
      have h1 := (List.mem_filter.mp ha).2
      have h2 := hT b hb
      simp only [decide_eq_true_eq] at h1
      omega
    · intro a ha b hb
      have h2 := (List.mem_filter.mp hb).2
      simp only [decide_eq_true_eq] at h2
      rcases List.mem_append.mp ha with ha | ha
      · have h1 := (List.mem_filter.mp ha).2
        simp only [decide_eq_true_eq] at h1
        omega
      · have := hT a ha
        omega
  · intro f hf
    rw [List.mem_append, List.mem_append] at hf
    rcases hf with (hf | hf) | hf
    · exact h.bound f (List.mem_filter.mp hf).1
    · have := hT f hf; omega
    · exact h.bound f (List.mem_filter.mp hf).1
  · intro y hy f hf
    obtain ⟨z, hz, hy⟩ := List.mem_flatMap.mp hy
    have h1 := hcut z hz y hy
    rw [List.mem_append, List.mem_append] at hf
    rcases hf with (hf | hf) | hf
    · have := h.apart z hz f (List.mem_filter.mp hf).1
      omega
    · have := hT f hf
      omega
    · have := h.apart z hz f (List.mem_filter.mp hf).1
      omega

/-- What `replace` makes of a well-formed track: a well-formed track, its zones and its flux positions. -/
theorem replaceSpan_spec {L : List Word32} {qs qe : Nat} {Tq : List Nat} (hL : wfTrack L = true) (hq : SubSpan L qs qe)
    (hs : Tq.Pairwise (· < ·)) (hT : ∀ t ∈ Tq, qs ≤ t ∧ t < qe) :
    wfTrack (replaceSpan L qs qe Tq) = true
      ∧ zonesOf (replaceSpan L qs qe Tq) = (zonesOf L).flatMap (cutZone qs qe)
      ∧ fluxPositions (replaceSpan L qs qe Tq)
        = (fluxPositions L).filter (fun p => decide (p < qs))
          ++ parityToggle ((fluxPositions L).filter (fun p => decide (qs ≤ p) && decide (p < qe))).length qe Tq
          ++ (fluxPositions L).filter (fun p => decide (qe ≤ p)) := by
  have hv := (view_of_wfTrack hL).replace hq
    (pairwise_parityToggle (old := ((fluxPositions L).filter (fun p => decide (qs ≤ p) && decide (p < qe))).length) hs
      (fun t ht => (hT t ht).2)) (fun t ht => mem_parityToggle hq.pos hT ht)
  exact ⟨wfTrack_encodeTrack hv, zonesOf_encodeTrack hv, fluxPositions_encodeTrack hv⟩

/-- The damaged zones stay. -/
theorem damagedZones_replaceSpan {L : List Word32} {qs qe : Nat} {Tq : List Nat} (hL : wfTrack L = true)
    (hq : SubSpan L qs qe) (hs : Tq.Pairwise (· < ·)) (hT : ∀ t ∈ Tq, qs ≤ t ∧ t < qe) :
    damagedZones (replaceSpan L qs qe Tq) = damagedZones L := by
  unfold damagedZones
  rw [(replaceSpan_spec hL hq hs hT).2.1]
  generalize zonesOf L = Z
  induction Z with
  | nil => rfl
  | cons z Z ih =>
    rw [List.flatMap_cons, List.filter_append, ih]
    unfold cutZone
    by_cases ht : z.tag = .damaged
    · rw [if_neg (by simp [ht])]
      simp [ht]
    · rw [List.filter_cons_of_neg (by simpa using ht)]
      have : (if z.tag = .nonMagnetized ∧ z.z1 < qe ∧ qs ≤ z.z2 then
          (if z.z1 + 1 < qs then [{ z with z2 := qs - 1 }] else []) ++ (if qe < z.z2 then [{ z with z1 := qe }] else [])
          else [z]).filter (fun z => z.tag == .damaged) = [] := by
        rw [List.filter_eq_nil_iff]
        intro y hy
        have hyt : y.tag = z.tag := by
          split at hy
          · rcases List.mem_append.mp hy with hy | hy <;> split at hy
            · rw [List.mem_singleton.mp hy]
            · cases hy
            · rw [List.mem_singleton.mp hy]
            · cases hy
          · rw [List.mem_singleton.mp hy]
        rw [hyt]
        simpa using ht
      rw [this]
      rfl

theorem length_filter_split (F : List Nat) {qs qe : Nat} (h : qs ≤ qe) :
    (F.filter (fun p => decide (p < qs))).length + (F.filter (fun p => decide (qs ≤ p) && decide (p < qe))).length
      + (F.filter (fun p => decide (qe ≤ p))).length = F.length := by
  induction F with
  | nil => rfl
  | cons p F ih =>
    by_cases h1 : p < qs
    · have h2 : ¬ qs ≤ p := by omega
      have h3 : ¬ qe ≤ p := by omega
      simp [h1, h2, h3]
      omega
    · by_cases h2 : p < qe
      · have h4 : qs ≤ p := by omega
        have h3 : ¬ qe ≤ p := by omega
        simp [h1, h2, h3, h4]
        omega
      · have h4 : qs ≤ p := by omega
        have h3 : qe ≤ p := by omega
        simp [h1, h2, h3, h4]
        omega

/-- R125: the number of flux events keeps its parity. -/
theorem parity_replaceSpan {L : List Word32} {qs qe : Nat} {Tq : List Nat} (hL : wfTrack L = true)
    (hq : SubSpan L qs qe) (hs : Tq.Pairwise (· < ·)) (hT : ∀ t ∈ Tq, qs ≤ t ∧ t < qe) :
    (fluxPositions (replaceSpan L qs qe Tq)).length % 2 = (fluxPositions L).length % 2 := by
  rw [(replaceSpan_spec hL hq hs hT).2.2]
  have h1 := length_parityToggle (old := ((fluxPositions L).filter (fun p => decide (qs ≤ p) && decide (p < qe))).length)
    (qe := qe) hs
  have h2 := length_filter_split (fluxPositions L) (le_of_lt hq.pos)
  rw [List.length_append, List.length_append]
  omega

/-! ### The whole write (R119, R120) -/

theorem mem_transitionsIn {sp : Span} {angles : List Int} {qs qe p : Nat} :
    p ∈ transitionsIn sp angles qs qe ↔ qs ≤ p ∧ p < qe ∧ sp.base + p ∈ angles := by
  unfold transitionsIn
  rw [mem_posSet, List.mem_map]
  simp only [List.mem_filter, Bool.and_eq_true, decide_eq_true_eq]
  constructor
  · rintro ⟨u, ⟨hu, h1, h2⟩, rfl⟩
    refine ⟨by omega, by omega, ?_⟩
    rw [show sp.base + ((u - sp.base).toNat : Int) = u by omega]
    exact hu
  · rintro ⟨h1, h2, h3⟩
    exact ⟨sp.base + p, ⟨h3, by omega, by omega⟩, by omega⟩

/-- What a write makes of a track: it stays well-formed, with the same damaged zones and the same parity. -/
structure Kept (L L' : List Word32) : Prop where
  wf : wfTrack L' = true
  damaged : damagedZones L' = damagedZones L
  parity : (fluxPositions L').length % 2 = (fluxPositions L).length % 2

theorem Kept.refl {L : List Word32} (h : wfTrack L = true) : Kept L L := ⟨h, rfl, rfl⟩

theorem Kept.trans {L L' L'' : List Word32} (h : Kept L L') (h' : Kept L' L'') : Kept L L'' :=
  ⟨h'.wf, h'.damaged.trans h.damaged, h'.parity.trans h.parity⟩

/-- One sub-span. -/
theorem replaceSpan_kept {sp : Span} {angles : List Int} {L : List Word32} {qs qe : Nat} (hL : wfTrack L = true)
    (hq : SubSpan L qs qe) : Kept L (replaceSpan L qs qe (transitionsIn sp angles qs qe)) :=
  have hT : ∀ t ∈ transitionsIn sp angles qs qe, qs ≤ t ∧ t < qe :=
    fun _ ht => ⟨(mem_transitionsIn.mp ht).1, (mem_transitionsIn.mp ht).2.1⟩
  ⟨(replaceSpan_spec hL hq (pairwise_posSet _) hT).1, damagedZones_replaceSpan hL hq (pairwise_posSet _) hT,
    parity_replaceSpan hL hq (pairwise_posSet _) hT⟩

/-- Off the sub-span the flux positions stay; in it, but for its last position, they are those written. -/
theorem mem_fluxPositions_replaceSpan {sp : Span} {angles : List Int} {L : List Word32} {qs qe p : Nat}
    (hL : wfTrack L = true) (hq : SubSpan L qs qe) :
    ((p < qs ∨ qe ≤ p) →
        (p ∈ fluxPositions (replaceSpan L qs qe (transitionsIn sp angles qs qe)) ↔ p ∈ fluxPositions L))
      ∧ (qs ≤ p → p + 1 < qe →
        (p ∈ fluxPositions (replaceSpan L qs qe (transitionsIn sp angles qs qe)) ↔ sp.base + p ∈ angles)) := by
  have hT : ∀ t ∈ transitionsIn sp angles qs qe, qs ≤ t ∧ t < qe :=
    fun _ ht => ⟨(mem_transitionsIn.mp ht).1, (mem_transitionsIn.mp ht).2.1⟩
  have hq1 := hq.pos
  have hF := (replaceSpan_spec hL hq (show (transitionsIn sp angles qs qe).Pairwise (· < ·) from pairwise_posSet _) hT).2.2
  rw [hF]
  simp only [List.mem_append, List.mem_filter, decide_eq_true_eq]
  constructor
  · intro hp
    constructor
    · rintro ((h | h) | h)
      · exact h.1
      · have := mem_parityToggle hq.pos hT h
        omega
      · exact h.1
    · intro h
      rcases hp with hp | hp
      · exact .inl (.inl ⟨h, hp⟩)
      · exact .inr ⟨h, hp⟩
  · intro h1 h2
    rw [mem_parityToggle_iff h2, mem_transitionsIn]
    constructor
    · rintro ((h | h) | h)
      · omega
      · exact h.2.2
      · omega
    · intro h
      exact .inl (.inr ⟨h1, by omega, h⟩)

/-- The sub-spans of one span, one after another. -/
theorem foldl_replaceSpan_spec (sp : Span) (angles : List Int) (l : List (Nat × Nat)) (L : List Word32)
    (hL : wfTrack L = true) (hl : ∀ q ∈ l, SubSpan L q.1 q.2) (hd : l.Pairwise (fun a b => a.2 < b.1)) :
    Kept L (l.foldl (fun L q => replaceSpan L q.1 q.2 (transitionsIn sp angles q.1 q.2)) L)
      ∧ ∀ p : Nat, ((∀ q ∈ l, p < q.1 ∨ q.2 ≤ p) →
          (p ∈ fluxPositions (l.foldl (fun L q => replaceSpan L q.1 q.2 (transitionsIn sp angles q.1 q.2)) L)
            ↔ p ∈ fluxPositions L))
        ∧ ∀ q ∈ l, q.1 ≤ p → p + 1 < q.2 →
          (p ∈ fluxPositions (l.foldl (fun L q => replaceSpan L q.1 q.2 (transitionsIn sp angles q.1 q.2)) L)
            ↔ sp.base + p ∈ angles) := by
  induction l generalizing L with
  | nil => exact ⟨Kept.refl hL, fun p => ⟨fun _ => Iff.rfl, by simp⟩⟩
  | cons q l ih =>
    obtain ⟨hd1, hd2⟩ := List.pairwise_cons.mp hd
    have hq := hl q List.mem_cons_self
    have hk := replaceSpan_kept (sp := sp) (angles := angles) hL hq
    have hl' : ∀ q' ∈ l, SubSpan (replaceSpan L q.1 q.2 (transitionsIn sp angles q.1 q.2)) q'.1 q'.2 := by
      intro q' hq'
      have := hl q' (List.mem_cons_of_mem _ hq')
      exact ⟨this.pos, this.top, by rw [hk.damaged]; exact this.clear⟩
    obtain ⟨hk', hm⟩ := ih _ hk.wf hl' hd2
    refine ⟨hk.trans hk', fun p => ⟨?_, ?_⟩⟩
    · intro hp
      rw [List.foldl_cons]
      rw [(hm p).1 (fun q' hq' => hp q' (List.mem_cons_of_mem _ hq'))]
      exact (mem_fluxPositions_replaceSpan hL hq).1 (hp q List.mem_cons_self)
    · intro q' hq' h1 h2
      rw [List.foldl_cons]
      rcases List.mem_cons.mp hq' with rfl | hq'
      · rw [(hm p).1 (fun q'' hq'' => .inl (by have := hd1 q'' hq''; omega))]
        exact (mem_fluxPositions_replaceSpan hL hq).2 h1 h2
      · exact (hm p).2 q' hq' h1 h2

/-- One span of the write. -/
theorem writeSpan_spec (angles : List Int) (L : List Word32) (sp : Span) (hL : wfTrack L = true) (ht : sp.pe ≤ revUnits) :
    Kept L (writeSpan angles L sp)
      ∧ ∀ p : Nat, ((p < sp.ps ∨ sp.pe ≤ p) →
          (p ∈ fluxPositions (writeSpan angles L sp) ↔ p ∈ fluxPositions L))
        ∧ (sp.ps ≤ p → p + 1 < sp.pe →
          (∀ z ∈ damagedZones L, ¬ (z.z1 ≤ p ∧ p ≤ z.z2) ∧ ¬ (z.z1 ≤ p + 1 ∧ p + 1 ≤ z.z2)) →
          (p ∈ fluxPositions (writeSpan angles L sp) ↔ sp.base + p ∈ angles)) := by
  have hord : Ordered (damagedZones L) := (view_of_wfTrack hL).ordered.filter _
  have hl : ∀ q ∈ clip sp.ps sp.pe L, SubSpan L q.1 q.2 := by
    intro q hq
    obtain ⟨h1, h2, h3, h4⟩ := mem_clipZones hord hq
    exact ⟨h2, by omega, h4⟩
  obtain ⟨hk, hm⟩ := foldl_replaceSpan_spec sp angles (clip sp.ps sp.pe L) L hL hl (pairwise_clipZones hord _ _)
  refine ⟨hk, fun p => ⟨?_, ?_⟩⟩
  · intro hp
    refine (hm p).1 fun q hq => ?_
    obtain ⟨h1, h2, h3, -⟩ := mem_clipZones hord hq
    omega
  · intro h1 h2 hz
    obtain ⟨q, hq, hq1, hq2⟩ := exists_clipZones hord (ps := sp.ps) (pe := sp.pe) (p := p) h1 (by omega)
      (fun z hz' => by have := (hz z hz').1; omega)
    obtain ⟨q', hq', hq1', hq2'⟩ := exists_clipZones hord (ps := sp.ps) (pe := sp.pe) (p := p + 1) (by omega) h2
      (fun z hz' => by have := (hz z hz').2; omega)
    have hlast : p + 1 < q.2 := by
      by_contra hc
      have hne : q ≠ q' := fun he => by subst he; omega
      have hp := pairwise_clipZones hord sp.ps sp.pe
      rcases apart_of_pairwise hp hq hq' hne with h | h <;> omega
    exact (hm p).2 q hq hq1 hlast

/-- The whole write, from the angle `a` to the angle `b`, position by position. -/
theorem writeSpans_spec (angles : List Int) (a b : Int) (L : List Word32) (hL : wfTrack L = true) (hab : a ≤ b)
    (hrev : b - a ≤ revUnits) :
    Kept L (writeSpans angles a b L)
      ∧ ∀ (p : Nat) (u : Int), p < revUnits → a ≤ u → u < a + revUnits → u % revUnits = p →
        (b ≤ u → (p ∈ fluxPositions (writeSpans angles a b L) ↔ p ∈ fluxPositions L))
          ∧ (u + 1 < b → p + 1 < revUnits →
            (∀ z ∈ damagedZones L, ¬ (z.z1 ≤ p ∧ p ≤ z.z2) ∧ ¬ (z.z1 ≤ p + 1 ∧ p + 1 ≤ z.z2)) →
            (p ∈ fluxPositions (writeSpans angles a b L) ↔ u ∈ angles)) := by
  have hu : (0 : Int) < revUnits := by decide
  have ha := Int.mul_ediv_add_emod a revUnits
  have hm1 := Int.emod_nonneg a (ne_of_gt hu)
  have hm2 := Int.emod_lt_of_pos a hu
  -- the turn that `u` is in
  have hturn : ∀ (p : Nat) (u : Int), p < revUnits → a ≤ u → u < a + revUnits → u % revUnits = p →
      (u = a / revUnits * revUnits + p ∧ a % revUnits ≤ p)
        ∨ (u = a / revUnits * revUnits + revUnits + p ∧ (p : Int) < a % revUnits) := by
    intro p u hp h1 h2 h3
    have hq := Int.mul_ediv_add_emod u revUnits
    rw [h3] at hq
    have hk : u / revUnits = a / revUnits ∨ u / revUnits = a / revUnits + 1 := by
      have hle : a / revUnits ≤ u / revUnits := Int.ediv_le_ediv hu h1
      have hle2 : u / revUnits ≤ (a + revUnits) / revUnits := Int.ediv_le_ediv hu h2.le
      rw [Int.add_ediv_of_dvd_right (dvd_refl _), Int.ediv_self (ne_of_gt hu)] at hle2
      omega
    have hc : (revUnits : Int) * (a / revUnits + 1) = revUnits * (a / revUnits) + revUnits := by ring
    have hc2 : a / revUnits * (revUnits : Int) = revUnits * (a / revUnits) := by ring
    rcases hk with hk | hk
    · left; rw [hk] at hq; omega
    · right; rw [hk, hc] at hq; omega
  have hc2 : a / revUnits * (revUnits : Int) = revUnits * (a / revUnits) := by ring
  unfold writeSpans splitSpans
  simp only
  split
  · rename_i hb
    simp only [List.foldl_cons, List.foldl_nil]
    obtain ⟨hk, hm⟩ := writeSpan_spec angles L
      { base := a / revUnits * revUnits, ps := (a % revUnits).toNat, pe := (a % revUnits).toNat + (b - a).toNat } hL
      (by simp only; omega)
    refine ⟨hk, fun p u hp h1 h2 h3 => ⟨fun hb' => ?_, fun hb' hp' hz => ?_⟩⟩
    · refine (hm p).1 ?_
      rcases hturn p u hp h1 h2 h3 with h | h
      · right; simp only; omega
      · left; simp only; omega
    · rcases hturn p u hp h1 h2 h3 with h | h
      · rw [h.1]
        exact (hm p).2 (by simp only; omega) (by simp only; omega) hz
      · exfalso; omega
  · rename_i hb
    simp only [List.foldl_cons, List.foldl_nil]
    obtain ⟨hk, hm⟩ := writeSpan_spec angles L
      { base := a / revUnits * revUnits, ps := (a % revUnits).toNat, pe := revUnits } hL (le_refl _)
    obtain ⟨hk', hm'⟩ := writeSpan_spec angles (writeSpan angles L
        { base := a / revUnits * revUnits, ps := (a % revUnits).toNat, pe := revUnits })
      { base := a / revUnits * revUnits + revUnits, ps := 0, pe := (b - (a / revUnits * revUnits + revUnits)).toNat } hk.wf
      (by simp only; omega)
    refine ⟨hk.trans hk', fun p u hp h1 h2 h3 => ⟨fun hb' => ?_, fun hb' hp' hz => ?_⟩⟩
    · rcases hturn p u hp h1 h2 h3 with h | h
      · exfalso; omega
      · rw [(hm' p).1 (by right; simp only; omega)]
        exact (hm p).1 (by left; simp only; omega)
    · rcases hturn p u hp h1 h2 h3 with h | h
      · rw [(hm' p).1 (by right; simp only; omega), h.1]
        exact (hm p).2 (by simp only; omega) hp' hz
      · rw [h.1]
        exact (hm' p).2 (by simp only; omega) (by simp only; omega) (by rw [hk.damaged]; exact hz)

/-! ### Sub-spans, their last positions, and cut zones, from the outside -/

/-- A maximal part of the span off the zones is a sub-span. -/
theorem clipZones_maximal {Z : List Zone} (h : Ordered Z) {ps pe x y : Nat} (h1 : ps ≤ x) (h2 : x < y) (h3 : y ≤ pe)
    (hoff : ∀ q : Nat, x ≤ q → q < y → ∀ z ∈ Z, q < z.z1 ∨ z.z2 < q) (hx : x = ps ∨ ∃ z ∈ Z, z.z1 < x ∧ x ≤ z.z2 + 1)
    (hy : y = pe ∨ ∃ z ∈ Z, z.z1 ≤ y ∧ y ≤ z.z2) : (x, y) ∈ clipZones Z ps pe := by
  obtain ⟨q, hq, hq1, hq2⟩ := exists_clipZones h (ps := ps) (pe := pe) (p := x) h1 (by omega) (hoff x (le_refl _) h2)
  obtain ⟨g1, g2, g3, g4⟩ := mem_clipZones h hq
  have e1 : q.1 = x := by
    rcases hx with hx | ⟨z, hz, hz1, hz2⟩
    · omega
    · have := g4 z hz
      omega
  have e2 : q.2 = y := by
    by_contra hne
    rcases Nat.lt_or_gt_of_ne hne with hlt | hgt
    · obtain ⟨r, hr, hr1, hr2⟩ := exists_clipZones h (ps := ps) (pe := pe) (p := q.2) (by omega) (by omega)
        (hoff q.2 (by omega) hlt)
      have hqr : q ≠ r := fun he => by subst he; omega
      rcases apart_of_pairwise (pairwise_clipZones h ps pe) hq hr hqr with h' | h' <;> omega
    · rcases hy with hy | ⟨z, hz, hz1, hz2⟩
      · omega
      · have := g4 z hz
        omega
  rw [← e1, ← e2]
  exact hq

/-- R123 at the last position of the sub-span. -/
theorem mem_parityToggle_last {old qe : Nat} {Tq : List Nat} :
    qe - 1 ∈ parityToggle old qe Tq ↔ (qe - 1 ∈ Tq ↔ (old + Tq.length) % 2 = 0) := by
  unfold parityToggle
  split
  · rename_i h
    simp [h]
  · rename_i h
    split
    · rename_i hm
      simp [h, hm]
    · rename_i hm
      simp [h, hm]

/-- Two sets with the members of rising lists have their lengths. -/
theorem card_eq_length {l : List Nat} {s : Finset Nat} (hl : l.Pairwise (· < ·)) (h : ∀ x : Nat, x ∈ s ↔ x ∈ l) : s.card = l.length := by
  have : s = l.toFinset := by ext x; simp [h]
  rw [this, List.toFinset_card_of_nodup (hl.imp (fun hab => ne_of_lt hab))]

/-- The last position of the sub-span, by the numbers of transitions that it held and that it gets. -/
theorem last_mem_fluxPositions_replaceSpan {sp : Span} {angles : List Int} {L : List Word32} {qs qe p : Nat}
    (hL : wfTrack L = true) (hq : SubSpan L qs qe) (hp : p + 1 = qe) {old new : Finset Nat}
    (ho : ∀ x : Nat, x ∈ old ↔ qs ≤ x ∧ x < qe ∧ x ∈ fluxPositions L)
    (hn : ∀ x : Nat, x ∈ new ↔ qs ≤ x ∧ x < qe ∧ sp.base + x ∈ angles) :
    p ∈ fluxPositions (replaceSpan L qs qe (transitionsIn sp angles qs qe))
      ↔ (sp.base + p ∈ angles ↔ (old.card + new.card) % 2 = 0) := by
  have hT : ∀ t ∈ transitionsIn sp angles qs qe, qs ≤ t ∧ t < qe :=
    fun _ ht => ⟨(mem_transitionsIn.mp ht).1, (mem_transitionsIn.mp ht).2.1⟩
  have hs : (transitionsIn sp angles qs qe).Pairwise (· < ·) := pairwise_posSet _
  have hq1 := hq.pos
  have hv := view_of_wfTrack hL
  have hco : old.card = ((fluxPositions L).filter (fun p => decide (qs ≤ p) && decide (p < qe))).length :=
    card_eq_length (hv.flux.filter _) (fun x => by rw [ho]; simp; tauto)
  have hcn : new.card = (transitionsIn sp angles qs qe).length := card_eq_length hs (fun x => by rw [hn, mem_transitionsIn])
  have hl := mem_parityToggle_last (old := ((fluxPositions L).filter (fun p => decide (qs ≤ p) && decide (p < qe))).length)
    (qe := qe) (Tq := transitionsIn sp angles qs qe)
  rw [mem_transitionsIn] at hl
  obtain rfl : p = qe - 1 := by omega
  rw [(replaceSpan_spec hL hq hs hT).2.2]
  simp only [List.mem_append, List.mem_filter, decide_eq_true_eq]
  rw [hl, hco, hcn]
  constructor
  · rintro ((h | h) | h)
    · omega
    · exact ⟨fun hm => h.mp ⟨by omega, by omega, hm⟩, fun hm => (h.mpr hm).2.2⟩
    · omega
  · intro h
    exact .inl (.inr ⟨fun hm => h.mp hm.2.2, fun hm => ⟨by omega, by omega, h.mpr hm⟩⟩)

/-! ### Zones cut by a set of positions (R122) -/

/-- The non-magnetized zones of `Z'` are the pieces, of two positions or more, that those of `Z` leave outside the positions `W`. -/
def CutBy (W : Nat → Prop) (Z Z' : List Zone) : Prop :=
  ∀ x y : Nat, (∃ z ∈ Z', z.tag = .nonMagnetized ∧ z.z1 = x ∧ z.z2 = y) ↔
    x < y ∧ ∃ z ∈ Z, z.tag = .nonMagnetized ∧ z.z1 ≤ x ∧ y ≤ z.z2 ∧ (x = z.z1 ∨ W (x - 1)) ∧ (y = z.z2 ∨ W (y + 1))
      ∧ ∀ q : Nat, x ≤ q → q ≤ y → ¬ W q

/-- Nothing cut. -/
theorem CutBy.none {Z : List Zone} (h : ∀ z ∈ Z, z.z1 < z.z2) : CutBy (fun _ => False) Z Z := by
  intro x y
  constructor
  · rintro ⟨z, hz, ht, rfl, rfl⟩
    exact ⟨h z hz, z, hz, ht, le_refl _, le_refl _, .inl rfl, .inl rfl, fun _ _ _ h => h⟩
  · rintro ⟨-, z, hz, ht, -, -, h1, h2, -⟩
    exact ⟨z, hz, ht, (h1.resolve_right id).symm, (h2.resolve_right id).symm⟩

/-- One sub-span cut out. -/
theorem CutBy.cutZone {Z : List Zone} (h : ∀ z ∈ Z, z.z1 < z.z2) {qs qe : Nat} (hq : qs < qe) :
    CutBy (fun q => qs ≤ q ∧ q < qe) Z (Z.flatMap (cutZone qs qe)) := by
  intro x y
  constructor
  · rintro ⟨z', hz', ht, rfl, rfl⟩
    obtain ⟨z, hz, hm⟩ := List.mem_flatMap.mp hz'
    have hzz := h z hz
    unfold Machine.cutZone at hm
    split at hm
    · rename_i hc
      rcases List.mem_append.mp hm with hm | hm
      · split at hm
        · obtain rfl := List.mem_singleton.mp hm
          refine ⟨by simp only; omega, z, hz, ht, le_refl _, by simp only; omega, .inl rfl, .inr ⟨by simp only; omega, by simp only; omega⟩, ?_⟩
          simp only
          omega
        · cases hm
      · split at hm
        · obtain rfl := List.mem_singleton.mp hm
          refine ⟨by simp only; omega, z, hz, ht, by simp only; omega, le_refl _, .inr ⟨by simp only; omega, by simp only; omega⟩, .inl rfl, ?_⟩
          simp only
          omega
        · cases hm
    · rename_i hc
      obtain rfl := List.mem_singleton.mp hm
      refine ⟨hzz, z', hz, ht, le_refl _, le_refl _, .inl rfl, .inl rfl, ?_⟩
      intro q h1 h2 h3
      exact hc ⟨ht, by omega, by omega⟩
  · rintro ⟨hxy, z, hz, ht, h1, h2, h3, h4, h5⟩
    have hx5 := h5 x (le_refl _) (by omega)
    have hy5 := h5 y (by omega) (le_refl _)
    have hq5 := h5 qs
    by_cases hc : z.z1 < qe ∧ qs ≤ z.z2
    · by_cases hleft : y < qs
      · refine ⟨{ z with z2 := qs - 1 }, List.mem_flatMap.mpr ⟨z, hz, ?_⟩, ht, ?_, ?_⟩
        · unfold Machine.cutZone
          rw [if_pos ⟨ht, hc⟩, if_pos (by omega)]
          simp
        · simp only; omega
        · simp only; omega
      · refine ⟨{ z with z1 := qe }, List.mem_flatMap.mpr ⟨z, hz, ?_⟩, ht, ?_, ?_⟩
        · unfold Machine.cutZone
          rw [if_pos ⟨ht, hc⟩, if_pos (show qe < z.z2 by omega)]
          simp
        · simp only; omega
        · simp only; omega
    · refine ⟨z, List.mem_flatMap.mpr ⟨z, hz, ?_⟩, ht, ?_, ?_⟩
      · unfold Machine.cutZone
        rw [if_neg (fun h => hc h.2)]
        simp
      · omega
      · omega

/-- The lowest place from which everything up to `x` is outside `W`. -/
theorem exists_low {W : Nat → Prop} {a x y : Nat} (ha : a ≤ x) (h : ∀ q : Nat, x ≤ q → q ≤ y → ¬ W q) :
    ∃ x' : Nat, a ≤ x' ∧ x' ≤ x ∧ (x' = a ∨ W (x' - 1)) ∧ ∀ q : Nat, x' ≤ q → q ≤ y → ¬ W q := by
  obtain ⟨n, rfl⟩ := Nat.exists_eq_add_of_le ha
  induction n with
  | zero => exact ⟨a, le_refl _, le_refl _, .inl rfl, h⟩
  | succ n ih =>
    by_cases hw : W (a + n)
    · exact ⟨a + (n + 1), by omega, le_refl _, .inr hw, h⟩
    · obtain ⟨x', h1, h2, h3, h4⟩ := ih (by omega) (fun q hq1 hq2 => by
        by_cases he : q = a + n
        · exact he ▸ hw
        · exact h q (by omega) hq2)
      exact ⟨x', h1, by omega, h3, h4⟩

/-- The highest place up to which everything from `x` on is outside `W`. -/
theorem exists_high {W : Nat → Prop} {x y b : Nat} (hb : y ≤ b) (h : ∀ q : Nat, x ≤ q → q ≤ y → ¬ W q) :
    ∃ y' : Nat, y ≤ y' ∧ y' ≤ b ∧ (y' = b ∨ W (y' + 1)) ∧ ∀ q : Nat, x ≤ q → q ≤ y' → ¬ W q := by
  obtain ⟨n, rfl⟩ := Nat.exists_eq_add_of_le hb
  induction n generalizing y with
  | zero => exact ⟨y, le_refl _, le_refl _, .inl rfl, h⟩
  | succ n ih =>
    by_cases hw : W (y + 1)
    · exact ⟨y, le_refl _, hb, .inr hw, h⟩
    · obtain ⟨y', h1, h2, h3, h4⟩ := ih (y := y + 1) (fun q hq1 hq2 => by
        rcases Nat.lt_or_ge y q with he | he
        · rwa [show q = y + 1 by omega]
        · exact h q hq1 he) (by omega)
      exact ⟨y', by omega, by omega, by rw [show y + (n + 1) = y + 1 + n by ring]; exact h3, h4⟩

/-- One cut after another. -/
theorem CutBy.trans {W W' : Nat → Prop} {Z Z' Z'' : List Zone} (h : CutBy W Z Z') (h' : CutBy W' Z' Z'') :
    CutBy (fun q => W q ∨ W' q) Z Z'' := by
  intro x y
  rw [h' x y]
  constructor
  · rintro ⟨hxy, z', hz', ht', h1, h2, h3, h4, h5⟩
    obtain ⟨g0, z, hz, ht, g1, g2, g3, g4, g5⟩ := (h z'.z1 z'.z2).mp ⟨z', hz', ht', rfl, rfl⟩
    refine ⟨hxy, z, hz, ht, by omega, by omega, ?_, ?_, ?_⟩
    · rcases h3 with rfl | h3
      · exact g3.imp id .inl
      · exact .inr (.inr h3)
    · rcases h4 with rfl | h4
      · exact g4.imp id .inl
      · exact .inr (.inr h4)
    · rintro q hq1 hq2 (hw | hw)
      · exact g5 q (by omega) (by omega) hw
      · exact h5 q hq1 hq2 hw
  · rintro ⟨hxy, z, hz, ht, h1, h2, h3, h4, h5⟩
    obtain ⟨x', a1, a2, a3, a4⟩ := exists_low (W := W) h1 (fun q hq1 hq2 hw => h5 q hq1 hq2 (.inl hw))
    obtain ⟨y', b1, b2, b3, b4⟩ := exists_high (W := W) h2 a4
    obtain ⟨z', hz', ht', rfl, rfl⟩ := (h x' y').mpr ⟨by omega, z, hz, ht, a1, b2, a3, b3, b4⟩
    refine ⟨hxy, z', hz', ht', a2, b1, ?_, ?_, fun q hq1 hq2 hw => h5 q hq1 hq2 (.inr hw)⟩
    · by_cases he : x = z'.z1
      · exact .inl he
      · rcases h3 with h3 | h3 | h3
        · omega
        · exact absurd h3 (b4 (x - 1) (by omega) (by omega))
        · exact .inr h3
    · by_cases he : y = z'.z2
      · exact .inl he
      · rcases h4 with h4 | h4 | h4
        · omega
        · exact absurd h4 (b4 (y + 1) (by omega) (by omega))
        · exact .inr h4

/-- Only the positions of the zones count. -/
theorem CutBy.congr {W W' : Nat → Prop} {Z Z' : List Zone} (h : CutBy W Z Z')
    (hw : ∀ z ∈ Z, z.tag = .nonMagnetized → ∀ q : Nat, z.z1 ≤ q → q ≤ z.z2 → (W q ↔ W' q)) : CutBy W' Z Z' := by
  intro x y
  rw [h x y]
  refine and_congr_right fun hxy => exists_congr fun z => and_congr_right fun hz => and_congr_right fun ht => and_congr_right fun h1 =>
    and_congr_right fun h2 => ?_
  have e1 : (x = z.z1 ∨ W (x - 1)) ↔ (x = z.z1 ∨ W' (x - 1)) := by
    by_cases he : x = z.z1
    · simp [he]
    · rw [hw z hz ht (x - 1) (by omega) (by omega)]
  have e2 : (y = z.z2 ∨ W (y + 1)) ↔ (y = z.z2 ∨ W' (y + 1)) := by
    by_cases he : y = z.z2
    · simp [he]
    · rw [hw z hz ht (y + 1) (by omega) (by omega)]
  rw [e1, e2]
  refine and_congr_right fun _ => and_congr_right fun _ => forall_congr' fun q => forall_congr' fun hq1 => forall_congr' fun hq2 => ?_
  rw [hw z hz ht q (by omega) (by omega)]

/-! ### The last positions and the zones of the whole write -/

theorem foldl_replaceSpan_last (sp : Span) (angles : List Int) (l : List (Nat × Nat)) (L : List Word32)
    (hL : wfTrack L = true) (hl : ∀ q ∈ l, SubSpan L q.1 q.2) (hd : l.Pairwise (fun a b => a.2 < b.1)) {q : Nat × Nat} (hq : q ∈ l)
    {p : Nat} (hp : p + 1 = q.2) {old new : Finset Nat} (ho : ∀ x : Nat, x ∈ old ↔ q.1 ≤ x ∧ x < q.2 ∧ x ∈ fluxPositions L)
    (hn : ∀ x : Nat, x ∈ new ↔ q.1 ≤ x ∧ x < q.2 ∧ sp.base + x ∈ angles) :
    p ∈ fluxPositions (l.foldl (fun L q => replaceSpan L q.1 q.2 (transitionsIn sp angles q.1 q.2)) L)
      ↔ (sp.base + p ∈ angles ↔ (old.card + new.card) % 2 = 0) := by
  induction l generalizing L with
  | nil => cases hq
  | cons a l ih =>
    obtain ⟨hd1, hd2⟩ := List.pairwise_cons.mp hd
    have ha := hl a List.mem_cons_self
    have hk := replaceSpan_kept (sp := sp) (angles := angles) hL ha
    have hl' : ∀ q' ∈ l, SubSpan (replaceSpan L a.1 a.2 (transitionsIn sp angles a.1 a.2)) q'.1 q'.2 := by
      intro q' hq'
      have := hl q' (List.mem_cons_of_mem _ hq')
      exact ⟨this.pos, this.top, by rw [hk.damaged]; exact this.clear⟩
    rw [List.foldl_cons]
    rcases List.mem_cons.mp hq with rfl | hq'
    · rw [((foldl_replaceSpan_spec sp angles l _ hk.wf hl' hd2).2 p).1 (fun q'' hq'' => .inl (by have := hd1 q'' hq''; omega))]
      exact last_mem_fluxPositions_replaceSpan hL ha hp ho hn
    · refine ih _ hk.wf hl' hd2 hq' fun x => ?_
      rw [ho]
      have h1 := hd1 q hq'
      refine and_congr_right fun hx => and_congr_right fun _ => ?_
      exact ((mem_fluxPositions_replaceSpan hL ha).1 (.inr (by omega))).symm

theorem foldl_replaceSpan_cut (sp : Span) (angles : List Int) (l : List (Nat × Nat)) (L : List Word32)
    (hL : wfTrack L = true) (hl : ∀ q ∈ l, SubSpan L q.1 q.2) :
    CutBy (fun x => ∃ q ∈ l, q.1 ≤ x ∧ x < q.2) (zonesOf L)
      (zonesOf (l.foldl (fun L q => replaceSpan L q.1 q.2 (transitionsIn sp angles q.1 q.2)) L)) := by
  induction l generalizing L with
  | nil => exact (CutBy.none fun z hz => ((view_of_wfTrack hL).each z hz).1).congr (by simp)
  | cons a l ih =>
    have ha := hl a List.mem_cons_self
    have hk := replaceSpan_kept (sp := sp) (angles := angles) hL ha
    have hl' : ∀ q' ∈ l, SubSpan (replaceSpan L a.1 a.2 (transitionsIn sp angles a.1 a.2)) q'.1 q'.2 := by
      intro q' hq'
      have := hl q' (List.mem_cons_of_mem _ hq')
      exact ⟨this.pos, this.top, by rw [hk.damaged]; exact this.clear⟩
    have hT : ∀ t ∈ transitionsIn sp angles a.1 a.2, a.1 ≤ t ∧ t < a.2 :=
      fun _ ht => ⟨(mem_transitionsIn.mp ht).1, (mem_transitionsIn.mp ht).2.1⟩
    have h1 : CutBy (fun x => a.1 ≤ x ∧ x < a.2) (zonesOf L) (zonesOf (replaceSpan L a.1 a.2 (transitionsIn sp angles a.1 a.2))) := by
      rw [(replaceSpan_spec hL ha (show (transitionsIn sp angles a.1 a.2).Pairwise (· < ·) from pairwise_posSet _) hT).2.1]
      exact CutBy.cutZone (fun z hz => ((view_of_wfTrack hL).each z hz).1) ha.pos
    rw [List.foldl_cons]
    exact (h1.trans (ih _ hk.wf hl')).congr fun z _ _ q _ _ => by simp

/-- Two zones of a track with different tags lie apart. -/
theorem zones_apart {L : List Word32} (hL : wfTrack L = true) {z y : Zone} (hz : z ∈ zonesOf L) (hy : y ∈ damagedZones L)
    (ht : z.tag = .nonMagnetized) : z.z2 < y.z1 ∨ y.z2 < z.z1 := by
  have hv := (view_of_wfTrack hL).zones
  obtain ⟨hy, hyt⟩ := List.mem_filter.mp hy
  have hne : z ≠ y := by
    rintro rfl
    simp [ht] at hyt
  generalize zonesOf L = Z at *
  induction Z with
  | nil => cases hz
  | cons a Z ih =>
    obtain ⟨h1, h2⟩ := List.pairwise_cons.mp hv
    rcases List.mem_cons.mp hz with rfl | hz' <;> rcases List.mem_cons.mp hy with rfl | hy'
    · exact absurd rfl hne
    · exact .inl (h1 y hy')
    · exact .inr (h1 z hz')
    · exact ih hz' h2 hy'

/-- One span of the write: its sub-span from `q` to its last position `p`, and the zones. -/
theorem writeSpan_last (angles : List Int) (L : List Word32) (sp : Span) (hL : wfTrack L = true) (ht : sp.pe ≤ revUnits) {q p : Nat}
    (h1 : sp.ps ≤ q) (h2 : q ≤ p) (h3 : p < sp.pe)
    (hoff : ∀ x : Nat, q ≤ x → x ≤ p → ¬ ∃ z ∈ damagedZones L, z.z1 ≤ x ∧ x ≤ z.z2)
    (hq : q = sp.ps ∨ 0 < q ∧ ∃ z ∈ damagedZones L, z.z1 ≤ q - 1 ∧ q - 1 ≤ z.z2)
    (hp : p + 1 = sp.pe ∨ ∃ z ∈ damagedZones L, z.z1 ≤ p + 1 ∧ p + 1 ≤ z.z2) {old new : Finset Nat}
    (ho : ∀ x : Nat, x ∈ old ↔ q ≤ x ∧ x ≤ p ∧ x ∈ fluxPositions L)
    (hn : ∀ x : Nat, x ∈ new ↔ q ≤ x ∧ x ≤ p ∧ sp.base + x ∈ angles) :
    p ∈ fluxPositions (writeSpan angles L sp) ↔ (sp.base + p ∈ angles ↔ (old.card + new.card) % 2 = 0) := by
  have hord : Ordered (damagedZones L) := (view_of_wfTrack hL).ordered.filter _
  have hm : (q, p + 1) ∈ clip sp.ps sp.pe L := by
    refine clipZones_maximal hord h1 (by omega) (by omega) ?_ (hq.imp id ?_) (hp.imp id id)
    · intro x hx1 hx2 z hz
      have := hoff x hx1 (by omega)
      by_contra hc
      exact this ⟨z, hz, by omega, by omega⟩
    · rintro ⟨h0, z, hz, hz1, hz2⟩
      exact ⟨z, hz, by omega, by omega⟩
  refine foldl_replaceSpan_last sp angles (clip sp.ps sp.pe L) L hL ?_ (pairwise_clipZones hord _ _) hm rfl ?_ ?_
  · intro q hq
    obtain ⟨h1, h2, h3, h4⟩ := mem_clipZones hord hq
    exact ⟨h2, by omega, h4⟩
  · intro x
    rw [ho, Nat.lt_succ_iff]
  · intro x
    rw [hn, Nat.lt_succ_iff]

theorem writeSpan_cut (angles : List Int) (L : List Word32) (sp : Span) (hL : wfTrack L = true) (ht : sp.pe ≤ revUnits) :
    CutBy (fun x => sp.ps ≤ x ∧ x < sp.pe) (zonesOf L) (zonesOf (writeSpan angles L sp)) := by
  have hord : Ordered (damagedZones L) := (view_of_wfTrack hL).ordered.filter _
  refine (foldl_replaceSpan_cut sp angles (clip sp.ps sp.pe L) L hL ?_).congr ?_
  · intro q hq
    obtain ⟨h1, h2, h3, h4⟩ := mem_clipZones hord hq
    exact ⟨h2, by omega, h4⟩
  · intro z hz htag x hx1 hx2
    constructor
    · rintro ⟨q, hq, h1, h2⟩
      obtain ⟨g1, g2, g3, -⟩ := mem_clipZones hord hq
      omega
    · rintro ⟨h1, h2⟩
      obtain ⟨q, hq, h3, h4⟩ := exists_clipZones hord (ps := sp.ps) (pe := sp.pe) h1 h2 (fun y hy => by
        have := zones_apart hL hz hy htag
        omega)
      exact ⟨q, hq, h3, h4⟩

/-- The one or two spans of a write of at most one revolution, with what each means in angles (R120). -/
theorem splitSpans_cases (a b : Int) (hab : a ≤ b) (hrev : b - a ≤ revUnits) :
    (∃ sp : Span, splitSpans a b = [sp] ∧ sp.pe ≤ revUnits
      ∧ (sp.ps : Int) = a - sp.base ∧ (sp.pe : Int) = b - sp.base ∧ sp.base % revUnits = 0)
    ∨ ∃ sp sp' : Span, splitSpans a b = [sp, sp'] ∧ sp.pe = revUnits ∧ sp'.ps = 0 ∧ sp'.pe ≤ sp.ps ∧ sp.ps < revUnits ∧ 0 < sp'.pe
      ∧ (sp.ps : Int) = a - sp.base ∧ (sp'.pe : Int) = b - sp'.base ∧ sp'.base = sp.base + revUnits ∧ sp.base % revUnits = 0 := by
  have hu : (0 : Int) < revUnits := by decide
  have ha := Int.mul_ediv_add_emod a revUnits
  have hm1 := Int.emod_nonneg a (ne_of_gt hu)
  have hm2 := Int.emod_lt_of_pos a hu
  have hc2 : a / revUnits * (revUnits : Int) = revUnits * (a / revUnits) := by ring
  unfold splitSpans
  simp only
  split
  · exact .inl ⟨_, rfl, by simp only; omega, by simp only; omega, by simp only; omega, by simp⟩
  · exact .inr ⟨_, _, rfl, rfl, rfl, by simp only; omega, by simp only; omega, by simp only; omega, by simp only; omega,
      by simp only; omega, rfl, by simp⟩

/-- The zones after the whole write. -/
theorem writeSpans_cut (angles : List Int) (a b : Int) (L : List Word32) (hL : wfTrack L = true) (hab : a ≤ b)
    (hrev : b - a ≤ revUnits) :
    CutBy (fun x => ∃ v : Int, a ≤ v ∧ v < b ∧ v % revUnits = x) (zonesOf L) (zonesOf (writeSpans angles a b L)) := by
  have hu : (0 : Int) < revUnits := by decide
  have hbound : ∀ z ∈ zonesOf L, z.z2 < revUnits := fun z hz => ((view_of_wfTrack hL).each z hz).2.1
  have hmod : ∀ (base : Int) (x : Nat), base % revUnits = 0 → x < revUnits → (base + x) % revUnits = x := by
    intro base x hb hx
    rw [Int.add_emod, hb, zero_add, Int.emod_emod_of_dvd _ (dvd_refl _), Int.emod_eq_of_lt (by omega) (by omega)]
  have hdiv : ∀ (base v : Int) (x : Nat), base % revUnits = 0 → v % revUnits = x →
      v = revUnits * (v / revUnits) + x ∧ base = revUnits * (base / revUnits) := by
    intro base v x hb hv
    have h1 := Int.mul_ediv_add_emod v revUnits
    have h2 := Int.mul_ediv_add_emod base revUnits
    omega
  unfold writeSpans
  rcases splitSpans_cases a b hab hrev with ⟨sp, he, h1, h2, h3, h4⟩ | ⟨sp, sp', he, h1, h2, h3, h4, h5, h6, h7, h8, h9⟩
  · rw [he]
    refine (writeSpan_cut angles L sp hL h1).congr ?_
    intro z hz ht x hx1 hx2
    have hb := hbound z hz
    constructor
    · rintro ⟨g1, g2⟩
      exact ⟨sp.base + x, by omega, by omega, hmod _ _ h4 (by omega)⟩
    · rintro ⟨v, g1, g2, g3⟩
      obtain ⟨e1, e2⟩ := hdiv sp.base v x h4 g3
      generalize v / (revUnits : Int) = k at e1
      generalize sp.base / (revUnits : Int) = m at e2
      have hk : k = m := by
        by_contra hne
        rcases Int.lt_or_gt_of_ne hne with h | h
        · have := Int.mul_le_mul_of_nonneg_left (show k + 1 ≤ m by omega) hu.le
          rw [mul_add] at this
          omega
        · have := Int.mul_le_mul_of_nonneg_left (show m + 1 ≤ k by omega) hu.le
          rw [mul_add] at this
          omega
      subst hk
      omega
  · rw [he]
    have hk := writeSpan_spec angles L sp hL (by omega)
    refine ((writeSpan_cut angles L sp hL (by omega)).trans (writeSpan_cut angles _ sp' hk.1.wf (by omega))).congr ?_
    intro z hz ht x hx1 hx2
    have hb := hbound z hz
    constructor
    · rintro (⟨g1, g2⟩ | ⟨g1, g2⟩)
      · exact ⟨sp.base + x, by omega, by omega, hmod _ _ h9 (by omega)⟩
      · exact ⟨sp'.base + x, by omega, by omega, hmod _ _ (by rw [h8, Int.add_emod, h9]; simp) (by omega)⟩
    · rintro ⟨v, g1, g2, g3⟩
      obtain ⟨e1, e2⟩ := hdiv sp.base v x h9 g3
      generalize v / (revUnits : Int) = k at e1
      generalize sp.base / (revUnits : Int) = m at e2
      have hk : k = m ∨ k = m + 1 := by
        by_contra hne
        rcases lt_or_ge k m with h | h
        · have := Int.mul_le_mul_of_nonneg_left (show k + 1 ≤ m by omega) hu.le
          rw [mul_add] at this
          omega
        · have := Int.mul_le_mul_of_nonneg_left (show m + 2 ≤ k by omega) hu.le
          rw [mul_add] at this
          omega
      rcases hk with rfl | rfl
      · omega
      · rw [mul_add] at e1
        omega

/-- The last position of a sub-span of the whole write, by the numbers of transitions that the sub-span held and gets. -/
theorem writeSpans_last (angles : List Int) (a b : Int) (L : List Word32) (hL : wfTrack L = true) (hab : a ≤ b)
    (hrev : b - a ≤ revUnits) {q p : Nat} {u : Int} (hpr : p < revUnits) (h1 : a ≤ u) (h2 : u < b) (h3 : u % revUnits = p)
    (hp : u + 1 = b ∨ p + 1 = revUnits ∨ ∃ z ∈ damagedZones L, z.z1 ≤ p + 1 ∧ p + 1 ≤ z.z2)
    (hqp : q ≤ p) (hqa : (p : Int) - q ≤ u - a)
    (hoff : ∀ x : Nat, q ≤ x → x ≤ p → ¬ ∃ z ∈ damagedZones L, z.z1 ≤ x ∧ x ≤ z.z2)
    (hq : q = 0 ∨ (p : Int) - q = u - a ∨ ∃ z ∈ damagedZones L, z.z1 ≤ q - 1 ∧ q - 1 ≤ z.z2) {old new : Finset Nat}
    (ho : ∀ x : Nat, x ∈ old ↔ q ≤ x ∧ x ≤ p ∧ x ∈ fluxPositions L)
    (hn : ∀ x : Nat, x ∈ new ↔ q ≤ x ∧ x ≤ p ∧ u - p + x ∈ angles) :
    p ∈ fluxPositions (writeSpans angles a b L) ↔ (u ∈ angles ↔ (old.card + new.card) % 2 = 0) := by
  have hu : (0 : Int) < revUnits := by decide
  have hdiv : ∀ base : Int, base % revUnits = 0 →
      ∃ k m : Int, u = revUnits * k + p ∧ base = revUnits * m ∧ (k < m → revUnits * k + revUnits ≤ revUnits * m)
        ∧ (m < k → revUnits * m + revUnits ≤ revUnits * k) ∧ (m + 1 < k → revUnits * m + 2 * revUnits ≤ revUnits * k) := by
    intro base hb
    have g1 := Int.mul_ediv_add_emod u revUnits
    have g2 := Int.mul_ediv_add_emod base revUnits
    refine ⟨u / revUnits, base / revUnits, by omega, by omega, fun h => ?_, fun h => ?_, fun h => ?_⟩
    · have := Int.mul_le_mul_of_nonneg_left (show u / revUnits + 1 ≤ base / revUnits by omega) hu.le
      rwa [mul_add, mul_one] at this
    · have := Int.mul_le_mul_of_nonneg_left (show base / revUnits + 1 ≤ u / revUnits by omega) hu.le
      rwa [mul_add, mul_one] at this
    · have := Int.mul_le_mul_of_nonneg_left (show base / revUnits + 2 ≤ u / revUnits by omega) hu.le
      rw [mul_add] at this
      omega
  unfold writeSpans
  rcases splitSpans_cases a b hab hrev with ⟨sp, he, s1, s2, s3, s4⟩ | ⟨sp, sp', he, s1, s2, s3, s4, s5, s6, s7, s8, s9⟩
  · obtain ⟨k, m, e1, e2, e3, e4, -⟩ := hdiv sp.base s4
    have hkm : k = m := by omega
    subst hkm
    have hue : u = sp.base + p := by omega
    rw [he, hue]
    refine writeSpan_last angles L sp hL s1 (q := q) (by omega) hqp (by omega) hoff ?_ ?_ ho ?_
    · rcases hq with hq | hq | hq
      · exact .inl (by omega)
      · exact .inl (by omega)
      · by_cases h0 : q = sp.ps
        · exact .inl h0
        · exact .inr ⟨by omega, hq⟩
    · rcases hp with hp | hp | hp
      · exact .inl (by omega)
      · exact .inl (by omega)
      · exact .inr hp
    · intro x
      rw [hn, show u - (p : Int) + x = sp.base + x by omega]
  · obtain ⟨k, m, e1, e2, e3, e4, e5⟩ := hdiv sp.base s9
    have hk := writeSpan_spec angles L sp hL (by omega)
    have hkm : k = m ∨ k = m + 1 := by omega
    rw [he]
    simp only [List.foldl_cons, List.foldl_nil]
    rcases hkm with rfl | rfl
    · have hue : u = sp.base + p := by omega
      have hk' := writeSpan_spec angles (writeSpan angles L sp) sp' hk.1.wf (by omega)
      rw [(hk'.2 p).1 (.inr (by omega)), hue]
      refine writeSpan_last angles L sp hL (by omega) (q := q) (by omega) hqp (by omega) hoff ?_ ?_ ho ?_
      · rcases hq with hq | hq | hq
        · exact .inl (by omega)
        · exact .inl (by omega)
        · by_cases h0 : q = sp.ps
          · exact .inl h0
          · exact .inr ⟨by omega, hq⟩
      · rcases hp with hp | hp | hp
        · exact .inl (by omega)
        · exact .inl (by omega)
        · exact .inr hp
      · intro x
        rw [hn, show u - (p : Int) + x = sp.base + x by omega]
    · rw [mul_add, mul_one] at e1
      have hue : u = sp'.base + p := by omega
      rw [hue]
      refine writeSpan_last angles _ sp' hk.1.wf (by omega) (q := q) (by omega) hqp (by omega) (by rw [hk.1.damaged]; exact hoff) ?_ ?_ ?_ ?_
      · rw [hk.1.damaged]
        rcases hq with hq | hq | hq
        · exact .inl (by omega)
        · exact .inl (by omega)
        · by_cases h0 : q = sp'.ps
          · exact .inl h0
          · exact .inr ⟨by omega, hq⟩
      · rw [hk.1.damaged]
        rcases hp with hp | hp | hp
        · exact .inl (by omega)
        · exact .inl (by omega)
        · exact .inr hp
      · intro x
        rw [ho]
        refine and_congr_right fun hx1 => and_congr_right fun hx2 => ?_
        exact ((hk.2 x).1 (.inl (by omega))).symm
      · intro x
        rw [hn, show u - (p : Int) + x = sp'.base + x by omega]

end Sys2Proof.Machine
end

