-- ==== Sys2Proof/Laws/Pll.lean ====
section
/-!
SUPPORT. The windows of the PLL: the bits and the end of the loop of 43_pll_extract.md R160, and the edge of a window (R161).
-/

namespace Sys2Proof.Machine

/-- The variables of the PLL after `j` windows. -/
def pllAfter (Fl : List Nat) (p0 : Nat) (p : Pll) : Nat → Pll
  | 0 => p
  | j + 1 => (pllAfter Fl p0 p j).window p0 ((pllAfter Fl p0 p j).edge Fl)

theorem pllAfter_succ' (Fl : List Nat) (p0 : Nat) (p : Pll) (j : Nat) :
    pllAfter Fl p0 p (j + 1) = pllAfter Fl p0 (p.window p0 (p.edge Fl)) j := by
  induction j with
  | zero => rfl
  | succ j ih => rw [pllAfter, ih, pllAfter]

/-- The bits of the loop are those of its windows, and the windows go on until one revolution has been scanned. -/
theorem pllBits_some (Fl : List Nat) (p0 n : Nat) (p : Pll) (acc bs : List Bool) (h : pllBits Fl p0 n p acc = some bs) :
    ∃ k : Nat, bs = acc.reverse ++ (List.range k).map (fun j => ((pllAfter Fl p0 p j).edge Fl).isSome)
      ∧ (revUnits : Int) ≤ (pllAfter Fl p0 p k).scanned ∧ ∀ j < k, (pllAfter Fl p0 p j).scanned < revUnits := by
  induction n generalizing p acc with
  | zero => cases h
  | succ n ih =>
    unfold pllBits at h
    split at h
    · rename_i hs
      obtain ⟨k, hb, h1, h2⟩ := ih _ _ h
      refine ⟨k + 1, ?_, by rw [pllAfter_succ']; exact h1, ?_⟩
      · rw [hb, List.range_succ_eq_map, List.map_cons, List.map_map, List.reverse_cons, List.append_assoc]
        simp only [Function.comp_def, Nat.succ_eq_add_one, pllAfter_succ']
        rfl
      · intro j hj
        cases j with
        | zero => exact hs
        | succ j => rw [pllAfter_succ']; exact h2 j (by omega)
    · rename_i hs
      obtain rfl := Option.some.inj h
      exact ⟨0, by simp, not_lt.mp hs, by simp⟩

/-- An unrolled position at which a flux transition stands (43_pll_extract.md R161). -/
def isEdge (Fl : List Nat) (y : Int) : Prop := ∃ f ∈ Fl, y % revUnits = f

/-- `next_edge(x)` is the least unrolled edge at or after `x`. -/
theorem nextEdge_spec {Fl : List Nat} (hs : Fl.Pairwise (· < ·)) (hb : ∀ f ∈ Fl, f < revUnits) (x : Int) :
    (∀ e : Int, nextEdge Fl x = some e → x ≤ e ∧ isEdge Fl e ∧ ∀ y : Int, x ≤ y → y < e → ¬ isEdge Fl y)
      ∧ (nextEdge Fl x = none → ∀ y : Int, ¬ isEdge Fl y) := by
  have hu : ((revUnits : Nat) : Int) = 200000000 := rfl
  unfold nextEdge isEdge
  simp only [hu]
  cases hf : Fl.find? (fun f : Nat => decide (x % 200000000 ≤ (f : Int))) with
  | some f =>
    refine ⟨?_, fun h => by cases h⟩
    intro e he
    obtain rfl := Option.some.inj he
    have h1 := List.find?_some hf
    have hm := List.mem_of_find?_eq_some hf
    have hlt := hb f hm
    simp only [decide_eq_true_eq] at h1
    have hu' : revUnits = 200000000 := rfl
    refine ⟨by omega, ⟨f, hm, by omega⟩, ?_⟩
    rintro y hy1 hy2 ⟨g, hg, hy⟩
    have hg' : x % 200000000 ≤ (g : Int) := by omega
    have hgf : g < f := by omega
    obtain ⟨as, bs, hl, hn⟩ := (List.find?_eq_some_iff_append.mp hf).2
    rw [hl] at hg
    rcases List.mem_append.mp hg with hg | hg
    · have := hn g hg
      simp only [Bool.not_eq_true', decide_eq_false_iff_not] at this
      exact this hg'
    · rw [hl] at hs
      have := (List.pairwise_append.mp hs).2.1
      rcases List.mem_cons.mp hg with rfl | hg
      · omega
      · have := (List.pairwise_cons.mp this).1 g hg
        omega
  | none =>
    have hall : ∀ g ∈ Fl, (g : Int) < x % 200000000 := by
      intro g hg
      have := List.find?_eq_none.mp hf g hg
      simpa using this
    cases Fl with
    | nil =>
      constructor
      · intro e he
        cases he
      · rintro - y ⟨f, hf, -⟩
        cases hf
    | cons f Fl =>
      refine ⟨?_, fun h => by cases h⟩
      intro e he
      obtain rfl := Option.some.inj he
      show _ ≤ (x / 200000000 + 1) * 200000000 + (f : Int) ∧ _ ∧ ∀ y : Int, _ → y < (x / 200000000 + 1) * 200000000 + (f : Int) → _
      have hlt := hb f List.mem_cons_self
      have hu' : revUnits = 200000000 := rfl
      have hf' := hall f List.mem_cons_self
      refine ⟨by omega, ⟨f, List.mem_cons_self, by show ((x / 200000000 + 1) * 200000000 + (f : Int)) % 200000000 = f; omega⟩, ?_⟩
      rintro y hy1 hy2 ⟨g, hg, hy⟩
      have hgx := hall g hg
      have : f ≤ g := by
        rcases List.mem_cons.mp hg with rfl | hg
        · exact le_refl _
        · exact le_of_lt ((List.pairwise_cons.mp hs).1 g hg)
      omega

/-- The edge of a window: the first unrolled edge in it. -/
theorem Pll.edge_eq_some {Fl : List Nat} (hs : Fl.Pairwise (· < ·)) (hb : ∀ f ∈ Fl, f < revUnits) {p : Pll} {e : Int}
    (h1 : p.cur ≤ e) (h2 : e < p.cur + p.win) (he : isEdge Fl e) (hn : ∀ y : Int, p.cur ≤ y → y < e → ¬ isEdge Fl y) :
    p.edge Fl = some e := by
  have hx := nextEdge_spec hs hb p.cur
  unfold Pll.edge
  cases hne : nextEdge Fl p.cur with
  | none => exact absurd he (hx.2 hne e)
  | some e' =>
    obtain ⟨a1, a2, a3⟩ := hx.1 e' hne
    have : e' = e := by
      rcases lt_trichotomy e' e with h | h | h
      · exact absurd a2 (hn e' a1 h)
      · exact h
      · exact absurd he (a3 e h1 h)
    subst this
    simp only
    rw [if_pos h2]

theorem Pll.edge_eq_none {Fl : List Nat} (hs : Fl.Pairwise (· < ·)) (hb : ∀ f ∈ Fl, f < revUnits) {p : Pll}
    (hn : ∀ y : Int, p.cur ≤ y → y < p.cur + p.win → ¬ isEdge Fl y) : p.edge Fl = none := by
  have hx := nextEdge_spec hs hb p.cur
  unfold Pll.edge
  cases hne : nextEdge Fl p.cur with
  | none => rfl
  | some e' =>
    obtain ⟨a1, a2, a3⟩ := hx.1 e' hne
    simp only
    rw [if_neg]
    intro h
    exact hn e' a1 h a2

theorem fluxPositions_lt {L : List Word32} (h : wfTrack L = true) : ∀ f ∈ fluxPositions L, f < revUnits := by
  intro f hf
  have := (wfTrack_iff L).mp h
  simp only [fluxPositions, List.mem_map, List.mem_filter] at hf
  obtain ⟨e, ⟨he, -⟩, rfl⟩ := hf
  exact this.1 e he

end Sys2Proof.Machine
end

