-- ==== Sys2Proof/Laws/Shape.lean ====
section
/-!
SUPPORT. What each command can answer: the state it began in with the fault taken, or with one of the statuses that write nothing else,
or a completed state with the fields named here written and no other.
-/

namespace Sys2Proof.Machine

/-- The three ways a command ends with a next state (60_exceptions.md R200, R204). -/
def Shape (s t : State) (done : Prop) : Prop :=
  (∃ (code : FaultCode) (info : Word64), t = s.faulted code info)
    ∨ (∃ st : Status, st ∈ [.ignored, .notImplemented, .noDisk, .layoutOverflow, .badCheckpoint, .geometry]
        ∧ t = { s with st := statusCode st })
    ∨ (t.st = 0 ∧ done)

theorem Shape.of_fault {s t : State} {done : Prop} {code : FaultCode} {info : Word64}
    (h : raiseFault code info s = .next t) : Shape s t done :=
  .inl ⟨code, info, raiseFault_eq_next h⟩

theorem Shape.of_status {s t : State} {done : Prop} {st : Status} (h : complete st s = .next t)
    (hst : st ∈ [Status.ignored, .notImplemented, .noDisk, .layoutOverflow, .badCheckpoint, .geometry]) : Shape s t done :=
  .inr (.inl ⟨st, hst, complete_eq_next h⟩)

theorem Shape.of_ok {s t u : State} {done : Prop} (h : complete .ok u = .next t) (hd : u.withStatus .ok = t → done) :
    Shape s t done := by
  cases h
  exact .inr (.inr ⟨rfl, hd rfl⟩)

theorem Shape.imp {s t : State} {p q : Prop} (h : Shape s t p) (hpq : p → q) : Shape s t q :=
  Or.imp_right (Or.imp_right (And.imp_right hpq)) h

/-! ### Shared operations -/

/-- A track store write with its flags: what it changes. -/
theorem genFromCells_shape {c h sigma : Nat} {cl : List Word32} {s t : State} (hx : genFromCells c h sigma cl s = .next t) :
    Shape s t (s.inStore c h = true ∧ ∃ (L : List Word32) (splice : Nat), cellsToTrack cl sigma = .ok (L, splice)
      ∧ t = { s with
              cl := cl, trk := (s.writeTrack c h L splice).trk, dirtyLoad := true, dirtyRestore := true, imgChanged := true
              cache := { s.cache with valid := false }, st := 0 }) := by
  unfold genFromCells at hx
  split at hx
  · exact .of_fault hx
  · rename_i hin
    split at hx
    · exact .of_fault hx
    · rename_i L splice hL
      refine .of_ok hx (fun ht => ⟨by simpa using hin, L, splice, hL, ?_⟩)
      subst ht
      simp only [State.withStatus, State.dropCache, State.markDirty, State.writeTrack, State.setTrack, statusCode]

theorem finishTrack_shape {g : Interp} {s t : State} (hx : finishTrack g s = .next t) :
    Shape s t (s.inStore g.c g.h = true ∧ ∃ (L : List Word32) (splice : Nat), cellsToTrack g.cl 0 = .ok (L, splice)
      ∧ t = { s with
              cl := g.cl, trk := (s.writeTrack g.c g.h L splice).trk, dirtyLoad := true, dirtyRestore := true
              imgChanged := true, cache := { s.cache with valid := false }, st := 0 }) := by
  unfold finishTrack at hx
  split at hx
  · exact .of_fault hx
  · split at hx
    · exact .of_status hx (by simp)
    · exact genFromCells_shape hx

theorem genFromCells_goes (c h sigma : Nat) (cl : List Word32) (s : State) : ∃ t, genFromCells c h sigma cl s = .next t := by
  unfold genFromCells
  split
  · exact ⟨_, rfl⟩
  · split <;> exact ⟨_, rfl⟩

theorem finishTrack_goes (g : Interp) (s : State) : ∃ t, finishTrack g s = .next t := by
  unfold finishTrack
  split
  · exact ⟨_, rfl⟩
  · split
    · exact ⟨_, rfl⟩
    · exact genFromCells_goes _ _ _ _ _

theorem bitWriter_shape {readable : Bool} {write : Nat → Nat → Nat → List Word32 → List Word32} {s t : State}
    (h : bitWriter readable write s = .next t) : Shape s t (t = { s with cl := t.cl, st := 0 }) := by
  unfold bitWriter at h
  split at h
  · split at h
    · exact .of_ok h (by rintro rfl; rfl)
    · exact .of_fault h
  · exact .of_fault h

theorem onTrack_shape {s t : State} {act : Nat → Nat → Outcome} {done : Prop} (h : onTrack s act = .next t)
    (hact : s.inStore s.x.x0.toNat s.x.x1.toNat = true → act s.x.x0.toNat s.x.x1.toNat = .next t → Shape s t done) :
    Shape s t done := by
  unfold onTrack at h
  by_cases hd : s.diskPresent = true
  · by_cases hin : s.inStore s.x.x0.toNat s.x.x1.toNat = true
    · exact hact hin (by simpa [hd, hin, unsignedOperand] using h)
    · exact .of_fault (code := .trackRange) (info := 0) (by simpa [hd, hin, unsignedOperand] using h)
  · exact .of_status (st := .noDisk) (by simpa [hd] using h) (by simp)

theorem buildTrack_shape {fixedSize : Layout → List SectorDesc → Nat}
    {cells : Layout → Nat → List SectorDesc → List Word32} {s t : State} (h : buildTrack fixedSize cells s = .next t) :
    Shape s t (t = { s with
      cl := t.cl, trk := t.trk, dirtyLoad := true, dirtyRestore := true, imgChanged := true
      cache := { s.cache with valid := false }, st := 0 }) := by
  unfold buildTrack at h
  simp only at h
  split at h
  · exact .of_status h (by simp)
  · split at h
    · exact .of_fault h
    · split at h
      · exact .of_fault h
      · split at h
        · exact .of_status h (by simp)
        · refine (genFromCells_shape h).imp ?_
          rintro ⟨-, L, splice, -, rfl⟩
          rfl

/-- A descriptor op on a running interpreter: it goes on, or ends with the interpreter cleared. -/
theorem runElement_cases {f : List SectorDesc → Interp → ElemResult} {s t : State} (h : runElement f s = .next t) :
    ∃ g : Interp, s.gen = some g ∧ ((∃ g' : Interp, f s.sdl g = .run g' ∧ t = { s with gen := some g' })
      ∨ (∃ g' : Interp, f s.sdl g = .done g' ∧ finishTrack g' { s with gen := none } = .next t)
      ∨ ∃ code : FaultCode, f s.sdl g = .fault code ∧ t = { s with gen := none }.faulted code 0) := by
  unfold runElement at h
  split at h
  · cases h
  · rename_i g hg
    refine ⟨g, hg, ?_⟩
    split at h
    · rename_i g' hg'
      cases h
      exact .inl ⟨g', hg', rfl⟩
    · rename_i g' hg'
      exact .inr (.inl ⟨g', hg', h⟩)
    · rename_i code hc
      cases h
      exact .inr (.inr ⟨code, hc, rfl⟩)

theorem runElement_of_gen {f : List SectorDesc → Interp → ElemResult} {s : State} {g : Interp} (hg : s.gen = some g) :
    runElement f s = match f s.sdl g with
      | .run g' => .next { s with gen := some g' }
      | .done g' => finishTrack g' { s with gen := none }
      | .fault code => raiseFault code 0 { s with gen := none } := by
  unfold runElement
  split
  · simp_all
  · rename_i g' hg'
    rw [hg] at hg'
    cases hg'
    rfl

/-- The meaning of a descriptor op is that of its element (log entry 5). -/
theorem exec_element {i : Instr} (hc : i.isCommand = false) (s : State) : exec i s = runElement (element i) s := by
  cases i <;> first | (cases hc; done) | rfl

theorem decodeElem_not_command {e : DescElem} {i : Instr} (h : decodeElem e = .ok i) : i.isCommand = false := by
  unfold decodeElem at h
  split at h <;> cases h <;> rfl

theorem decodeWord_command {w : Word32} {i : Instr} (h : decodeWord w = .ok i) : i.isCommand = true := by
  unfold decodeWord at h
  split at h
  · cases h
  · split at h
    · rename_i j hj
      cases h
      unfold commandOf at hj
      split at hj <;> cases hj <;> rfl
    · cases h

/-! ### The commands -/

theorem execSetMotor_shape {s t : State} (h : execSetMotor s = .next t) :
    Shape s t (t = { s with motor := t.motor, t0 := t.t0, revCount := t.revCount, revStart := t.revStart, cache := t.cache, ready := t.ready, readyCnt := t.readyCnt, idx := t.idx, edges := t.edges, idxTimer := t.idxTimer, timerMissed := t.timerMissed, st := 0 }) := by
  unfold execSetMotor at h
  split at h
  · exact .of_fault h
  · split at h
    · refine .of_ok h ?_
      rintro rfl
      rw [State.resync_frame]
      rfl
    · split at h <;> exact .of_ok h (by rintro rfl; rfl)

theorem execIndexResync_shape {s t : State} (h : execIndexResync s = .next t) :
    Shape s t (t = { s with revCount := t.revCount, revStart := t.revStart, ready := t.ready, readyCnt := t.readyCnt, idx := t.idx, edges := t.edges, idxTimer := t.idxTimer, timerMissed := t.timerMissed, st := 0 }) := by
  unfold execIndexResync at h
  split at h
  · exact .of_fault h
  · refine .of_ok h ?_
    rintro rfl
    rw [State.resync_frame]
    rfl

theorem execTimeNextIndex_shape {s t : State} (h : execTimeNextIndex s = .next t) :
    Shape s t (t = { s with x := t.x, st := 0 }) := by
  unfold execTimeNextIndex at h
  (repeat' split at h) <;> first | exact .of_fault h | exact .of_ok h (by rintro rfl; rfl)

theorem execPhaseOf_shape {s t : State} (h : execPhaseOf s = .next t) :
    Shape s t (t = { s with x := t.x, st := 0 }) := by
  unfold execPhaseOf at h
  (repeat' split at h) <;> first | exact .of_fault h | exact .of_ok h (by rintro rfl; rfl)

theorem execTimeOf_shape {s t : State} (h : execTimeOf s = .next t) :
    Shape s t (t = { s with x := t.x, st := 0 }) := by
  unfold execTimeOf at h
  simp only at h
  (repeat' split at h) <;> first | exact .of_fault h | exact .of_ok h (by rintro rfl; rfl)

theorem execStepTo_shape {s t : State} (h : execStepTo s = .next t) :
    Shape s t (t = { s with door := t.door, cyl := t.cyl, cache := t.cache, seekSound := t.seekSound, st := 0 }) := by
  unfold execStepTo at h
  simp only at h
  (repeat' split at h) <;> first | exact .of_fault h | exact .of_ok h (by rintro rfl; rfl)

theorem execSetSide_shape {s t : State} (h : execSetSide s = .next t) :
    Shape s t (t = { s with ss := t.ss, cache := t.cache, st := 0 }) := by
  unfold execSetSide at h
  (repeat' split at h) <;> first | exact .of_ok h (by rintro rfl; rfl)

theorem execGetLines_shape {s t : State} (h : execGetLines s = .next t) :
    Shape s t (t = { s with x := t.x, seekSound := t.seekSound, st := 0 }) := by
  exact .of_ok h (by rintro rfl; rfl)

theorem execGetFault_shape {s t : State} (h : execGetFault s = .next t) :
    Shape s t (t = { s with x := t.x, st := 0 }) := by
  exact .of_ok h (by rintro rfl; rfl)

theorem execGetNextTransition_shape {s t : State} (h : execGetNextTransition s = .next t) :
    Shape s t (t = { s with x := t.x, cache := t.cache, st := 0 }) := by
  unfold execGetNextTransition at h
  (repeat' split at h) <;> first | cases h; done | exact .of_fault h | exact .of_ok h (by rintro rfl; rfl)

theorem execWriteFlux_shape {s t : State} (h : execWriteFlux s = .next t) :
    Shape s t (t = { s with trk := t.trk, dirtyLoad := t.dirtyLoad, dirtyRestore := t.dirtyRestore, imgChanged := t.imgChanged, cache := t.cache, st := 0 }) := by
  unfold execWriteFlux at h
  split at h
  · split at h
    · exact .of_status h (by decide)
    · split at h
      · exact .of_fault h
      · simp only at h
        generalize s.writtenTrack _ _ = L at h
        split at h
        · exact .of_ok h (by rintro rfl; rfl)
        · exact .of_ok h (by rintro rfl; rfl)
  · exact .of_fault h

theorem execSetWriteSplice_shape {s t : State} (h : execSetWriteSplice s = .next t) :
    Shape s t (t = { s with trk := t.trk, dirtyLoad := t.dirtyLoad, dirtyRestore := t.dirtyRestore, imgChanged := t.imgChanged, st := 0 }) := by
  unfold execSetWriteSplice at h
  split at h
  · exact .of_fault h
  · split at h
    · exact .of_status h (by decide)
    · exact .of_ok h (by rintro rfl; rfl)

theorem execSetSeed_shape {s t : State} (h : execSetSeed s = .next t) :
    Shape s t (t = { s with seed := t.seed, cache := t.cache, st := 0 }) := by
  exact .of_ok h (by rintro rfl; rfl)

theorem execClClear_shape {s t : State} (h : execClClear s = .next t) :
    Shape s t (t = { s with cl := t.cl, st := 0 }) := by
  exact .of_ok h (by rintro rfl; rfl)

theorem execRawW_shape {s t : State} (h : execRawW s = .next t) :
    Shape s t (t = { s with cl := t.cl, st := 0 }) := by
  exact bitWriter_shape h

theorem execFmW_shape {s t : State} (h : execFmW s = .next t) :
    Shape s t (t = { s with cl := t.cl, st := 0 }) := by
  exact bitWriter_shape h

theorem execMfmW_shape {s t : State} (h : execMfmW s = .next t) :
    Shape s t (t = { s with cl := t.cl, st := 0 }) := by
  exact bitWriter_shape h

theorem execGenTrack_shape {s t : State} (h : execGenTrack s = .next t) :
    Shape s t (t = { s with cl := t.cl, trk := t.trk, dirtyLoad := t.dirtyLoad, dirtyRestore := t.dirtyRestore, imgChanged := t.imgChanged, cache := t.cache, st := 0 }) := by
  unfold execGenTrack at h
  split at h
  · exact .of_status h (by simp)
  · split at h
    · exact .of_fault h
    · split at h
      · exact .of_fault h
      · rcases interpret_startInterp s (unsignedOperand s.x.x0) (unsignedOperand s.x.x1) (unsignedOperand s.x.x2) _ with
          ⟨g', hg'⟩ | ⟨code, hc⟩
        · rw [hg'] at h
          refine (finishTrack_shape h).imp ?_
          rintro ⟨-, L, splice, -, rfl⟩
          rfl
        · rw [hc] at h
          exact .of_fault h

theorem execGenFromCells_shape {s t : State} (h : execGenFromCells s = .next t) :
    Shape s t (t = { s with trk := t.trk, dirtyLoad := t.dirtyLoad, dirtyRestore := t.dirtyRestore, imgChanged := t.imgChanged, cache := t.cache, st := 0 }) := by
  unfold execGenFromCells at h
  split at h
  · exact .of_status h (by simp)
  · refine (genFromCells_shape h).imp ?_
    rintro ⟨-, L, splice, -, rfl⟩
    rfl

theorem execGenBitstream_shape {s t : State} (h : execGenBitstream s = .next t) :
    Shape s t (t = { s with bs := t.bs, x := t.x, st := 0 }) := by
  unfold execGenBitstream at h
  simp only at h
  (repeat' split at h) <;> first | cases h; done | exact .of_fault h | exact .of_status h (by decide) | exact .of_ok h (by rintro rfl; rfl)

theorem execExtractMfm_shape {s t : State} (h : execExtractMfm s = .next t) :
    Shape s t (t = { s with sect := t.sect, x := t.x, st := 0 }) := by
  unfold execExtractMfm at h
  (repeat' split at h) <;> first | cases h; done | exact .of_ok h (by rintro rfl; rfl)

theorem execExtractFm_shape {s t : State} (h : execExtractFm s = .next t) :
    Shape s t (t = { s with sect := t.sect, x := t.x, st := 0 }) := by
  exact .of_ok h (by rintro rfl; rfl)

theorem execBuildPcMfm_shape {s t : State} (h : execBuildPcMfm s = .next t) :
    Shape s t (t = { s with cl := t.cl, trk := t.trk, dirtyLoad := t.dirtyLoad, dirtyRestore := t.dirtyRestore, imgChanged := t.imgChanged, cache := t.cache, st := 0 }) := by
  refine (buildTrack_shape h).imp ?_
  intro ht
  rw [ht]

theorem execBuildPcFm_shape {s t : State} (h : execBuildPcFm s = .next t) :
    Shape s t (t = { s with cl := t.cl, trk := t.trk, dirtyLoad := t.dirtyLoad, dirtyRestore := t.dirtyRestore, imgChanged := t.imgChanged, cache := t.cache, st := 0 }) := by
  refine (buildTrack_shape h).imp ?_
  intro ht
  rw [ht]

theorem execCrcCells_shape {s t : State} (h : execCrcCells s = .next t) :
    Shape s t (t = { s with x := t.x, st := 0 }) := by
  unfold execCrcCells at h
  (repeat' split at h) <;> first | exact .of_fault h | exact .of_ok h (by rintro rfl; rfl)

theorem execCrcBytes_shape {s t : State} (h : execCrcBytes s = .next t) :
    Shape s t (t = { s with x := t.x, st := 0 }) := by
  exact .of_ok h (by rintro rfl; rfl)

theorem execInsert_shape {s t : State} (h : execInsert s = .next t) :
    Shape s t (t = { s with diskPresent := t.diskPresent, props := t.props, allocTracks := t.allocTracks, allocSides := t.allocSides, trk := t.trk, rawsec := t.rawsec, wp := t.wp, dirtyLoad := t.dirtyLoad, dirtyRestore := t.dirtyRestore, imgChanged := t.imgChanged, door := t.door, cache := t.cache, ready := t.ready, readyCnt := t.readyCnt, idx := t.idx, edges := t.edges, idxTimer := t.idxTimer, st := 0 }) := by
  unfold execInsert at h
  (repeat' split at h) <;> first | exact .of_fault h | exact .of_status h (by decide) | refine .of_ok h ?_
  all_goals
    rintro rfl
    simp only [State.withStatus, State.inserted, State.ejected, State.emptyDisk, State.driveIndex, State.dropCache, statusCode]

theorem execEject_shape {s t : State} (h : execEject s = .next t) :
    Shape s t (t = { s with diskPresent := t.diskPresent, props := t.props, allocTracks := t.allocTracks, allocSides := t.allocSides, trk := t.trk, rawsec := t.rawsec, wp := t.wp, dirtyLoad := t.dirtyLoad, dirtyRestore := t.dirtyRestore, imgChanged := t.imgChanged, door := t.door, cache := t.cache, ready := t.ready, readyCnt := t.readyCnt, idx := t.idx, edges := t.edges, idxTimer := t.idxTimer, st := 0 }) := by
  unfold execEject at h
  (repeat' split at h) <;> first | exact .of_status h (by decide) | refine .of_ok h ?_
  all_goals
    rintro rfl
    simp only [State.withStatus, State.ejected, State.emptyDisk, State.driveIndex, State.dropCache, statusCode]

theorem execGetBuffer_shape {s t : State} (h : execGetBuffer s = .next t) :
    Shape s t (t = { s with tl := t.tl, x := t.x, st := 0 }) := by
  refine onTrack_shape h fun _ hx => ?_
  exact .of_ok hx (by rintro rfl; rfl)

theorem execPutBuffer_shape {s t : State} (h : execPutBuffer s = .next t) :
    Shape s t (t = { s with trk := t.trk, dirtyLoad := t.dirtyLoad, dirtyRestore := t.dirtyRestore, imgChanged := t.imgChanged, cache := t.cache, st := 0 }) := by
  refine onTrack_shape h fun _ hx => ?_
  all_goals (repeat' split at hx) <;> first | exact .of_fault hx | exact .of_ok hx (by rintro rfl; rfl)

theorem execResizeTracks_shape {s t : State} (h : execResizeTracks s = .next t) :
    Shape s t (t = { s with trk := t.trk, allocTracks := t.allocTracks, cache := t.cache, st := 0 }) := by
  unfold execResizeTracks at h
  simp only at h
  (repeat' split at h) <;> first | exact .of_fault h | exact .of_status h (by decide) | exact .of_ok h (by rintro rfl; rfl)

theorem execTrackIsFormatted_shape {s t : State} (h : execTrackIsFormatted s = .next t) :
    Shape s t (t = { s with x := t.x, st := 0 }) := by
  refine onTrack_shape h fun _ hx => ?_
  exact .of_ok hx (by rintro rfl; rfl)

theorem execActualGeometry_shape {s t : State} (h : execActualGeometry s = .next t) :
    Shape s t (t = { s with x := t.x, st := 0 }) := by
  unfold execActualGeometry at h
  (repeat' split at h) <;> first | exact .of_status h (by decide) | exact .of_ok h (by rintro rfl; rfl)

theorem execReadSector_shape {s t : State} (h : execReadSector s = .next t) :
    Shape s t (t = { s with bytes := t.bytes, x := t.x, st := 0 }) := by
  unfold execReadSector at h
  (repeat' split at h) <;> first | exact .of_fault h | exact .of_status h (by decide) | exact .of_ok h (by rintro rfl; rfl)

theorem execWriteSector_shape {s t : State} (h : execWriteSector s = .next t) :
    Shape s t (t = { s with rawsec := t.rawsec, dirtyLoad := t.dirtyLoad, dirtyRestore := t.dirtyRestore, imgChanged := t.imgChanged, st := 0 }) := by
  unfold execWriteSector at h
  (repeat' split at h) <;> first | exact .of_fault h | exact .of_status h (by decide) | exact .of_ok h (by rintro rfl; rfl)

theorem execSaveState_shape {s t : State} (h : execSaveState s = .next t) :
    Shape s t (t = { s with ckp := t.ckp, x := t.x, st := 0 }) := by
  unfold execSaveState at h
  (repeat' split at h) <;> first | exact .of_status h (by decide) | exact .of_ok h (by rintro rfl; rfl)

theorem execLoadState_shape {s t : State} (h : execLoadState s = .next t) :
    Shape s t (t = { s with trk := t.trk, dirtyLoad := t.dirtyLoad, dirtyRestore := t.dirtyRestore, imgChanged := t.imgChanged, cache := t.cache, st := 0 }) := by
  unfold execLoadState at h
  (repeat' split at h) <;> first | exact .of_status h (by decide) | exact .of_ok h (by rintro rfl; rfl)

theorem execSetWp_shape {s t : State} (h : execSetWp s = .next t) :
    Shape s t (t = { s with wp := t.wp, st := 0 }) := by
  unfold execSetWp at h
  (repeat' split at h) <;> first | exact .of_status h (by decide) | exact .of_ok h (by rintro rfl; rfl)

theorem execPollChanged_shape {s t : State} (h : execPollChanged s = .next t) :
    Shape s t (t = { s with x := t.x, imgChanged := t.imgChanged, st := 0 }) := by
  exact .of_ok h (by rintro rfl; rfl)

theorem execGetFlags_shape {s t : State} (h : execGetFlags s = .next t) :
    Shape s t (t = { s with x := t.x, st := 0 }) := by
  exact .of_ok h (by rintro rfl; rfl)

theorem execClearDirty_shape {s t : State} (h : execClearDirty s = .next t) :
    Shape s t (t = { s with dirtyLoad := t.dirtyLoad, dirtyRestore := t.dirtyRestore, st := 0 }) := by
  unfold execClearDirty at h
  (repeat' split at h) <;> first | exact .of_fault h | exact .of_status h (by decide) | exact .of_ok h (by rintro rfl; rfl)

theorem execGetProps_shape {s t : State} (h : execGetProps s = .next t) :
    Shape s t (t = { s with x := t.x, bytes := t.bytes, st := 0 }) := by
  exact .of_ok h (by rintro rfl; rfl)

end Sys2Proof.Machine
end

