-- ==== Sys2Proof/Tests/Slice0.lean ====
section
/-!
SUPPORT. The model's own tests: the checks of WellFormed, the decoding of every instruction from a word written out from the tables of
30_encoding.md R77 and R79, one step of each instruction against the vectors of 95_test_vectors.md (V-…) or a value worked from a rule (R…),
and for every obligation with hypotheses a state that meets them (witness_…).
-/

open Sys2Proof Sys2Proof.Machine

set_option Elab.async false

namespace Sys2Proof.Tests

/-! ### States -/

/-- The common setting of 95_test_vectors.md, `SEED0` being 7. -/
def setting : Params := { rpm := 300, driveTracks := 80, driveSides := 2, ampFreakout := 200000000, excessTracks := 4, seed0 := 7 }

/-- The reset state in that setting. -/
def s0 : State := State.resetWith setting

/-- The state an outcome ends in; a stop shows as a status that no command has. -/
def after (o : Outcome) : State :=
  match o with
  | .next t => t
  | .fault _ => { s0 with st := 0x77 }
  | .refused _ => { s0 with st := 0x77 }

/-- The operands `X0` .. `X3`. -/
def at4 (s : State) (a b c d : Word64) : State := { s with x := { s.x with x0 := a, x1 := b, x2 := c, x3 := d } }

/-- The disk of V-BUF-1 with one track, L0 of the SEQ vectors, and the door closed. -/
def disk : State :=
  { s0 with
    diskPresent := true
    props := { type := 1, tracks := 40, sides := 1, spt := 9, secsize := 512, drate := 250000, desc := [], kind := false }
    allocTracks := 40, allocSides := 1, door := false
    trk := [(0, { events := [1000, 3000, 5000, 7000], splice := 0, hasDamaged := false })] }

/-- That disk with the motor on since the time 0. -/
def spin : State := { disk with motor := true, readyCnt := 2 }

/-- A disk whose one track has a damaged zone, as in program P4. -/
def scarred : State :=
  { spin with trk := [(0, { events := [0x20000064, 0x300000C8, 1000], splice := 50000000, hasDamaged := true })] }

/-- The raw-sector medium of V-BUF-17. -/
def raw : State :=
  { s0 with
    diskPresent := true
    props := { type := 1, tracks := 80, sides := 2, spt := 18, secsize := 512, drate := 500000, desc := [], kind := true }
    allocTracks := 80, allocSides := 2 }

/-- A record of two bytes, as those of program P2. -/
def record (n : Nat) : SectorDesc :=
  { track := 5, head := 1, sector := n, size := 0, actualSize := 2, data := [BitVec.ofNat 8 n, BitVec.ofNat 8 n]
    deleted := false, badCrc := false }

/-- A machine that steps a descriptor program on the track (5, 1), with the cells `cl` so far. -/
def stepping (cl : List Word32) : State :=
  { s0 with sdl := [record 1, record 2, record 3], gen := some { startInterp 5 1 16 1000 with cl := cl } }

/-- That machine in its loop, at the record 0. -/
def looping : State :=
  { stepping [] with
    gen := some { startInterp 5 1 16 1000 with
      loop := some { start := 2, first := 0, last := 2, order := [0, 2, 1], k := 0 }, cur := some 0, dpc := 4 } }

/-- That machine with the CRC region 0 closed over one FM byte, 0xFE. -/
def inRegion : State :=
  { stepping (writeFm 8 0xFE 1000 []) with
    gen := some { startInterp 5 1 16 1000 with
      cl := writeFm 8 0xFE 1000 []
      regions := (Vector.replicate 16 none).set 0 (some { kind := .fm, start := 0, stop := some 16 }) } }

/-- The cells of a list, `BIT1` as 1. -/
def bitsOf (cl : List Word32) : List Bool := cl.map isBit1

/-- The interpreter that a state holds. -/
def interp (s : State) : Interp := s.gen.getD (startInterp 0 0 0 0)

/-! ### Well-formedness (42_codec.md R149) -/

theorem test_wellFormed_region : Instr.wellFormed (.crcCcittStart 16) = false ∧ Instr.wellFormed (.crcCcittStart 15) = true := by decide
theorem test_wellFormed_region_fm : Instr.wellFormed (.crcCcittFmStart 16) = false := by decide
theorem test_wellFormed_region_end : Instr.wellFormed (.crcEnd 16) = false := by decide
theorem test_wellFormed_region_crc : Instr.wellFormed (.crc 0xFFFFFFFF) = false := by decide
theorem test_wellFormed_loop : Instr.wellFormed (.sectorLoopStart 3 2) = false ∧ Instr.wellFormed (.sectorLoopStart 3 3) = true := by decide

/-! ### Decoding: every instruction -/

theorem test_decode_pha :
    decodeWord 0x00000001#32 = .ok .setMotor ∧ decodeWord 0x00000002#32 = .ok .indexResync
      ∧ decodeWord 0x00000003#32 = .ok .timeNextIndex ∧ decodeWord 0x00000004#32 = .ok .phaseOf
      ∧ decodeWord 0x00000005#32 = .ok .timeOf ∧ decodeWord 0x00000006#32 = .ok .stepTo
      ∧ decodeWord 0x00000007#32 = .ok .setSide ∧ decodeWord 0x00000008#32 = .ok .getLines
      ∧ decodeWord 0x00000009#32 = .ok .getFault := by decide

theorem test_decode_seq :
    decodeWord 0x00000010#32 = .ok .getNextTransition ∧ decodeWord 0x00000011#32 = .ok .writeFlux
      ∧ decodeWord 0x00000012#32 = .ok .setWriteSplice ∧ decodeWord 0x00000013#32 = .ok .setSeed := by decide

theorem test_decode_cod :
    decodeWord 0x00000020#32 = .ok .clClear ∧ decodeWord 0x00000021#32 = .ok .rawW ∧ decodeWord 0x00000022#32 = .ok .fmW
      ∧ decodeWord 0x00000023#32 = .ok .mfmW ∧ decodeWord 0x00000024#32 = .ok .genTrack
      ∧ decodeWord 0x00000025#32 = .ok .genFromCells ∧ decodeWord 0x00000026#32 = .ok .genBitstream
      ∧ decodeWord 0x00000027#32 = .ok .extractMfm ∧ decodeWord 0x00000028#32 = .ok .extractFm
      ∧ decodeWord 0x00000029#32 = .ok .buildPcMfm ∧ decodeWord 0x0000002A#32 = .ok .buildPcFm := by decide

theorem test_decode_crc : decodeWord 0x00000030#32 = .ok .crcCells ∧ decodeWord 0x00000031#32 = .ok .crcBytes := by decide

theorem test_decode_buf :
    decodeWord 0x00000040#32 = .ok .insert ∧ decodeWord 0x00000041#32 = .ok .eject ∧ decodeWord 0x00000042#32 = .ok .getBuffer
      ∧ decodeWord 0x00000043#32 = .ok .putBuffer ∧ decodeWord 0x00000044#32 = .ok .resizeTracks
      ∧ decodeWord 0x00000045#32 = .ok .trackIsFormatted ∧ decodeWord 0x00000046#32 = .ok .actualGeometry
      ∧ decodeWord 0x00000047#32 = .ok .readSector ∧ decodeWord 0x00000048#32 = .ok .writeSector
      ∧ decodeWord 0x00000049#32 = .ok .saveState ∧ decodeWord 0x0000004A#32 = .ok .loadState
      ∧ decodeWord 0x0000004B#32 = .ok .setWp ∧ decodeWord 0x0000004C#32 = .ok .pollChanged
      ∧ decodeWord 0x0000004D#32 = .ok .getFlags ∧ decodeWord 0x0000004E#32 = .ok .clearDirty
      ∧ decodeWord 0x0000004F#32 = .ok .getProps := by decide

/-- V-EXC-1 and V-EXC-2. -/
theorem test_decode_illegal :
    decodeWord 0x00000000#32 = .error (.unassignedOpcode 0x00) ∧ decodeWord 0x0000000A#32 = .error (.unassignedOpcode 0x0A)
      ∧ decodeWord 0x00000014#32 = .error (.unassignedOpcode 0x14) ∧ decodeWord 0x00000050#32 = .error (.unassignedOpcode 0x50)
      ∧ decodeWord 0x000000FF#32 = .error (.unassignedOpcode 0xFF) ∧ decodeWord 0x00000108#32 = .error .reservedBits := by decide

theorem test_decode_elements :
    decodeElem { op := 0x00, p1 := 0, p2 := 0 } = .ok .endDesc ∧ decodeElem { op := 0x01, p1 := 0xFF, p2 := 26 } = .ok (.fm 0xFF 26)
      ∧ decodeElem { op := 0x02, p1 := 0x4E, p2 := 4 } = .ok (.mfm 0x4E 4)
      ∧ decodeElem { op := 0x03, p1 := 0x4489, p2 := 3 } = .ok (.raw 0x4489 3)
      ∧ decodeElem { op := 0x04, p1 := 0, p2 := 0 } = .ok .trackId ∧ decodeElem { op := 0x05, p1 := 0, p2 := 0 } = .ok .trackIdFm
      ∧ decodeElem { op := 0x06, p1 := 0, p2 := 0 } = .ok .headId ∧ decodeElem { op := 0x07, p1 := 0, p2 := 0 } = .ok .headIdFm
      ∧ decodeElem { op := 0x08, p1 := 0, p2 := 0 } = .ok .sectorId ∧ decodeElem { op := 0x09, p1 := 0, p2 := 0 } = .ok .sectorIdFm
      ∧ decodeElem { op := 0x0A, p1 := 0, p2 := 0 } = .ok .sizeId ∧ decodeElem { op := 0x0B, p1 := 0, p2 := 0 } = .ok .sizeIdFm := by decide

theorem test_decode_elements_2 :
    decodeElem { op := 0x0C, p1 := 1, p2 := 0 } = .ok (.crcCcittStart 1)
      ∧ decodeElem { op := 0x0D, p1 := 2, p2 := 0 } = .ok (.crcCcittFmStart 2)
      ∧ decodeElem { op := 0x0E, p1 := 3, p2 := 0 } = .ok (.crcEnd 3) ∧ decodeElem { op := 0x0F, p1 := 4, p2 := 0 } = .ok (.crc 4)
      ∧ decodeElem { op := 0x10, p1 := 1, p2 := 9 } = .ok (.sectorLoopStart 1 9)
      ∧ decodeElem { op := 0x11, p1 := 0, p2 := 0 } = .ok .sectorLoopEnd
      ∧ decodeElem { op := 0x12, p1 := 0, p2 := 0 } = .ok .sectorData ∧ decodeElem { op := 0x13, p1 := 0, p2 := 0 } = .ok .sectorDataFm
      ∧ decodeElem { op := 0x14, p1 := 2, p2 := 1 } = .ok (.sectorInterleaveSkip 2 1)
      ∧ decodeElem { op := 0x15, p1 := 0, p2 := 0 } = .error (.illegalDescriptorOp 0x15)
      ∧ decodeElem { op := 0xFF, p1 := 0, p2 := 0 } = .error (.illegalDescriptorOp 0xFF) := by decide

/-- R77: the bits above a parameter's field are ignored. -/
theorem test_decode_ignores_high_bits :
    decodeElem { op := 0x02, p1 := 0xFFFFFF4E, p2 := 1 } = .ok (.mfm 0x4E 1)
      ∧ decodeElem { op := 0x03, p1 := 0xFFFF4489, p2 := 1 } = .ok (.raw 0x4489 1) := by decide

/-- The host's reading of a row: a command word of 32 bits, a descriptor op of 8 bits. -/
theorem test_decode_table : decodeTableWord 32 0x24 = some .genTrack ∧ decodeTableWord 8 0x12 = some .sectorData := by decide

/-! ### Commands: PHA -/

/-- V-PHA-1. -/
theorem test_setMotor :
    (fun t : State => (t.t0, t.idx, t.edges, t.readyCnt, t.idxTimer, t.st))
        (after (exec .setMotor (at4 { disk with door := true } 1 1000 0 0)))
      = (1000, true, [{ level := true, time := some 1000 }], 2, 2001000, 0) := by decide +kernel

/-- V-PHA-5. -/
theorem test_setMotor_off :
    (fun t : State => (t.motor, t.idx, t.edges, t.readyCnt, t.idxTimer))
        (after (exec .setMotor (at4 { spin with idx := true } 0 5 0 0)))
      = (false, false, [{ level := false, time := some 5 }], 0, never) := by decide +kernel

/-- V-PHA-4. -/
theorem test_indexResync :
    (fun t : State => (t.idx, t.edges, t.revCount, t.revStart, t.readyCnt, t.ready, t.idxTimer))
        (after (exec .indexResync (at4 spin 200000000 0 0 0)))
      = (true, [{ level := true, time := some 200000000 }], 1, 200000000, 1, false, 202000000) := by decide +kernel

/-- V-PHA-2. -/
theorem test_indexResync_falls :
    (fun t : State => (t.idx, t.edges, t.revCount, t.idxTimer))
        (after (exec .indexResync (at4 { spin with idx := true } 2000000 0 0 0)))
      = (false, [{ level := false, time := some 2000000 }], 0, 200000000) := by decide +kernel

/-- V-PHA-9. -/
theorem test_timeNextIndex : (after (exec .timeNextIndex (at4 spin 199999999 0 0 0))).x.x0 = 200000000
    ∧ (after (exec .timeNextIndex (at4 spin 200000000 0 0 0))).x.x0 = 400000000 := by decide +kernel

/-- V-PHA-10. -/
theorem test_timeNextIndex_off : (after (exec .timeNextIndex (at4 disk 5 0 0 0))).x.x0 = never := by decide +kernel

/-- V-PHA-13. -/
theorem test_phaseOf :
    (fun t : State => (t.x.x0, t.x.x1)) (after (exec .phaseOf (at4 { s0 with cfg := { setting with rpm := 360 } } 166666666 0 0 0)))
      = (199999999, 0) := by decide +kernel

/-- V-PHA-12. -/
theorem test_phaseOf_before_epoch :
    (fun t : State => (t.x.x0, t.x.x1)) (after (exec .phaseOf (at4 { s0 with t0 := 1000 } 999 0 0 0)))
      = (199999999, 0xFFFFFFFFFFFFFFFF) := by decide +kernel

/-- V-PHA-18. -/
theorem test_timeOf :
    (after (exec .timeOf (at4 { s0 with cfg := { setting with rpm := 360 } } 1 2000000 0 0))).x.x0 = 168333334 := by decide +kernel

/-- V-PHA-15, V-PHA-16. -/
theorem test_timeOf_faults :
    (fun t : State => (t.st, t.fcode, t.finfo)) (after (exec .timeOf (at4 s0 0 200000000 0 0))) = (0xFE, 5, 200000000)
      ∧ (after (exec .timeOf (at4 s0 0xFFFFFFFFFFFFFFFF 0 0 0))).finfo = 0xFFFFFFFFFFFFFFFF := by decide +kernel

/-- V-PHA-19, V-PHA-20. -/
theorem test_stepTo :
    (fun t : State => (t.cyl, t.door, t.seekSound)) (after (exec .stepTo (at4 { disk with door := true } 95 0 0 0))) = (79, false, false)
      ∧ (after (exec .stepTo (at4 { s0 with cyl := 3 } 0xFFFFFFFFFFFFFFFE 0 0 0))).cyl = 0 := by decide +kernel

/-- V-PHA-21. -/
theorem test_stepTo_sound :
    (after (exec .stepTo (at4 spin 5 500000000 0 0))).seekSound = false
      ∧ (after (exec .stepTo (at4 spin 6 500000001 0 0))).seekSound = true := by decide +kernel

/-- V-PHA-23. -/
theorem test_setSide : (after (exec .setSide (at4 s0 3 0 0 0))).ss = true := by decide +kernel

/-- V-PHA-22. -/
theorem test_getLines :
    (fun t : State => (t.x.x0, t.x.x1, t.x.x2, t.seekSound))
        (after (exec .getLines { spin with cyl := 6, seekSound := true, ready := true })) = (0x63, 6, 0, false) := by decide +kernel

/-- R86 with 10_state.md R23: after reset `DOOR`, `TRK0` and the write-protect line, 1 with no disk, read as 1 (log entry 18). -/
theorem test_getLines_reset : (after (exec .getLines s0)).x.x0 = 0x98 := by decide +kernel

/-- V-EXC-4. -/
theorem test_getFault :
    (fun t : State => (t.x.x0, t.x.x1, t.x.x2, t.st)) (after (exec .getFault { s0 with fault := true, fcode := 1 })) = (1, 1, 0, 0) := by
  decide +kernel

/-! ### Commands: SEQ -/

/-- V-SEQ-1. -/
theorem test_getNextTransition :
    (after (exec .getNextTransition (at4 spin 6999 0 0 0))).x.x0 = 7000
      ∧ (after (exec .getNextTransition (at4 spin 7000 0 0 0))).x.x0 = 200001000 := by decide +kernel

/-- V-SEQ-4; P4 step 11. -/
theorem test_getNextTransition_never :
    (after (exec .getNextTransition (at4 disk 0 0 0 0))).x.x0 = never
      ∧ (after (exec .getNextTransition (at4 { spin with cyl := 45 } 0 0 0 0))).x.x0 = never := by decide +kernel

/-- V-SEQ-9. -/
theorem test_writeFlux :
    (fun t : State => (t.buf 0 0, t.dirtyLoad, t.dirtyRestore, t.imgChanged))
        (after (exec .writeFlux { at4 spin 2000 6000 0 0 with trn := [2500] }))
      = ([1000, 2500, 5999, 7000], true, true, true) := by decide +kernel

/-- P4 step 4. -/
theorem test_writeFlux_damaged :
    (after (exec .writeFlux { at4 scarred 0 2000 0 0 with trn := [50, 150, 500] })).buf 0 0
      = [0x00000032, 0x00000063, 0x20000064, 0x300000C8, 0x000001F4] := by decide +kernel

/-- V-SEQ-16, V-SEQ-17. -/
theorem test_setWriteSplice :
    ((after (exec .setWriteSplice (at4 spin 400000123 0 0 0))).trackAt 0 0).splice = 123
      ∧ (after (exec .setWriteSplice (at4 disk 7 0 0 0))).st = 1 := by decide +kernel

/-- V-SEQ-18. -/
theorem test_setSeed : (after (exec .setSeed (at4 s0 42 0 0 0))).seed = 42 := by decide +kernel

/-! ### Commands: COD -/

/-- R133. -/
theorem test_clClear : (after (exec .clClear { s0 with cl := [0x500003E8] })).cl = [] := by decide +kernel

/-- V-COD-7, in its last two cells. -/
theorem test_rawW : ((after (exec .rawW (at4 s0 16 0x4489 2000 0))).cl.drop 14) = [0x400007D0, 0x500007D0] := by decide +kernel

/-- V-COD-2. -/
theorem test_fmW : bitsNat (bitsOf (after (exec .fmW (at4 s0 8 0xFE 0 0))).cl) = 0xFFFE := by decide +kernel

/-- V-COD-3, V-COD-5. -/
theorem test_mfmW :
    bitsNat (bitsOf (after (exec .mfmW (at4 s0 8 0x4E 0 0))).cl) = 0x9254
      ∧ bitsNat (bitsOf (after (exec .mfmW (at4 { s0 with cl := [0x500003E8] } 8 0x00 0 0))).cl) = 0x12AAA := by decide +kernel

/-- V-COD-8, V-COD-9; U5 on the last word that `MFM_W` reads, also where it writes none (log entry 21). -/
theorem test_writers_fault :
    (after (exec .mfmW (at4 s0 33 0 0 0))).fcode = 5 ∧ (after (exec .rawW (at4 s0 8 0 0x10000000 0))).fcode = 5
      ∧ (after (exec .mfmW { at4 s0 0 0 0 0 with cl := [0x600003E8] })).fcode = 4
      ∧ (after (exec .fmW { at4 s0 1 1 0 0 with cl := [0x600003E8] })).cl = [0x600003E8, 0x500003E8, 0x500003E8] := by decide +kernel

/-- V-COD-28. -/
theorem test_genTrack :
    (fun t : State => (t.st, t.dirtyLoad, t.buf 0 0))
        (after (exec .genTrack { disk with desc := [⟨0x02, 0x4E, 0⟩, ⟨0x00, 0, 0⟩] })) = (0, true, []) := by decide +kernel

/-- V-COD-27. -/
theorem test_genTrack_no_end :
    (after (exec .genTrack { at4 disk 0 0 16 0 with desc := [⟨0x02, 0x4E, 1⟩] })).fcode = 6 := by decide +kernel

/-- V-COD-12. -/
theorem test_genFromCells :
    (after (exec .genFromCells { disk with cl := [0x500003E8, 0x400003E8, 0x500003E8, 0x400003E8] })).buf 0 0
      = [25000000, 125000000] := by decide +kernel

/-- V-COD-13. -/
theorem test_genFromCells_parity :
    (fun t : State => (t.buf 0 0, (t.trackAt 0 0).splice))
        (after (exec .genFromCells { at4 disk 0 0 5 0 with cl := [0x500003E8, 0x400003E8, 0x400003E8, 0x400003E8] }))
      = ([25000000, 75000000], 50000000) := by decide +kernel

/-- R164 (b): two cells of half a revolution. -/
theorem test_genBitstream :
    (fun t : State => (t.st, t.bs, t.x.x0))
        (after (exec .genBitstream
          { at4 disk 0 0 100000000 0 with trk := [(0, { events := [50000000], splice := 0, hasDamaged := false })] }))
      = (0, [true, false], 2) := by decide +kernel

/-- V-PLL-9 on fewer bits. -/
theorem test_extractMfm : (after (exec .extractMfm { at4 s0 9 0 0 0 with bs := [false, true, false] })).x.x0 = 0 := by decide +kernel

/-- V-PLL-9 on fewer bits. -/
theorem test_extractFm : (after (exec .extractFm { at4 s0 9 0 0 0 with bs := [false, true, false] })).x.x0 = 0 := by decide +kernel

/-- R169 to R171, worked: an ID mark at bit 0 and a data mark that ends 256 bits after it; the sector is 0 and its 128 bytes are read
cyclically, from the ID mark's FE on. -/
theorem test_extractFm_finds :
    (fun t : State => (t.x.x0, (t.sect.toList.map Option.isSome).take 2, (t.sect[(0 : Fin 256)]).map (fun l => (l.length, l.take 2))))
        (after (exec .extractFm { s0 with bs := writtenBits 16 0xF57E ++ List.replicate 240 false ++ writtenBits 16 0xF56F }))
      = (1, [true, false], some (128, [0xFE, 0])) := by decide +kernel

/-- V-COD-33, and the layout that does not fit (R150). -/
theorem test_buildPcMfm :
    (after (exec .buildPcMfm { at4 disk 0 0 100000 84 with sdl := [{ record 1 with size := 256 }] })).fcode = 5
      ∧ (after (exec .buildPcMfm (at4 disk 0 0 255 0))).st = 4 := by decide +kernel

/-- R150 with no record: 12 zero bytes, the index mark and its byte are 256 cells. -/
theorem test_buildPcMfm_fits :
    (fun t : State => (t.st, t.cl.length, bitsNat (bitsOf (t.cl.drop 192)))) (after (exec .buildPcMfm (at4 disk 0 0 256 0)))
      = (0, 256, 0x5224522452245552 + 0) := by decide +kernel

/-- R152 with no record: 6 zero bytes and the index mark are 112 cells. -/
theorem test_buildPcFm :
    (fun t : State => (t.st, t.cl.length, bitsNat (bitsOf (t.cl.drop 80)))) (after (exec .buildPcFm (at4 disk 0 0 112 0)))
      = (0, 112, 0xAAAAF77A) := by decide +kernel

/-! ### Commands: CRC -/

/-- V-CRC-7 over one byte: `RAW 0xF57E` is the FM mark FE, of 16 cells; R177 on the empty region. -/
theorem test_crcCells :
    (after (exec .crcCells { at4 s0 0 16 0 0 with cl := writeRaw 16 0xF57E 1000 [] })).x.x0 = (crcOfBytes [0xFE]).setWidth 64
      ∧ (after (exec .crcCells (at4 s0 0 0 0 0))).x.x0 = 0xFFFF := by decide +kernel

/-- V-CRC-5, V-CRC-6: the faults; U5 on a duration of 0 (log entry 22). -/
theorem test_crcCells_faults :
    (after (exec .crcCells { at4 s0 0 1 0 0 with cl := [0x1000000A, 0x30000001] })).fcode = 5
      ∧ (after (exec .crcCells { at4 s0 0 4 0 0 with cl := [0x1000000A, 0x30000001] })).fcode = 6
      ∧ (after (exec .crcCells { at4 s0 0 2 0 0 with cl := [0x1000000A, 0x30000001] })).fcode = 4
      ∧ (after (exec .crcCells { at4 s0 0 2 0 0 with cl := [0x500003E8, 0x40000000] })).fcode = 4 := by decide +kernel

/-- R181: `123456789`. -/
theorem test_crcBytes :
    (after (exec .crcBytes { s0 with bytes := [0x31, 0x32, 0x33, 0x34, 0x35, 0x36, 0x37, 0x38, 0x39] })).x.x0 = 0x29B1 := by
  decide +kernel

/-! ### Commands: BUF -/

/-- V-BUF-1. -/
theorem test_insert :
    (fun t : State => (t.st, t.diskPresent, t.allocTracks, t.allocSides, t.imgChanged, t.door))
        (after (exec .insert (at4 s0 0 1 40 1))) = (0, true, 40, 1, true, true) := by decide +kernel

/-- V-BUF-2, V-BUF-4. -/
theorem test_insert_refusals :
    (after (exec .insert (at4 s0 0 0 40 1))).fcode = 5 ∧ (after (exec .insert (at4 s0 0 1 84 1))).st = 0
      ∧ (after (exec .insert (at4 s0 0 1 85 1))).st = 6 := by decide +kernel

/-- V-BUF-7. -/
theorem test_eject :
    (fun t : State => (t.st, t.diskPresent, t.allocTracks, t.trk.length)) (after (exec .eject disk)) = (0, false, 0, 0)
      ∧ (after (exec .eject s0)).st = 3 := by decide +kernel

/-- V-BUF-8, on L0; V-BUF-9. -/
theorem test_getBuffer :
    (fun t : State => (t.tl, t.x.x0, t.x.x1, t.x.x2)) (after (exec .getBuffer disk)) = ([1000, 3000, 5000, 7000], 4, 0, 0)
      ∧ (after (exec .getBuffer scarred)).x.x2 = 1 := by decide +kernel

/-- V-EXC-6. -/
theorem test_getBuffer_range :
    (fun t : State => (t.st, t.fault, t.fcode, t.finfo, t.x.x0)) (after (exec .getBuffer (at4 disk 40 0 0 0)))
      = (0xFE, true, 1, 0, 40) := by decide +kernel

/-- V-BUF-8. -/
theorem test_putBuffer :
    (fun t : State => (t.buf 0 0, (t.trackAt 0 0).splice, t.dirtyLoad))
        (after (exec .putBuffer { at4 disk 0 0 5000 0 with tl := [1000] })) = ([1000], 5000, true) := by decide +kernel

/-- V-BUF-10. -/
theorem test_putBuffer_faults :
    (after (exec .putBuffer { at4 disk 0 0 0 0 with tl := [0x300000C8] })).fcode = 4
      ∧ (after (exec .putBuffer { at4 disk 0 0 0 0 with tl := [1000, 1000] })).fcode = 4
      ∧ (after (exec .putBuffer { at4 disk 0 0 200000000 0 with tl := [] })).fcode = 5 := by decide +kernel

/-- V-BUF-12. -/
theorem test_resizeTracks :
    (after (exec .resizeTracks (at4 disk 84 0 0 0))).allocTracks = 84 ∧ (after (exec .resizeTracks (at4 disk 40 0 0 0))).st = 1 := by
  decide +kernel

/-- V-BUF-15. -/
theorem test_trackIsFormatted :
    (after (exec .trackIsFormatted disk)).x.x0 = 1 ∧ (after (exec .trackIsFormatted (at4 disk 1 0 0 0))).x.x0 = 0 := by decide +kernel

/-- R189, and V-BUF-14. -/
theorem test_actualGeometry :
    (fun t : State => (t.x.x0, t.x.x1)) (after (exec .actualGeometry disk)) = (1, 1)
      ∧ (fun t : State => (t.x.x0, t.x.x1)) (after (exec .actualGeometry { disk with trk := [] })) = (0, 0) := by decide +kernel

/-- V-BUF-17, V-BUF-16. -/
theorem test_readSector :
    (fun t : State => (t.bytes, t.x.x0))
        (after (exec .readSector { at4 raw 0 0 1 4 with rawsec := [(0, 0xDE), (1, 0xAD), (2, 0xBE), (3, 0xEF)] }))
      = ([0xDE, 0xAD, 0xBE, 0xEF], 4)
      ∧ (after (exec .readSector (at4 disk 0 0 1 512))).st = 2 := by decide +kernel

/-- V-BUF-17, at the offset of V-BUF-18; V-BUF-21. -/
theorem test_writeSector :
    (after (exec .writeSector { at4 raw 1 1 3 2 with bytes := [0xDE, 0xAD] })).rawsec = [(28672, 0xDE), (28673, 0xAD)]
      ∧ (after (exec .writeSector { at4 raw 0 0 1 4 with bytes := [1, 2] })).fcode = 6 := by decide +kernel

/-- V-BUF-24. -/
theorem test_saveState :
    (fun t : State => (t.x.x0, t.ckp))
        (after (exec .saveState
          { disk with
            allocTracks := 1, dirtyLoad := true, trk := [(0, { events := [1000, 3000], splice := 0, hasDamaged := false })] }))
      = (22, [1, 2, 0, 0, 0, 0, 0, 0, 0, 0xE8, 3, 0, 0, 0xB8, 0x0B, 0, 0, 0, 0, 0, 0, 0]) := by decide +kernel

/-- V-BUF-27. -/
theorem test_loadState :
    (fun t : State => (t.st, t.buf 0 0, t.dirtyLoad, t.dirtyRestore))
        (after (exec .loadState
          { disk with
            allocTracks := 1
            ckp := [1, 2, 0, 0, 0, 0, 0, 0, 0, 0xE8, 3, 0, 0, 0xB8, 0x0B, 0, 0, 0, 0, 0, 0, 0] }))
      = (0, [1000, 3000], true, false)
      ∧ (after (exec .loadState
          { disk with
            allocTracks := 1
            ckp := [1, 2, 0, 0, 0, 0, 0, 0, 0, 0xE8, 3, 0, 0, 0xB8, 0x0B, 0, 0, 0, 0, 0, 0] })).st = 5 := by decide +kernel

/-- R192. -/
theorem test_setWp : (after (exec .setWp (at4 disk 1 0 0 0))).wp = true ∧ (after (exec .setWp (at4 s0 1 0 0 0))).st = 3 := by
  decide +kernel

/-- V-BUF-22. -/
theorem test_pollChanged :
    (fun t : State => (t.x.x0, t.imgChanged)) (after (exec .pollChanged { disk with imgChanged := true })) = (1, false) := by
  decide +kernel

/-- V-BUF-23; program P1, step 20. -/
theorem test_getFlags :
    (after (exec .getFlags { disk with wp := true, imgChanged := true })).x.x0 = 0x13
      ∧ (after (exec .getFlags { disk with dirtyLoad := true, dirtyRestore := true, imgChanged := true })).x.x0 = 0x1D := by
  decide +kernel

/-- V-BUF-30. -/
theorem test_clearDirty :
    (fun t : State => (t.dirtyLoad, t.dirtyRestore))
        (after (exec .clearDirty (at4 { disk with dirtyLoad := true, dirtyRestore := true } 1 0 0 0))) = (false, true)
      ∧ (after (exec .clearDirty (at4 disk 4 0 0 0))).fcode = 5 := by decide +kernel

/-- V-BUF-6. -/
theorem test_getProps :
    (after (exec .getProps disk)).x = { x0 := 1, x1 := 1, x2 := 40, x3 := 1, x4 := 9, x5 := 512, x6 := 250000, x7 := 0 } := by
  decide +kernel

/-! ### Descriptor ops -/

/-- R139: a program of no cells for a track of 16 faults with `F_TRACK_SIZE` and the count. -/
theorem test_endDesc :
    (fun t : State => (t.fcode, t.finfo, t.gen.isNone)) (after (exec .endDesc (stepping []))) = (2, 0, true) := by decide +kernel

/-- V-COD-2. -/
theorem test_fm : bitsNat (bitsOf (interp (after (exec (.fm 0xFE 1) (stepping [])))).cl) = 0xFFFE := by decide +kernel

/-- Program P2, element 0. -/
theorem test_mfm : bitsNat (bitsOf (interp (after (exec (.mfm 0x4E 2) (stepping [])))).cl) = 0x92549254 := by decide +kernel

/-- Program P2, element 5. -/
theorem test_raw : bitsNat (bitsOf (interp (after (exec (.raw 0x4489 3) (stepping [])))).cl) = 0x448944894489 := by decide +kernel

/-- Program P2: C = 05 after a data bit 0 at the sync's end. -/
theorem test_trackId :
    bitsNat (bitsOf (interp (after (exec .trackId (stepping [])))).cl) = 0xAA91 := by decide +kernel

/-- R135: 05 in FM. -/
theorem test_trackIdFm : bitsNat (bitsOf (interp (after (exec .trackIdFm (stepping [])))).cl) = 0xAABB := by decide +kernel

/-- Program P2: H = 01 after a data bit 1. -/
theorem test_headId :
    bitsNat (bitsOf ((interp (after (exec .headId (stepping [0x500003E8])))).cl.drop 1)) = 0x2AA9 := by decide +kernel

/-- R135: 01 in FM. -/
theorem test_headIdFm : bitsNat (bitsOf (interp (after (exec .headIdFm (stepping [])))).cl) = 0xAAAB := by decide +kernel

/-- V-COD-6: 01 in MFM; V-COD-23. -/
theorem test_sectorId :
    bitsNat (bitsOf (interp (after (exec .sectorId looping))).cl) = 0xAAA9 ∧ (after (exec .sectorId (stepping []))).fcode = 3 := by
  decide +kernel

/-- R135, R142. -/
theorem test_sectorIdFm : bitsNat (bitsOf (interp (after (exec .sectorIdFm looping))).cl) = 0xAAAB := by decide +kernel

/-- R136, R142: size 00. -/
theorem test_sizeId : bitsNat (bitsOf (interp (after (exec .sizeId looping))).cl) = 0xAAAA := by decide +kernel

/-- V-COD-2: size 00. -/
theorem test_sizeIdFm : bitsNat (bitsOf (interp (after (exec .sizeIdFm looping))).cl) = 0xAAAA := by decide +kernel

/-- R143. -/
theorem test_crcCcittStart :
    (interp (after (exec (.crcCcittStart 15) (stepping [0x500003E8])))).region 15 = some { kind := .mfm, start := 1, stop := none }
      ∧ (after (exec (.crcCcittStart 16) (stepping []))).fcode = 3 := by decide +kernel

/-- R143. -/
theorem test_crcCcittFmStart :
    (interp (after (exec (.crcCcittFmStart 0) (stepping [])))).region 0 = some { kind := .fm, start := 0, stop := none } := by
  decide +kernel

/-- R144; V-COD-26 for a region not started. -/
theorem test_crcEnd :
    (interp (after (exec (.crcEnd 0) inRegion))).region 0 = some { kind := .fm, start := 0, stop := some 16 }
      ∧ (after (exec (.crcEnd 1) inRegion)).fcode = 3 := by decide +kernel

/-- R145, R181: the CRC-CCITT of the one byte FE, worked from R175. -/
theorem test_crc :
    dataBits ((interp (after (exec (.crc 0) inRegion))).cl.drop 16) = (List.range 16).map (fun j => (crcOfBytes [0xFE]).getMsbD j)
      ∧ (after (exec (.crc 2) inRegion)).fcode = 3 := by decide +kernel

/-- Program P2, element 2, after `SECTOR_INTERLEAVE_SKIP 2, 0`; V-COD-25. -/
theorem test_sectorLoopStart :
    ((interp (after (exec (.sectorLoopStart 0 2)
        { stepping [] with gen := some { startInterp 5 1 16 1000 with il := 2 } }))).loop.map SectorLoop.order) = some [0, 2, 1]
      ∧ (after (exec (.sectorLoopStart 0 3) (stepping []))).fcode = 6 := by decide +kernel

/-- R146: the second physical sector of program P2 is the record 2. -/
theorem test_sectorLoopEnd :
    (fun g : Interp => (g.cur, g.dpc)) (interp (after (exec .sectorLoopEnd looping))) = (some 2, 3)
      ∧ (after (exec .sectorLoopEnd (stepping []))).fcode = 3 := by decide +kernel

/-- R147: 01 01 in MFM. -/
theorem test_sectorData : bitsNat (bitsOf (interp (after (exec .sectorData looping))).cl) = 0xAAA92AA9 := by decide +kernel

/-- R147: 01 01 in FM. -/
theorem test_sectorDataFm : bitsNat (bitsOf (interp (after (exec .sectorDataFm looping))).cl) = 0xAAABAAAB := by decide +kernel

/-- R148. -/
theorem test_sectorInterleaveSkip :
    (fun g : Interp => (g.il, g.sk, g.dpc)) (interp (after (exec (.sectorInterleaveSkip 2 1) (stepping [])))) = (2, 1, 1) := by
  decide +kernel

/-! ### The step -/

/-- V-EXC-3: while `FAULT = 1` a command is refused. -/
theorem test_step_refuses :
    (fun t : State => (t.st, t.imgChanged))
        (after (step { s0 with fault := true, fcode := 1, imgChanged := true, inbox := [.word 0x4C#32] })) = (0xFF, true) := by
  decide +kernel

/-- R96 with the timer due at the command's own `now`: the pulse falls at 2,000,000 before the motor command runs. -/
theorem test_step_timer_first :
    (fun t : State => (t.edges, t.motor, t.st))
        (after (step { at4 { spin with idx := true, idxTimer := 2000000 } 1 2000000 0 0 with inbox := [.word 0x01#32] }))
      = ([{ level := false, time := some 2000000 }], true, 0) := by decide +kernel

/-- R96 with R217 step 9: the same before a read of the channel at that time. -/
theorem test_step_timer_before_read :
    (fun t : State => (t.edges, t.idxTimer, t.x.x0, t.st))
        (after (step { at4 { spin with idx := true, idxTimer := 2000000 } 2000000 0 0 0 with inbox := [.word 0x10#32] }))
      = ([{ level := false, time := some 2000000 }], 200000000, 200001000, 0) := by decide +kernel

/-- R221: a step command at 200,000,001 passes the timer pending at 2,000,000, and the timer does not fire late. -/
theorem test_step_timer_missed :
    (fun t : State => (t.edges, t.idx, t.readyCnt, t.timerMissed))
        (after (step (after (step
          { at4 { spin with idx := true, idxTimer := 2000000 } 5 200000001 0 0 with inbox := [.word 0x06#32, .timer] }))))
      = ([], true, 2, true) := by decide +kernel

/-- R221: the next `INDEX_RESYNC` after a missed timer computes exactly, counts only the edges emitted, and arms a timer that fires. -/
theorem test_step_resync_after_missed :
    (fun t : State => (t.revCount, t.revStart, t.edges, t.readyCnt, t.idxTimer))
        (after (step (after (step
          { at4 { spin with idx := true, idxTimer := 2000000, timerMissed := true } 402000000 0 0 0 with
            inbox := [.word 0x02#32, .timer] }))))
      = (3, 600000000, [{ level := false, time := some 402000000 }, { level := true, time := some 600000000 }], 1, 602000000) := by
  decide +kernel

/-- The instruction that `withFetchWord` stores is the one the next step runs. -/
theorem test_withFetchWord :
    (after (step (s0.withFetchWord 32 0x08))).x.x0 = 0x98 ∧ (interp (after (step (s0.withFetchWord 8 0x14)))).dpc = 1 := by
  decide +kernel

/-! ### Witnesses: a state and operands that meet the hypotheses of each obligation, clause by clause -/

/-- A machine whose next input is `ev`. -/
def told (s : State) (ev : HostInput) : State := { s with inbox := [ev] }

theorem spin_inv : Inv spin where
  params := by decide +kernel
  memory := by decide +kernel
  tracks := by
    intro e he
    obtain rfl := List.mem_singleton.mp he
    exact ⟨by decide +kernel, by decide +kernel, by decide +kernel, by decide +kernel, by decide +kernel⟩
  cylinder := by decide +kernel
  ready := by decide +kernel
  readyCount := by decide +kernel
  timer := by decide +kernel
  index := by decide +kernel
  noDisk := fun h => by cases h
  sides := fun _ => ⟨rfl, .inl rfl⟩
  extent := by decide +kernel
  rawsec := by decide +kernel
  noFault := by decide +kernel
  faultCode := by decide +kernel

theorem scarred_inv : Inv scarred where
  params := by decide +kernel
  memory := by decide +kernel
  tracks := by
    intro e he
    obtain rfl := List.mem_singleton.mp he
    exact ⟨by decide +kernel, by decide +kernel, by decide +kernel, by decide +kernel, by decide +kernel⟩
  cylinder := by decide +kernel
  ready := by decide +kernel
  readyCount := by decide +kernel
  timer := by decide +kernel
  index := by decide +kernel
  noDisk := fun h => by cases h
  sides := fun _ => ⟨rfl, .inl rfl⟩
  extent := by decide +kernel
  rawsec := by decide +kernel
  noFault := by decide +kernel
  faultCode := by decide +kernel

theorem no_flux_of_nil {L : List Word32} (h : L = []) : ∀ e ∈ L, tagOf e ≠ some .flux := by
  subst h
  simp

theorem witness_DecodeEncode : Instr.wellFormed (.crc 15) = true ∧ Instr.wellFormed (.sectorLoopStart 4 4) = true := by decide +kernel

theorem witness_EncodeDecode :
    decodeWord 0x4F#32 = .ok .getProps ∧ decodeElem { op := 0x03, p1 := 0x14489, p2 := 1 } = .ok (.raw 0x4489 1) := by decide +kernel

theorem witness_IllegalWordRefused :
    ((told s0 (.word 0x100#32)).gen = none ∧ (told s0 (.word 0x100#32)).inbox = [.word 0x100#32]
        ∧ decodeWord 0x100#32 = .error .reservedBits)
      ∧ (told { s0 with fault := true } (.word 0x4C#32)).fault = true ∧ (0x4C#32 : Word32) ≠ 0x09#32 := by decide +kernel

theorem witness_StepRunsDecodedWord :
    (told s0 (.word 0x01#32)).gen = none ∧ (told s0 (.word 0x01#32)).inbox = .word 0x01#32 :: []
      ∧ decodeWord 0x01#32 = .ok .setMotor ∧ (told s0 (.word 0x01#32)).fault = false
      ∧ decodeWord 0x09#32 = .ok .getFault := by decide +kernel

theorem witness_StepRunsDescriptorElement :
    (stepping []).gen = some (startInterp 5 1 16 1000) ∧ (stepping []).desc[(0 : Nat)]? = none
      ∧ ({ stepping [] with desc := [⟨0x15, 0, 0⟩] } : State).desc[(0 : Nat)]? = some ⟨0x15, 0, 0⟩
      ∧ decodeElem ⟨0x15, 0, 0⟩ = .error (.illegalDescriptorOp 0x15)
      ∧ decodeElem ⟨0x02, 0x4E, 1⟩ = .ok (.mfm 0x4E 1) := by decide +kernel

theorem witness_HostInputsSetOnePlace :
    s0.gen = none ∧ s0.inbox = [] ∧ (told s0 (.writeX 7 5)).inbox = .writeX 7 5 :: [] ∧ (told s0 (.loadCl [1])).inbox = .loadCl [1] :: []
      ∧ (told s0 (.loadBs [true])).inbox = .loadBs [true] :: [] ∧ (told s0 (.loadDesc [])).inbox = .loadDesc [] :: []
      ∧ (told s0 (.loadSdl [])).inbox = .loadSdl [] :: [] ∧ (told s0 (.loadTl [1])).inbox = .loadTl [1] :: []
      ∧ (told s0 (.loadTrn [1])).inbox = .loadTrn [1] :: [] ∧ (told s0 (.loadBytes [1])).inbox = .loadBytes [1] :: []
      ∧ (told s0 (.loadCkp [1])).inbox = .loadCkp [1] :: []
      ∧ (told s0 (.loadSect (Vector.replicate 256 none))).inbox = .loadSect (Vector.replicate 256 none) :: []
      ∧ (told spin .reset).inbox = .reset :: [] :=
  ⟨rfl, rfl, rfl, rfl, rfl, rfl, rfl, rfl, rfl, rfl, rfl, rfl, rfl⟩

theorem witness_TimerPerformsResync :
    (told s0 .timer).inbox = .timer :: [] ∧ s0.idxTimer = never ∧ ({ spin with idxTimer := 2000000, fault := true } : State).fault = true
      ∧ ({ spin with idxTimer := 2000000 } : State).idxTimer ≠ never ∧ ({ spin with idxTimer := 2000000 } : State).timerMissed = false
      ∧ commandNow .setMotor (at4 { spin with idxTimer := 2000000 } 1 2000000 0 0) = some 2000000
      ∧ commandNow .indexResync (at4 { spin with idxTimer := 0 } 0 1 0 0) = some 0
      ∧ commandNow .writeFlux (at4 { spin with idxTimer := 2000000 } 2000000 2000001 0 0) = some 2000000
      ∧ (2000000 : Word64) < 2000001 ∧ (2000001 : Word64) ≠ never ∧ (1999999 : Word64) < 2000000 ∧ never - 1 < never
      ∧ commandNow .getLines s0 = none ∧ commandNow .stepTo (at4 s0 0 0xFFFFFFFFFFFFFFFF 0 0) = some never := by decide +kernel

/-- A state that meets the hypotheses of the last clause of `TimerPerformsResync`: the timer's time, a word, and an idle machine. -/
theorem witness_TimerPerformsResync_missed :
    (fun s : State => step s = .next (after (step s)) ∧ s.timerMissed = true ∧ s.inbox = [.word 0x06#32])
      { at4 { spin with idxTimer := 2000000, timerMissed := true } 5 2000001 0 0 with inbox := [.word 0x06#32] } :=
  ⟨rfl, rfl, rfl⟩

theorem witness_ResetLeaves : (told spin .reset).gen = none ∧ (told spin .reset).inbox = .reset :: [] := ⟨rfl, rfl⟩

theorem witness_StepNeverStops : 1 ≤ ({ s0 with cfg := { setting with rpm := 1 } } : State).cfg.rpm ∧ Instr.getProps.isCommand = true := by
  decide

theorem witness_StepKeepsInv : Inv spin ∧ step spin = .next spin := ⟨spin_inv, rfl⟩

theorem witness_WfTrackMeaning : wfTrack [0x20000064, 0x300000C8, 1000] = true ∧ wfTrack [0x20000064] = false := by decide +kernel

theorem witness_FaultIsAtomic :
    Instr.clearDirty.isCommand = true ∧ exec .clearDirty (at4 spin 4 0 0 0) = .next (after (exec .clearDirty (at4 spin 4 0 0 0)))
      ∧ (after (exec .clearDirty (at4 spin 4 0 0 0))).st = 0xFE := ⟨rfl, rfl, rfl⟩

theorem witness_StatusChangesOnlySt :
    Instr.eject.isCommand = true ∧ exec .eject s0 = .next (after (exec .eject s0)) ∧ (after (exec .eject s0)).st ≠ 0x00
      ∧ (after (exec .eject s0)).st ≠ 0xFE := ⟨rfl, rfl, by decide +kernel, by decide +kernel⟩

theorem witness_FaultIsSticky :
    step (told { s0 with fault := true } (.writeX 0 1)) = .next (after (step (told { s0 with fault := true } (.writeX 0 1))))
      ∧ (told { s0 with fault := true } (.writeX 0 1)).fault = true
      ∧ (told { s0 with fault := true } (.writeX 0 1)).inbox.head? ≠ some .reset := ⟨rfl, rfl, by simp [told]⟩

theorem witness_IndexEdgeFollowsLine :
    exec .setSeed s0 = .next (after (exec .setSeed s0)) ∧ Instr.setSeed ≠ .indexResync ∧ Instr.setSeed ≠ .setMotor
      ∧ Instr.setSeed ≠ .eject ∧ Instr.setSeed ≠ .insert
      ∧ exec .setMotor (at4 disk 1 1000 0 0) = .next (after (exec .setMotor (at4 disk 1 1000 0 0)))
      ∧ (some 1000 : Option Word64) = (if Instr.setMotor = .setMotor then some (at4 disk 1 1000 0 0).x.x1
          else if Instr.setMotor = .indexResync then some (at4 disk 1 1000 0 0).x.x0 else none) :=
  ⟨rfl, by decide +kernel, by decide +kernel, by decide +kernel, by decide +kernel, rfl, rfl⟩

theorem witness_WritersOfRegisters :
    exec .setSide s0 = .next (after (exec .setSide s0)) ∧ Instr.setSide ≠ .setMotor ∧ Instr.setSide ≠ .indexResync
      ∧ Instr.setSide ≠ .stepTo ∧ Instr.setSide ≠ .setSeed ∧ Instr.setSide ≠ .insert ∧ Instr.setSide ≠ .eject
      ∧ Instr.setSide ≠ .setWp ∧ Instr.setSide ≠ .resizeTracks ∧ Instr.setSide ≠ .writeSector ∧ Instr.setSide ≠ .getLines
      ∧ Instr.setSeed ≠ .setSide :=
  ⟨rfl, by decide +kernel⟩

theorem witness_NeverTimeFaults :
    (at4 s0 0xFFFFFFFFFFFFFFFF#64 0 0 0).x.x0 = 0xFFFFFFFFFFFFFFFF#64
      ∧ (at4 s0 0 0xFFFFFFFFFFFFFFFF#64 0 0).x.x1 = 0xFFFFFFFFFFFFFFFF#64 := by decide +kernel

theorem witness_TrackCommandChecks :
    s0.diskPresent = false ∧ disk.diskPresent = true ∧ disk.allocTracks.toNat ≤ (at4 disk 40 0 0 0).x.x0.toNat
      ∧ disk.allocSides.toNat ≤ (at4 disk 39 1 0 0).x.x1.toNat := by decide +kernel

theorem witness_TimeOfIsEarliest : (1 ≤ 1 ∧ 1 ≤ 300 ∧ 300 ≤ 300) ∧ (0 : Int) ≤ 0 ∧ (199999999 : Int) < 200000000 := by decide +kernel

theorem witness_QuantizerMonotone :
    (5 : Int) ≤ 5 ∧ 300 * 200000000 ≤ 60 * 10 ^ 9 ∧ (0 * 200000000 + 199999999 : Int) < 1 * 200000000 + 0 := by decide +kernel

theorem witness_SetMotorResult :
    (at4 disk 1 0 0 0).x.x1 ≠ never ∧ (at4 disk 1 0 0 0).x.x0.getLsbD 0 = true ∧ disk.motor = false ∧ disk.diskPresent = true
      ∧ s0.diskPresent = false ∧ (at4 disk 2 0 0 0).x.x0.getLsbD 0 = false ∧ spin.motor = true
      ∧ (at4 disk 1 0xFFFFFFFFFFFFFFFF 0 0).x.x1 = never := by decide +kernel

theorem witness_IndexResyncResult :
    (at4 spin 1999999 0 0 0).x.x0 ≠ never ∧ spin.motor = true ∧ spin.diskPresent = true ∧ disk.motor = false
      ∧ angleRev 300 0 1999999 = 0 ∧ anglePos 300 0 1999999 = 1999999 ∧ anglePos 300 0 2000000 = 2000000
      ∧ (at4 spin 0xFFFFFFFFFFFFFFFF 0 0 0).x.x0 = never := by decide +kernel

theorem witness_RevolutionAccounting :
    spin.motor = true ∧ spin.diskPresent = true ∧ 1 ≤ spin.cfg.rpm ∧ (at4 spin 0 0 0 0).x.x0 ≠ never
      ∧ spin.t0 ≤ (at4 spin 0 0 0 0).x.x0 ∧ angleRev 300 0 0 < 2 ^ 64 := by decide +kernel

theorem witness_TimerFiringMakesOneEdge :
    spin.motor = true ∧ spin.diskPresent = true ∧ 1 ≤ spin.cfg.rpm ∧ spin.cfg.rpm ≤ 1000000 ∧ spin.t0.toNat ≤ 2 ^ 63 - 1
      ∧ 2 ^ 63 - 1 < 2 ^ 63 := by decide +kernel

theorem witness_SpinUpTimeline :
    (fun s : State =>
      s.cfg.rpm = 300 ∧ s.gen = none ∧ s.fault = false ∧ s.diskPresent = true ∧ s.motor = false ∧ s.idx = false
        ∧ s.idxTimer = never ∧ s.x.x0 = 1 ∧ s.x.x1 = 0
        ∧ s.inbox = [.word 0x01#32, .timer, .timer, .timer, .timer])
      { at4 disk 1 0 0 0 with inbox := [.word 0x01#32, .timer, .timer, .timer, .timer] } :=
  ⟨rfl, rfl, rfl, rfl, rfl, rfl, rfl, rfl, rfl, rfl⟩

theorem witness_QuantizerCommands :
    (at4 disk 0 0 0 0).x.x0 ≠ never ∧ disk.motor = false ∧ spin.motor = true ∧ spin.diskPresent = true
      ∧ revTime 300 0 (angleRev 300 0 0 + 1) = 200000000
      ∧ 200000000 ≤ (at4 s0 0 200000000 0 0).x.x1.toNat ∧ (at4 s0 0 199999999 0 0).x.x1.toNat < 200000000
      ∧ angleTime 300 0 0 199999999 = 199999999 ∧ angleTime 300 0 (-1) 199999999 < 0
      ∧ (at4 s0 0xFFFFFFFFFFFFFFFF 0 0 0).x.x0 = never := by decide +kernel

theorem witness_HeadCommands :
    (at4 s0 79 0 0 0).x.x1 ≠ never ∧ 1 ≤ s0.cfg.driveTracks ∧ s0.cfg.driveTracks ≤ 2 ^ 32
      ∧ ((79 : Nat) : Int) = min (max (at4 s0 95 0 0 0).x.x0.toInt 0) (s0.cfg.driveTracks - 1) ∧ 79 ≠ s0.cyl.toNat
      ∧ ((0 : Nat) : Int) = min (max (at4 s0 0xFFFFFFFFFFFFFFFE 0 0 0).x.x0.toInt 0) (s0.cfg.driveTracks - 1) ∧ 0 = s0.cyl.toNat
      ∧ (at4 s0 2 0 0 0).x.x0.getLsbD 0 = s0.ss ∧ (at4 s0 3 0 0 0).x.x0.getLsbD 0 ≠ s0.ss
      ∧ (at4 s0 95 0xFFFFFFFFFFFFFFFF 0 0).x.x1 = never := by decide +kernel

theorem witness_FlagCommands :
    s0.diskPresent = false ∧ disk.diskPresent = true ∧ (at4 disk 3 0 0 0).x.x0.toNat < 4 ∧ 4 ≤ (at4 disk 4 0 0 0).x.x0.toNat := by decide +kernel

theorem witness_UnformattedReadsNever :
    (disk.diskPresent = true ∧ disk.props.kind = false ∧ disk.cyl.toNat < disk.allocTracks.toNat
        ∧ disk.head < disk.allocSides.toNat)
      ∧ s0.diskPresent = false ∧ raw.props.kind = true ∧ disk.allocTracks.toNat ≤ ({ disk with cyl := 40 } : State).cyl.toNat
      ∧ disk.allocSides.toNat ≤ ({ disk with ss := true } : State).head ∧ disk.motor = false
      ∧ ∀ e ∈ ({ spin with ss := true } : State).readTrack, tagOf e ≠ some .flux :=
  ⟨by decide, by decide, by decide, by decide, by decide, by decide, no_flux_of_nil rfl⟩

theorem witness_NextTransitionIsFirst :
    (at4 spin 7000 0 0 0).x.x0 ≠ never ∧ spin.motor = true ∧ 1 ≤ spin.cfg.rpm ∧ wfTrack spin.readTrack = true
      ∧ ∃ e ∈ spin.readTrack, tagOf e = some .flux :=
  ⟨by decide, by decide, by decide, by decide, 1000, List.mem_cons_self, rfl⟩

theorem witness_CacheInvalidated :
    (after (exec .setMotor (at4 disk 1 0 0 0))).st = 0 ∧ (after (exec .setMotor (at4 disk 1 0 0 0))).motor ≠ disk.motor
      ∧ (after (exec .stepTo (at4 disk 1 0 0 0))).cyl ≠ disk.cyl ∧ (after (exec .setSide (at4 disk 1 0 0 0))).ss ≠ disk.ss
      ∧ (after (exec .eject disk)).st = 0 := by decide +kernel

theorem witness_WriteFluxOutcomes :
    (at4 spin 6000 6000 0 0).x.x0 ≠ never ∧ (at4 spin 6000 6000 0 0).x.x1 ≠ never
      ∧ (at4 spin 6000 6000 0 0).x.x1 ≤ (at4 spin 6000 6000 0 0).x.x0
      ∧ spin.motor = true ∧ spin.diskPresent = true ∧ spin.wp = false ∧ spin.props.kind = false
      ∧ spin.cyl.toNat < spin.allocTracks.toNat ∧ spin.head < spin.allocSides.toNat
      ∧ (at4 spin 0 200000001 0 0).x.x0 < (at4 spin 0 200000001 0 0).x.x1
      ∧ 200000000 < spin.angleAt 200000001 - spin.angleAt 0 ∧ spin.angleAt 200000000 - spin.angleAt 0 ≤ 200000000
      ∧ Memory.wf spin = true
      ∧ (fun s : State => s.x.x0 < s.x.x1 ∧ s.angleAt s.x.x1.toNat = s.angleAt s.x.x0.toNat)
          (at4 { spin with cfg := { setting with rpm := 150 } } 0 1 0 0) := by decide +kernel

theorem witness_WriteFluxContent :
    Inv scarred
      ∧ (after (exec .writeFlux { at4 scarred 0 2000 0 0 with trn := [50, 150, 500] })).st = 0x00
      ∧ scarred.angleAt 0 = 0 ∧ scarred.angleAt 2000 = 2000
      ∧ ((2000 : Int) ≤ 2000 ∧ (2000 : Int) % 200000000 = (2000 : Nat))
      ∧ (∃ z ∈ damagedZones (scarred.buf scarred.cyl.toNat scarred.head), z.z1 ≤ 100 ∧ 100 ≤ z.z2)
      ∧ (∀ z ∈ damagedZones (scarred.buf scarred.cyl.toNat scarred.head),
          ¬ (z.z1 ≤ 98 ∧ 98 ≤ z.z2) ∧ ¬ (z.z1 ≤ 98 + 1 ∧ 98 + 1 ≤ z.z2)) :=
  ⟨scarred_inv, by decide +kernel, by decide +kernel, by decide +kernel, by decide +kernel, by decide +kernel, by decide +kernel⟩

/-- The last positions of the two sub-spans of program P4's write: 99, before the zone, where the parity changes, and 1999, where it
stays; and of a write up to the index. -/
theorem witness_WriteFluxContent_last (damaged : Nat → Prop)
    (h : ∀ q : Nat, damaged q ↔ ∃ z ∈ damagedZones (scarred.buf scarred.cyl.toNat scarred.head), z.z1 ≤ q ∧ q ≤ z.z2) :
    ((∀ x : Nat, 0 ≤ x → x ≤ 99 → ¬ damaged x) ∧ damaged (99 + 1))
      ∧ ((∀ x : Nat, 201 ≤ x → x ≤ 1999 → ¬ damaged x) ∧ damaged (201 - 1) ∧ (1999 : Int) + 1 = 2000)
      ∧ (∀ x : Nat, x ∈ (∅ : Finset Nat) ↔ 0 ≤ x ∧ x ≤ 99 ∧ x ∈ fluxPositions (scarred.buf scarred.cyl.toNat scarred.head))
      ∧ (∀ x : Nat, x ∈ ({1000} : Finset Nat)
          ↔ 201 ≤ x ∧ x ≤ 1999 ∧ x ∈ fluxPositions (scarred.buf scarred.cyl.toNat scarred.head))
      ∧ (∀ x : Nat, 201 ≤ x → x ≤ 199999999 → ¬ damaged x) ∧ 199999999 + 1 = 200000000
      ∧ ∀ x : Nat, x ∈ ({1000} : Finset Nat)
          ↔ 201 ≤ x ∧ x ≤ 199999999 ∧ x ∈ fluxPositions (scarred.buf scarred.cyl.toNat scarred.head) := by
  rw [show damagedZones (scarred.buf scarred.cyl.toNat scarred.head) = [{ tag := .damaged, z1 := 100, z2 := 200 }] by decide +kernel] at h
  rw [show fluxPositions (scarred.buf scarred.cyl.toNat scarred.head) = [1000] by decide +kernel]
  simp only [List.mem_singleton, exists_eq_left] at h
  simp only [h, Finset.mem_singleton, List.mem_singleton, Finset.notMem_empty]
  refine ⟨⟨?_, ?_⟩, ⟨?_, ?_, ?_⟩, ?_, ?_, ?_, ?_, ?_⟩
  · intro x _ h2 h3; omega
  · omega
  · intro x h1 _ h3; omega
  · omega
  · omega
  · exact fun x => ⟨False.elim, by omega⟩
  · intro x; constructor <;> omega
  · intro x h1 _ h3; omega
  · trivial
  · intro x; constructor <;> omega

/-- A zone that the write of `[150, 160)` cuts in two, and one that a write of all but one position of it takes away. -/
theorem witness_WriteFluxContent_zone :
    zonesOf [0x10000064, 0x300000C8] = [{ tag := .nonMagnetized, z1 := 100, z2 := 200 }]
      ∧ (∀ q : Nat, 100 ≤ q → q ≤ 149 → ¬ (150 ≤ q ∧ q < 160)) ∧ (150 ≤ 149 + 1 ∧ 149 + 1 < 160) ∧ 100 < 149 ∧ ¬ 100 < 100 :=
  ⟨by decide +kernel, by omega, by omega, by omega, by omega⟩

theorem witness_WriteFluxKeepsDamaged :
    damagedZones (scarred.buf 0 0) = [{ tag := .damaged, z1 := 100, z2 := 200 }]
      ∧ exec .writeFlux (at4 scarred 0 2000 0 0) = .next (after (exec .writeFlux (at4 scarred 0 2000 0 0)))
      ∧ (fun s : State =>
          s.cfg.rpm = 300 ∧ s.t0 = 0 ∧ s.motor = true ∧ s.diskPresent = true ∧ s.wp = false ∧ s.props.kind = false ∧ s.cyl = 0
            ∧ s.ss = false ∧ 0 < s.allocTracks.toNat ∧ 0 < s.allocSides.toNat ∧ s.buf 0 0 = [1000, 3000, 5000, 7000]
            ∧ s.x.x0 = 2000 ∧ s.x.x1 = 6000 ∧ s.trn = [2500] ∧ Memory.wf s = true)
          { at4 spin 2000 6000 0 0 with trn := [2500] } :=
  ⟨by decide +kernel, rfl, by decide +kernel⟩

theorem witness_WriteFluxKeepsParity :
    Inv spin ∧ exec .writeFlux (at4 spin 2000 6000 0 0) = .next (after (exec .writeFlux (at4 spin 2000 6000 0 0)))
      ∧ (fluxPositions (spin.buf 0 0)).length % 2 = 0 := ⟨spin_inv, rfl, by decide +kernel⟩

theorem witness_SpliceAndSeed :
    (at4 spin 0xFFFFFFFFFFFFFFFF 0 0 0).x.x0 = never ∧ (at4 spin 7 0 0 0).x.x0 ≠ never ∧ disk.motor = false ∧ spin.motor = true ∧ spin.diskPresent = true
      ∧ spin.cyl.toNat < spin.allocTracks.toNat ∧ spin.head < spin.allocSides.toNat ∧ Memory.wf spin = true
      ∧ spin.allocTracks.toNat ≤ ({ spin with cyl := 40 } : State).cyl.toNat := by decide +kernel

theorem witness_BitWriterCells :
    (at4 s0 32 0 0xFFFFFFF 0).x.x0.toNat ≤ 32 ∧ (at4 s0 32 0 0xFFFFFFF 0).x.x2.toNat < 2 ^ 28 ∧ 32 < (at4 s0 33 0 0 0).x.x0.toNat
      ∧ 2 ^ 28 ≤ (at4 s0 0 0 0x10000000 0).x.x2.toNat
      ∧ s0.cl.getLast? = none ∧ ({ s0 with cl := [0x600003E8] } : State).cl.getLast? = some 0x600003E8 ∧ kindOf 0x600003E8 = none
      ∧ evPos 0x50000000 = 0 ∧ kindOf 0x30000001 ≠ none ∧ evPos 0x30000001 ≠ 0 := by decide +kernel

theorem witness_GenFromCellsResult :
    disk.diskPresent = true ∧ (at4 disk 39 0 0 0).x.x0.toNat < disk.allocTracks.toNat ∧ disk.x.x1.toNat < disk.allocSides.toNat
      ∧ Memory.wf disk = true
      ∧ (∃ w ∈ ({ disk with cl := [0x50000000] } : State).cl, kindOf w = none ∨ evPos w = 0)
      ∧ (∀ w ∈ ({ disk with cl := [0x500003E8, 0x400003E8] } : State).cl, kindOf w ≠ none ∧ evPos w ≠ 0)
      ∧ (∀ w ∈ ({ disk with cl := [0x500003E8, 0x400003E8] } : State).cl, kindOf w = some .bit0 ∨ kindOf w = some .bit1) := by
  refine ⟨by decide, by decide, by decide, by decide, ⟨0x50000000, List.mem_cons_self, .inr (by decide)⟩, ?_, ?_⟩ <;>
    · simp only [List.mem_cons, List.not_mem_nil, or_false, forall_eq_or_imp, forall_eq]
      decide

/-- R154, worked: an odd number of `BIT1` words, the `BIT1` word of place 0 or the `BIT0` word of place 1 toggled; an even number. -/
theorem witness_GenFromCellsResult_parity :
    ([0x500003E8, 0x400003E8] : List Word32).countP (fun w => kindOf w == some .bit1) % 2 = 1
      ∧ parityFix [0x500003E8, 0x400003E8] 0 = [0x400003E8, 0x400003E8] ∧ parityFix [0x500003E8, 0x400003E8] 1 = [0x500003E8, 0x500003E8]
      ∧ parityFix [0x600003E8, 0x500003E8] 0 = [0x600003E8, 0x400003E8]
      ∧ ([0x500003E8, 0x500003E8] : List Word32).countP (fun w => kindOf w == some .bit1) % 2 = 0 := by decide +kernel

theorem witness_GenTrackRunsProgram :
    disk.diskPresent = true ∧ disk.x.x0.toNat < disk.allocTracks.toNat ∧ disk.x.x1.toNat < disk.allocSides.toNat
      ∧ disk.x.x3.toNat < 2 ^ 28 ∧ Memory.wf disk = true
      ∧ ProgramRuns [⟨0x02, 0x4E, 0⟩, ⟨0x00, 0, 0⟩] [] (startInterp 0 0 0 1000) { startInterp 0 0 0 1000 with dpc := 1 }
      ∧ cellsToTrack [] 0 = .ok ([], 0) ∧ cellsToTrack (writeRaw 1 1 0 []) 0 = .error .cells
      ∧ ProgramRuns [⟨0x00, 0, 0⟩] [] (startInterp 0 0 1 1000) (startInterp 0 0 1 1000)
      ∧ 2 ^ 28 ≤ (at4 disk 0 0 0 0x10000000).x.x3.toNat :=
  ⟨by decide +kernel, by decide +kernel, by decide +kernel, by decide +kernel, by decide +kernel, .more _ _ _ rfl (.last _ _ rfl), rfl,
    rfl, .last _ _ rfl, by decide +kernel⟩

theorem witness_GenTrackIsItsElements :
    disk.gen = none ∧ disk.diskPresent = true ∧ disk.x.x0.toNat < disk.allocTracks.toNat ∧ disk.x.x1.toNat < disk.allocSides.toNat
      ∧ disk.x.x3.toNat < 2 ^ 28 ∧ (at4 disk 0 0 0 0xFFFFFFF).x.x3.toNat < 2 ^ 28 := by decide +kernel

theorem witness_LiteralElements : (stepping []).gen = some (startInterp 5 1 16 1000) := rfl

theorem witness_RecordElements :
    (interp looping).cur = some 0 ∧ looping.sdl[(0 : Nat)]? = some (record 1) ∧ (record 1).data.length = (record 1).actualSize.toNat
      ∧ ({ record 1 with actualSize := 3 } : SectorDesc).data.length ≠ (3 : Word32).toNat ∧ (interp (stepping [])).cur = none := by decide +kernel

theorem witness_CrcElements :
    inRegion.gen = some (interp inRegion) ∧ (15 : Word32).toNat ≤ 15 ∧ 15 < (16 : Word32).toNat
      ∧ (interp inRegion).region 0 = some { kind := .fm, start := 0, stop := some 16 } ∧ (interp inRegion).region 1 = none
      ∧ crcOfCells (interp inRegion).cl 0 16 = .ok (crcOfBytes [0xFE])
      ∧ (interp (after (exec (.crcCcittStart 15) (stepping [])))).region 15 = some { kind := .mfm, start := 0, stop := none }
      ∧ crcOfCells [0x500003E8] 0 1 = .error .operand := by
  decide +kernel

theorem witness_LoopElements :
    (interp (stepping [])).loop = none ∧ (2 : Word32) < 3 ∧ (2 : Word32) ≤ 2 ∧ (stepping []).sdl.length ≤ (3 : Word32).toNat
      ∧ (2 : Word32).toNat < (stepping []).sdl.length
      ∧ (interp (stepping [])).cl.length ≠ (interp (stepping [])).trackSize
      ∧ (startInterp 0 0 0 1000).cl.length = (startInterp 0 0 0 1000).trackSize
      ∧ (startInterp 0 0 0 1000).loop = none ∧ cellsToTrack (startInterp 0 0 0 1000).cl 0 = .ok ([], 0)
      ∧ (interp looping).loop = some { start := 2, first := 0, last := 2, order := [0, 2, 1], k := 0 } ∧ 0 + 1 < 2 - 0 + 1
      ∧ 2 - 0 + 1 ≤ 2 + 1
      ∧ disk.diskPresent = true ∧ (startInterp 39 0 0 1000).c < disk.allocTracks.toNat ∧ (startInterp 39 0 0 1000).h < disk.allocSides.toNat
      ∧ Memory.wf disk = true ∧ cellsToTrack [0x40000000] 0 = .error .cells
      ∧ ({ startInterp 0 0 1 1000 with cl := [0x40000000] } : Interp).cl.length = (startInterp 0 0 1 1000).trackSize := by decide +kernel

theorem witness_BuilderResult :
    disk.diskPresent = true ∧ disk.x.x0.toNat < disk.allocTracks.toNat ∧ disk.x.x1.toNat < disk.allocSides.toNat
      ∧ Memory.wf disk = true ∧ disk.sdl = [] ∧ (256 : Nat) = 16 * (0 + 12 + (if false then 0 else 4) + 0 + 0)
      ∧ (112 : Nat) = 16 * (0 + 6 + (if false then 0 else 1) + 0 + 0)
      ∧ (at4 disk 0 0 255 0).x.x2.toNat < 256 ∧ 256 ≤ (at4 disk 0 0 256 0).x.x2.toNat ∧ (at4 disk 0 0 200000 0).x.x2.toNat ≤ 200000
      ∧ 255 < ({ record 1 with size := 256 } : SectorDesc).size
      ∧ (record 255).track ≤ 255 ∧ (record 255).sector ≤ 255 ∧ (record 255).data.length = (record 255).actualSize.toNat
      ∧ 200000 < (at4 disk 0 0 200001 0).x.x2.toNat
      ∧ (fun fixed : Nat => fixed = 16 * (0 + 12 + (if false then 0 else 4) + 0 + (12 + 8 + 2 + 0 + 12 + 4 + (record 1).data.length + 2))
          ∧ fixed ≤ 1000 ∧ ¬ fixed + 16 * 10 * 1 ≤ 1000 ∧ (1000 - fixed) / (16 * 1) = 4) 928 := by decide +kernel

theorem witness_BitstreamResult :
    disk.diskPresent = true ∧ disk.x.x0.toNat < disk.allocTracks.toNat ∧ disk.x.x1.toNat < disk.allocSides.toNat
      ∧ 2 ^ 28 ≤ (at4 disk 0 0 0x10000000 0).x.x2.toNat ∧ (at4 disk 0 0 100000000 0).x.x2.toNat < 2 ^ 28
      ∧ (∀ e ∈ disk.buf 1 0, tagOf e ≠ some .flux)
      ∧ 100000000 * [true, false].length = 200000000 ∧ (disk.trackAt 0 0).splice = 0
      ∧ fluxPositions [(50000000 : Word32)]
        = ((List.range [true, false].length).filter (fun j => [true, false].getD j false)).map
            (fun j => 100000000 * j + 100000000 / 2) :=
  ⟨by decide, by decide, by decide, by decide, by decide, no_flux_of_nil rfl, by decide, by decide, by decide +kernel⟩

/-- The premises on the PLL's windows: a WF track, and a window with an edge and one without. -/
theorem witness_BitstreamResult_windows (isEdge : Int → Prop)
    (h : ∀ y : Int, isEdge y ↔ ∃ f ∈ fluxPositions (disk.buf disk.x.x0.toNat disk.x.x1.toNat), y % 200000000 = f) :
    wfTrack (disk.buf disk.x.x0.toNat disk.x.x1.toNat) = true ∧ isEdge 1000 ∧ isEdge 200001000
      ∧ (∀ y : Int, 0 ≤ y → y < 1000 → ¬ isEdge y) := by
  rw [show fluxPositions (disk.buf disk.x.x0.toNat disk.x.x1.toNat) = [1000, 3000, 5000, 7000] by decide +kernel] at h
  simp only [List.mem_cons, List.not_mem_nil, or_false, exists_eq_or_imp, exists_eq_left] at h
  simp only [h]
  exact ⟨by decide +kernel, by omega, by omega, by omega⟩

theorem witness_ExtractorsResult : Instr.extractFm = .extractMfm ∨ Instr.extractFm = .extractFm := .inr rfl

theorem witness_CrcCommands :
    (at4 s0 2 0 0 0).x.x1.toNat < (at4 s0 2 0 0 0).x.x0.toNat ∧ (3 - 2) % 2 = 1 ∧ s0.cl.length < (at4 s0 0 2 0 0).x.x1.toNat
      ∧ (∃ j : Nat, 0 ≤ j ∧ j < 2 ∧ (kindOf (([0x1000000A, 0x30000001] : List Word32).getD j 0) ≠ some .bit0
          ∧ kindOf (([0x1000000A, 0x30000001] : List Word32).getD j 0) ≠ some .bit1
          ∨ evPos (([0x1000000A, 0x30000001] : List Word32).getD j 0) = 0))
      ∧ evPos (([0x500003E8, 0x40000000] : List Word32).getD 1 0) = 0
      ∧ (∀ j : Nat, 0 ≤ j → j < 2 → (kindOf (([0x500003E8, 0x400003E8] : List Word32).getD j 0) = some .bit0
          ∨ kindOf (([0x500003E8, 0x400003E8] : List Word32).getD j 0) = some .bit1)
          ∧ evPos (([0x500003E8, 0x400003E8] : List Word32).getD j 0) ≠ 0) :=
  ⟨by decide +kernel, by decide +kernel, by decide +kernel, ⟨0, by decide +kernel, by decide +kernel, .inl (by decide +kernel)⟩,
    by decide +kernel, by
    intro j _ h
    interval_cases j <;> decide⟩

theorem witness_CrcCellsAgreeWithBytes :
    (fun s : State =>
      s.cl = writeBytes .mfm 1000 [0xFE] [] ++ [0x500003E8] ∧ s.x.x0.toNat = ([] : List Word32).length
        ∧ s.x.x1.toNat = (writeBytes .mfm 1000 [0xFE] []).length)
      { at4 s0 0 16 0 0 with cl := writeBytes .mfm 1000 [0xFE] [] ++ [0x500003E8] }
      ∧ (fun s : State =>
          s.cl = writeBytes .fm 0 [0xFE] [] ++ [] ∧ s.x.x0.toNat = ([] : List Word32).length
            ∧ s.x.x1.toNat = (writeBytes .fm 0 [0xFE] []).length)
          { at4 s0 0 16 0 0 with cl := writeBytes .fm 0 [0xFE] [] }
      ∧ 1 ≤ 1000 ∧ 1000 < 2 ^ 28 ∧ ([0xFE] : List Byte) ≠ [] := by decide +kernel

theorem witness_CrcResidue : crcOfBytes [0xA1] = 0x443B := by decide +kernel

theorem witness_InsertAndEject :
    (at4 s0 0 1 84 2).insertOperandsOk = true ∧ (at4 s0 0 1 84 3).insertOperandsOk = false
      ∧ (at4 s0 0 1 84 2).x.x2.toNat ≤ s0.cfg.driveTracks + s0.cfg.excessTracks
      ∧ s0.cfg.driveTracks + s0.cfg.excessTracks < (at4 s0 0 1 85 2).x.x2.toNat ∧ (at4 s0 0 1 84 2).x.x3.toNat ≤ s0.cfg.driveSides
      ∧ s0.diskPresent = false ∧ disk.diskPresent = true := by decide +kernel

theorem witness_TrackReads :
    s0.diskPresent = false ∧ disk.allocTracks.toNat ≤ (at4 disk 40 0 0 0).x.x0.toNat ∧ Inv spin ∧ disk.diskPresent = true ∧ (at4 disk 39 0 0 0).x.x0.toNat < disk.allocTracks.toNat
      ∧ (at4 disk 39 0 0 0).x.x1.toNat < disk.allocSides.toNat ∧ (∃ e ∈ disk.buf 0 0, tagOf e = some .flux)
      ∧ (∀ e ∈ disk.buf 39 0, tagOf e ≠ some .flux) :=
  ⟨by decide, by decide, spin_inv, by decide, by decide, by decide, ⟨1000, List.mem_cons_self, rfl⟩, no_flux_of_nil rfl⟩

theorem witness_TrackWrites :
    s0.diskPresent = false ∧ disk.allocSides.toNat ≤ (at4 disk 0 1 0 0).x.x1.toNat ∧ disk.diskPresent = true ∧ Memory.wf disk = true ∧ (at4 disk 39 0 199999999 0).x.x0.toNat < disk.allocTracks.toNat
      ∧ (at4 disk 39 0 199999999 0).x.x2.toNat < 200000000 ∧ 200000000 ≤ (at4 disk 0 0 200000000 0).x.x2.toNat
      ∧ wfTrack [0x300000C8] = false ∧ wfTrack [1000] = true
      ∧ 2 ^ 32 ≤ (at4 disk 0x100000000 0 0 0).x.x0.toNat ∧ (at4 disk 40 0 0 0).x.x0.toNat ≤ disk.allocTracks.toNat
      ∧ disk.allocTracks.toNat < (at4 disk 0xFFFFFFFF 0 0 0).x.x0.toNat ∧ (at4 disk 0xFFFFFFFF 0 0 0).x.x0.toNat < 2 ^ 32 := by decide +kernel

theorem witness_SectorCommands :
    s0.diskPresent = false ∧ disk.diskPresent = true ∧ disk.props.kind = false ∧ raw.diskPresent = true ∧ raw.props.kind = true ∧ Memory.wf raw = true
      ∧ raw.wp = false ∧ (at4 raw 79 1 18 512).sectorInRange = true ∧ raw.props.spt.toNat < 19 ∧ raw.props.secsize.toNat < 513
      ∧ raw.props.tracks.toNat ≤ 80 ∧ raw.bytes.length < 1 ∧ 0 ≤ raw.bytes.length := by decide +kernel

theorem witness_SaveThenLoadRestores :
    Inv spin ∧ spin.diskPresent = true
      ∧ ({ disk with ckp := spin.checkpoint } : State).allocTracks = spin.allocTracks
      ∧ ({ disk with ckp := spin.checkpoint } : State).allocSides = spin.allocSides
      ∧ (0 : Nat) < spin.checkpoint.length ∧ ([0] : List Byte) ≠ [] :=
  ⟨spin_inv, rfl, rfl, rfl, by decide +kernel, by decide +kernel⟩

/-- The stream of V-BUF-27 is one of acceptable tracks; the empty stream is none. -/
theorem witness_SaveThenLoadRestores_streams :
    (fun (u : State) (tracks : List Track) =>
      u.diskPresent = true ∧ tracks.length = u.allocTracks.toNat * u.allocSides.toNat ∧ (∀ r ∈ tracks, r.good)
        ∧ u.ckp = streamBytes true tracks)
      { disk with
        allocTracks := 1
        ckp := [1, 2, 0, 0, 0, 0, 0, 0, 0, 0xE8, 3, 0, 0, 0xB8, 0x0B, 0, 0, 0, 0, 0, 0, 0] }
      [{ events := [1000, 3000], splice := 0, hasDamaged := false }]
      ∧ ¬ ∃ (dirty : Bool) (tracks : List Track), ({ disk with ckp := [] } : State).ckp = streamBytes dirty tracks := by
  refine ⟨⟨rfl, rfl, ?_, by decide +kernel⟩, ?_⟩
  · intro r hr
    obtain rfl := List.mem_singleton.mp hr
    exact ⟨by decide +kernel, by decide +kernel, by decide +kernel⟩
  · rintro ⟨dirty, tracks, h⟩
    simp [streamBytes] at h

end Sys2Proof.Tests
end

section
/-!
PROOFS. 00_scope.md: every command and every step ends in a next state (R16), and an input of the host sets one place (R14).
-/

namespace Sys2Proof.Machine

/-! ### Outcomes that are next states -/

@[simp] theorem goes_next (s : State) : Goes (.next s) := ⟨s, rfl⟩

@[simp] theorem goes_complete (st : Status) (s : State) : Goes (complete st s) := goes_next _

@[simp] theorem goes_raiseFault (code : FaultCode) (info : Word64) (s : State) : Goes (raiseFault code info s) := goes_next _

@[simp] theorem goes_refuseWord (s : State) : Goes (refuseWord s) := goes_complete _ _

@[simp] theorem goes_ite {c : Prop} [Decidable c] {a b : Outcome} :
    Goes (if c then a else b) ↔ (c → Goes a) ∧ (¬ c → Goes b) := by
  by_cases h : c <;> simp [h]

@[simp] theorem goes_genFromCells (c h sigma : Nat) (cl : List Word32) (s : State) : Goes (genFromCells c h sigma cl s) :=
  genFromCells_goes c h sigma cl s

@[simp] theorem goes_finishTrack (g : Interp) (s : State) : Goes (finishTrack g s) := finishTrack_goes g s

/-! ### Shared operations -/

@[simp] theorem goes_bitWriter (readable : Bool) (write : Nat → Nat → Nat → List Word32 → List Word32) (s : State) :
    Goes (bitWriter readable write s) := by
  unfold bitWriter
  split <;> simp

@[simp] theorem goes_buildTrack (fixedSize : Layout → List SectorDesc → Nat)
    (cells : Layout → Nat → List SectorDesc → List Word32) (s : State) : Goes (buildTrack fixedSize cells s) := by
  simp [buildTrack]

@[simp] theorem goes_onTrack {s : State} {act : Nat → Nat → Outcome} (h : ∀ c k, Goes (act c k)) : Goes (onTrack s act) := by
  simp [onTrack, h]

/-! ### The commands that run a loop -/

/-- 41_flux_sequencer.md R112: a readable track holds a flux transition, at which the scan ends. -/
theorem goes_execGetNextTransition {s : State} (hr : 1 ≤ s.cfg.rpm) : Goes (execGetNextTransition s) := by
  unfold execGetNextTransition
  split
  · exact goes_raiseFault _ _ _
  · rename_i f _
    split
    · rename_i hread
      have hflux : hasTag .flux s.readTrack = true := (Bool.and_eq_true_iff.mp hread).2
      obtain ⟨e, he⟩ := Option.isSome_iff_exists.mp (s.nextTransition_isSome hr f hflux)
      rw [he]
      exact goes_complete _ _
    · exact goes_complete _ _

/-- 43_pll_extract.md R162: the PLL's loop ends. -/
theorem goes_execGenBitstream (s : State) : Goes (execGenBitstream s) := by
  unfold execGenBitstream
  simp only [goes_ite, goes_complete, goes_raiseFault, implies_true, true_and]
  intro _ _
  split
  · exact goes_raiseFault _ _ _
  · rename_i p0 _
    obtain ⟨bs, hbs⟩ := Option.isSome_iff_exists.mp
      (bitstream_isSome (s.buf (unsignedOperand s.x.x0) (unsignedOperand s.x.x1))
        (s.trackAt (unsignedOperand s.x.x0) (unsignedOperand s.x.x1)).splice.toNat p0)
    rw [hbs]
    exact goes_complete _ _

/-- 43_pll_extract.md R166: the hunt ends. -/
theorem goes_execExtractMfm (s : State) : Goes (execExtractMfm s) := by
  obtain ⟨m, hm⟩ := Option.isSome_iff_exists.mp
    (huntMfm_isSome s.bs (s.bs.length + 1) 0 0 { ids := [], dams := [] } (by omega) (by omega))
  unfold execExtractMfm
  rw [hm]
  exact goes_complete _ _

/-- 42_codec.md R137: the descriptor program ends, in `END` or in a fault. -/
theorem goes_execGenTrack (s : State) : Goes (execGenTrack s) := by
  unfold execGenTrack
  simp only [goes_ite, goes_complete, goes_raiseFault, implies_true, true_and]
  intro _ _
  split
  · exact goes_raiseFault _ _ _
  · rename_i d _
    rcases interpret_startInterp s (unsignedOperand s.x.x0) (unsignedOperand s.x.x1) (unsignedOperand s.x.x2) d with
      ⟨g, hg⟩ | ⟨code, hcode⟩
    · rw [hg]; exact goes_finishTrack _ _
    · rw [hcode]; exact goes_raiseFault _ _ _

/-! ### The commands that branch on an operand form -/

theorem goes_execSetMotor (s : State) : Goes (execSetMotor s) := by
  unfold execSetMotor
  split <;> simp

theorem goes_execIndexResync (s : State) : Goes (execIndexResync s) := by
  unfold execIndexResync
  split <;> simp

theorem goes_execTimeNextIndex (s : State) : Goes (execTimeNextIndex s) := by
  unfold execTimeNextIndex
  split <;> simp

theorem goes_execPhaseOf (s : State) : Goes (execPhaseOf s) := by
  unfold execPhaseOf
  split <;> simp

theorem goes_execStepTo (s : State) : Goes (execStepTo s) := by
  unfold execStepTo
  split <;> simp

theorem goes_execWriteFlux (s : State) : Goes (execWriteFlux s) := by
  unfold execWriteFlux
  split <;> simp

theorem goes_execSetWriteSplice (s : State) : Goes (execSetWriteSplice s) := by
  unfold execSetWriteSplice
  split <;> simp

theorem goes_execCrcCells (s : State) : Goes (execCrcCells s) := by
  unfold execCrcCells
  split <;> simp

theorem goes_execLoadState (s : State) : Goes (execLoadState s) := by
  unfold execLoadState
  split
  · exact goes_complete _ _
  · split <;> simp

/-! ### Every command -/

/-- Every command ends in a next state: the four that run a loop by what bounds the loop, the others because each of their branches
completes or takes a fault. -/
theorem goes_exec {i : Instr} {s : State} (hr : 1 ≤ s.cfg.rpm) (hc : i.isCommand = true) : Goes (exec i s) := by
  cases i with
  | getNextTransition => exact goes_execGetNextTransition hr
  | genBitstream => exact goes_execGenBitstream s
  | extractMfm => exact goes_execExtractMfm s
  | genTrack => exact goes_execGenTrack s
  | setMotor => exact goes_execSetMotor s
  | indexResync => exact goes_execIndexResync s
  | timeNextIndex => exact goes_execTimeNextIndex s
  | phaseOf => exact goes_execPhaseOf s
  | stepTo => exact goes_execStepTo s
  | writeFlux => exact goes_execWriteFlux s
  | setWriteSplice => exact goes_execSetWriteSplice s
  | crcCells => exact goes_execCrcCells s
  | loadState => exact goes_execLoadState s
  | rawW | fmW | mfmW => exact goes_bitWriter _ _ _
  | buildPcMfm | buildPcFm => exact goes_buildTrack _ _ _
  | getLines | getFault | setSeed | clClear | extractFm | crcBytes | pollChanged | getFlags | getProps =>
    exact goes_complete _ _
  | timeOf => simp [exec, execTimeOf]
  | setSide => simp [exec, execSetSide]
  | genFromCells => simp [exec, execGenFromCells]
  | insert => simp [exec, execInsert]
  | eject => simp [exec, execEject]
  | getBuffer => simp [exec, execGetBuffer]
  | putBuffer => simp [exec, execPutBuffer]
  | trackIsFormatted => simp [exec, execTrackIsFormatted]
  | resizeTracks => simp [exec, execResizeTracks]
  | actualGeometry => simp [exec, execActualGeometry]
  | readSector => simp [exec, execReadSector]
  | writeSector => simp [exec, execWriteSector]
  | saveState => simp [exec, execSaveState]
  | setWp => simp [exec, execSetWp]
  | clearDirty => simp [exec, execClearDirty]
  | _ => cases hc

/-! ### The step -/

/-- A running interpreter takes its element: it goes on, finishes the track or faults. -/
theorem goes_runElement {f : List SectorDesc → Interp → ElemResult} {s : State} {g : Interp} (hg : s.gen = some g) :
    Goes (runElement f s) := by
  rw [runElement_of_gen hg]
  cases f s.sdl g with
  | run g' => exact goes_next _
  | done g' => exact goes_finishTrack _ _
  | fault code => exact goes_raiseFault _ _ _

theorem goes_elementStep {s : State} {g : Interp} (hg : s.gen = some g) : Goes (elementStep g s) := by
  cases he : s.desc[g.dpc]? with
  | none => rw [elementStep_of_end he]; exact goes_raiseFault _ _ _
  | some e =>
    cases hd : decodeElem e with
    | error r => rw [elementStep_of_illegal he hd]; exact goes_raiseFault _ _ _
    | ok i =>
      rw [elementStep_of_element he hd, exec_element (decodeElem_not_command hd)]
      exact goes_runElement hg

@[simp] theorem State.resync_cfg (s : State) (now : Nat) : (s.resync now).cfg = s.cfg := by rw [State.resync_frame]

/-- What becomes of the index timer before a command does not touch the parameters (10_state.md R25). -/
@[simp] theorem timerFirst_cfg (i : Instr) (s : State) : (timerFirst i s).cfg = s.cfg := by
  rcases timerFirst_cases i s with h | ⟨-, -, h⟩ | ⟨-, h⟩ <;> rw [h]
  · exact s.resync_cfg _
  · rfl

theorem goes_acceptWord {s : State} (hr : 1 ≤ s.cfg.rpm) (w : Word32) : Goes (acceptWord w s) := by
  rcases acceptWord_cases w s with h | ⟨i, hi, -, h⟩ <;> rw [h]
  · exact goes_refuseWord s
  · exact goes_exec (by rwa [timerFirst_cfg]) (decodeWord_command hi)

theorem goes_hostInput {s : State} (hr : 1 ≤ s.cfg.rpm) (ev : HostInput) : Goes (hostInput ev s) := by
  cases ev with
  | word w => exact goes_acceptWord hr w
  | timer => simp [hostInput, timerInput]
  | _ => exact goes_next _

theorem goes_step {s : State} (hr : 1 ≤ s.cfg.rpm) : Goes (step s) := by
  cases hg : s.gen with
  | some g => rw [step_of_gen hg]; exact goes_elementStep hg
  | none =>
    cases hi : s.inbox with
    | nil => rw [step_of_no_input hg hi]; exact goes_next s
    | cons ev rest => rw [step_of_input hg hi]; exact goes_hostInput (s := { s with inbox := rest }) hr ev

/-- Settles O10: each loop of the model ends within its bound, and no other branch of a command or of a step stops. -/
theorem stepNeverStops : Obligations.StepNeverStops :=
  fun _ hr => ⟨goes_step hr, fun _ hc => goes_exec hr hc⟩

/-! ### The host's inputs -/

theorem State.reg_setReg_self (s : State) (i : Fin 8) (v : Word64) : (s.setReg i v).reg i = v := OpRegs.get_set_self _ _ _

theorem State.reg_setReg_ne (s : State) {i j : Fin 8} (v : Word64) (h : j ≠ i) : (s.setReg i v).reg j = s.reg j :=
  OpRegs.get_set_ne _ _ h

/-- An input that the host's arm answers with the next state `t` is a step to `t`. -/
theorem step_of_input_next {s t : State} {ev : HostInput} {rest : List HostInput} (hg : s.gen = none)
    (hi : s.inbox = ev :: rest) (h : hostInput ev { s with inbox := rest } = .next t) : step s = .next t :=
  (step_of_input hg hi).trans h

/-- Settles O7: a step that takes an input is `hostInput`'s arm for it, and each arm writes its one place. -/
theorem hostInputsSetOnePlace : Obligations.HostInputsSetOnePlace := by
  intro s rest hg
  refine ⟨step_of_no_input hg, ?writeX, ?cl, ?bs, ?sect, ?desc, ?sdl, ?tl, ?trn, ?bytes, ?ckp, ?reset⟩
  case writeX =>
    intro i v hi
    exact ⟨{ s with inbox := rest }.setReg i v, step_of_input_next hg hi rfl, rfl, State.reg_setReg_self _ _ _,
      fun _ hj => State.reg_setReg_ne _ _ hj⟩
  case reset =>
    intro hi
    exact ⟨{ s with inbox := rest }.powerOn, step_of_input_next hg hi rfl, rfl, rfl⟩
  case cl | bs | sect | desc | sdl | tl | trn | bytes | ckp => exact fun _ hi => step_of_input_next hg hi rfl

end Sys2Proof.Machine
end

section
/-!
PROOFS. 10_state.md R34: what a well-formed track list is, clause by clause.
-/

namespace Sys2Proof.Machine

/-! ### The brackets of a track list -/

/-- The event opens a zone. -/
def isOpener (e : Word32) : Bool := decide (tagOf e = some .nonMagnetized ∨ tagOf e = some .damaged)

/-- The event closes a zone. -/
def isCloser (e : Word32) : Bool := decide (tagOf e = some .endOfZone)

theorem isOpener_iff (e : Word32) : isOpener e = true ↔ tagOf e = some .nonMagnetized ∨ tagOf e = some .damaged := by
  simp [isOpener]

theorem isCloser_iff (e : Word32) : isCloser e = true ↔ tagOf e = some .endOfZone := by simp [isCloser]

/-- What one event adds to the brackets: its tag is defined, it closes a zone exactly when one is open, and one is open after it
exactly when it is an opener. -/
theorem bracketed_cons (inside : Bool) (e : Word32) (L : List Word32) :
    bracketed inside (e :: L) = true ↔
      (tagOf e).isSome = true ∧ inside = isCloser e ∧ bracketed (isOpener e) L = true := by
  rw [bracketed, isCloser, isOpener]
  rcases tagOf e with _ | (_ | _ | _ | _) <;> simp

/-- Clauses (c) and (d) of R34 position by position, for a list that follows an opener (`inside`) or does not. -/
structure Bracketing (inside : Bool) (L : List Word32) : Prop where
  tagged : ∀ (i : Nat) (e : Word32), L[i]? = some e → (tagOf e).isSome = true
  opened : ∀ (i : Nat) (e : Word32), L[i]? = some e → isOpener e = true → ∃ e' : Word32, L[i + 1]? = some e' ∧ isCloser e' = true
  closed : ∀ (i : Nat) (e : Word32), L[i]? = some e → isCloser e = true →
    i = 0 ∧ inside = true ∨ ∃ (j : Nat) (e' : Word32), i = j + 1 ∧ L[j]? = some e' ∧ isOpener e' = true
  pending : inside = true → ∃ e : Word32, L[0]? = some e ∧ isCloser e = true

theorem bracketing_nil (inside : Bool) : Bracketing inside [] ↔ inside = false := by
  constructor
  · intro h
    by_contra hi
    obtain ⟨e, he, -⟩ := h.pending (by simpa using hi)
    cases he
  · rintro rfl
    exact ⟨fun _ _ => nofun, fun _ _ => nofun, fun _ _ => nofun, nofun⟩

theorem Bracketing.tail {inside : Bool} {e : Word32} {L : List Word32} (h : Bracketing inside (e :: L)) :
    Bracketing (isOpener e) L where
  tagged i x hx := h.tagged (i + 1) x hx
  opened i x hx := h.opened (i + 1) x hx
  closed i x hx hc := by
    obtain ⟨h0, -⟩ | ⟨j, y, hj, hy, ho⟩ := h.closed (i + 1) x hx hc
    · cases h0
    · cases j with
      | zero =>
        obtain rfl := Option.some.inj hy
        exact .inl ⟨by omega, ho⟩
      | succ j => exact .inr ⟨j, y, by omega, hy, ho⟩
  pending ho := h.opened 0 e rfl ho

theorem Bracketing.cons {e : Word32} {L : List Word32} (ht : (tagOf e).isSome = true) (h : Bracketing (isOpener e) L) :
    Bracketing (isCloser e) (e :: L) where
  tagged
    | 0, _, hx => Option.some.inj hx ▸ ht
    | i + 1, x, hx => h.tagged i x hx
  opened
    | 0, _, hx, ho => h.pending (Option.some.inj hx ▸ ho)
    | i + 1, x, hx, ho => h.opened i x hx ho
  closed
    | 0, _, hx, hc => .inl ⟨rfl, Option.some.inj hx ▸ hc⟩
    | i + 1, x, hx, hc => by
      obtain ⟨rfl, ho⟩ | ⟨j, y, rfl, hy, ho⟩ := h.closed i x hx hc
      · exact .inr ⟨0, e, rfl, rfl, ho⟩
      · exact .inr ⟨j + 1, y, rfl, hy, ho⟩
  pending hc := ⟨e, rfl, hc⟩

theorem bracketing_cons (inside : Bool) (e : Word32) (L : List Word32) :
    Bracketing inside (e :: L) ↔ (tagOf e).isSome = true ∧ inside = isCloser e ∧ Bracketing (isOpener e) L := by
  constructor
  · intro h
    refine ⟨h.tagged 0 e rfl, Bool.eq_iff_iff.mpr ⟨fun hi => ?_, fun hc => ?_⟩, h.tail⟩
    · obtain ⟨x, hx, hc⟩ := h.pending hi
      exact Option.some.inj hx ▸ hc
    · obtain ⟨-, hi⟩ | ⟨j, -, hj, -⟩ := h.closed 0 e rfl hc
      · exact hi
      · cases hj
  · rintro ⟨ht, rfl, h⟩
    exact h.cons ht

theorem bracketed_iff (inside : Bool) (L : List Word32) : bracketed inside L = true ↔ Bracketing inside L := by
  induction L generalizing inside with
  | nil => simp [bracketed, bracketing_nil]
  | cons e L ih => rw [bracketed_cons, bracketing_cons, ih]

/-- Clause (b) of R34: rising is a matter of neighbours. -/
theorem rising_iff_neighbours (L : List Word32) :
    Rising L ↔ ∀ (i : Nat) (e e' : Word32), L[i]? = some e → L[i + 1]? = some e' → evPos e < evPos e' := by
  rw [Rising, ← List.pairwise_map, ← List.isChain_iff_pairwise, List.isChain_iff_getElem]
  simp only [List.getElem_map, List.length_map]
  constructor
  · intro h i e e' he he'
    obtain ⟨hi, rfl⟩ := List.getElem?_eq_some_iff.mp he
    obtain ⟨hi', rfl⟩ := List.getElem?_eq_some_iff.mp he'
    exact h i hi'
  · exact fun h i hi => h i _ _ (List.getElem?_eq_getElem (by omega)) (List.getElem?_eq_getElem hi)

/-- Settles O13: the three conjuncts of `wfTrack`, the brackets being clauses (c) and (d) by induction on the list. -/
theorem wfTrackMeaning : Obligations.WfTrackMeaning := by
  intro L
  rw [wfTrack_iff, rising_iff_neighbours, bracketed_iff]
  constructor
  · rintro ⟨hpos, hrise, hb⟩
    refine ⟨fun i e he => hpos e (List.mem_of_getElem? he), hrise, hb.tagged, fun i e he ho => ?_, fun i e he hc => ?_⟩
    · simpa [isCloser_iff] using hb.opened i e he ((isOpener_iff e).mpr ho)
    · simpa [isOpener_iff] using hb.closed i e he ((isCloser_iff e).mpr hc)
  · rintro ⟨hpos, hrise, htag, hopen, hclose⟩
    refine ⟨fun e he => ?_, hrise, htag, fun i e he ho => ?_, fun i e he hc => ?_, nofun⟩
    · obtain ⟨i, hi⟩ := List.mem_iff_getElem?.mp he
      exact hpos i e hi
    · simpa [isCloser_iff] using hopen i e he ((isOpener_iff e).mp ho)
    · simpa [isOpener_iff] using hclose i e he ((isCloser_iff e).mp hc)

end Sys2Proof.Machine
end

section
/-!
PROOFS. 10_state.md R23, R29, R32, R37: which command writes which register, said once for every command.
-/

namespace Sys2Proof.Machine

variable {i : Instr} {s t : State}

/-- The state with the registers that the command `i` writes put at one value: what is left is what `i` leaves alone. `ST`, the operand
registers, the index events, the cache, `IMG_CHANGED` and the scratch spaces that commands write are left out for every command. -/
def untouched (i : Instr) (s : State) : State :=
  { State.resetWith s.cfg with
    inbox := s.inbox
    gen := s.gen
    motor := if i = .setMotor then false else s.motor
    t0 := if i = .setMotor then 0 else s.t0
    revCount := if i = .setMotor ∨ i = .indexResync then 0 else s.revCount
    revStart := if i = .setMotor ∨ i = .indexResync then 0 else s.revStart
    timerMissed := if i = .setMotor ∨ i = .indexResync then false else s.timerMissed
    idx := if i = .setMotor ∨ i = .indexResync ∨ i = .insert ∨ i = .eject then false else s.idx
    idxTimer := if i = .setMotor ∨ i = .indexResync ∨ i = .insert ∨ i = .eject then never else s.idxTimer
    ready := if i = .setMotor ∨ i = .indexResync ∨ i = .insert ∨ i = .eject then false else s.ready
    readyCnt := if i = .setMotor ∨ i = .indexResync ∨ i = .insert ∨ i = .eject then 0 else s.readyCnt
    cyl := if i = .stepTo then 0 else s.cyl
    ss := if i = .setSide then false else s.ss
    seekSound := if i = .stepTo ∨ i = .getLines then false else s.seekSound
    door := if i = .stepTo ∨ i = .insert ∨ i = .eject then true else s.door
    seed := if i = .setSeed then 0 else s.seed
    diskPresent := if i = .insert ∨ i = .eject then false else s.diskPresent
    props := if i = .insert ∨ i = .eject then Props.none else s.props
    allocSides := if i = .insert ∨ i = .eject then 0 else s.allocSides
    allocTracks := if i = .insert ∨ i = .eject ∨ i = .resizeTracks then 0 else s.allocTracks
    wp := if i = .insert ∨ i = .eject ∨ i = .setWp then false else s.wp
    rawsec := if i = .insert ∨ i = .eject ∨ i = .writeSector then [] else s.rawsec
    trk :=
      if i = .insert ∨ i = .eject ∨ i = .resizeTracks ∨ i = .putBuffer ∨ i = .loadState ∨ i = .writeFlux ∨ i = .setWriteSplice
        ∨ i = .genTrack ∨ i = .genFromCells ∨ i = .buildPcMfm ∨ i = .buildPcFm then [] else s.trk
    dirtyLoad :=
      if i = .insert ∨ i = .eject ∨ i = .clearDirty ∨ i = .putBuffer ∨ i = .loadState ∨ i = .writeFlux ∨ i = .setWriteSplice
        ∨ i = .genTrack ∨ i = .genFromCells ∨ i = .buildPcMfm ∨ i = .buildPcFm ∨ i = .writeSector then false else s.dirtyLoad
    dirtyRestore :=
      if i = .insert ∨ i = .eject ∨ i = .clearDirty ∨ i = .putBuffer ∨ i = .loadState ∨ i = .writeFlux ∨ i = .setWriteSplice
        ∨ i = .genTrack ∨ i = .genFromCells ∨ i = .buildPcMfm ∨ i = .buildPcFm ∨ i = .writeSector then false else s.dirtyRestore
    fault := s.fault
    fcode := s.fcode
    finfo := s.finfo
    desc := s.desc
    sdl := s.sdl
    trn := s.trn }

/-- What neither the fault registers nor `ST` show is the same after a command, where it is the same after one that completes. -/
theorem Shape.frame {α : Type} (f : State → α) {done : Prop} (h : Shape s t done)
    (hf : ∀ (code : FaultCode) (info : Word64), f (s.faulted code info) = f s) (hs : ∀ st : Byte, f { s with st := st } = f s)
    (hd : done → f t = f s) : f t = f s := by
  obtain ⟨code, info, rfl⟩ | ⟨st, -, rfl⟩ | ⟨-, h⟩ := h
  · exact hf code info
  · exact hs _
  · exact hd h

/-- A command takes a fault, or ends with a status, or leaves everything but the registers it writes. -/
theorem exec_shape (hc : i.isCommand = true) (h : exec i s = .next t) : Shape s t (untouched i t = untouched i s) := by
  cases i with
  | setMotor => exact (execSetMotor_shape h).imp (congrArg (untouched _))
  | indexResync => exact (execIndexResync_shape h).imp (congrArg (untouched _))
  | timeNextIndex => exact (execTimeNextIndex_shape h).imp (congrArg (untouched _))
  | phaseOf => exact (execPhaseOf_shape h).imp (congrArg (untouched _))
  | timeOf => exact (execTimeOf_shape h).imp (congrArg (untouched _))
  | stepTo => exact (execStepTo_shape h).imp (congrArg (untouched _))
  | setSide => exact (execSetSide_shape h).imp (congrArg (untouched _))
  | getLines => exact (execGetLines_shape h).imp (congrArg (untouched _))
  | getFault => exact (execGetFault_shape h).imp (congrArg (untouched _))
  | getNextTransition => exact (execGetNextTransition_shape h).imp (congrArg (untouched _))
  | writeFlux => exact (execWriteFlux_shape h).imp (congrArg (untouched _))
  | setWriteSplice => exact (execSetWriteSplice_shape h).imp (congrArg (untouched _))
  | setSeed => exact (execSetSeed_shape h).imp (congrArg (untouched _))
  | clClear => exact (execClClear_shape h).imp (congrArg (untouched _))
  | rawW => exact (execRawW_shape h).imp (congrArg (untouched _))
  | fmW => exact (execFmW_shape h).imp (congrArg (untouched _))
  | mfmW => exact (execMfmW_shape h).imp (congrArg (untouched _))
  | genTrack => exact (execGenTrack_shape h).imp (congrArg (untouched _))
  | genFromCells => exact (execGenFromCells_shape h).imp (congrArg (untouched _))
  | genBitstream => exact (execGenBitstream_shape h).imp (congrArg (untouched _))
  | extractMfm => exact (execExtractMfm_shape h).imp (congrArg (untouched _))
  | extractFm => exact (execExtractFm_shape h).imp (congrArg (untouched _))
  | buildPcMfm => exact (execBuildPcMfm_shape h).imp (congrArg (untouched _))
  | buildPcFm => exact (execBuildPcFm_shape h).imp (congrArg (untouched _))
  | crcCells => exact (execCrcCells_shape h).imp (congrArg (untouched _))
  | crcBytes => exact (execCrcBytes_shape h).imp (congrArg (untouched _))
  | insert => exact (execInsert_shape h).imp (congrArg (untouched _))
  | eject => exact (execEject_shape h).imp (congrArg (untouched _))
  | getBuffer => exact (execGetBuffer_shape h).imp (congrArg (untouched _))
  | putBuffer => exact (execPutBuffer_shape h).imp (congrArg (untouched _))
  | resizeTracks => exact (execResizeTracks_shape h).imp (congrArg (untouched _))
  | trackIsFormatted => exact (execTrackIsFormatted_shape h).imp (congrArg (untouched _))
  | actualGeometry => exact (execActualGeometry_shape h).imp (congrArg (untouched _))
  | readSector => exact (execReadSector_shape h).imp (congrArg (untouched _))
  | writeSector => exact (execWriteSector_shape h).imp (congrArg (untouched _))
  | saveState => exact (execSaveState_shape h).imp (congrArg (untouched _))
  | loadState => exact (execLoadState_shape h).imp (congrArg (untouched _))
  | setWp => exact (execSetWp_shape h).imp (congrArg (untouched _))
  | pollChanged => exact (execPollChanged_shape h).imp (congrArg (untouched _))
  | getFlags => exact (execGetFlags_shape h).imp (congrArg (untouched _))
  | clearDirty => exact (execClearDirty_shape h).imp (congrArg (untouched _))
  | getProps => exact (execGetProps_shape h).imp (congrArg (untouched _))
  | _ => cases hc

/-! ### The registers with named writers -/

/-- The registers whose writers the spec names; every other piece of state is put at its reset value. -/
def State.registers (s : State) : State :=
  { State.resetWith s.cfg with
    motor := s.motor, t0 := s.t0, revCount := s.revCount, revStart := s.revStart, timerMissed := s.timerMissed, idx := s.idx
    idxTimer := s.idxTimer, ready := s.ready, readyCnt := s.readyCnt, cyl := s.cyl, ss := s.ss, seekSound := s.seekSound
    door := s.door, seed := s.seed, diskPresent := s.diskPresent, props := s.props, allocSides := s.allocSides
    allocTracks := s.allocTracks, wp := s.wp, rawsec := s.rawsec }

/-- A descriptor op writes none of them, nor does the end of the track it builds. -/
theorem runElement_registers {f : List SectorDesc → Interp → ElemResult} (h : runElement f s = .next t) :
    t.registers = s.registers := by
  obtain ⟨g, -, ⟨g', -, rfl⟩ | ⟨g', -, h⟩ | ⟨code, -, rfl⟩⟩ := runElement_cases h
  · rfl
  · refine (finishTrack_shape h).frame State.registers (fun _ _ => rfl) (fun _ => rfl) ?_
    rintro ⟨-, L, splice, -, rfl⟩
    rfl
  · rfl

/-- No instruction changes one of them but those that `untouched` names. -/
theorem exec_registers (h : exec i s = .next t) : (untouched i t).registers = (untouched i s).registers := by
  cases hc : i.isCommand with
  | true =>
    exact (exec_shape hc h).frame (fun u => (untouched i u).registers) (fun _ _ => rfl) (fun _ => rfl)
      (congrArg State.registers ·)
  | false =>
    rw [exec_element hc] at h
    show (untouched i t.registers).registers = (untouched i s.registers).registers
    rw [runElement_registers h]

theorem eq_of_ite_eq {α : Type} {c : Prop} [Decidable c] {a b d : α} (h : (if c then d else a) = if c then d else b) (hc : ¬ c) :
    a = b := by
  rwa [if_neg hc, if_neg hc] at h

/-- Settles O18: register by register, from what each command leaves alone. -/
theorem writersOfRegisters : Obligations.WritersOfRegisters := by
  intro i s t h
  have hr := exec_registers h
  refine ⟨(congrArg State.cfg hr :), fun h1 => ⟨?motor, ?t0⟩, fun h1 h2 => ⟨?revCount, ?revStart, ?timerMissed⟩,
    fun h1 h2 h3 h4 => ⟨?idx, ?idxTimer, ?ready, ?readyCnt⟩, fun h1 h2 => ?seekSound, fun h1 h2 h3 => ?door, fun h1 => ?cyl,
    fun h1 => ?ss, fun h1 => ?seed, fun h1 h2 => ⟨?props, ?diskPresent, ?allocSides⟩, fun h1 h2 h3 => ?wp,
    fun h1 h2 h3 => ?allocTracks, fun h1 h2 h3 => ?rawsec⟩
  case motor => exact eq_of_ite_eq (congrArg State.motor hr :) h1
  case t0 => exact eq_of_ite_eq (congrArg State.t0 hr :) h1
  case revCount => exact eq_of_ite_eq (congrArg State.revCount hr :) (by simp [h1, h2])
  case revStart => exact eq_of_ite_eq (congrArg State.revStart hr :) (by simp [h1, h2])
  case timerMissed => exact eq_of_ite_eq (congrArg State.timerMissed hr :) (by simp [h1, h2])
  case idx => exact eq_of_ite_eq (congrArg State.idx hr :) (by simp [h1, h2, h3, h4])
  case idxTimer => exact eq_of_ite_eq (congrArg State.idxTimer hr :) (by simp [h1, h2, h3, h4])
  case ready => exact eq_of_ite_eq (congrArg State.ready hr :) (by simp [h1, h2, h3, h4])
  case readyCnt => exact eq_of_ite_eq (congrArg State.readyCnt hr :) (by simp [h1, h2, h3, h4])
  case seekSound => exact eq_of_ite_eq (congrArg State.seekSound hr :) (by simp [h1, h2])
  case door => exact eq_of_ite_eq (congrArg State.door hr :) (by simp [h1, h2, h3])
  case cyl => exact eq_of_ite_eq (congrArg State.cyl hr :) h1
  case ss => exact eq_of_ite_eq (congrArg State.ss hr :) h1
  case seed => exact eq_of_ite_eq (congrArg State.seed hr :) h1
  case props => exact eq_of_ite_eq (congrArg State.props hr :) (by simp [h1, h2])
  case diskPresent => exact eq_of_ite_eq (congrArg State.diskPresent hr :) (by simp [h1, h2])
  case allocSides => exact eq_of_ite_eq (congrArg State.allocSides hr :) (by simp [h1, h2])
  case wp => exact eq_of_ite_eq (congrArg State.wp hr :) (by simp [h1, h2, h3])
  case allocTracks => exact eq_of_ite_eq (congrArg State.allocTracks hr :) (by simp [h1, h2, h3])
  case rawsec => exact eq_of_ite_eq (congrArg State.rawsec hr :) (by simp [h1, h2, h3])

end Sys2Proof.Machine
end

section
/-!
PROOFS. 10_state.md R44: the invariant of the machine holds at reset, and every operation, every instruction and every step keeps it.
-/

namespace Sys2Proof.Machine

variable {s t : State}

/-! ### The fields that the invariant reads -/

/-- The state with every field that the invariant does not read put at its reset value. -/
def State.guarded (s : State) : State :=
  { State.resetWith s.cfg with
    motor := s.motor, idx := s.idx, idxTimer := s.idxTimer, ready := s.ready, readyCnt := s.readyCnt, cyl := s.cyl
    diskPresent := s.diskPresent, props := s.props, allocTracks := s.allocTracks, allocSides := s.allocSides
    trk := s.trk, wp := s.wp, dirtyLoad := s.dirtyLoad, dirtyRestore := s.dirtyRestore, rawsec := s.rawsec
    fault := s.fault, fcode := s.fcode, finfo := s.finfo }

theorem inv_guarded (s : State) : Inv s.guarded ↔ Inv s :=
  ⟨fun h => { h with }, fun h => { h with }⟩

/-- Writes to the other fields keep the invariant. -/
theorem Inv.congr (h : Inv s) (e : t.guarded = s.guarded) : Inv t := by
  rw [← inv_guarded, e]
  exact (inv_guarded s).mpr h

theorem Inv.driveTracks_range (h : Inv s) : 1 ≤ s.cfg.driveTracks ∧ s.cfg.driveTracks ≤ 2 ^ 32 := by
  have hp := h.params
  simp only [Params.legal, Bool.and_eq_true, decide_eq_true_eq] at hp
  omega

theorem Inv.diskPresent_of_inStore (h : Inv s) {c k : Nat} (hin : s.inStore c k = true) : s.diskPresent = true := by
  by_contra hd
  obtain ⟨-, ht, -⟩ := h.noDisk (by simpa using hd)
  have hc := ((s.inStore_iff c k).mp hin).1
  simp [ht] at hc

theorem Inv.diskPresent_of_kind (h : Inv s) (hk : s.props.kind = true) : s.diskPresent = true := by
  by_contra hd
  obtain ⟨hp, -⟩ := h.noDisk (by simpa using hd)
  simp [hp, Props.none] at hk

/-! ### Reset -/

theorem legal_params : Config.params.legal = true := by
  cases h : Config.twoSides <;> simp [Params.legal, Config.params, h]

theorem inv_resetWith {p : Params} (hp : p.legal = true) : Inv (State.resetWith p) where
  params := hp
  memory := Memory.wf_resetWith p
  tracks := nofun
  cylinder := by
    simp only [Params.legal, Bool.and_eq_true, decide_eq_true_eq] at hp
    show 0 < p.driveTracks
    omega
  ready := nofun
  readyCount := Nat.zero_le 2
  timer _ := rfl
  index := nofun
  noDisk _ := ⟨rfl, rfl, rfl, rfl, rfl, rfl, rfl, rfl⟩
  sides := nofun
  extent := le_refl 0
  rawsec := nofun
  noFault _ := ⟨rfl, rfl⟩
  faultCode := nofun

/-- Settles O11: the parameters of the machine are legal, and with legal parameters the reset state has the invariant. -/
theorem invAtReset : Obligations.InvAtReset := inv_resetWith legal_params

theorem Inv.powerOn (h : Inv s) : Inv s.powerOn := (inv_resetWith h.params).congr rfl

/-! ### Shared operations -/

theorem Inv.withStatus (h : Inv s) (st : Status) : Inv (s.withStatus st) := h.congr rfl

theorem Inv.dropCache (h : Inv s) : Inv s.dropCache := h.congr rfl

/-- The first fault's code is one of the six of 60_exceptions.md R201. -/
theorem Inv.faulted (h : Inv s) (code : FaultCode) (info : Word64) : Inv (s.faulted code info) :=
  { h with
    noFault := nofun
    faultCode := fun _ => by
      rw [State.faulted_fcode]
      split
      · exact h.faultCode ‹_›
      · exact faultCode_range code }

theorem Inv.markDirty (h : Inv s) (hd : s.diskPresent = true) : Inv s.markDirty :=
  { h with noDisk := fun hn => absurd hd (by simpa using hn) }

theorem Inv.setTrack (h : Inv s) {c k : Nat} (hin : s.inStore c k = true) {tr : Track} (hg : tr.good) :
    Inv (s.setTrack c k tr) :=
  { h with
    memory := Memory.wf_setTrack h.memory c k tr
    tracks := fun e he => by
      obtain rfl | he := Sparse.mem_set he
      · obtain ⟨hc, hk⟩ := (s.inStore_iff c k).mp hin
        have hk32 : k < 2 ^ 32 := hk.trans s.allocSides.isLt
        obtain ⟨hwf, hsplice, hflag⟩ := hg
        exact ⟨hwf, hsplice, hflag, by rwa [keyCyl_trackKey hk32], by rwa [keyHead_trackKey hk32]⟩
      · exact h.tracks e he
    noDisk := fun hn => absurd (h.diskPresent_of_inStore hin) (by simpa using hn) }

theorem toNat_ofNat_splice {p : Nat} (hp : p < revUnits) : (BitVec.ofNat 32 p).toNat < revUnits := by
  rw [BitVec.toNat_ofNat]
  exact (Nat.mod_le _ _).trans_lt hp

theorem Inv.writeTrack (h : Inv s) {c k : Nat} (hin : s.inStore c k = true) {L : List Word32} {p : Nat}
    (hL : wfTrack L = true) (hp : p < revUnits) : Inv (s.writeTrack c k L p) :=
  h.setTrack hin ⟨hL, toNat_ofNat_splice hp, rfl⟩

theorem Inv.writeSplice (h : Inv s) {c k : Nat} (hin : s.inStore c k = true) {p : Nat} (hp : p < revUnits) :
    Inv (s.writeSplice c k p) := by
  obtain ⟨hwf, -, hflag⟩ := h.trackAt c k
  exact h.setTrack hin ⟨hwf, toNat_ofNat_splice hp, hflag⟩

/-- A new list for an allocated track, as every command that stores one leaves it. -/
theorem Inv.storeTrack (h : Inv s) {c k : Nat} (hin : s.inStore c k = true) {L : List Word32} {p : Nat}
    (hL : wfTrack L = true) (hp : p < revUnits) : Inv (s.writeTrack c k L p).markDirty.dropCache :=
  ((h.writeTrack hin hL hp).markDirty (h.diskPresent_of_inStore hin)).dropCache

theorem Inv.rawWrite (h : Inv s) (hk : s.props.kind = true) {a : Nat} {l : List Byte} (hl : a + l.length ≤ s.rawSize) :
    Inv (s.rawWrite a l) :=
  { h with
    memory := Memory.wf_rawWrite h.memory a l
    rawsec := fun e he => by
      obtain ⟨-, hlt⟩ | he := Sparse.mem_write he
      · exact hlt.trans_le hl
      · exact h.rawsec e he
    noDisk := fun hn => absurd (h.diskPresent_of_kind hk) (by simpa using hn) }

/-! ### The index line -/

theorem readyCnt_ne_zero_of_countsPulse {level : Bool} {now : Nat} (h : s.countsPulse level now = true) : s.readyCnt ≠ 0 := by
  simp only [State.countsPulse, Bool.and_eq_true, decide_eq_true_eq] at h
  exact h.2

/-- What a resynchronisation makes of the ready delay: an edge counts down and raises `READY` at the last pulse, or nothing changes
(40_phase.md R95). -/
theorem State.resyncSpinning_ready_cases (s : State) (now : Nat) :
    s.readyCnt ≠ 0 ∧ (s.resyncSpinning now).readyCnt = s.readyCnt - 1
        ∧ (s.resyncSpinning now).ready = (if s.readyCnt = 1 then true else s.ready)
      ∨ (s.resyncSpinning now).readyCnt = s.readyCnt ∧ (s.resyncSpinning now).ready = s.ready := by
  unfold State.resyncSpinning
  by_cases hc : s.countsPulse (decide (s.posAt now < indexUnits)) now = true
  · exact .inl ⟨readyCnt_ne_zero_of_countsPulse hc, by simp [hc], by simp [hc]⟩
  · exact .inr ⟨by simp [hc], by simp [hc]⟩

theorem Inv.resyncSpinning (h : Inv s) (hs : s.spinning = true) (now : Nat) : Inv (s.resyncSpinning now) := by
  obtain ⟨hm, hd⟩ := Bool.and_eq_true_iff.mp hs
  have hcount := h.readyCount
  exact
    { h with
      ready := fun hr => ⟨hm, by
        obtain ⟨hne, hcnt, hready⟩ | ⟨hcnt, hready⟩ := s.resyncSpinning_ready_cases now
        · by_cases h1 : s.readyCnt = 1
          · rw [hcnt, h1]; rfl
          · rw [hready, if_neg h1] at hr
            exact absurd (h.ready hr).2 hne
        · rw [hcnt]
          exact (h.ready (hready ▸ hr)).2⟩
      readyCount := by
        obtain ⟨hne, hcnt, -⟩ | ⟨hcnt, -⟩ := s.resyncSpinning_ready_cases now <;> rw [hcnt]
        · bv_omega
        · exact hcount
      timer := fun ho => absurd ho (by simp [State.resyncSpinning, State.driveIndex, hm, hd])
      index := fun _ => ⟨hm, hd⟩ }

theorem Inv.resync (h : Inv s) (now : Nat) : Inv (s.resync now) := by
  by_cases hs : s.spinning = true
  · rw [State.resync_of_spinning hs]
    exact h.resyncSpinning hs now
  · rw [State.resync_of_not_spinning (by simpa using hs)]
    exact { h with timer := fun _ => rfl, index := nofun }

theorem Inv.timerFires (h : Inv s) : Inv s.timerFires := (h.resync _).withStatus _

theorem Inv.timerFirst (h : Inv s) (i : Instr) : Inv (timerFirst i s) := by
  obtain he | ⟨-, -, he⟩ | ⟨-, he⟩ := timerFirst_cases i s <;> rw [he]
  · exact h
  · exact h.timerFires
  · exact h.congr rfl

theorem Inv.motorOn (h : Inv s) (now : Word64) : Inv (s.motorOn now) :=
  { h with
    ready := nofun
    readyCount := le_refl 2
    timer := fun ho => h.timer (ho.imp_left nofun)
    index := fun hi => ⟨rfl, (h.index hi).2⟩ }

theorem Inv.motorOff (h : Inv s) (now : Word64) : Inv (s.motorOff now) :=
  { h with
    ready := nofun
    readyCount := Nat.zero_le 2
    timer := fun _ => rfl
    index := nofun }

/-! ### Binding a disk -/

theorem Inv.ejected (h : Inv s) : Inv s.ejected :=
  { h with
    memory := rfl
    tracks := nofun
    ready := nofun
    readyCount := Nat.zero_le 2
    timer := fun _ => rfl
    index := nofun
    noDisk := fun _ => ⟨rfl, rfl, rfl, rfl, rfl, rfl, rfl, rfl⟩
    sides := nofun
    extent := le_refl 0
    rawsec := nofun }

theorem sides_of_insertOperandsOk (h : s.insertOperandsOk = true) : low32 s.x.x3 = 1 ∨ low32 s.x.x3 = 2 := by
  have h3 : s.x.x3.toNat = 1 ∨ s.x.x3.toNat = 2 := by
    simp only [State.insertOperandsOk, Bool.and_eq_true, Bool.or_eq_true, decide_eq_true_eq] at h
    omega
  refine h3.imp (fun h1 => ?_) (fun h2 => ?_) <;> apply BitVec.eq_of_toNat_eq <;> simp [low32, *]

/-- A disk bound to a drive that holds none. -/
theorem Inv.inserted {e : State} (h : Inv e) (hd : e.diskPresent = false) (hs : s.insertOperandsOk = true) :
    Inv (s.inserted e) :=
  { h with
    memory := rfl
    tracks := nofun
    ready := fun hr => by
      have hm : e.motor = false ∧ e.ready = true := by simpa [State.inserted, State.dropCache] using hr
      exact absurd (h.ready hm.2).1 (by simp [hm.1])
    readyCount := by
      show (if e.motor then readyPulses else e.readyCnt).toNat ≤ 2
      split
      · exact le_refl 2
      · exact h.readyCount
    timer := fun _ => h.timer (.inr hd)
    index := fun hi => absurd (h.index hi).2 (by simp [hd])
    noDisk := nofun
    sides := fun _ => ⟨rfl, sides_of_insertOperandsOk hs⟩
    extent := le_refl _
    rawsec := nofun }

/-! ### Outcomes that keep the invariant -/

/-- The outcome has the invariant, where it is a next state. -/
def Keeps (o : Outcome) : Prop := ∀ t : State, o = .next t → Inv t

theorem Inv.keeps_next (h : Inv s) : Keeps (.next s) := by
  rintro _ ⟨⟩
  exact h

theorem Inv.keeps_complete (h : Inv s) (st : Status) : Keeps (complete st s) := (h.withStatus st).keeps_next

theorem Inv.keeps_raiseFault (h : Inv s) (code : FaultCode) (info : Word64) : Keeps (raiseFault code info s) :=
  (h.faulted code info).keeps_next

theorem Inv.keeps_refuseWord (h : Inv s) : Keeps (refuseWord s) := h.keeps_complete _

theorem keeps_ite {c : Prop} [Decidable c] {a b : Outcome} (ha : c → Keeps a) (hb : ¬ c → Keeps b) :
    Keeps (if c then a else b) := by
  split
  · exact ha ‹_›
  · exact hb ‹_›

/-- The condition of `keeps_ite` as the model writes a check: the command goes on where `b` is true. -/
theorem keeps_check {b : Bool} {o o' : Outcome} (ho : Keeps o) (ho' : b = true → Keeps o') : Keeps (if !b then o else o') :=
  keeps_ite (fun _ => ho) (fun hb => ho' (by simpa using hb))

/-- A command that leaves every field the invariant reads keeps it. -/
theorem Inv.keeps_of_untouched (h : Inv s) {i : Instr} (hc : i.isCommand = true)
    (hu : ∀ {t : State}, untouched i t = untouched i s → t.guarded = s.guarded) : Keeps (exec i s) := by
  intro t ht
  obtain ⟨code, info, rfl⟩ | ⟨st, -, rfl⟩ | ⟨-, ht⟩ := exec_shape hc ht
  · exact h.faulted code info
  · exact h.withStatus st
  · exact h.congr (hu ht)

/-! ### Commands on the index line and the head -/

theorem Inv.keeps_execSetMotor (h : Inv s) : Keeps (execSetMotor s) := by
  unfold execSetMotor
  split
  · exact h.keeps_raiseFault _ _
  · split
    · exact ((h.motorOn _).resync _).keeps_complete _
    · split
      · exact (h.motorOff _).keeps_complete _
      · exact h.keeps_complete _

theorem Inv.keeps_execIndexResync (h : Inv s) : Keeps (execIndexResync s) := by
  unfold execIndexResync
  split
  · exact h.keeps_raiseFault _ _
  · exact (h.resync _).keeps_complete _

/-- 40_phase.md R103: the target of a step is a cylinder of the drive. -/
theorem Inv.clampCyl_lt (h : Inv s) (c : Int) : (BitVec.ofInt 32 (s.clampCyl c)).toNat < s.cfg.driveTracks := by
  obtain ⟨h1, h2⟩ := h.driveTracks_range
  have hlo : 0 ≤ s.clampCyl c := by unfold State.clampCyl; omega
  have hhi : s.clampCyl c < s.cfg.driveTracks := by unfold State.clampCyl; omega
  rw [BitVec.toNat_ofInt]
  omega

theorem Inv.withCyl (h : Inv s) {c : Word32} (hc : c.toNat < s.cfg.driveTracks) : Inv { s with cyl := c } :=
  { h with cylinder := hc }

theorem Inv.keeps_execStepTo (h : Inv s) : Keeps (execStepTo s) := by
  unfold execStepTo
  split
  · exact h.keeps_raiseFault _ _
  · have hdoor : Inv (if s.diskPresent then { s with door := false } else s) := by
      split
      · exact h.congr rfl
      · exact h
    have hcfg : (if s.diskPresent then { s with door := false } else s).cfg = s.cfg := by split <;> rfl
    refine Inv.keeps_complete ?_ _
    split
    · exact hdoor
    · exact (hdoor.withCyl (by rw [hcfg]; exact h.clampCyl_lt _)).congr rfl

/-! ### Commands that store a track -/

/-- 41_flux_sequencer.md R126: a write leaves a well-formed list. -/
theorem Inv.wfTrack_writtenTrack (h : Inv s) {start stop : Nat} (hlt : start ≤ stop)
    (hrev : s.angleAt stop - s.angleAt start ≤ revUnits) : wfTrack (s.writtenTrack start stop) = true :=
  (writeSpans_spec _ _ _ _ (h.wfTrack_buf _ _) (angle_mono _ _ (by omega)) hrev).1.wf

theorem Inv.keeps_execWriteFlux (h : Inv s) : Keeps (execWriteFlux s) := by
  unfold execWriteFlux
  split
  · refine keeps_ite (fun _ => h.keeps_complete _) fun hign => keeps_ite (fun _ => h.keeps_raiseFault _ _) fun hrev =>
      keeps_ite (fun _ => h.dropCache.keeps_complete _) fun _ => ?_
    simp only [State.writeIgnored, Bool.or_eq_true, not_or, decide_eq_true_eq] at hign
    obtain ⟨⟨-, hin⟩, hlt⟩ := hign
    have hwf := h.wfTrack_writtenTrack (Nat.le_of_not_le hlt) (not_lt.mp hrev)
    exact (h.storeTrack (by simpa using hin) hwf (h.trackAt _ _).2.1).keeps_complete _
  · exact h.keeps_raiseFault _ _

theorem Inv.keeps_execSetWriteSplice (h : Inv s) : Keeps (execSetWriteSplice s) := by
  unfold execSetWriteSplice
  split
  · exact h.keeps_raiseFault _ _
  · refine keeps_ite (fun _ => h.keeps_complete _) fun hign => ?_
    have hin : s.inStore s.cyl.toNat s.head = true := by
      simp only [Bool.or_eq_true, not_or] at hign
      simpa using hign.2
    exact ((h.writeSplice hin (anglePos_lt _ _ _)).markDirty (h.diskPresent_of_inStore hin)).keeps_complete _

theorem Inv.keeps_genFromCells (h : Inv s) (c k sigma : Nat) (cl : List Word32) : Keeps (genFromCells c k sigma cl s) := by
  unfold genFromCells
  refine keeps_check (h.keeps_raiseFault _ _) fun hin => ?_
  split
  · exact h.keeps_raiseFault _ _
  · rename_i L splice hL
    obtain ⟨hwf, hsplice⟩ := cellsToTrack_ok hL
    have hcl : Inv { s with cl := cl } := h.congr rfl
    exact (hcl.storeTrack hin hwf hsplice).keeps_complete _

theorem Inv.keeps_finishTrack (h : Inv s) (g : Interp) : Keeps (finishTrack g s) :=
  keeps_ite (fun _ => h.keeps_raiseFault _ _) fun _ =>
    keeps_check (h.keeps_complete _) fun _ => h.keeps_genFromCells _ _ _ _

theorem Inv.keeps_execGenTrack (h : Inv s) : Keeps (execGenTrack s) := by
  unfold execGenTrack
  refine keeps_check (h.keeps_complete _) fun _ => keeps_check (h.keeps_raiseFault _ _) fun _ => ?_
  split
  · exact h.keeps_raiseFault _ _
  · rename_i d _
    obtain ⟨g, hg⟩ | ⟨code, hcode⟩ :=
      interpret_startInterp s (unsignedOperand s.x.x0) (unsignedOperand s.x.x1) (unsignedOperand s.x.x2) d
    · rw [hg]
      exact h.keeps_finishTrack g
    · rw [hcode]
      exact h.keeps_raiseFault _ _

theorem Inv.keeps_execGenFromCells (h : Inv s) : Keeps (execGenFromCells s) :=
  keeps_check (h.keeps_complete _) fun _ => h.keeps_genFromCells _ _ _ _

theorem Inv.keeps_buildTrack (h : Inv s) (fixedSize : Layout → List SectorDesc → Nat)
    (cells : Layout → Nat → List SectorDesc → List Word32) : Keeps (buildTrack fixedSize cells s) :=
  keeps_check (h.keeps_complete _) fun _ =>
    keeps_check (h.keeps_raiseFault _ _) fun _ =>
      keeps_ite (fun _ => h.keeps_raiseFault _ _) fun _ =>
        keeps_ite (fun _ => h.keeps_complete _) fun _ => h.keeps_genFromCells _ _ _ _

theorem Inv.keeps_execPutBuffer (h : Inv s) : Keeps (execPutBuffer s) :=
  keeps_check (h.keeps_complete _) fun _ =>
    keeps_check (h.keeps_raiseFault _ _) fun hin =>
      keeps_ite (fun _ => h.keeps_raiseFault _ _) fun hsplice =>
        keeps_check (h.keeps_raiseFault _ _) fun hwf =>
          (h.storeTrack hin hwf (Nat.lt_of_not_le hsplice)).keeps_complete _

/-! ### Commands on the disk and its memories -/

theorem Inv.keeps_execInsert (h : Inv s) : Keeps (execInsert s) := by
  unfold execInsert
  refine keeps_check (h.keeps_raiseFault _ _) fun hok => keeps_ite (fun _ => h.keeps_complete _) fun _ => ?_
  split
  · exact (h.ejected.inserted rfl hok).keeps_complete _
  · rename_i hd
    exact (h.inserted (by simpa using hd) hok).keeps_complete _

theorem Inv.keeps_execEject (h : Inv s) : Keeps (execEject s) :=
  keeps_check (h.keeps_complete _) fun _ => h.ejected.keeps_complete _

/-- A larger store keeps the tracks it has (45_cell_buffer.md R186). -/
theorem Inv.resized (h : Inv s) (hd : s.diskPresent = true) {n : Word32} (hn : s.allocTracks.toNat ≤ n.toNat)
    (p : Nat × Track → Bool) : Inv { s with trk := s.trk.filter p, allocTracks := n } :=
  { h with
    memory := (Memory.wf_iff _).mpr ((Memory.wf_iff s).mp h.memory |>.imp_left (Sparse.wf_filter · p))
    tracks := fun e he => by
      obtain ⟨hwf, hsplice, hflag, hc, hk⟩ := h.tracks e (List.mem_filter.mp he).1
      exact ⟨hwf, hsplice, hflag, hc.trans_le hn, hk⟩
    noDisk := fun hn => absurd hd (by simpa using hn)
    extent := h.extent.trans hn }

theorem toNat_low32 {v : Word64} (h : v.toNat < 2 ^ 32) : (low32 v).toNat = v.toNat := by
  rw [low32, BitVec.toNat_setWidth, Nat.mod_eq_of_lt h]

theorem Inv.keeps_execResizeTracks (h : Inv s) : Keeps (execResizeTracks s) := by
  unfold execResizeTracks
  refine keeps_check (h.keeps_complete _) fun hd => keeps_ite (fun _ => h.keeps_raiseFault _ _) fun hfit =>
    keeps_ite (fun _ => h.keeps_complete _) fun hgrow => ?_
  have hle : s.allocTracks.toNat ≤ (low32 s.x.x0).toNat := by
    rw [toNat_low32 (Nat.lt_of_not_le hfit)]
    exact Nat.le_of_not_le hgrow
  exact (h.dropCache.resized hd hle _).keeps_complete _

/-- A sector lies within `RAWSEC` (45_cell_buffer.md R190). -/
theorem sectorOffset_add_le (hk : s.props.kind = true) (hr : s.sectorInRange = true) :
    s.sectorOffset + s.x.x3.toNat ≤ s.rawSize := by
  simp only [State.sectorInRange, Bool.and_eq_true, decide_eq_true_eq] at hr
  obtain ⟨⟨⟨⟨hc, hh⟩, h1⟩, hs⟩, hl⟩ := hr
  rw [State.rawSize, if_pos hk, State.sectorOffset]
  generalize s.x.x0.toNat = c at *
  generalize s.x.x1.toNat = k at *
  generalize s.props.tracks.toNat = tracks at *
  generalize s.props.sides.toNat = sides at *
  generalize s.props.spt.toNat = spt at *
  generalize s.props.secsize.toNat = size at *
  have hside : c * sides + k + 1 ≤ tracks * sides := by nlinarith
  have hsector : (c * sides + k) * spt + (s.x.x2.toNat - 1) + 1 ≤ tracks * sides * spt := by
    calc (c * sides + k) * spt + (s.x.x2.toNat - 1) + 1
      _ ≤ (c * sides + k + 1) * spt := by rw [Nat.add_one_mul]; omega
      _ ≤ tracks * sides * spt := Nat.mul_le_mul_right _ hside
  calc ((c * sides + k) * spt + (s.x.x2.toNat - 1)) * size + s.x.x3.toNat
    _ ≤ ((c * sides + k) * spt + (s.x.x2.toNat - 1) + 1) * size := by rw [Nat.add_one_mul]; omega
    _ ≤ tracks * sides * spt * size := Nat.mul_le_mul_right _ hsector

theorem Inv.keeps_execWriteSector (h : Inv s) : Keeps (execWriteSector s) := by
  unfold execWriteSector
  refine keeps_check (h.keeps_complete _) fun hd => keeps_check (h.keeps_complete _) fun hk =>
    keeps_check (h.keeps_raiseFault _ _) fun hr => keeps_ite (fun _ => h.keeps_raiseFault _ _) fun _ =>
      keeps_ite (fun _ => h.keeps_complete _) fun _ => ?_
  have hle := sectorOffset_add_le hk hr
  have hlen : (s.bytes.take (unsignedOperand s.x.x3)).length ≤ s.x.x3.toNat := List.length_take_le _ _
  exact ((h.rawWrite hk (by omega)).markDirty hd).keeps_complete _

/-- Where an entry of a store of tracks put at places comes from. -/
theorem mem_storeTracks {m : Sparse Track} {places : List (Nat × Nat)} {tracks : List Track} {e : Nat × Track}
    (he : e ∈ storeTracks m places tracks) : e ∈ m ∨ ∃ p ∈ places, e.1 = trackKey p.1 p.2 ∧ e.2 ∈ tracks := by
  induction places generalizing m tracks with
  | nil => exact .inl he
  | cons p places ih =>
    cases tracks with
    | nil => exact .inl he
    | cons tr tracks =>
      obtain he | ⟨q, hq, hkey, htr⟩ := ih (m := Sparse.set Track.empty m (trackKey p.1 p.2) tr) he
      · obtain rfl | he := Sparse.mem_set he
        · exact .inr ⟨p, List.mem_cons_self, rfl, List.mem_cons_self⟩
        · exact .inl he
      · exact .inr ⟨q, List.mem_cons_of_mem _ hq, hkey, List.mem_cons_of_mem _ htr⟩

theorem State.inStore_of_mem_trackOrder {p : Nat × Nat} (hp : p ∈ s.trackOrder) : s.inStore p.1 p.2 = true := by
  simp only [State.trackOrder, List.mem_flatMap, List.mem_map, List.mem_range] at hp
  obtain ⟨c, hc, k, hk, rfl⟩ := hp
  exact (s.inStore_iff c k).mpr ⟨hc, hk⟩

/-- 45_cell_buffer.md R197: an accepted stream gives the store of good tracks at the allocated places. -/
theorem State.parseCheckpoint_some {dirty : Bool} {m : Sparse Track} (hp : s.parseCheckpoint = some (dirty, m)) :
    ∃ tracks : List Track, (∀ tr ∈ tracks, tr.good) ∧ m = storeTracks [] s.trackOrder tracks := by
  unfold State.parseCheckpoint at hp
  split at hp
  · cases hp
  · split at hp
    · rename_i hm
      cases hp
      obtain ⟨tracks, -, hgood, -, rfl⟩ := parseTracks_eq_some.mp hm
      exact ⟨tracks, hgood, rfl⟩
    · cases hp

theorem Inv.withTracks (h : Inv s) (hd : s.diskPresent = true) {tracks : List Track} (hg : ∀ tr ∈ tracks, tr.good) :
    Inv { s with trk := storeTracks [] s.trackOrder tracks } :=
  { h with
    memory := (Memory.wf_iff _).mpr ⟨wf_storeTracks rfl _ _, ((Memory.wf_iff s).mp h.memory).2⟩
    tracks := fun e he => by
      obtain he | ⟨p, hp, hkey, htr⟩ := mem_storeTracks he
      · cases he
      · obtain ⟨hc, hk⟩ := (s.inStore_iff _ _).mp (State.inStore_of_mem_trackOrder hp)
        have hk32 : p.2 < 2 ^ 32 := hk.trans s.allocSides.isLt
        obtain ⟨hwf, hsplice, hflag⟩ := hg e.2 htr
        exact ⟨hwf, hsplice, hflag, by rwa [hkey, keyCyl_trackKey hk32], by rwa [hkey, keyHead_trackKey hk32]⟩
    noDisk := fun hn => absurd hd (by simpa using hn) }

/-- The flags of a bound disk are free. -/
theorem Inv.withFlags (h : Inv s) (hd : s.diskPresent = true) (wp load restore changed : Bool) :
    Inv { s with wp := wp, dirtyLoad := load, dirtyRestore := restore, imgChanged := changed } :=
  { h with noDisk := fun hn => absurd hd (by simpa using hn) }

theorem Inv.keeps_execLoadState (h : Inv s) : Keeps (execLoadState s) := by
  unfold execLoadState
  refine keeps_check (h.keeps_complete _) fun hd => ?_
  split
  · exact h.keeps_complete _
  · rename_i dirty m hp
    obtain ⟨tracks, hg, rfl⟩ := State.parseCheckpoint_some hp
    exact ((h.withTracks hd hg).dropCache.withFlags hd s.wp dirty false true).keeps_complete _

theorem Inv.keeps_execSetWp (h : Inv s) : Keeps (execSetWp s) :=
  keeps_check (h.keeps_complete _) fun hd => (h.withFlags hd _ _ _ _).keeps_complete _

theorem Inv.keeps_execClearDirty (h : Inv s) : Keeps (execClearDirty s) :=
  keeps_check (h.keeps_complete _) fun hd => keeps_ite (fun _ => h.keeps_raiseFault _ _) fun _ =>
    (h.withFlags hd _ _ _ _).keeps_complete _

/-! ### Every instruction and every step -/

theorem Inv.keeps_runElement (h : Inv s) (f : List SectorDesc → Interp → ElemResult) : Keeps (runElement f s) := by
  intro t ht
  have hgen : ∀ gen : Option Interp, Inv { s with gen := gen } := fun _ => h.congr rfl
  obtain ⟨g, -, ⟨g', -, rfl⟩ | ⟨g', -, ht⟩ | ⟨code, -, rfl⟩⟩ := runElement_cases ht
  · exact hgen _
  · exact (hgen none).keeps_finishTrack g' t ht
  · exact (hgen none).faulted code 0

theorem Inv.keeps_exec (h : Inv s) (i : Instr) : Keeps (exec i s) := by
  cases hc : i.isCommand with
  | false =>
    rw [exec_element hc]
    exact h.keeps_runElement _
  | true =>
    cases i with
    | setMotor => exact h.keeps_execSetMotor
    | indexResync => exact h.keeps_execIndexResync
    | stepTo => exact h.keeps_execStepTo
    | writeFlux => exact h.keeps_execWriteFlux
    | setWriteSplice => exact h.keeps_execSetWriteSplice
    | genTrack => exact h.keeps_execGenTrack
    | genFromCells => exact h.keeps_execGenFromCells
    | buildPcMfm | buildPcFm => exact h.keeps_buildTrack _ _
    | insert => exact h.keeps_execInsert
    | eject => exact h.keeps_execEject
    | putBuffer => exact h.keeps_execPutBuffer
    | resizeTracks => exact h.keeps_execResizeTracks
    | writeSector => exact h.keeps_execWriteSector
    | loadState => exact h.keeps_execLoadState
    | setWp => exact h.keeps_execSetWp
    | clearDirty => exact h.keeps_execClearDirty
    | timeNextIndex | phaseOf | timeOf | setSide | getLines | getFault | getNextTransition | setSeed | clClear | rawW | fmW
    | mfmW | genBitstream | extractMfm | extractFm | crcCells | crcBytes | getBuffer | trackIsFormatted | actualGeometry
    | readSector | saveState | pollChanged | getFlags | getProps =>
      exact h.keeps_of_untouched hc fun he => (congrArg State.guarded he :)
    | _ => cases hc

theorem Inv.keeps_elementStep (h : Inv s) (g : Interp) : Keeps (elementStep g s) := by
  have hgen : Inv { s with gen := none } := h.congr rfl
  cases he : s.desc[g.dpc]? with
  | none => rw [elementStep_of_end he]; exact hgen.keeps_raiseFault _ _
  | some e =>
    cases hd : decodeElem e with
    | error r => rw [elementStep_of_illegal he hd]; exact hgen.keeps_raiseFault _ _
    | ok i => rw [elementStep_of_element he hd]; exact h.keeps_exec i

theorem Inv.keeps_acceptWord (h : Inv s) (w : Word32) : Keeps (acceptWord w s) := by
  obtain he | ⟨i, -, -, he⟩ := acceptWord_cases w s <;> rw [he]
  · exact h.keeps_refuseWord
  · exact (h.timerFirst i).keeps_exec i

theorem Inv.keeps_timerInput (h : Inv s) : Keeps (timerInput s) :=
  keeps_ite (fun _ => h.keeps_next) fun _ => keeps_ite (fun _ => h.keeps_refuseWord) fun _ => h.timerFires.keeps_next

theorem Inv.keeps_hostInput (h : Inv s) (ev : HostInput) : Keeps (hostInput ev s) := by
  cases ev with
  | word w => exact h.keeps_acceptWord w
  | timer => exact h.keeps_timerInput
  | reset => exact h.powerOn.keeps_next
  | _ =>
    refine Inv.keeps_next ?_
    exact h.congr rfl

theorem Inv.keeps_step (h : Inv s) : Keeps (step s) := by
  cases hg : s.gen with
  | some g => rw [step_of_gen hg]; exact h.keeps_elementStep g
  | none =>
    cases hi : s.inbox with
    | nil => rw [step_of_no_input hg hi]; exact h.keeps_next
    | cons ev rest =>
      have hrest : Inv { s with inbox := rest } := h.congr rfl
      rw [step_of_input hg hi]
      exact hrest.keeps_hostInput ev

/-- Settles O12: an element of a descriptor program, an instruction and every other input of the host keep the invariant. -/
theorem stepKeepsInv : Obligations.StepKeepsInv := fun _ t h ht => h.keeps_step t ht

end Sys2Proof.Machine
end

section
/-!
PROOFS. 10_state.md R40, 60_exceptions.md R209: a fault, once taken, stays until reset.
-/

namespace Sys2Proof.Machine

variable {s t : State}

/-- `FAULT`, `FCODE` and `FINFO` (10_state.md R40). -/
def State.faultRegisters (s : State) : Bool × Byte × Word64 := (s.fault, s.fcode, s.finfo)

/-- A second fault leaves the first one's registers (60_exceptions.md R200). -/
theorem State.faultRegisters_faulted (hf : s.fault = true) (code : FaultCode) (info : Word64) :
    (s.faulted code info).faultRegisters = s.faultRegisters := by
  simp [State.faultRegisters, hf]

theorem exec_faultRegisters {i : Instr} (hf : s.fault = true) (h : exec i s = .next t) :
    t.faultRegisters = s.faultRegisters := by
  cases hc : i.isCommand with
  | true =>
    exact (exec_shape hc h).frame State.faultRegisters (State.faultRegisters_faulted hf) (fun _ => rfl)
      fun he => (congrArg State.faultRegisters he :)
  | false =>
    rw [exec_element hc] at h
    have hgen : { s with gen := none }.fault = true := hf
    obtain ⟨g, -, ⟨g', -, rfl⟩ | ⟨g', -, h⟩ | ⟨code, -, rfl⟩⟩ := runElement_cases h
    · rfl
    · refine (finishTrack_shape h).frame State.faultRegisters (State.faultRegisters_faulted hgen) (fun _ => rfl) ?_
      rintro ⟨-, L, splice, -, rfl⟩
      rfl
    · exact State.faultRegisters_faulted hgen code 0

theorem elementStep_faultRegisters {g : Interp} (hf : s.fault = true) (h : elementStep g s = .next t) :
    t.faultRegisters = s.faultRegisters := by
  have hgen : { s with gen := none }.fault = true := hf
  cases he : s.desc[g.dpc]? with
  | none =>
    rw [elementStep_of_end he] at h
    rw [raiseFault_eq_next h]
    exact State.faultRegisters_faulted hgen _ _
  | some e =>
    cases hd : decodeElem e with
    | error r =>
      rw [elementStep_of_illegal he hd] at h
      rw [raiseFault_eq_next h]
      exact State.faultRegisters_faulted hgen _ _
    | ok i =>
      rw [elementStep_of_element he hd] at h
      exact exec_faultRegisters hf h

/-- While `FAULT` is 1 every word is refused but `GET_FAULT`, which carries no time and so lets no timer run first. -/
theorem acceptWord_faultRegisters {w : Word32} (hf : s.fault = true) (h : acceptWord w s = .next t) :
    t.faultRegisters = s.faultRegisters := by
  obtain he | ⟨i, -, hi, he⟩ := acceptWord_cases w s <;> rw [he] at h
  · rw [complete_eq_next h]
    rfl
  · obtain rfl : i = .getFault := hi.resolve_left (by simp [hf])
    rw [timerFirst_of_no_time (.inl rfl)] at h
    exact exec_faultRegisters hf h

theorem timerInput_faultRegisters (hf : s.fault = true) (h : timerInput s = .next t) : t.faultRegisters = s.faultRegisters := by
  cases hp : s.timerPending with
  | false =>
    rw [timerInput_of_not_pending hp] at h
    cases h
    rfl
  | true =>
    rw [timerInput_of_faulted hp hf] at h
    rw [complete_eq_next h]
    rfl

theorem hostInput_faultRegisters {ev : HostInput} (hf : s.fault = true) (hev : ev ≠ .reset) (h : hostInput ev s = .next t) :
    t.faultRegisters = s.faultRegisters := by
  cases ev with
  | word w => exact acceptWord_faultRegisters hf h
  | timer => exact timerInput_faultRegisters hf h
  | reset => exact absurd rfl hev
  | _ => cases h; rfl

theorem step_faultRegisters (hf : s.fault = true) (hr : s.inbox.head? ≠ some .reset) (h : step s = .next t) :
    t.faultRegisters = s.faultRegisters := by
  cases hg : s.gen with
  | some g => exact elementStep_faultRegisters hf (step_of_gen hg ▸ h)
  | none =>
    cases hi : s.inbox with
    | nil =>
      rw [step_of_no_input hg hi] at h
      cases h
      rfl
    | cons ev rest =>
      rw [step_of_input hg hi] at h
      exact hostInput_faultRegisters (s := { s with inbox := rest }) hf (by simpa [hi] using hr) h

/-- Settles O16: no input of the host but reset, and no element of a descriptor program, changes the fault registers. -/
theorem faultIsSticky : Obligations.FaultIsSticky := by
  intro s t h hf hr
  obtain ⟨hfault, hcode, hinfo⟩ : t.fault = s.fault ∧ t.fcode = s.fcode ∧ t.finfo = s.finfo := by
    simpa [State.faultRegisters] using step_faultRegisters hf hr h
  exact ⟨hfault.trans hf, hcode, hinfo⟩

end Sys2Proof.Machine
end

section
/-!
PROOFS. 10_state.md R27, R28, 41_flux_sequencer.md R116: the read cache is invisible.
-/

namespace Sys2Proof.Machine

variable (s : State) (c : Cache)

/-! ### Outcomes up to the cache -/

/-- The state without its cache. -/
def State.cacheless (s : State) : State := { s with cache := Cache.reset }

theorem forgetCache_next {u u' : State} (h : u'.cacheless = u.cacheless) : forgetCache (.next u') = forgetCache (.next u) :=
  congrArg Host.Outcome.next h

theorem forgetCache_complete {u u' : State} (h : u'.cacheless = u.cacheless) (st : Status) :
    forgetCache (complete st u') = forgetCache (complete st u) :=
  forgetCache_next (congrArg (State.withStatus · st) h)

theorem forgetCache_ite {p : Prop} [Decidable p] {a a' b b' : Outcome} (ha : forgetCache a' = forgetCache a)
    (hb : forgetCache b' = forgetCache b) : forgetCache (if p then a' else b') = forgetCache (if p then a else b) := by
  split
  · exact ha
  · exact hb

theorem State.cacheless_ite {p : Prop} [Decidable p] {u u' v v' : State} (hu : u'.cacheless = u.cacheless)
    (hv : v'.cacheless = v.cacheless) : (if p then u' else v').cacheless = (if p then u else v).cacheless := by
  split
  · exact hu
  · exact hv

/-! ### Shared operations -/

theorem forgetCache_bitWriter (readable : Bool) (write : Nat → Nat → Nat → List Word32 → List Word32) :
    forgetCache (bitWriter readable write { s with cache := c }) = forgetCache (bitWriter readable write s) := by
  unfold bitWriter
  dsimp only
  cases bitCountOperand s.x.x0 with
  | none => rfl
  | some n =>
    cases sizeOperand s.x.x2 with
    | none => rfl
    | some d => exact forgetCache_ite rfl rfl

theorem forgetCache_genFromCells (a b sigma : Nat) (cl : List Word32) :
    forgetCache (genFromCells a b sigma cl { s with cache := c }) = forgetCache (genFromCells a b sigma cl s) := by
  unfold genFromCells
  cases cellsToTrack cl sigma with
  | error code => exact forgetCache_ite rfl rfl
  | ok r => exact forgetCache_ite rfl rfl

theorem forgetCache_finishTrack (g : Interp) :
    forgetCache (finishTrack g { s with cache := c }) = forgetCache (finishTrack g s) :=
  forgetCache_ite rfl (forgetCache_ite rfl (forgetCache_genFromCells s c _ _ _ _))

theorem forgetCache_buildTrack (fixedSize : Layout → List SectorDesc → Nat)
    (cells : Layout → Nat → List SectorDesc → List Word32) :
    forgetCache (buildTrack fixedSize cells { s with cache := c }) = forgetCache (buildTrack fixedSize cells s) :=
  forgetCache_ite rfl
    (forgetCache_ite rfl (forgetCache_ite rfl (forgetCache_ite rfl (forgetCache_genFromCells s c _ _ _ _))))

theorem forgetCache_interpret (n : Nat) (g : Interp) :
    forgetCache (interpret { s with cache := c } n g) = forgetCache (interpret s n g) := by
  induction n generalizing g with
  | zero => rfl
  | succ n ih =>
    unfold interpret
    dsimp only
    cases fetchElement s.desc s.sdl g with
    | run g' => exact ih g'
    | done g' => exact forgetCache_finishTrack s c g'
    | fault code => rfl

theorem forgetCache_runElement (f : List SectorDesc → Interp → ElemResult) :
    forgetCache (runElement f { s with cache := c }) = forgetCache (runElement f s) := by
  unfold runElement
  dsimp only
  cases s.gen with
  | none => rfl
  | some g =>
    dsimp only
    cases f s.sdl g with
    | run g' => rfl
    | done g' => exact forgetCache_finishTrack { s with gen := none } c g'
    | fault code => rfl

theorem State.trackAt_withCache (a b : Nat) : State.trackAt { s with cache := c } a b = s.trackAt a b := rfl

theorem State.buf_withCache (a b : Nat) : State.buf { s with cache := c } a b = s.buf a b := rfl

theorem State.parseCheckpoint_withCache : State.parseCheckpoint { s with cache := c } = s.parseCheckpoint := rfl

theorem State.cacheless_resync (now : Nat) : (State.resync { s with cache := c } now).cacheless = (s.resync now).cacheless :=
  State.cacheless_ite rfl rfl

/-! ### The commands that branch on an operand or on a result -/

theorem forgetCache_execSetMotor : forgetCache (execSetMotor { s with cache := c }) = forgetCache (execSetMotor s) := by
  unfold execSetMotor
  dsimp only
  cases timeOperand s.x.x1 with
  | none => rfl
  | some now =>
    exact forgetCache_ite
      (forgetCache_complete (State.cacheless_resync (s.motorOn s.x.x1) { c with valid := false } now) .ok)
      (forgetCache_ite rfl rfl)

theorem forgetCache_execIndexResync :
    forgetCache (execIndexResync { s with cache := c }) = forgetCache (execIndexResync s) := by
  unfold execIndexResync
  dsimp only
  cases timeOperand s.x.x0 with
  | none => rfl
  | some now => exact forgetCache_complete (State.cacheless_resync s c now) .ok

theorem forgetCache_execTimeNextIndex :
    forgetCache (execTimeNextIndex { s with cache := c }) = forgetCache (execTimeNextIndex s) := by
  unfold execTimeNextIndex
  dsimp only
  cases timeOperand s.x.x0 with
  | none => rfl
  | some now => exact forgetCache_ite rfl rfl

theorem forgetCache_execPhaseOf : forgetCache (execPhaseOf { s with cache := c }) = forgetCache (execPhaseOf s) := by
  unfold execPhaseOf
  dsimp only
  cases timeOperand s.x.x0 <;> rfl

theorem forgetCache_execStepTo : forgetCache (execStepTo { s with cache := c }) = forgetCache (execStepTo s) := by
  unfold execStepTo
  dsimp only
  cases timeOperand s.x.x1 with
  | none => rfl
  | some now =>
    refine forgetCache_complete ?_ .ok
    by_cases hd : s.diskPresent = true
    · simp only [if_pos hd]
      exact State.cacheless_ite rfl rfl
    · simp only [if_neg hd]
      exact State.cacheless_ite rfl rfl

theorem forgetCache_execWriteFlux : forgetCache (execWriteFlux { s with cache := c }) = forgetCache (execWriteFlux s) := by
  unfold execWriteFlux
  dsimp only
  cases timeOperand s.x.x0 with
  | none => rfl
  | some start =>
    cases timeOperand s.x.x1 with
    | none => rfl
    | some stop => exact forgetCache_ite rfl (forgetCache_ite rfl (forgetCache_ite rfl rfl))

theorem forgetCache_execSetWriteSplice :
    forgetCache (execSetWriteSplice { s with cache := c }) = forgetCache (execSetWriteSplice s) := by
  unfold execSetWriteSplice
  dsimp only
  cases timeOperand s.x.x0 with
  | none => rfl
  | some t => exact forgetCache_ite rfl rfl

/-- The scan of `NT(f)` reads the track, the phase and the seed (41_flux_sequencer.md R112). -/
theorem State.walk_withCache (f n : Nat) (k : Int) (j : Nat) : State.walk { s with cache := c } f n k j = s.walk f n k j := by
  induction n generalizing k j with
  | zero => rfl
  | succ n ih =>
    simp only [State.walk, ih]
    rfl

theorem State.nextTransition_withCache (f : Nat) : State.nextTransition { s with cache := c } f = s.nextTransition f :=
  s.walk_withCache c _ _ _ _

/-- The read fills the cache, but what it answers is computed from the track (R116). -/
theorem forgetCache_execGetNextTransition :
    forgetCache (execGetNextTransition { s with cache := c }) = forgetCache (execGetNextTransition s) := by
  unfold execGetNextTransition
  dsimp only
  cases timeOperand s.x.x0 with
  | none => rfl
  | some f =>
    dsimp only
    rw [State.nextTransition_withCache]
    cases s.nextTransition f with
    | none => exact forgetCache_ite rfl rfl
    | some e => exact forgetCache_ite rfl rfl

theorem forgetCache_execGenTrack : forgetCache (execGenTrack { s with cache := c }) = forgetCache (execGenTrack s) := by
  unfold execGenTrack
  dsimp only
  cases sizeOperand s.x.x3 with
  | none => exact forgetCache_ite rfl (forgetCache_ite rfl rfl)
  | some d => exact forgetCache_ite rfl (forgetCache_ite rfl (forgetCache_interpret s c _ _))

theorem forgetCache_execGenBitstream :
    forgetCache (execGenBitstream { s with cache := c }) = forgetCache (execGenBitstream s) := by
  refine forgetCache_ite rfl (forgetCache_ite rfl ?_)
  dsimp only
  cases sizeOperand s.x.x2 with
  | none => rfl
  | some p0 =>
    dsimp only
    rw [State.buf_withCache, State.trackAt_withCache]
    cases bitstream _ _ p0 <;> rfl

theorem forgetCache_execExtractMfm :
    forgetCache (execExtractMfm { s with cache := c }) = forgetCache (execExtractMfm s) := by
  unfold execExtractMfm
  dsimp only
  cases huntMfm s.bs (s.bs.length + 1) 0 0 { ids := [], dams := [] } <;> rfl

theorem forgetCache_execCrcCells : forgetCache (execCrcCells { s with cache := c }) = forgetCache (execCrcCells s) := by
  unfold execCrcCells
  dsimp only
  cases crcOfCells s.cl (unsignedOperand s.x.x0) (unsignedOperand s.x.x1) <;> rfl

theorem forgetCache_execInsert : forgetCache (execInsert { s with cache := c }) = forgetCache (execInsert s) := by
  refine forgetCache_ite rfl (forgetCache_ite rfl (forgetCache_complete ?_ .ok))
  dsimp only
  split <;> rfl

theorem forgetCache_execLoadState : forgetCache (execLoadState { s with cache := c }) = forgetCache (execLoadState s) := by
  refine forgetCache_ite rfl ?_
  rw [State.parseCheckpoint_withCache]
  cases s.parseCheckpoint <;> rfl

/-! ### Every instruction -/

/-- Settles O34: no instruction branches on the cache or puts a part of it anywhere else; `GET_NEXT_TRANSITION` alone reads it, to fill
it. -/
theorem cacheInvisible : Obligations.CacheInvisible := by
  intro i s c
  cases hc : i.isCommand with
  | false =>
    rw [exec_element hc, exec_element hc]
    exact forgetCache_runElement s c _
  | true =>
    cases i with
    | setMotor => exact forgetCache_execSetMotor s c
    | indexResync => exact forgetCache_execIndexResync s c
    | timeNextIndex => exact forgetCache_execTimeNextIndex s c
    | phaseOf => exact forgetCache_execPhaseOf s c
    | stepTo => exact forgetCache_execStepTo s c
    | getNextTransition => exact forgetCache_execGetNextTransition s c
    | writeFlux => exact forgetCache_execWriteFlux s c
    | setWriteSplice => exact forgetCache_execSetWriteSplice s c
    | genTrack => exact forgetCache_execGenTrack s c
    | genBitstream => exact forgetCache_execGenBitstream s c
    | extractMfm => exact forgetCache_execExtractMfm s c
    | crcCells => exact forgetCache_execCrcCells s c
    | insert => exact forgetCache_execInsert s c
    | loadState => exact forgetCache_execLoadState s c
    | rawW | fmW | mfmW => exact forgetCache_bitWriter s c _ _
    | buildPcMfm | buildPcFm => exact forgetCache_buildTrack s c _ _
    | genFromCells => exact forgetCache_ite rfl (forgetCache_genFromCells s c _ _ _ _)
    | getLines | getFault | setSeed | clClear | extractFm | crcBytes | pollChanged | getFlags | getProps => rfl
    | setSide | eject | actualGeometry | saveState | setWp => exact forgetCache_ite rfl rfl
    | timeOf | clearDirty | getBuffer | trackIsFormatted => exact forgetCache_ite rfl (forgetCache_ite rfl rfl)
    | resizeTracks | readSector => exact forgetCache_ite rfl (forgetCache_ite rfl (forgetCache_ite rfl rfl))
    | putBuffer => exact forgetCache_ite rfl (forgetCache_ite rfl (forgetCache_ite rfl (forgetCache_ite rfl rfl)))
    | writeSector =>
      exact forgetCache_ite rfl
        (forgetCache_ite rfl (forgetCache_ite rfl (forgetCache_ite rfl (forgetCache_ite rfl rfl))))
    | _ => cases hc

end Sys2Proof.Machine
end

section
/-!
PROOFS. 30_encoding.md: the decoder undoes the encoder and reads no command from two words (R76 to R79, R83), and a word that is taken is
dispatched or refused (R85; 60_exceptions.md R205).
-/

namespace Sys2Proof.Machine

/-! ### Command words (R78, R79, R83) -/

theorem reserved_ne_zero_iff (w : Word32) : w.extractLsb' 8 24 ≠ 0 ↔ w.toNat / 2 ^ 8 ≠ 0 := by
  have hlt := w.isLt
  simp only [ne_eq, BitVec.toNat_eq, BitVec.extractLsb'_toNat, Nat.shiftRight_eq_div_pow, BitVec.ofNat_eq_ofNat,
    BitVec.toNat_ofNat]
  omega

theorem toNat_opcode (w : Word32) : (w.extractLsb' 0 8).toNat = w.toNat % 2 ^ 8 := by
  rw [BitVec.extractLsb'_toNat, Nat.shiftRight_zero]

theorem decodeWord_of_reserved {w : Word32} (h : w.extractLsb' 8 24 ≠ 0) : decodeWord w = .error .reservedBits := if_pos h

theorem decodeWord_of_opcode {w : Word32} {i : Instr} (h : w.extractLsb' 8 24 = 0) (hop : commandOf (w.extractLsb' 0 8) = some i) :
    decodeWord w = .ok i := by
  rw [decodeWord, if_neg (not_not_intro h), hop]

theorem decodeWord_of_unassigned {w : Word32} (h : w.extractLsb' 8 24 = 0) (hop : commandOf (w.extractLsb' 0 8) = none) :
    decodeWord w = .error (.unassignedOpcode (w.extractLsb' 0 8)) := by
  rw [decodeWord, if_neg (not_not_intro h), hop]

/-- The three ways of reading a word: a reserved bit is set, the opcode is unassigned, or the opcode is that of a command. -/
theorem decodeWord_cases (w : Word32) :
    (w.extractLsb' 8 24 ≠ 0 ∧ decodeWord w = .error .reservedBits)
      ∨ (w.extractLsb' 8 24 = 0 ∧ commandOf (w.extractLsb' 0 8) = none
          ∧ decodeWord w = .error (.unassignedOpcode (w.extractLsb' 0 8)))
      ∨ ∃ i : Instr, w.extractLsb' 8 24 = 0 ∧ commandOf (w.extractLsb' 0 8) = some i ∧ decodeWord w = .ok i := by
  by_cases hw : w.extractLsb' 8 24 = 0
  · cases hop : commandOf (w.extractLsb' 0 8) with
    | none => exact .inr (.inl ⟨hw, rfl, decodeWord_of_unassigned hw hop⟩)
    | some i => exact .inr (.inr ⟨i, hw, rfl, decodeWord_of_opcode hw hop⟩)
  · exact .inl ⟨hw, decodeWord_of_reserved hw⟩

theorem decodeWord_ok_iff {w : Word32} {i : Instr} :
    decodeWord w = .ok i ↔ w.extractLsb' 8 24 = 0 ∧ commandOf (w.extractLsb' 0 8) = some i := by
  rcases decodeWord_cases w with ⟨hw, h⟩ | ⟨hw, hop, h⟩ | ⟨j, hw, hop, h⟩
  · simp only [h, hw, reduceCtorEq, false_and]
  · simp only [h, hop, reduceCtorEq, and_false]
  · simp only [h, hw, hop, Except.ok.injEq, Option.some.injEq, true_and]

theorem decodeWord_error_iff {w : Word32} :
    (∃ r : Reject, decodeWord w = .error r) ↔ w.extractLsb' 8 24 ≠ 0 ∨ commandOf (w.extractLsb' 0 8) = none := by
  rcases decodeWord_cases w with ⟨hw, h⟩ | ⟨-, hop, h⟩ | ⟨i, hw, hop, h⟩
  · exact iff_of_true ⟨_, h⟩ (.inl hw)
  · exact iff_of_true ⟨_, h⟩ (.inr hop)
  · simp [h, hw, hop]

/-- The gaps of the table of R79. -/
theorem commandOf_eq_none_iff (op : Byte) :
    commandOf op = none ↔ op.toNat = 0x00 ∨ (0x0A ≤ op.toNat ∧ op.toNat ≤ 0x0F) ∨ (0x14 ≤ op.toNat ∧ op.toNat ≤ 0x1F)
      ∨ (0x2B ≤ op.toNat ∧ op.toNat ≤ 0x2F) ∨ (0x32 ≤ op.toNat ∧ op.toNat ≤ 0x3F) ∨ 0x50 ≤ op.toNat := by
  unfold commandOf
  split
  case h_43 => simp only [true_iff, imp_false] at *; omega
  all_goals simp only [reduceCtorEq, false_iff]; omega

/-- The table of R79 read backwards: the encoder writes the opcode at which the decoder finds the command. -/
theorem encode_of_commandOf {op : Byte} {i : Instr} (h : commandOf op = some i) : encode i = commandWord op := by
  unfold commandOf at h
  split at h <;> cases h <;> rename_i hop <;> exact congrArg commandWord (BitVec.eq_of_toNat_eq hop.symm)

/-- With bits 31:8 clear a word is its opcode (R78). -/
theorem setWidth_opcode {w : Word32} (h : w.extractLsb' 8 24 = 0) : (w.extractLsb' 0 8).setWidth 32 = w := by
  have hhigh : w.toNat / 2 ^ 8 = 0 := by simpa using mt (reserved_ne_zero_iff w).mpr (not_not_intro h)
  apply BitVec.eq_of_toNat_eq
  rw [BitVec.toNat_setWidth, toNat_opcode]
  omega

theorem encode_of_decodeWord {w : Word32} {i : Instr} (h : decodeWord w = .ok i) : encode i = .word w := by
  obtain ⟨hreserved, hop⟩ := decodeWord_ok_iff.mp h
  rw [encode_of_commandOf hop, commandWord, setWidth_opcode hreserved]

/-! ### Descriptor elements (R76, R77) -/

theorem descElem_of_op {e : DescElem} {op : Byte} (h : e.op.toNat = op.toNat) (p1 p2 : Word32) :
    descElem op p1 p2 = .elem { op := e.op, p1 := p1, p2 := p2 } := by
  rw [descElem, BitVec.eq_of_toNat_eq h]

theorem encode_of_decodeElem {e : DescElem} {i : Instr} (h : decodeElem e = .ok i) :
    ∃ p1 p2 : Word32, encode i = .elem { op := e.op, p1 := p1, p2 := p2 } := by
  unfold decodeElem at h
  split at h <;> cases h <;> rename_i hop <;> exact ⟨_, _, descElem_of_op hop _ _⟩

/-! ### The round trips -/

/-- Settles O1: `FM`, `MFM` and `RAW` read a narrow field back from the wider parameter that holds it; of every other instruction the
encoder writes fixed bits or whole parameters. -/
theorem decodeEncode : Obligations.DecodeEncode := by
  intro i
  cases i with
  | fm byte count => exact Laws.RoundTrip.fm byte count
  | mfm byte count => exact Laws.RoundTrip.mfm byte count
  | raw pattern count => exact Laws.RoundTrip.raw pattern count
  | crcCcittStart region => exact Laws.RoundTrip.crcCcittStart region
  | crcCcittFmStart region => exact Laws.RoundTrip.crcCcittFmStart region
  | crcEnd region => exact Laws.RoundTrip.crcEnd region
  | crc region => exact Laws.RoundTrip.crc region
  | sectorLoopStart first last => exact Laws.RoundTrip.sectorLoopStart first last
  | sectorInterleaveSkip interleave skew => exact Laws.RoundTrip.sectorInterleaveSkip interleave skew
  | setMotor | indexResync | timeNextIndex | phaseOf | timeOf | stepTo | setSide | getLines | getFault => exact fun _ => rfl
  | getNextTransition | writeFlux | setWriteSplice | setSeed => exact fun _ => rfl
  | clClear | rawW | fmW | mfmW | genTrack | genFromCells | genBitstream | extractMfm | extractFm => exact fun _ => rfl
  | buildPcMfm | buildPcFm | crcCells | crcBytes => exact fun _ => rfl
  | insert | eject | getBuffer | putBuffer | resizeTracks | trackIsFormatted | actualGeometry => exact fun _ => rfl
  | readSector | writeSector | saveState | loadState | setWp | pollChanged | getFlags | clearDirty | getProps =>
    exact fun _ => rfl
  | endDesc | trackId | trackIdFm | headId | headIdFm | sectorId | sectorIdFm | sizeId | sizeIdFm => exact fun _ => rfl
  | sectorLoopEnd | sectorData | sectorDataFm => exact fun _ => rfl

/-- Settles O2: the opcode and the zero bits above it are the whole word, and the op of an element is the one that is encoded. -/
theorem encodeDecode : Obligations.EncodeDecode :=
  ⟨fun _ _ h => ⟨decodeWord_command h, encode_of_decodeWord h⟩,
    fun _ _ h => ⟨decodeElem_not_command h, encode_of_decodeElem h⟩⟩

/-- Settles O3, by evaluating the decoder on each of the eleven codes. -/
theorem sampleWordsDecode : Obligations.SampleWordsDecode :=
  ⟨rfl, rfl, rfl, rfl, rfl, rfl, rfl, rfl, rfl, rfl, rfl⟩

/-! ### Taking a word (R85; 60_exceptions.md R205) -/

/-- Only the word 0x09 is `GET_FAULT`. -/
theorem word_of_decode_getFault {w : Word32} (h : decodeWord w = .ok .getFault) : w = 0x09#32 := by
  have he : Code.word w = .word 0x09#32 := (encode_of_decodeWord h).symm
  cases he
  rfl

/-- While `FAULT = 1` every word but that of `GET_FAULT`, legal or not, is refused (R85). -/
theorem acceptWord_of_fault {s : State} {w : Word32} (hf : s.fault = true) (hw : w ≠ 0x09#32) : acceptWord w s = refuseWord s := by
  cases h : decodeWord w with
  | error r => exact acceptWord_of_illegal h s
  | ok i => exact acceptWord_of_faulted h hf (fun hi => hw (word_of_decode_getFault (hi ▸ h)))

/-- Settles O4: a word is illegal by its reserved bits or by a gap of the opcode table, and `acceptWord` refuses it, as it does all words
but one while `FAULT = 1`. -/
theorem illegalWordRefused : Obligations.IllegalWordRefused := by
  refine ⟨fun w => ?_, fun s w rest hg hi h => ?_⟩
  · rw [decodeWord_error_iff, reserved_ne_zero_iff, commandOf_eq_none_iff, toNat_opcode]
  · have hrefused : acceptWord w { s with inbox := rest } = refuseWord { s with inbox := rest } := by
      rcases h with ⟨r, hr⟩ | ⟨hf, hw⟩
      · exact acceptWord_of_illegal hr _
      · exact acceptWord_of_fault hf hw
    exact step_of_input_next hg hi hrefused

/-- Settles O5: the step takes the word, and a legal one is dispatched. -/
theorem stepRunsDecodedWord : Obligations.StepRunsDecodedWord :=
  fun _ _ _ _ hg hi hd hf => (step_of_input hg hi).trans (acceptWord_of_legal hd hf)

end Sys2Proof.Machine
end

section
/-!
PROOFS. 30_encoding.md R80, R81, 20_memory.md R52: the checks that stand before a command's work, of its time operands, of the disk and
of the track.
-/

namespace Sys2Proof.Machine

variable {s : State}

/-! ### A time operand that is `NEVER` (R81) -/

theorem execIndexResync_of_never (h : s.x.x0 = never) : execIndexResync s = raiseFault .operand 0 s := by
  rw [execIndexResync, h, timeOperand_never]

theorem execTimeNextIndex_of_never (h : s.x.x0 = never) : execTimeNextIndex s = raiseFault .operand 0 s := by
  rw [execTimeNextIndex, h, timeOperand_never]

theorem execPhaseOf_of_never (h : s.x.x0 = never) : execPhaseOf s = raiseFault .operand 0 s := by
  rw [execPhaseOf, h, timeOperand_never]

theorem execGetNextTransition_of_never (h : s.x.x0 = never) : execGetNextTransition s = raiseFault .operand 0 s := by
  rw [execGetNextTransition, h, timeOperand_never]

theorem execSetWriteSplice_of_never (h : s.x.x0 = never) : execSetWriteSplice s = raiseFault .operand 0 s := by
  rw [execSetWriteSplice, h, timeOperand_never]

theorem execSetMotor_of_never (h : s.x.x1 = never) : execSetMotor s = raiseFault .operand 0 s := by
  rw [execSetMotor, h, timeOperand_never]

theorem execStepTo_of_never (h : s.x.x1 = never) : execStepTo s = raiseFault .operand 0 s := by
  rw [execStepTo, h, timeOperand_never]

theorem execWriteFlux_of_never (h : s.x.x0 = never ∨ s.x.x1 = never) : execWriteFlux s = raiseFault .operand 0 s := by
  unfold execWriteFlux
  rcases h with h | h <;> rw [h, timeOperand_never]
  cases timeOperand s.x.x0 <;> rfl

/-- Settles O19: each of the commands begins with `timeOperand` of its time operand, which `NEVER` fails. -/
theorem neverTimeFaults : Obligations.NeverTimeFaults := by
  rintro s i (⟨hi, h⟩ | ⟨hi, h⟩ | ⟨rfl, h⟩)
  · rcases hi with rfl | rfl | rfl | rfl | rfl
    · exact execIndexResync_of_never h
    · exact execTimeNextIndex_of_never h
    · exact execPhaseOf_of_never h
    · exact execGetNextTransition_of_never h
    · exact execSetWriteSplice_of_never h
  · rcases hi with rfl | rfl
    · exact execSetMotor_of_never h
    · exact execStepTo_of_never h
  · exact execWriteFlux_of_never h

/-! ### The disk and the track (R80; 20_memory.md R52) -/

/-- The check that the commands on a disk begin with. -/
theorem noDisk_of_check {o : Outcome} (hd : s.diskPresent = false) :
    (if !s.diskPresent then complete .noDisk s else o) = .next { s with st := 0x03#8 } :=
  if_pos (by rw [hd]; rfl)

theorem of_diskCheck {o o' : Outcome} (hd : s.diskPresent = true) : (if !s.diskPresent then o else o') = o' :=
  if_neg (by simp [hd])

theorem State.inStore_eq_false_iff (s : State) (c h : Nat) :
    s.inStore c h = false ↔ s.allocTracks.toNat ≤ c ∨ s.allocSides.toNat ≤ h := by
  rw [← Bool.not_eq_true, State.inStore_iff]
  omega

/-- The disk check and then the track check, which the commands that name a track begin with. -/
theorem trackRange_of_checks {o o' : Outcome} {c h : Nat} {info : Word64} (hd : s.diskPresent = true) (ht : s.inStore c h = false) :
    (if !s.diskPresent then o else if !s.inStore c h then raiseFault .trackRange info s else o')
      = .next (s.faulted .trackRange info) :=
  (of_diskCheck hd).trans (if_pos (by rw [ht]; rfl))

/-- Settles O20: the seventeen commands begin with the disk check, and the eight that name a track go on with the track check. -/
theorem trackCommandChecks : Obligations.TrackCommandChecks := by
  refine fun s i => ⟨fun hd hi => ?noDisk, fun hd hout => ?range⟩
  case noDisk =>
    rcases hi with rfl | rfl | rfl | rfl | rfl | rfl | rfl | rfl | rfl | rfl | rfl | rfl | rfl | rfl | rfl | rfl | rfl
    all_goals exact noDisk_of_check hd
  case range =>
    have ht : s.inStore s.x.x0.toNat s.x.x1.toNat = false := (s.inStore_eq_false_iff _ _).mpr hout
    constructor
    · rintro (rfl | rfl | rfl | rfl | rfl) <;> exact trackRange_of_checks hd ht
    · rintro (rfl | rfl | rfl) <;> exact trackRange_of_checks hd ht

end Sys2Proof.Machine
end

section
/-!
PROOFS. 30_encoding.md R86, 45_cell_buffer.md R192 to R194, R198, R199: the commands that report and set flags.
-/

namespace Sys2Proof.Machine

variable {s : State}

/-! ### The line word and the flag word (R86, R194) -/

theorem getLsbD_flagBit (b : Bool) {n : Nat} (hn : n < 64) (m : Nat) : (flagBit b n).getLsbD m = (b && decide (n = m)) := by
  cases b <;> simp [flagBit, BitVec.getLsbD_twoPow, hn]

theorem State.track0Line_eq (s : State) : s.track0Line = decide (s.cyl.toNat = 0) := by
  simp [State.track0Line, BitVec.toNat_eq]

/-- Each line stands at its bit and at no other. -/
theorem State.getLsbD_linesWord (s : State) (m : Nat) :
    s.linesWord.getLsbD m = (s.motor && decide (0 = m) || s.ready && decide (1 = m) || s.idx && decide (2 = m)
      || s.wpLine && decide (3 = m) || s.door && decide (4 = m) || s.seekSound && decide (5 = m)
      || s.diskPresent && decide (6 = m) || s.track0Line && decide (7 = m)) := by
  simp [State.linesWord, getLsbD_flagBit]

/-- Each flag stands at its bit and at no other. -/
theorem State.getLsbD_flagsWord (s : State) (m : Nat) :
    s.flagsWord.getLsbD m = (s.diskPresent && decide (0 = m) || s.wp && decide (1 = m) || s.dirtyLoad && decide (2 = m)
      || s.dirtyRestore && decide (3 = m) || s.imgChanged && decide (4 = m)) := by
  simp [State.flagsWord, getLsbD_flagBit]

/-- The line word as R86 lists it. -/
theorem State.linesWord_bits (s : State) :
    s.linesWord.getLsbD 0 = s.motor ∧ s.linesWord.getLsbD 1 = s.ready ∧ s.linesWord.getLsbD 2 = s.idx
      ∧ s.linesWord.getLsbD 3 = s.wpLine ∧ s.linesWord.getLsbD 4 = s.door ∧ s.linesWord.getLsbD 5 = s.seekSound
      ∧ s.linesWord.getLsbD 6 = s.diskPresent ∧ s.linesWord.getLsbD 7 = decide (s.cyl.toNat = 0)
      ∧ ∀ n : Nat, 8 ≤ n → s.linesWord.getLsbD n = false := by
  simp only [State.getLsbD_linesWord, State.track0Line_eq]
  refine ⟨?_, ?_, ?_, ?_, ?_, ?_, ?_, ?_, fun n hn => ?high⟩
  case high =>
    have hne : ∀ m < 8, m ≠ n := fun m hm => by omega
    simp [hne]
  all_goals simp

/-- The flag word as R194 lists it. -/
theorem State.flagsWord_bits (s : State) :
    s.flagsWord.getLsbD 0 = s.diskPresent ∧ s.flagsWord.getLsbD 1 = s.wp ∧ s.flagsWord.getLsbD 2 = s.dirtyLoad
      ∧ s.flagsWord.getLsbD 3 = s.dirtyRestore ∧ s.flagsWord.getLsbD 4 = s.imgChanged
      ∧ ∀ n : Nat, 5 ≤ n → s.flagsWord.getLsbD n = false := by
  simp only [State.getLsbD_flagsWord]
  refine ⟨?_, ?_, ?_, ?_, ?_, fun n hn => ?high⟩
  case high =>
    have hne : ∀ m < 5, m ≠ n := fun m hm => by omega
    simp [hne]
  all_goals simp

/-! ### The flag commands -/

theorem execClearDirty_of_ok (hd : s.diskPresent = true) (hm : s.x.x0.toNat < 4) :
    execClearDirty s = .next { s with
      dirtyLoad := s.dirtyLoad && !s.x.x0.getLsbD 0, dirtyRestore := s.dirtyRestore && !s.x.x0.getLsbD 1, st := 0x00 } := by
  have hmask (b flag : Bool) : (if b then false else flag) = (flag && !b) := by cases b <;> cases flag <;> rfl
  refine (of_diskCheck hd).trans ((if_neg (Nat.not_le.mpr hm)).trans ?_)
  rw [hmask, hmask]
  rfl

theorem execClearDirty_of_large (hd : s.diskPresent = true) (hm : 4 ≤ s.x.x0.toNat) :
    execClearDirty s = .next (s.faulted .operand 0) :=
  (of_diskCheck hd).trans (if_pos hm)

/-- Settles O31: the words are those of `linesWord_bits` and `flagsWord_bits`, and the rest is what each command writes after its
checks. -/
theorem flagCommands : Obligations.FlagCommands := by
  intro s
  exact ⟨⟨_, rfl, rfl, s.linesWord_bits⟩, rfl, rfl, ⟨_, rfl, rfl, s.flagsWord_bits⟩,
    fun hd => ⟨noDisk_of_check hd, noDisk_of_check hd⟩, fun hd => of_diskCheck hd, execClearDirty_of_ok,
    execClearDirty_of_large, rfl⟩

end Sys2Proof.Machine
end

section
/-!
PROOFS. 40_phase.md R88 to R90, R107: the quantizer is the exact rational angle, and how `U` and `TOF` move.
-/

namespace Sys2Proof.Machine

/-! ### The quantizer over the rationals (R88, R89) -/

theorem ceilDiv_eq_ceil (a : Int) (b : Nat) : ceilDiv a b = ⌈(a : ℚ) / b⌉ := (Rat.ceil_intCast_div_natCast a b).symm

/-- A common factor of dividend and divisor cancels. -/
theorem ceilDiv_mul_mul (a b : Int) {m : Int} (hm : 0 < m) : ceilDiv (a * m) (b * m) = ceilDiv a b := by
  rw [ceilDiv, ← Int.neg_mul, Int.mul_ediv_mul_of_pos_left _ _ hm, ceilDiv]

theorem angle_eq_floor (rpm : Nat) (t0 t : Int) :
    angle rpm t0 t = ⌊((t : ℚ) - t0) * rpm * 200000000 / (60 * 10 ^ 9)⌋ := by
  have h : angle rpm t0 t = _ := (Rat.floor_intCast_div_natCast ((t - t0) * rpm * revUnits) (60 * tps)).symm
  rw [h]
  norm_num

theorem angleRev_eq_floor (rpm : Nat) (t0 t : Int) : angleRev rpm t0 t = ⌊(angle rpm t0 t : ℚ) / 200000000⌋ :=
  (Rat.floor_intCast_div_natCast (angle rpm t0 t) revUnits).symm

theorem angleTime_eq_ceil (rpm : Nat) (t0 k p : Int) :
    angleTime rpm t0 k p = t0 + ⌈((k : ℚ) * 200000000 + p) * 60 * 10 ^ 9 / (rpm * 200000000)⌉ := by
  rw [angleTime, ← Nat.cast_mul, ceilDiv_eq_ceil]
  norm_num

/-- The start of a revolution, the units of a revolution cancelled. -/
theorem revTime_eq (rpm : Nat) (t0 k : Int) : revTime rpm t0 k = t0 + ceilDiv (k * 60 * tps) rpm := by
  rw [revTime, angleTime, ← ceilDiv_mul_mul (k * 60 * tps) rpm (show (0 : Int) < revUnits by decide)]
  congr 2
  ring

theorem revTime_eq_ceil (rpm : Nat) (t0 k : Int) : revTime rpm t0 k = t0 + ⌈(k : ℚ) * 60 * 10 ^ 9 / rpm⌉ := by
  rw [revTime_eq, ceilDiv_eq_ceil]
  norm_num

/-! ### 300 rpm (R90) -/

theorem angle_at_300 (t0 t : Int) : angle 300 t0 t = t - t0 := by
  unfold angle
  push_cast
  omega

theorem angleTime_at_300 (t0 k p : Int) : angleTime 300 t0 k p = t0 + 200000000 * k + p := by
  unfold angleTime ceilDiv
  push_cast
  omega

theorem revTime_at_300 (t0 k : Int) : revTime 300 t0 k = t0 + 200000000 * k := by
  rw [revTime, angleTime_at_300, add_zero]

/-- Settles O21: the integer divisions of the model are the floors of the rational quotients. -/
theorem quantizerIsExact : Obligations.QuantizerIsExact := by
  refine ⟨fun rpm t0 t => ⟨angle_eq_floor rpm t0 t, angleRev_eq_floor rpm t0 t, ?_, anglePos_lt rpm t0 t⟩,
    fun t0 t k p => ⟨angle_at_300 t0 t, angleTime_at_300 t0 k p, revTime_at_300 t0 k⟩⟩
  have h := angle_eq_rev_pos rpm t0 t
  push_cast at h
  omega

/-! ### One tick of the angle (R89, R107) -/

variable {rpm n : Nat}

/-- At a speed of at most `n` units a tick, one tick adds at most `n` units. -/
theorem angle_succ_le (hn : rpm * revUnits ≤ n * (60 * tps)) (t0 t : Int) : angle rpm t0 (t + 1) ≤ angle rpm t0 t + n := by
  have hn' : (rpm * revUnits : Int) ≤ n * (60 * tps) := by exact_mod_cast hn
  have hnum : (t + 1 - t0) * rpm * revUnits ≤ (t - t0) * rpm * revUnits + n * (60 * tps) := by linarith
  rw [angle, angle, ← Int.add_mul_ediv_right _ _ (show (60 * tps : Int) ≠ 0 by decide)]
  exact Int.ediv_le_ediv (by decide) hnum

/-- `TOF(k, p)` overshoots the angle it is asked for by less than what one tick adds. -/
theorem angle_angleTime_lt (hr : 1 ≤ rpm) (hn : rpm * revUnits ≤ n * (60 * tps)) (t0 k p : Int) :
    angle rpm t0 (angleTime rpm t0 k p) < k * revUnits + p + n := by
  have hbefore : angle rpm t0 (angleTime rpm t0 k p - 1) < k * revUnits + p := (lt_angleTime_iff hr _ _ _ _).mp (by omega)
  have htick := angle_succ_le hn t0 (angleTime rpm t0 k p - 1)
  rw [Int.sub_add_cancel] at htick
  omega

/-- At `ANG_SPEED <= 1` no angle is jumped over. -/
theorem angle_angleTime_of_slow (hr : 1 ≤ rpm) (hs : rpm * revUnits ≤ 60 * tps) (t0 k p : Int) :
    angle rpm t0 (angleTime rpm t0 k p) = k * revUnits + p := by
  have hge := le_angle_angleTime hr t0 k p
  have hlt := angle_angleTime_lt (n := 1) hr (by omega) t0 k p
  omega

/-- 300 rpm is one unit a tick. -/
theorem slow_of_le_300 (h : rpm ≤ 300) : rpm * revUnits ≤ 60 * tps := by
  simp only [revUnits, tps]
  omega

/-- Settles O22: `TOF` is adjoint to `U`, which makes it minimal, and at or below 300 rpm one tick adds at most one unit. -/
theorem timeOfIsEarliest : Obligations.TimeOfIsEarliest := fun rpm t0 k p hr _ _ =>
  ⟨angleTime_eq_ceil rpm t0 k p, revTime_eq_ceil rpm t0 k, le_angle_angleTime hr t0 k p,
    fun t => (lt_angleTime_iff hr t0 t k p).mp, fun hs => angle_angleTime_of_slow hr (slow_of_le_300 hs) t0 k p⟩

/-- At `ANG_SPEED <= 1` the tick of an angle has exactly that angle, so a larger angle is not reached there. -/
theorem angleTime_strictMono (hr : 1 ≤ rpm) (hs : rpm * revUnits ≤ 60 * tps) (t0 : Int) {k p k' p' : Int}
    (hx : k * revUnits + p < k' * revUnits + p') : angleTime rpm t0 k p < angleTime rpm t0 k' p' :=
  (lt_angleTime_iff hr _ _ _ _).mpr ((angle_angleTime_of_slow hr hs t0 k p).trans_lt hx)

/-- Settles O23; at 360 rpm the positions 5 and 6, whose exact times are 25/6 and 5, share the tick 5. -/
theorem quantizerMonotone : Obligations.QuantizerMonotone :=
  ⟨fun rpm t0 _ _ h => angle_mono rpm t0 h, fun _ t0 _ _ _ _ hr hs hx => angleTime_strictMono hr hs t0 hx,
    5, by decide, by decide, by decide⟩

end Sys2Proof.Machine
end

section
/-!
PROOFS. 40_phase.md R92 to R97, R108, R109: the index line, its timer and the motor.
-/

namespace Sys2Proof.Machine

variable {s : State} {rpm : Nat}

/-! ### What a resynchronisation writes (R95) -/

/-- The line goes down, or stays down. -/
theorem State.driveIndex_low (s : State) (time : Option Word64) :
    s.driveIndex false time
      = { s with idx := false, edges := if s.idx then s.edges ++ [{ level := false, time := time }] else s.edges } := by
  cases h : s.idx <;> simp [State.driveIndex, h]

/-- The line goes up, or stays up. -/
theorem State.driveIndex_high (s : State) (time : Option Word64) :
    s.driveIndex true time
      = { s with idx := true, edges := if s.idx then s.edges else s.edges ++ [{ level := true, time := time }] } := by
  cases h : s.idx <;> simp [State.driveIndex, h]

/-- A flag that is raised where `a` holds. -/
theorem ite_true_eq_or (a b : Bool) : (if a = true then true else b) = (b || a) := by
  cases a <;> cases b <;> rfl

/-- The count towards `READY` with the comparisons of the registers as words. -/
theorem State.countsPulse_eq (s : State) (level : Bool) (now : Word64) :
    s.countsPulse level now.toNat = (level && !s.idx && decide (s.t0 < now) && decide (0 < s.readyCnt)) := by
  have hcnt : s.readyCnt ≠ 0 ↔ 0 < s.readyCnt := by bv_omega
  simp only [State.countsPulse, BitVec.lt_def, hcnt]
  cases level <;> cases s.idx <;> rfl

theorem State.spinning_iff : s.spinning = true ↔ s.motor = true ∧ s.diskPresent = true := Bool.and_eq_true_iff

theorem State.spinning_eq_false_iff : s.spinning = false ↔ s.motor = false ∨ s.diskPresent = false := Bool.and_eq_false_iff

/-- `INDEX_RESYNC` with no pulses to see. -/
theorem State.resync_low (hs : s.spinning = false) (now : Word64) :
    s.resync now.toNat = { s with
      idx := false, edges := if s.idx then s.edges ++ [{ level := false, time := some now }] else s.edges, idxTimer := never } := by
  rw [State.resync_of_not_spinning hs, State.driveIndex_low, BitVec.ofNat_toNat, BitVec.setWidth_eq]

/-- `INDEX_RESYNC` of a spinning disk, with the line's new level and whether the edge counts towards `READY` named. -/
theorem State.resync_level (hs : s.spinning = true) {now : Word64} {level counts : Bool}
    (hl : level = decide (s.posAt now.toNat < indexUnits))
    (hc : counts = (level && !s.idx && decide (s.t0 < now) && decide (0 < s.readyCnt))) :
    s.resync now.toNat = { s with
      revCount := revImage (s.revAt now.toNat), revStart := u64Of .revStart (s.revStartAt (s.revAt now.toNat))
      idx := level, edges := if level = s.idx then s.edges else s.edges ++ [{ level := level, time := some now }]
      readyCnt := if counts then s.readyCnt - 1 else s.readyCnt
      ready := s.ready || (counts && decide (s.readyCnt = 1))
      idxTimer := u64Of .idxTimer
        (if level then s.timeAt (s.revAt now.toNat) indexUnits else s.revStartAt (s.revAt now.toNat + 1))
      timerMissed := false } := by
  rw [← State.countsPulse_eq] at hc
  rw [State.resync_of_spinning hs, State.resyncSpinning, ← hl, ← hc, ite_true_eq_or, BitVec.ofNat_toNat, BitVec.setWidth_eq]
  rfl

theorem State.posAt_resync (s : State) (now t : Nat) : (s.resync now).posAt t = s.posAt t := by
  rw [State.resync_frame]
  rfl

theorem State.spinning_resync (s : State) (now : Nat) : (s.resync now).spinning = s.spinning := by
  rw [State.resync_frame]
  rfl

theorem execIndexResync_of_time (h : s.x.x0 ≠ never) : execIndexResync s = complete .ok (s.resync s.x.x0.toNat) := by
  rw [execIndexResync, timeOperand_of_ne h]

/-- Settles O25: the command is `resync` at its operand. -/
theorem indexResyncResult : Obligations.IndexResyncResult := by
  refine fun s => ⟨fun h => ⟨0, execIndexResync_of_never h⟩, fun h => ⟨fun hoff => ?off, fun hm hd k p new counts hk hp hn hc => ?on⟩⟩
  case off =>
    refine (execIndexResync_of_time h).trans ?_
    rw [State.resync_low (State.spinning_eq_false_iff.mpr hoff)]
    rfl
  case on =>
    subst hk hp
    refine (execIndexResync_of_time h).trans ?_
    rw [State.resync_level (State.spinning_iff.mpr ⟨hm, hd⟩) hn hc]
    rfl

/-! ### The motor (R92) -/

theorem angleTime_zero (rpm : Nat) (t0 p : Int) : angleTime rpm t0 0 p = t0 + ceilDiv (p * 300) rpm := by
  rw [angleTime, ← ceilDiv_mul_mul (p * 300) rpm (show (0 : Int) < revUnits by decide)]
  congr 2
  push_cast
  ring

theorem execSetMotor_on (h : s.x.x1 ≠ never) (hon : boolOperand s.x.x0 = true) (hm : s.motor = false) :
    execSetMotor s = complete .ok ((s.motorOn s.x.x1).resync s.x.x1.toNat) := by
  rw [execSetMotor, timeOperand_of_ne h]
  exact if_pos (by simp [hon, hm])

theorem execSetMotor_off (h : s.x.x1 ≠ never) (hoff : boolOperand s.x.x0 = false) (hm : s.motor = true) :
    execSetMotor s = complete .ok (s.motorOff s.x.x1) := by
  rw [execSetMotor, timeOperand_of_ne h]
  exact (if_neg (by simp [hm])).trans (if_pos (by simp [hoff, hm]))

theorem execSetMotor_same (h : s.x.x1 ≠ never) (hs : boolOperand s.x.x0 = s.motor) : execSetMotor s = complete .ok s := by
  rw [execSetMotor, timeOperand_of_ne h]
  exact (if_neg (by simp [hs])).trans (if_neg (by simp [hs]))

/-- The epoch itself is at the position 0 of revolution 0. -/
theorem State.resyncSpinning_motorOn (s : State) (now : Word64) :
    (s.motorOn now).resyncSpinning now.toNat = { s.motorOn now with
      idx := true, edges := if s.idx then s.edges else s.edges ++ [{ level := true, time := some now }]
      idxTimer := u64Of .idxTimer (now.toNat + ceilDiv 600000000 s.cfg.rpm), timerMissed := false } := by
  have hangle : angle s.cfg.rpm now.toNat now.toNat = 0 := angle_at_epoch _ _
  have hrev : (s.motorOn now).revAt now.toNat = 0 := by
    show angleRev s.cfg.rpm now.toNat now.toNat = 0
    rw [angleRev, hangle]
    rfl
  have hpos : (s.motorOn now).posAt now.toNat = 0 := by
    show anglePos s.cfg.rpm now.toNat now.toNat = 0
    rw [anglePos, hangle]
    rfl
  have hcount (level : Bool) : (s.motorOn now).countsPulse level now.toNat = false := by
    simp [State.countsPulse, State.motorOn]
  have hstart : (s.motorOn now).revStartAt 0 = now.toNat := by
    show angleTime s.cfg.rpm now.toNat 0 0 = now.toNat
    rw [angleTime_zero]
    simp [ceilDiv]
  have htimer : (s.motorOn now).timeAt 0 indexUnits = now.toNat + ceilDiv 600000000 s.cfg.rpm := angleTime_zero _ _ _
  simp only [State.resyncSpinning, hrev, hpos, hcount, hstart, htimer, show decide (0 < indexUnits) = true from rfl,
    State.driveIndex_high, u64Of_natCast, BitVec.ofNat_toNat, BitVec.setWidth_eq]
  rfl

/-- Settles O24: motor-on is `motorOn` and a resync at the new epoch, motor-off is `motorOff`. -/
theorem setMotorResult : Obligations.SetMotorResult := by
  refine fun s => ⟨fun h => ⟨0, execSetMotor_of_never h⟩, fun h => ⟨fun hon hm hd => ?disk, fun hon hm hd => ?noDisk,
    fun hoff hm => ?off, fun hs => execSetMotor_same h hs⟩⟩
  case disk =>
    have hspin : (s.motorOn s.x.x1).spinning = true := State.spinning_iff.mpr ⟨rfl, hd⟩
    refine (execSetMotor_on h hon hm).trans ?_
    rw [State.resync_of_spinning hspin, State.resyncSpinning_motorOn]
    rfl
  case noDisk =>
    have hspin : (s.motorOn s.x.x1).spinning = false := State.spinning_eq_false_iff.mpr (.inr hd)
    refine (execSetMotor_on h hon hm).trans ?_
    rw [State.resync_low hspin]
    rfl
  case off =>
    refine (execSetMotor_off h hoff hm).trans ?_
    rw [State.motorOff, State.driveIndex_low]
    rfl

/-! ### Revolutions (R108) -/

theorem State.resync_revCount (hs : s.spinning = true) (now : Nat) : (s.resync now).revCount = revImage (s.revAt now) := by
  rw [State.resync_of_spinning hs]
  rfl

theorem State.resync_revStart (hs : s.spinning = true) (now : Nat) :
    (s.resync now).revStart = u64Of .revStart (s.revStartAt (s.revAt now)) := by
  rw [State.resync_of_spinning hs]
  rfl

/-- Settles O26: from the epoch on no number is negative, and a revolution that has begun began at a time that 64 bits hold. -/
theorem revolutionAccounting : Obligations.RevolutionAccounting := by
  intro s hm hd hr hnow hle
  have hspin := State.spinning_iff.mpr ⟨hm, hd⟩
  have ht0 : (s.t0.toNat : Int) ≤ s.x.x0.toNat := Int.ofNat_le.mpr hle
  have hrev : 0 ≤ s.revAt s.x.x0.toNat := angleRev_nonneg _ ht0
  have hfrom : (s.t0.toNat : Int) ≤ s.revStartAt (s.revAt s.x.x0.toNat) := le_angleTime (by positivity)
  obtain ⟨hbegun, hends⟩ : s.revStartAt (s.revAt s.x.x0.toNat) ≤ s.x.x0.toNat
      ∧ s.x.x0.toNat < s.revStartAt (s.revAt s.x.x0.toNat + 1) := revTime_le_lt hr _ _
  have hstart := toNat_u64Of .revStart (by omega : 0 ≤ s.revStartAt (s.revAt s.x.x0.toNat)) (by omega)
  rw [← State.resync_revStart hspin] at hstart
  refine ⟨_, execIndexResync_of_time hnow, fun hfit => ?_, hstart, ?_, hends⟩
  · exact (congrArg (fun v : Word64 => (v.toNat : Int)) (State.resync_revCount hspin _)).trans (toNat_revImage hrev hfit)
  · show (s.resync s.x.x0.toNat).revStart ≤ s.x.x0
    rw [BitVec.le_def]
    omega

/-! ### One edge for each firing (R97) -/

/-- The revolution and the position of a time from its angle. -/
theorem rev_pos_of_angle {t0 t k : Int} {p : Nat} (h : angle rpm t0 t = k * revUnits + p) (hp : p < revUnits) :
    angleRev rpm t0 t = k ∧ anglePos rpm t0 t = p := by
  have hsplit := angle_eq_rev_pos rpm t0 t
  have hlt := anglePos_lt rpm t0 t
  simp only [revUnits] at *
  omega

/-- A minute on, the angle is `RPM` revolutions on. -/
theorem angle_minute_later (rpm : Nat) (t0 t : Int) : angle rpm t0 (t + 60 * tps) = angle rpm t0 t + rpm * revUnits := by
  rw [angle, angle, ← Int.add_mul_ediv_right _ _ (show (60 * tps : Int) ≠ 0 by decide)]
  congr 1
  ring

/-- The next index pulse begins within a minute. -/
theorem revTime_next_le {t0 t : Int} (hr : 1 ≤ rpm) : revTime rpm t0 (angleRev rpm t0 t + 1) ≤ t + 60 * tps := by
  have hsplit := angle_eq_rev_pos rpm t0 t
  have hlt := anglePos_lt rpm t0 t
  rw [revTime, angleTime_le_iff hr, angle_minute_later]
  simp only [revUnits] at *
  omega

/-- The time at which a resynchronisation at `t` arms the timer: the end of the index pulse inside it, else the next pulse (R95). -/
def armedTime (rpm : Nat) (t0 t : Int) : Int :=
  if anglePos rpm t0 t < indexUnits then angleTime rpm t0 (angleRev rpm t0 t) indexUnits
  else revTime rpm t0 (angleRev rpm t0 t + 1)

theorem State.resync_idx (hs : s.spinning = true) (now : Nat) : (s.resync now).idx = decide (s.posAt now < indexUnits) := by
  rw [State.resync_of_spinning hs]
  rfl

theorem State.resync_idxTimer (hs : s.spinning = true) (now : Nat) :
    (s.resync now).idxTimer = u64Of .idxTimer (armedTime s.cfg.rpm s.t0.toNat now) := by
  have hdec (a b : Int) : (if decide (s.posAt now < indexUnits) = true then a else b)
      = if s.posAt now < indexUnits then a else b := by
    simp only [decide_eq_true_eq]
  rw [State.resync_of_spinning hs]
  exact congrArg (u64Of .idxTimer) (hdec _ _)

theorem armedTime_bounds {t0 t : Int} (hr : 1 ≤ rpm) : t < armedTime rpm t0 t ∧ armedTime rpm t0 t ≤ t + 60 * tps := by
  have hsplit := angle_eq_rev_pos rpm t0 t
  have hnext : revTime rpm t0 (angleRev rpm t0 t + 1) ≤ t + 60 * tps := revTime_next_le hr
  unfold armedTime
  split
  · have hmono : angleTime rpm t0 (angleRev rpm t0 t) indexUnits ≤ revTime rpm t0 (angleRev rpm t0 t + 1) :=
      angleTime_mono hr t0 (by simp only [revUnits, indexUnits]; omega)
    refine ⟨(lt_angleTime_iff hr _ _ _ _).mpr ?_, hmono.trans hnext⟩
    simp only [revUnits, indexUnits] at *
    omega
  · exact ⟨(revTime_le_lt hr t0 t).2, hnext⟩

/-- `TOF(k, p)` lies less than one tick's angle after the position `p`, where that is inside the revolution. -/
theorem anglePos_angleTime {n p : Nat} (hr : 1 ≤ rpm) (hn : rpm * revUnits ≤ n * (60 * tps)) (hp : p + n ≤ revUnits)
    (t0 k : Int) : p ≤ anglePos rpm t0 (angleTime rpm t0 k p) ∧ anglePos rpm t0 (angleTime rpm t0 k p) < p + n := by
  have hge := le_angle_angleTime hr t0 k p
  have hlt := angle_angleTime_lt hr hn t0 k p
  obtain ⟨q, hq⟩ : ∃ q : Nat, angle rpm t0 (angleTime rpm t0 k p) = k * revUnits + q :=
    ⟨(angle rpm t0 (angleTime rpm t0 k p) - k * revUnits).toNat, by omega⟩
  obtain ⟨-, hpos⟩ := rev_pos_of_angle hq (by omega)
  omega

/-- A timer that is armed at one side of the index window's edge stands at its other side: one tick is far shorter than the window. -/
theorem pos_armedTime_lt_iff {t0 t : Int} (hr : 1 ≤ rpm) (hmax : rpm ≤ 1000000) :
    anglePos rpm t0 (armedTime rpm t0 t) < indexUnits ↔ ¬ anglePos rpm t0 t < indexUnits := by
  have hn : rpm * revUnits ≤ 3334 * (60 * tps) := by simp only [revUnits, tps]; omega
  unfold armedTime
  split
  next hin =>
    have hafter := (anglePos_angleTime (p := indexUnits) hr hn (by decide) t0 (angleRev rpm t0 t)).1
    exact iff_of_false hafter.not_gt (not_not_intro hin)
  next hout =>
    have hbefore := (anglePos_angleTime (p := 0) hr hn (by decide) t0 (angleRev rpm t0 t + 1)).2
    exact iff_of_true (hbefore.trans (by decide)) hout

/-- A resynchronisation that changes the line delivers one event, with the new level. -/
theorem State.resync_edges_of_change {now : Nat} (h : (s.resync now).idx = !s.idx) :
    (s.resync now).edges = s.edges ++ [{ level := !s.idx, time := some (BitVec.ofNat 64 now) }] := by
  have hframe := congrArg State.edges (s.resync_frame now)
  rw [hframe]
  simp [h]

/-- Settles O27: the armed time fits 64 bits, and there the line has its other level. -/
theorem timerFiringMakesOneEdge : Obligations.TimerFiringMakesOneEdge := by
  intro s now hm hd hr hmax ht0 hnow
  have hspin := State.spinning_iff.mpr ⟨hm, hd⟩
  have hspin' : (s.resync now).spinning = true := (s.spinning_resync now).trans hspin
  obtain ⟨hlo, hhi⟩ := armedTime_bounds (t0 := s.t0.toNat) (t := now) hr
  have hfits : armedTime s.cfg.rpm s.t0.toNat now < 2 ^ 64 := by
    simp only [tps] at hhi
    omega
  have htimer : ((s.resync now).idxTimer.toNat : Int) = armedTime s.cfg.rpm s.t0.toNat now := by
    rw [State.resync_idxTimer hspin, toNat_u64Of .idxTimer (by omega) hfits]
  have hpos : (s.resync now).posAt (s.resync now).idxTimer.toNat < indexUnits ↔ ¬ s.posAt now < indexUnits := by
    rw [State.posAt_resync, State.posAt, htimer]
    exact pos_armedTime_lt_iff hr hmax
  have hlevel : ((s.resync now).resync (s.resync now).idxTimer.toNat).idx = !(s.resync now).idx := by
    rw [State.resync_idx hspin', State.resync_idx hspin, ← decide_not]
    exact decide_eq_decide.mpr hpos
  refine ⟨hlevel, (State.resync_edges_of_change hlevel).trans ?_⟩
  rw [BitVec.ofNat_toNat, BitVec.setWidth_eq]

/-! ### The worked timeline (R109) -/

/-- A row of the timeline at 300 rpm: a disk that spins since the time 0, the inputs that are still to come, the line, the ready delay and
the pending timer, and the levels of the events that have followed the list `past`. -/
structure SpinUpRow (s : State) (inputs : List HostInput) (past : List IndexEdge) (levels : List Bool) (idx : Bool) (cnt : BitVec 2)
    (ready : Bool) (timer : Nat) : Prop where
  rpm : s.cfg.rpm = 300
  idle : s.gen = none
  noFault : s.fault = false
  spinning : s.spinning = true
  epoch : s.t0 = 0
  inbox : s.inbox = inputs
  index : s.idx = idx
  readyCnt : s.readyCnt = cnt
  ready : s.ready = ready
  timer : s.idxTimer = BitVec.ofNat 64 timer
  pending : s.timerMissed = false
  events : ∃ e : List IndexEdge, s.edges = past ++ e ∧ e.map IndexEdge.level = levels

theorem rev_pos_at_300 (t : Nat) : angleRev 300 0 t = (t / revUnits : Nat) ∧ anglePos 300 0 t = t % revUnits := by
  rw [angleRev, anglePos, angle_at_300]
  simp only [revUnits]
  omega

section

variable {inputs : List HostInput} {past : List IndexEdge} {levels : List Bool} {idx : Bool} {cnt : BitVec 2} {ready : Bool}
  {timer next : Nat}

theorem SpinUpRow.columns (h : SpinUpRow s inputs past levels idx cnt ready timer) :
    (s.idx, s.readyCnt, s.ready, s.idxTimer) = (idx, cnt, ready, BitVec.ofNat 64 timer) := by
  rw [h.index, h.readyCnt, h.ready, h.timer]

theorem SpinUpRow.timer_toNat (h : SpinUpRow s inputs past levels idx cnt ready timer) (hfits : timer < 2 ^ 63) :
    s.idxTimer.toNat = timer := by
  rw [h.timer, BitVec.toNat_ofNat]
  omega

/-- What the timer's edge makes of a row: the other level, one pulse less to wait for where it is a rising one, and the timer at `next`. -/
theorem SpinUpRow.timerFires (h : SpinUpRow s inputs past levels idx cnt ready timer) (h0 : 0 < timer) (hfits : timer < 2 ^ 63)
    (hlevel : (!idx) = decide (timer % revUnits < indexUnits))
    (hnext : next = if !idx then timer / revUnits * revUnits + indexUnits else (timer / revUnits + 1) * revUnits) :
    SpinUpRow s.timerFires inputs past (levels ++ [!idx]) (!idx) (if !idx && decide (0 < cnt) then cnt - 1 else cnt)
      (ready || (!idx && decide (0 < cnt) && decide (cnt = 1))) next := by
  have hnat := h.timer_toNat hfits
  obtain ⟨hrpm, hidle, hfault, hspin, hepoch, hinbox, rfl, rfl, rfl, -, -, e, hedges, rfl⟩ := h
  obtain ⟨hrev, hpos⟩ : s.revAt s.idxTimer.toNat = (timer / revUnits : Nat) ∧ s.posAt s.idxTimer.toNat = timer % revUnits := by
    rw [State.revAt, State.posAt, State.epoch, hrpm, hepoch, hnat]
    exact rev_pos_at_300 timer
  have hlate : decide (s.t0 < s.idxTimer) = true := by
    rw [hepoch, decide_eq_true_eq, BitVec.lt_def, hnat]
    exact h0
  have harmed : (if (!s.idx) = true then s.timeAt (timer / revUnits : Nat) indexUnits
      else s.revStartAt ((timer / revUnits : Nat) + 1)) = (next : Int) := by
    rw [State.timeAt, State.revStartAt, State.epoch, hrpm, hepoch, angleTime_at_300, revTime_at_300, hnext]
    cases s.idx <;> simp [mul_comm]
  have hword : u64Of .idxTimer next = BitVec.ofNat 64 next := by
    have hlt : next < 2 ^ 64 := by
      simp only [revUnits, indexUnits] at hnext
      split at hnext <;> omega
    rw [u64Of_of_fits _ (by omega) (by omega), BitVec.ofInt_natCast]
  have hfires : s.timerFires = _ := congrArg (State.withStatus · .ok)
    (State.resync_level hspin (hlevel.trans (by rw [hpos])) (by rw [hlate, Bool.and_true, Bool.and_self]))
  rw [hrev, harmed, hword] at hfires
  rw [hfires]
  refine ⟨hrpm, hidle, hfault, hspin, hepoch, hinbox, rfl, rfl, rfl, rfl, rfl,
    e ++ [{ level := !s.idx, time := some s.idxTimer }], ?_, ?_⟩
  · show (if (!s.idx) = s.idx then s.edges else s.edges ++ _) = _
    rw [if_neg (by simp), hedges, List.append_assoc]
  · rw [List.map_append]
    rfl

/-- The step that takes the timer's input to the next row. -/
theorem SpinUpRow.step_timer (h : SpinUpRow s (.timer :: inputs) past levels idx cnt ready timer) (h0 : 0 < timer)
    (hfits : timer < 2 ^ 63) (hlevel : (!idx) = decide (timer % revUnits < indexUnits))
    (hnext : next = if !idx then timer / revUnits * revUnits + indexUnits else (timer / revUnits + 1) * revUnits) :
    ∃ t : State, step s = .next t
      ∧ SpinUpRow t inputs past (levels ++ [!idx]) (!idx) (if !idx && decide (0 < cnt) then cnt - 1 else cnt)
          (ready || (!idx && decide (0 < cnt) && decide (cnt = 1))) next := by
  have hrow : SpinUpRow { s with inbox := inputs } inputs past levels idx cnt ready timer := { h with inbox := rfl }
  have hnever : s.idxTimer ≠ never := by
    have hnat := h.timer_toNat hfits
    bv_omega
  have hinput := timerInput_of_pending (s := { s with inbox := inputs }) (State.timerPending_iff.mpr ⟨hnever, h.pending⟩) h.noFault
  exact ⟨_, step_of_input_next h.idle h.inbox hinput, hrow.timerFires h0 hfits hlevel hnext⟩

/-- The row after `SET_MOTOR` on at the time 0. -/
theorem spinUpRow_of_motorOn (hrpm : s.cfg.rpm = 300) (hgen : s.gen = none) (hfault : s.fault = false)
    (hdisk : s.diskPresent = true) (hmotor : s.motor = false) (hidx : s.idx = false) (hx0 : s.x.x0 = 1) (hx1 : s.x.x1 = 0) :
    ∃ t : State, exec .setMotor s = .next t ∧ SpinUpRow t s.inbox s.edges [true] true 2 false 2000000 := by
  have htime : s.x.x1 ≠ never := by
    rw [hx1]
    decide
  obtain ⟨hon, -⟩ := (setMotorResult s).2 htime
  refine ⟨_, hon (by rw [hx0]; rfl) hmotor hdisk, ⟨hrpm, hgen, hfault, ?_, hx1, rfl, rfl, rfl, rfl, ?_, rfl, ?_⟩⟩
  · exact State.spinning_iff.mpr ⟨rfl, hdisk⟩
  · show u64Of .idxTimer (s.x.x1.toNat + ceilDiv 600000000 s.cfg.rpm) = 2000000#64
    rw [hx1, hrpm]
    exact u64Of_natCast .idxTimer 2000000#64
  · exact ⟨[{ level := true, time := some s.x.x1 }], by simp [hidx], rfl⟩

end

/-- While no timer is armed a legal word is its command. -/
theorem step_word_of_timer_never {w : Word32} {i : Instr} {rest : List HostInput} (hg : s.gen = none)
    (hi : s.inbox = .word w :: rest) (hd : decodeWord w = .ok i) (hf : s.fault = false) (ht : s.idxTimer = never) :
    step s = exec i { s with inbox := rest } :=
  (stepRunsDecodedWord s w rest i hg hi hd (.inl hf)).trans
    (congrArg (exec i) (timerFirst_of_never (s := { s with inbox := rest }) ht))

/-- Settles O28: motor-on gives the first row, and each firing of the timer the next one. -/
theorem spinUpTimeline : Obligations.SpinUpTimeline := by
  intro s hrpm hgen hfault hdisk hmotor hidx htimer hx0 hx1 hi
  obtain ⟨t₀, hexec, r₀⟩ := spinUpRow_of_motorOn (s := { s with inbox := [.timer, .timer, .timer, .timer] })
    hrpm hgen hfault hdisk hmotor hidx hx0 hx1
  have h₀ : step s = .next t₀ := (step_word_of_timer_never hgen hi rfl hfault htimer).trans hexec
  obtain ⟨t₁, h₁, r₁⟩ := r₀.step_timer (next := 200000000) (by decide) (by decide) rfl rfl
  obtain ⟨t₂, h₂, r₂⟩ := r₁.step_timer (next := 202000000) (by decide) (by decide) rfl rfl
  obtain ⟨t₃, h₃, r₃⟩ := r₂.step_timer (next := 400000000) (by decide) (by decide) rfl rfl
  obtain ⟨t₄, h₄, r₄⟩ := r₃.step_timer (next := 402000000) (by decide) (by decide) rfl rfl
  exact ⟨t₀, t₁, t₂, t₃, t₄, h₀, h₁, h₂, h₃, h₄, r₀.columns, r₁.columns, r₂.columns, r₃.columns, r₄.columns, r₄.events⟩

end Sys2Proof.Machine
end

section
/-!
PROOFS. 40_phase.md R100 to R103, R105: the quantizer commands and the head.
-/

namespace Sys2Proof.Machine

variable {s : State}

/-! ### The quantizer commands (R100 to R102) -/

theorem execTimeNextIndex_of_not_spinning (h : s.x.x0 ≠ never) (hs : s.spinning = false) :
    execTimeNextIndex s = complete .ok (s.setReg 0 never) := by
  rw [execTimeNextIndex, timeOperand_of_ne h]
  exact if_neg (by simp [hs])

theorem execTimeNextIndex_of_spinning (h : s.x.x0 ≠ never) (hs : s.spinning = true) :
    execTimeNextIndex s
      = complete .ok (s.setReg 0 (u64Of .timeNextIndex (s.revStartAt (s.revAt s.x.x0.toNat + 1)))) := by
  rw [execTimeNextIndex, timeOperand_of_ne h]
  exact if_pos hs

theorem execPhaseOf_of_time (h : s.x.x0 ≠ never) :
    execPhaseOf s = complete .ok ((s.setReg 0 (BitVec.ofNat 64 (s.posAt s.x.x0.toNat))).setReg 1
      (BitVec.ofInt 64 (s.revAt s.x.x0.toNat))) := by
  rw [execPhaseOf, timeOperand_of_ne h]

theorem execTimeOf_of_large (h : revUnits ≤ s.x.x1.toNat) : execTimeOf s = raiseFault .operand s.x.x1 s := if_pos h

theorem execTimeOf_of_unfit (hp : s.x.x1.toNat < revUnits)
    (hv : s.timeAt s.x.x0.toInt s.x.x1.toNat < 0 ∨ 2 ^ 64 - 1 ≤ s.timeAt s.x.x0.toInt s.x.x1.toNat) :
    execTimeOf s = raiseFault .operand s.x.x0 s :=
  (if_neg (Nat.not_le.mpr hp)).trans (if_pos hv)

theorem execTimeOf_of_fits (hp : s.x.x1.toNat < revUnits) (h0 : 0 ≤ s.timeAt s.x.x0.toInt s.x.x1.toNat)
    (hv : s.timeAt s.x.x0.toInt s.x.x1.toNat < 2 ^ 64 - 1) :
    execTimeOf s = complete .ok (s.setReg 0 (BitVec.ofInt 64 (s.timeAt s.x.x0.toInt s.x.x1.toNat))) :=
  (if_neg (Nat.not_le.mpr hp)).trans (if_neg (not_or.mpr ⟨Int.not_lt.mpr h0, Int.not_le.mpr hv⟩))

/-- A position fits a register. -/
theorem toNat_posAt (s : State) (t : Nat) : (BitVec.ofNat 64 (s.posAt t)).toNat = s.posAt t := by
  have h : s.posAt t < 200000000 := anglePos_lt _ _ _
  rw [BitVec.toNat_ofNat]
  omega

/-- Settles O29: each command is its checks in order, then the number of its rule in the result registers. -/
theorem quantizerCommands : Obligations.QuantizerCommands := by
  refine fun s => ⟨fun h => ⟨⟨0, execTimeNextIndex_of_never h⟩, 0, execPhaseOf_of_never h⟩, fun h hoff => ?stopped,
    fun h hm hd => ?next, fun h => ?phase, execTimeOf_of_large, ?time⟩
  case stopped => exact execTimeNextIndex_of_not_spinning h (State.spinning_eq_false_iff.mpr hoff)
  case next =>
    refine ⟨_, execTimeNextIndex_of_spinning h (State.spinning_iff.mpr ⟨hm, hd⟩), rfl, ?_⟩
    rintro _ rfl h0 hfits
    exact toNat_u64Of .timeNextIndex h0 hfits
  case phase =>
    refine ⟨_, execPhaseOf_of_time h, rfl, toNat_posAt s _, ?_⟩
    show ((BitVec.ofInt 64 (s.revAt s.x.x0.toNat)).toNat : Int) = s.revAt s.x.x0.toNat % 2 ^ 64
    rw [BitVec.toNat_ofInt]
    omega
  case time =>
    rintro _ rfl hp
    exact ⟨execTimeOf_of_unfit hp, fun h0 hfits =>
      ⟨_, execTimeOf_of_fits hp h0 hfits, rfl, toNat_ofInt_64 h0 (hfits.trans (by decide))⟩⟩

/-! ### The head (R103, R105) -/

theorem State.clearDoor_eq (s : State) (b : Bool) :
    (if b = true then { s with door := false } else s) = { s with door := s.door && !b } := by
  cases b <;> simp

theorem execStepTo_of_time (h : s.x.x1 ≠ never) {target : Word32} (ht : target = BitVec.ofInt 32 (s.clampCyl s.x.x0.toInt)) :
    execStepTo s = complete .ok (if target = s.cyl then { s with door := s.door && !s.diskPresent }
      else { s with
        door := s.door && !s.diskPresent, cache := { s.cache with valid := false }, cyl := target
        seekSound := s.seekSound || (s.motor && decide ((s.x.x1.toNat : Int) - s.t0.toNat > 500000000)) }) := by
  subst ht
  rw [execStepTo, timeOperand_of_ne h]
  simp only [s.clearDoor_eq, ite_true_eq_or]
  rfl

/-- Settles O30: a clamped cylinder is below 2^32, so its word is `CYL` exactly when the numbers are equal; the two cases of each command
are the two branches of its meaning. -/
theorem headCommands : Obligations.HeadCommands := by
  refine fun s => ⟨fun h => ⟨0, execStepTo_of_never h⟩, fun c h hlo hhi hc => ?step, fun hs => ?same, fun hs => ?other⟩
  case same => exact if_pos hs
  case other => exact if_neg hs
  case step =>
    have hlt : c < 2 ^ 32 := by omega
    have htarget : BitVec.ofNat 32 c = BitVec.ofInt 32 (s.clampCyl s.x.x0.toInt) := by
      rw [← BitVec.ofInt_natCast, hc]
      rfl
    have hcyl : BitVec.ofNat 32 c = s.cyl ↔ c = s.cyl.toNat := by bv_omega
    constructor
    · exact fun he => (execStepTo_of_time h htarget).trans (congrArg (complete .ok) (if_pos (hcyl.mpr he)))
    · exact fun hne => (execStepTo_of_time h htarget).trans (congrArg (complete .ok) (if_neg (mt hcyl.mp hne)))

end Sys2Proof.Machine
end

section
/-!
PROOFS. 40_phase.md R96, 70_reset_and_hazards.md R221: the index timer runs its resync at its time, and a timer that the host has gone
past leaves no trace.
-/

namespace Sys2Proof.Machine

variable {s t : State} {i : Instr}

/-! ### The timer's resync (R96) -/

/-- `INDEX_RESYNC` does not read the operand registers but for its `now`, and leaves them alone. -/
theorem State.resync_withOperands (s : State) (v : OpRegs) (now : Nat) :
    { State.resync { s with x := v } now with x := s.x } = s.resync now := by
  cases hs : s.spinning with
  | false =>
    rw [State.resync_of_not_spinning hs, State.resync_of_not_spinning (s := { s with x := v }) hs]
    rfl
  | true =>
    rw [State.resync_of_spinning hs, State.resync_of_spinning (s := { s with x := v }) hs]
    rfl

/-- The timer is an `INDEX_RESYNC` whose `now` is `IDX_TIMER`, but for the operand registers. -/
theorem State.timerFires_eq_command (hn : s.idxTimer ≠ never) :
    ∃ t : State, exec .indexResync { s with x := { s.x with x0 := s.idxTimer } } = .next t ∧ s.timerFires = { t with x := s.x } :=
  ⟨_, execIndexResync_of_time (s := { s with x := { s.x with x0 := s.idxTimer } }) hn,
    congrArg (State.withStatus · .ok) (s.resync_withOperands { s.x with x0 := s.idxTimer } s.idxTimer.toNat).symm⟩

/-! ### What the index line shows -/

/-- What the host sees of the index pulses: the events, the line, the ready delay, and whether the timer has been missed. -/
def State.indexView (s : State) : Bool × List IndexEdge × Bool × BitVec 2 × Bool :=
  (s.timerMissed, s.edges, s.idx, s.readyCnt, s.ready)

/-- A fault and a status show nothing of the index pulses, so a command shows nothing of them where its completed state does not. -/
theorem Shape.indexView {u : State} (h : Shape s t (t = u)) (hu : u.indexView = s.indexView) : t.indexView = s.indexView :=
  h.frame State.indexView (fun _ _ => rfl) (fun _ => rfl) fun ht => (congrArg State.indexView ht).trans hu

/-- The four commands that move the index line: the two that resynchronise it, and the two that bind or remove a disk. -/
def movesIndexLine (i : Instr) : Bool := decide (i = .setMotor ∨ i = .indexResync ∨ i = .insert ∨ i = .eject)

theorem exec_command_indexView (hc : i.isCommand = true) (hm : movesIndexLine i = false) (h : exec i s = .next t) :
    t.indexView = s.indexView := by
  cases i with
  | setMotor | indexResync | insert | eject => cases hm
  | timeNextIndex => exact (execTimeNextIndex_shape h).indexView rfl
  | phaseOf => exact (execPhaseOf_shape h).indexView rfl
  | timeOf => exact (execTimeOf_shape h).indexView rfl
  | stepTo => exact (execStepTo_shape h).indexView rfl
  | setSide => exact (execSetSide_shape h).indexView rfl
  | getLines => exact (execGetLines_shape h).indexView rfl
  | getFault => exact (execGetFault_shape h).indexView rfl
  | getNextTransition => exact (execGetNextTransition_shape h).indexView rfl
  | writeFlux => exact (execWriteFlux_shape h).indexView rfl
  | setWriteSplice => exact (execSetWriteSplice_shape h).indexView rfl
  | setSeed => exact (execSetSeed_shape h).indexView rfl
  | clClear => exact (execClClear_shape h).indexView rfl
  | rawW | fmW | mfmW => exact (bitWriter_shape h).indexView rfl
  | genTrack => exact (execGenTrack_shape h).indexView rfl
  | genFromCells => exact (execGenFromCells_shape h).indexView rfl
  | genBitstream => exact (execGenBitstream_shape h).indexView rfl
  | extractMfm => exact (execExtractMfm_shape h).indexView rfl
  | extractFm => exact (execExtractFm_shape h).indexView rfl
  | buildPcMfm | buildPcFm => exact (buildTrack_shape h).indexView rfl
  | crcCells => exact (execCrcCells_shape h).indexView rfl
  | crcBytes => exact (execCrcBytes_shape h).indexView rfl
  | getBuffer => exact (execGetBuffer_shape h).indexView rfl
  | putBuffer => exact (execPutBuffer_shape h).indexView rfl
  | resizeTracks => exact (execResizeTracks_shape h).indexView rfl
  | trackIsFormatted => exact (execTrackIsFormatted_shape h).indexView rfl
  | actualGeometry => exact (execActualGeometry_shape h).indexView rfl
  | readSector => exact (execReadSector_shape h).indexView rfl
  | writeSector => exact (execWriteSector_shape h).indexView rfl
  | saveState => exact (execSaveState_shape h).indexView rfl
  | loadState => exact (execLoadState_shape h).indexView rfl
  | setWp => exact (execSetWp_shape h).indexView rfl
  | pollChanged => exact (execPollChanged_shape h).indexView rfl
  | getFlags => exact (execGetFlags_shape h).indexView rfl
  | clearDirty => exact (execClearDirty_shape h).indexView rfl
  | getProps => exact (execGetProps_shape h).indexView rfl
  | _ => cases hc

theorem runElement_indexView {f : List SectorDesc → Interp → ElemResult} (h : runElement f s = .next t) :
    t.indexView = s.indexView := by
  obtain ⟨g, -, ⟨g', -, rfl⟩ | ⟨g', -, h⟩ | ⟨code, -, rfl⟩⟩ := runElement_cases h
  · rfl
  · refine (finishTrack_shape h).frame State.indexView (fun _ _ => rfl) (fun _ => rfl) ?_
    rintro ⟨-, L, splice, -, rfl⟩
    rfl
  · rfl

theorem exec_indexView (hm : movesIndexLine i = false) (h : exec i s = .next t) : t.indexView = s.indexView := by
  cases hc : i.isCommand with
  | true => exact exec_command_indexView hc hm h
  | false => exact runElement_indexView ((exec_element hc s).symm.trans h)

theorem elementStep_indexView {g : Interp} (h : elementStep g s = .next t) : t.indexView = s.indexView := by
  cases he : s.desc[g.dpc]? with
  | none =>
    rw [elementStep_of_end he] at h
    rw [raiseFault_eq_next h]
    rfl
  | some e =>
    cases hd : decodeElem e with
    | error r =>
      rw [elementStep_of_illegal he hd] at h
      rw [raiseFault_eq_next h]
      rfl
    | ok i =>
      rw [elementStep_of_element he hd, exec_element (decodeElem_not_command hd)] at h
      exact runElement_indexView h

/-! ### A missed timer (R221) -/

/-- The words of the four commands that move the index line. -/
def movesIndexLineWord (w : Word32) : Prop := w = 0x01#32 ∨ w = 0x02#32 ∨ w = 0x40#32 ∨ w = 0x41#32

theorem word_of_decode {w v : Word32} (h : decodeWord w = .ok i) (he : encode i = .word v) : w = v :=
  Code.word.inj ((encode_of_decodeWord h).symm.trans he)

theorem movesIndexLine_of_decode {w : Word32} (h : decodeWord w = .ok i) (hw : ¬ movesIndexLineWord w) :
    movesIndexLine i = false := by
  refine decide_eq_false fun hi => hw ?_
  rcases hi with rfl | rfl | rfl | rfl
  · exact .inl (word_of_decode h rfl)
  · exact .inr (.inl (word_of_decode h rfl))
  · exact .inr (.inr (.inl (word_of_decode h rfl)))
  · exact .inr (.inr (.inr (word_of_decode h rfl)))

theorem acceptWord_indexView {w : Word32} (hmiss : s.timerMissed = true) (hw : ¬ movesIndexLineWord w)
    (h : acceptWord w s = .next t) : t.indexView = s.indexView := by
  obtain he | ⟨i, hi, -, he⟩ := acceptWord_cases w s <;> rw [he] at h
  · rw [complete_eq_next h]
    rfl
  · rw [timerFirst_of_missed hmiss] at h
    exact exec_indexView (movesIndexLine_of_decode hi hw) h

theorem hostInput_indexView {ev : HostInput} (hmiss : s.timerMissed = true) (hev : ev ≠ .reset)
    (hw : ∀ w : Word32, ev = .word w → ¬ movesIndexLineWord w) (h : hostInput ev s = .next t) : t.indexView = s.indexView := by
  cases ev with
  | word w => exact acceptWord_indexView hmiss (hw w rfl) h
  | timer =>
    cases (timerInput_of_not_pending (State.timerPending_of_missed hmiss)).symm.trans h
    rfl
  | reset => exact absurd rfl hev
  | _ => cases h; rfl

/-- A missed timer stays missed, and no step moves the line, emits an event or counts a pulse for it. -/
theorem step_indexView (hmiss : s.timerMissed = true) (hr : s.inbox.head? ≠ some .reset)
    (hw : ∀ w : Word32, s.inbox.head? = some (.word w) → ¬ movesIndexLineWord w) (h : step s = .next t) :
    t.indexView = s.indexView := by
  cases hg : s.gen with
  | some g => exact elementStep_indexView (step_of_gen hg ▸ h)
  | none =>
    cases hi : s.inbox with
    | nil =>
      cases (step_of_no_input hg hi).symm.trans h
      rfl
    | cons ev rest =>
      rw [hi, List.head?_cons] at hr hw
      exact hostInput_indexView (s := { s with inbox := rest }) hmiss (mt (congrArg some) hr) (fun w he => hw w (congrArg some he))
        ((step_of_input hg hi).symm.trans h)

/-! ### The timer's input, and the timer before a command -/

theorem step_timer_cases {rest : List HostInput} (hg : s.gen = none) (hi : s.inbox = .timer :: rest) :
    (s.idxTimer = never ∨ s.timerMissed = true → step s = .next { s with inbox := rest })
      ∧ (s.idxTimer ≠ never → s.timerMissed = false → s.fault = true → step s = .next { s with inbox := rest, st := 0xFF#8 })
      ∧ (s.idxTimer ≠ never → s.timerMissed = false → s.fault = false → step s = .next { s with inbox := rest }.timerFires) := by
  refine ⟨fun hoff => ?off, fun hn hm hf => ?faulted, fun hn hm hf => ?fires⟩
  case off =>
    have hp : ({ s with inbox := rest } : State).timerPending = false :=
      hoff.elim State.timerPending_of_never State.timerPending_of_missed
    exact step_of_input_next hg hi (timerInput_of_not_pending hp)
  case faulted => exact step_of_input_next hg hi (timerInput_of_faulted (State.timerPending_iff.mpr ⟨hn, hm⟩) hf)
  case fires => exact step_of_input_next hg hi (timerInput_of_pending (State.timerPending_iff.mpr ⟨hn, hm⟩) hf)

/-- A later `now` leaves the timer missed, whether or not it was before. -/
theorem timerFirst_of_passed {now : Word64} (hn : s.idxTimer ≠ never) (h : commandNow i s = some now) (hnow : now ≠ never)
    (hlt : s.idxTimer < now) : timerFirst i s = s.missTimer := by
  cases hm : s.timerMissed with
  | true => exact (timerFirst_of_missed hm).trans (State.missTimer_of_missed hm).symm
  | false => exact timerFirst_of_later (State.timerPending_iff.mpr ⟨hn, hm⟩) h hnow hlt

theorem timerFirst_of_idle
    (h : s.idxTimer = never ∨ s.timerMissed = true ∨ commandNow i s = none ∨ commandNow i s = some never
      ∨ ∃ v : Word64, commandNow i s = some v ∧ v < s.idxTimer) : timerFirst i s = s := by
  obtain h | h | h | h | ⟨v, h, hlt⟩ := h
  · exact timerFirst_of_never h
  · exact timerFirst_of_missed h
  · exact timerFirst_of_no_time (.inl h)
  · exact timerFirst_of_no_time (.inr h)
  · exact timerFirst_of_earlier h hlt

/-- Settles O8: the timer's input and the command's `now` by the cases of a pending timer, and of a missed one that no step touches what
the index line shows. -/
theorem timerPerformsResync : Obligations.TimerPerformsResync := by
  refine ⟨fun s rest hg hi => ?input, ?before, fun s t h hmiss hr hw => ?missed⟩
  case input =>
    obtain ⟨hoff, hfaulted, hfires⟩ := step_timer_cases hg hi
    refine ⟨hoff, hfaulted, fun hn hm hf => ?_⟩
    obtain ⟨t, hexec, ht⟩ := State.timerFires_eq_command (s := { s with inbox := rest }) hn
    exact ⟨t, hexec, (hfires hn hm hf).trans (congrArg _ ht)⟩
  case before =>
    rintro s i _ rfl
    exact ⟨fun hn hm h => timerFirst_of_equal (State.timerPending_iff.mpr ⟨hn, hm⟩) h,
      fun v hn h hv hlt => timerFirst_of_passed hn h hv hlt,
      timerFirst_of_idle⟩
  case missed =>
    have hview := step_indexView hmiss hr (fun w he hmoves => ?_) h
    · simpa [State.indexView, hmiss] using hview
    · obtain ⟨h1, h2, h40, h41⟩ := hw w he
      rcases hmoves with rfl | rfl | rfl | rfl <;> contradiction

end Sys2Proof.Machine
end

section
/-!
PROOFS. 41_flux_sequencer.md R110 to R114: the track that SEQ reads, and that a read gives the first transition of the read channel.
-/

namespace Sys2Proof.Machine

variable {s : State}

/-! ### The track that SEQ reads (R111) -/

theorem State.readTrack_of_allocated (hd : s.diskPresent = true) (hk : s.props.kind = false) (hin : s.inStore s.cyl.toNat s.head = true) :
    s.readTrack = s.buf s.cyl.toNat s.head :=
  if_pos (by rw [hd, hk, hin]; rfl)

theorem State.readTrack_of_unallocated
    (h : s.diskPresent = false ∨ s.props.kind = true ∨ s.inStore s.cyl.toNat s.head = false) : s.readTrack = [] := by
  refine if_neg ?_
  rcases h with h | h | h <;> simp [h]

theorem hasTag_iff (t : CellTag) (L : List Word32) : hasTag t L = true ↔ ∃ e ∈ L, tagOf e = some t := by
  simp [hasTag]

theorem State.readable_iff : s.readable = true ↔ s.motor = true ∧ ∃ e ∈ s.readTrack, tagOf e = some .flux := by
  rw [State.readable, Bool.and_eq_true, hasTag_iff]

theorem execGetNextTransition_of_unreadable (h : s.x.x0 ≠ never) (hr : s.readable = false) :
    execGetNextTransition s = complete .ok { s.setReg 0 never with cache := s.cacheAfterRead s.x.x0 } := by
  rw [execGetNextTransition, timeOperand_of_ne h]
  exact if_neg (by simp [hr])

/-- Settles O32: the four cases of `readTrack`, and the unreadable branch of the read. -/
theorem unformattedReadsNever : Obligations.UnformattedReadsNever := by
  refine fun s => ⟨fun hd hk hc hh => ?track, fun h => ?empty, fun h hoff => ?never⟩
  case track => exact State.readTrack_of_allocated hd hk ((s.inStore_iff _ _).mpr ⟨hc, hh⟩)
  case empty => exact State.readTrack_of_unallocated (by rwa [State.inStore_eq_false_iff])
  case never =>
    have hr : s.readable = false := by
      rw [← Bool.not_eq_true, State.readable_iff]
      rintro ⟨hm, e, he, ht⟩
      rcases hoff with hoff | hoff
      · simp [hm] at hoff
      · exact hoff e he ht
    exact ⟨_, execGetNextTransition_of_unreadable h hr, rfl⟩

/-! ### The cells of the unrolled track, in order (R112)

The cells are numbered along the unrolled track, so that the successor of a cell is the next number. -/

/-- The number of the cell of event `i` in revolution `k`, of a track of `n` events. -/
def cellNo (n : Nat) (k : Int) (i : Nat) : Int := k * n + i

theorem cellNo_lt_of_rev_lt {n : Nat} {k k' : Int} {i i' : Nat} (hi : i < n) (h : k < k') : cellNo n k i < cellNo n k' i' := by
  unfold cellNo
  nlinarith

/-- A lower number is an earlier revolution, or an earlier event of the same one. -/
theorem cellNo_le_cases {n : Nat} {k k' : Int} {i i' : Nat} (hi' : i' < n) (h : cellNo n k i ≤ cellNo n k' i') :
    k < k' ∨ k = k' ∧ i ≤ i' := by
  rcases lt_trichotomy k k' with hlt | rfl | hgt
  · exact .inl hlt
  · exact .inr ⟨rfl, by unfold cellNo at h; omega⟩
  · exact absurd h (not_le.mpr (cellNo_lt_of_rev_lt hi' hgt))

theorem cellNo_inj {n : Nat} {k k' : Int} {i i' : Nat} (hi : i < n) (hi' : i' < n) (h : cellNo n k i = cellNo n k' i') :
    k = k' ∧ i = i' := by
  have h1 := cellNo_le_cases hi' h.le
  have h2 := cellNo_le_cases hi h.ge
  omega

theorem nextEvent_lt {n i : Nat} (hi : i < n) (k : Int) : (nextEvent n k i).2 < n := by
  unfold nextEvent
  split
  · assumption
  · exact Nat.zero_lt_of_lt hi

theorem cellNo_nextEvent {n i : Nat} (hi : i < n) (k : Int) :
    cellNo n (nextEvent n k i).1 (nextEvent n k i).2 = cellNo n k i + 1 := by
  unfold nextEvent cellNo
  split
  · push_cast
    ring
  · obtain rfl : n = i + 1 := by omega
    push_cast
    ring

theorem State.readEvent_mem {i : Nat} (hi : i < s.readTrack.length) : s.readEvent i ∈ s.readTrack := by
  rw [State.readEvent, List.getD_eq_getElem _ _ hi]
  exact List.getElem_mem hi

theorem State.evPos_readEvent_lt (hw : wfTrack s.readTrack = true) {i : Nat} (hi : i < s.readTrack.length) :
    evPos (s.readEvent i) < revUnits :=
  ((wfTrack_iff _).mp hw).1 _ (s.readEvent_mem hi)

theorem State.evPos_readEvent_mono (hw : wfTrack s.readTrack = true) {i j : Nat} (hij : i ≤ j) (hj : j < s.readTrack.length) :
    evPos (s.readEvent i) ≤ evPos (s.readEvent j) := by
  obtain ⟨-, hr, -⟩ := (wfTrack_iff _).mp hw
  rcases hij.eq_or_lt with rfl | hlt
  · exact le_refl _
  · rw [State.readEvent, State.readEvent, List.getD_eq_getElem _ _ (hlt.trans hj), List.getD_eq_getElem _ _ hj]
    exact (List.pairwise_iff_getElem.mp hr i j _ hj hlt).le

/-- The cells begin in the order of their numbers. At a high `RPM` two of them may begin in one tick. -/
theorem State.tau_mono (hr : 1 ≤ s.cfg.rpm) (hw : wfTrack s.readTrack = true) {k k' : Int} {i i' : Nat} (hi : i < s.readTrack.length)
    (hi' : i' < s.readTrack.length) (h : cellNo s.readTrack.length k i ≤ cellNo s.readTrack.length k' i') :
    s.tau k i ≤ s.tau k' i' := by
  refine angleTime_mono hr _ ?_
  rcases cellNo_le_cases hi' h with hlt | ⟨rfl, hle⟩
  · have hpos := s.evPos_readEvent_lt hw hi
    have hrev : (k + 1) * (revUnits : Int) ≤ k' * revUnits := mul_le_mul_of_nonneg_right (by omega) (by omega)
    rw [add_mul] at hrev
    omega
  · have hpos := s.evPos_readEvent_mono hw hle hi'
    omega

/-- A cell ends at or before the beginning of every later one. -/
theorem State.cellEnd_le_tau (hr : 1 ≤ s.cfg.rpm) (hw : wfTrack s.readTrack = true) {k k' : Int} {i i' : Nat}
    (hi : i < s.readTrack.length) (hi' : i' < s.readTrack.length)
    (h : cellNo s.readTrack.length k i < cellNo s.readTrack.length k' i') : s.cellEnd k i ≤ s.tau k' i' :=
  State.tau_mono hr hw (nextEvent_lt hi k) hi' (by rw [cellNo_nextEvent hi]; omega)

theorem candidate_eq (st : Int) (j : Nat) : candidate st j = st + j * 4000 + 2000 := rfl

theorem le_candidate (st : Int) (j : Nat) : st ≤ candidate st j := by
  rw [candidate_eq]
  omega

theorem candidate_mono (st : Int) {j j' : Nat} (h : j ≤ j') : candidate st j ≤ candidate st j' := by
  rw [candidate_eq, candidate_eq]
  omega

/-! ### Where the scan begins (R112) -/

theorem State.tau_le_iff (hr : 1 ≤ s.cfg.rpm) (f : Nat) (k : Int) (i : Nat) :
    s.tau k i ≤ f ↔ k * revUnits + evPos (s.readEvent i) ≤ s.revAt f * revUnits + s.posAt f := by
  have h := angleTime_le_iff hr s.epoch f k (evPos (s.readEvent i))
  rwa [angle_eq_rev_pos, mul_comm (revUnits : Int)] at h

/-- The cell that holds `f` begins at or before `f`. -/
theorem State.locate_spec (hr : 1 ≤ s.cfg.rpm) (hw : wfTrack s.readTrack = true) (hne : 0 < s.readTrack.length) (f : Nat) :
    (s.locate f).2 < s.readTrack.length ∧ s.tau (s.locate f).1 (s.locate f).2 ≤ f := by
  unfold State.locate
  cases hl : lastAtOrBefore s.readTrack (s.posAt f) with
  | some i =>
    have hi : i < s.readTrack.length := by simpa using List.mem_of_find?_eq_some hl
    have hpos : evPos (s.readEvent i) ≤ s.posAt f := of_decide_eq_true (List.find?_some hl :)
    exact ⟨hi, (State.tau_le_iff hr f _ _).mpr (by dsimp only; omega)⟩
  | none =>
    have hi : s.readTrack.length - 1 < s.readTrack.length := by omega
    have hpos := s.evPos_readEvent_lt hw hi
    exact ⟨hi, (State.tau_le_iff hr f _ _).mpr (by dsimp only; rw [sub_mul]; omega)⟩

/-! ### The scan (R112 to R114) -/

theorem State.weakTransition_none {f : Nat} {k : Int} {i : Nat} (h : s.weakTransition f k i = none) {j : Nat}
    (hend : candidate (s.tau k i) j < s.cellEnd k i) (hf : (f : Int) < candidate (s.tau k i) j) :
    Config.weakHash s.seed k i j = false := by
  have hj : j < (s.cellEnd k i - s.tau k i).toNat / 4000 + 1 := by
    rw [candidate_eq] at hend
    omega
  have hnone := List.find?_eq_none.mp (Option.map_eq_none_iff.mp h) j (List.mem_range.mpr hj)
  simpa [hend, hf] using hnone

theorem State.weakTransition_some {f : Nat} {k : Int} {i : Nat} {w : Int} (h : s.weakTransition f k i = some w) :
    ∃ j : Nat, candidate (s.tau k i) j = w ∧ w < s.cellEnd k i ∧ (f : Int) < w ∧ Config.weakHash s.seed k i j = true
      ∧ ∀ j' : Nat, (f : Int) < candidate (s.tau k i) j' → candidate (s.tau k i) j' < s.cellEnd k i →
          Config.weakHash s.seed k i j' = true → w ≤ candidate (s.tau k i) j' := by
  obtain ⟨j, hj, rfl⟩ := Option.map_eq_some_iff.mp h
  obtain ⟨htaken, -, hfirst⟩ := List.find?_range_eq_some.mp hj
  simp only [Bool.and_eq_true, decide_eq_true_eq] at htaken
  obtain ⟨⟨hend, hf⟩, hhash⟩ := htaken
  refine ⟨j, rfl, hend, hf, hhash, fun j' hf' hend' hhash' => candidate_mono _ ?_⟩
  by_contra hlt
  simpa [hf', hend', hhash'] using hfirst j' (by omega)

/-- No transition after `f` lies before the cell (k, i): every `Flux` event after `f` is later than its event, and every taken candidate
after `f` is in it or in a later cell. -/
structure State.Unpassed (s : State) (f : Nat) (k : Int) (i : Nat) : Prop where
  flux : ∀ (k' : Int) (i' : Nat), i' < s.readTrack.length → tagOf (s.readEvent i') = some .flux → (f : Int) < s.tau k' i' →
    cellNo s.readTrack.length k i < cellNo s.readTrack.length k' i'
  weak : ∀ (k' : Int) (i' j : Nat), i' < s.readTrack.length → s.weakCell k' i' = true → (f : Int) < candidate (s.tau k' i') j →
    candidate (s.tau k' i') j < s.cellEnd k' i' → Config.weakHash s.seed k' i' j = true →
    cellNo s.readTrack.length k i ≤ cellNo s.readTrack.length k' i'

/-- The scan may begin at any cell that begins at or before `f`. -/
theorem State.unpassed_of_tau_le (hr : 1 ≤ s.cfg.rpm) (hw : wfTrack s.readTrack = true) {f : Nat} {k : Int} {i : Nat}
    (hi : i < s.readTrack.length) (h : s.tau k i ≤ f) : s.Unpassed f k i where
  flux k' i' hi' _ hf := by
    by_contra hle
    have := State.tau_mono hr hw hi' hi (not_lt.mp hle)
    omega
  weak k' i' j hi' _ hf hend _ := by
    by_contra hlt
    have := State.cellEnd_le_tau hr hw hi' hi (not_le.mp hlt)
    omega

/-- `e` is the first transition of the read channel after `f`. -/
def State.FirstAfter (s : State) (f : Nat) (e : Int) : Prop :=
  (f : Int) < e ∧ s.transitionAt e ∧ ∀ e' : Int, (f : Int) < e' → s.transitionAt e' → e ≤ e'

/-- A transition is the first one where it is at or before the `Flux` events and the taken candidates that the scan has not passed. -/
theorem State.Unpassed.firstAfter {f : Nat} {k : Int} {i : Nat} (h : s.Unpassed f k i) (hi : i < s.readTrack.length) {e : Int}
    (hf : (f : Int) < e) (he : s.transitionAt e)
    (hflux : ∀ (k' : Int) (i' : Nat), i' < s.readTrack.length →
      cellNo s.readTrack.length k i < cellNo s.readTrack.length k' i' → e ≤ s.tau k' i')
    (hweak : s.weakCell k i = true → ∀ j : Nat, (f : Int) < candidate (s.tau k i) j → candidate (s.tau k i) j < s.cellEnd k i →
      Config.weakHash s.seed k i j = true → e ≤ candidate (s.tau k i) j) : s.FirstAfter f e := by
  refine ⟨hf, he, fun e' hf' he' => ?_⟩
  rcases he' with ⟨k', i', hi', ht, rfl⟩ | ⟨k', i', j, hi', hcell, rfl, hend, hhash⟩
  · exact hflux k' i' hi' (h.flux k' i' hi' ht hf')
  · rcases (h.weak k' i' j hi' hcell hf' hend hhash).eq_or_lt with heq | hlt
    · obtain ⟨rfl, rfl⟩ := cellNo_inj hi hi' heq
      exact hweak hcell j hf' hend hhash
    · exact (hflux k' i' hi' hlt).trans (le_candidate _ j)

/-- The scan goes on from a cell that holds no taken candidate after `f` and whose end is no `Flux` event after `f`. -/
theorem State.Unpassed.next {f : Nat} {k : Int} {i : Nat} (h : s.Unpassed f k i) (hi : i < s.readTrack.length)
    (hweak : s.weakCell k i = true → s.weakTransition f k i = none)
    (hflux : tagOf (s.readEvent (nextEvent s.readTrack.length k i).2) = some .flux → s.cellEnd k i ≤ f) :
    s.Unpassed f (nextEvent s.readTrack.length k i).1 (nextEvent s.readTrack.length k i).2 where
  flux k' i' hi' ht hf := by
    refine lt_of_le_of_ne ?_ fun heq => ?_
    · rw [cellNo_nextEvent hi]
      exact h.flux k' i' hi' ht hf
    · obtain ⟨rfl, rfl⟩ := cellNo_inj (nextEvent_lt hi k) hi' heq
      exact absurd hf (not_lt.mpr (hflux ht))
  weak k' i' j hi' hcell hf hend hhash := by
    rw [cellNo_nextEvent hi]
    refine lt_of_le_of_ne (h.weak k' i' j hi' hcell hf hend hhash) fun heq => ?_
    obtain ⟨rfl, rfl⟩ := cellNo_inj hi hi' heq
    simp [State.weakTransition_none (hweak hcell) hend hf] at hhash

theorem State.walk_of_taken {f : Nat} {k : Int} {i : Nat} {w : Int} (hc : s.weakCell k i = true)
    (h : s.weakTransition f k i = some w) (n : Nat) : s.walk f (n + 1) k i = some w := by
  rw [State.walk, if_pos hc, h]

theorem State.walk_of_untaken {f : Nat} {k : Int} {i : Nat} (h : s.weakCell k i = true → s.weakTransition f k i = none) (n : Nat) :
    s.walk f (n + 1) k i
      = if tagOf (s.readEvent (nextEvent s.readTrack.length k i).2) = some .flux ∧ (f : Int) < s.cellEnd k i then some (s.cellEnd k i)
        else s.walk f n (nextEvent s.readTrack.length k i).1 (nextEvent s.readTrack.length k i).2 := by
  have hnone : (if s.weakCell k i = true then s.weakTransition f k i else none) = none := by
    split
    · exact h ‹_›
    · rfl
  rw [State.walk, hnone]
  simp

/-- From a cell before which nothing is missed the scan gives the first transition. -/
theorem State.walk_firstAfter (hr : 1 ≤ s.cfg.rpm) (hw : wfTrack s.readTrack = true) {f n : Nat} {k : Int} {i : Nat} {e : Int}
    (hi : i < s.readTrack.length) (h : s.Unpassed f k i) (hwalk : s.walk f n k i = some e) : s.FirstAfter f e := by
  induction n generalizing k i with
  | zero => cases hwalk
  | succ n ih =>
    have hlater := fun (k' : Int) (i' : Nat) (hi' : i' < s.readTrack.length) => State.cellEnd_le_tau (k := k) (k' := k') hr hw hi hi'
    by_cases htaken : ∃ w, s.weakCell k i = true ∧ s.weakTransition f k i = some w
    · obtain ⟨w, hcell, hweak⟩ := htaken
      obtain rfl : w = e := Option.some.inj ((State.walk_of_taken hcell hweak n).symm.trans hwalk)
      obtain ⟨j, rfl, hend, hf, hhash, hfirst⟩ := State.weakTransition_some hweak
      exact h.firstAfter hi hf (.inr ⟨k, i, j, hi, hcell, rfl, hend, hhash⟩)
        (fun k' i' hi' hlt => hend.le.trans (hlater k' i' hi' hlt)) fun _ => hfirst
    · have hnone : s.weakCell k i = true → s.weakTransition f k i = none := fun hcell =>
        Option.eq_none_iff_forall_ne_some.mpr fun w hweak => htaken ⟨w, hcell, hweak⟩
      rw [State.walk_of_untaken hnone] at hwalk
      split at hwalk
      next hend =>
        obtain rfl : s.cellEnd k i = e := Option.some.inj hwalk
        refine h.firstAfter hi hend.2 (.inl ⟨_, _, nextEvent_lt hi k, hend.1, rfl⟩) hlater fun hcell j hfj hendj hhash => ?_
        simp [State.weakTransition_none (hnone hcell) hendj hfj] at hhash
      next hpass => exact ih (nextEvent_lt hi k) (h.next hi hnone fun ht => not_lt.mp fun hf => hpass ⟨ht, hf⟩) hwalk

theorem State.nextTransition_firstAfter (hr : 1 ≤ s.cfg.rpm) (hw : wfTrack s.readTrack = true) (hne : 0 < s.readTrack.length) {f : Nat}
    {e : Int} (h : s.nextTransition f = some e) : s.FirstAfter f e := by
  obtain ⟨hi, hle⟩ := State.locate_spec hr hw hne f
  exact State.walk_firstAfter hr hw hi (State.unpassed_of_tau_le hr hw hi hle) h

theorem execGetNextTransition_of_readable (h : s.x.x0 ≠ never) (hr : s.readable = true) {e : Int}
    (he : s.nextTransition s.x.x0.toNat = some e) :
    execGetNextTransition s
      = complete .ok { s.setReg 0 (u64After .nextTransition s.x.x0.toNat e) with cache := s.cacheAfterRead s.x.x0 } := by
  rw [execGetNextTransition, timeOperand_of_ne h]
  simp only [hr, if_true, he]

/-- Settles O33: the scan begins at the cell that holds `f`, before which nothing is missed, and passes no transition. -/
theorem nextTransitionIsFirst : Obligations.NextTransitionIsFirst := by
  intro s hx hm hr hw hflux
  obtain ⟨e, he⟩ := Option.isSome_iff_exists.mp (s.nextTransition_isSome hr s.x.x0.toNat ((hasTag_iff _ _).mpr hflux))
  obtain ⟨a, ha, ht⟩ := hflux
  obtain ⟨hf, htrans, hfirst⟩ := State.nextTransition_firstAfter hr hw (List.length_pos_of_mem ha) he
  have hnever : s.x.x0.toNat < never.toNat := by
    have hne : s.x.x0.toNat ≠ never.toNat := fun h => hx (BitVec.eq_of_toNat_eq h)
    have hlt := s.x.x0.isLt
    have hall : never.toNat = 2 ^ 64 - 1 := rfl
    omega
  exact ⟨_, e, execGetNextTransition_of_readable hx (State.readable_iff.mpr ⟨hm, a, ha, ht⟩) he, rfl,
    toNat_u64After .nextTransition hf, lt_toNat_u64After .nextTransition hnever e, hf, htrans, hfirst⟩

end Sys2Proof.Machine
end

section
/-!
PROOFS. 41_flux_sequencer.md R119 to R126: what `WRITE_FLUX` answers, and what it makes of the track under the head.
-/

namespace Sys2Proof.Machine

variable {s t : State}

/-! ### The outcomes of a write (R119) -/

theorem State.writeIgnored_iff (s : State) (start stop : Word64) :
    s.writeIgnored start.toNat stop.toNat = true ↔
      s.motor = false ∨ s.diskPresent = false ∨ s.wp = true ∨ s.props.kind = true ∨ s.allocTracks.toNat ≤ s.cyl.toNat
        ∨ s.allocSides.toNat ≤ s.head ∨ stop ≤ start := by
  simp only [State.writeIgnored, Bool.or_eq_true, Bool.not_eq_true', State.inStore_eq_false_iff, decide_eq_true_eq, or_assoc,
    BitVec.le_def]

theorem State.writeIgnored_eq_false (hm : s.motor = true) (hd : s.diskPresent = true) (hwp : s.wp = false)
    (hk : s.props.kind = false) (hc : s.cyl.toNat < s.allocTracks.toNat) (hh : s.head < s.allocSides.toNat) {start stop : Word64}
    (hlt : start < stop) : s.writeIgnored start.toNat stop.toNat = false := by
  have hin : s.inStore s.cyl.toNat s.head = true := (s.inStore_iff _ _).mpr ⟨hc, hh⟩
  have hle : start.toNat < stop.toNat := hlt
  simp [State.writeIgnored, hm, hd, hwp, hk, hin, hle]

/-- The write takes place: it is not ignored, and its window is at most one revolution. -/
structure State.Writes (s : State) : Prop where
  start : s.x.x0 ≠ never
  stop : s.x.x1 ≠ never
  heeded : s.writeIgnored s.x.x0.toNat s.x.x1.toNat = false
  window : s.angleAt s.x.x1.toNat - s.angleAt s.x.x0.toNat ≤ revUnits

/-- The list that the write leaves under the head. -/
def State.newTrack (s : State) : List Word32 := s.writtenTrack s.x.x0.toNat s.x.x1.toNat

/-- The state that the write leaves, but for its `ST`. -/
def State.fluxWritten (s : State) : State :=
  if s.newTrack = s.buf s.cyl.toNat s.head then s.dropCache
  else (s.writeTrack s.cyl.toNat s.head s.newTrack (s.trackAt s.cyl.toNat s.head).splice.toNat).markDirty.dropCache

theorem execWriteFlux_of_times (h0 : s.x.x0 ≠ never) (h1 : s.x.x1 ≠ never) :
    execWriteFlux s =
      if s.writeIgnored s.x.x0.toNat s.x.x1.toNat then complete .ignored s
      else if (revUnits : Int) < s.angleAt s.x.x1.toNat - s.angleAt s.x.x0.toNat then raiseFault .operand s.x.x1 s
      else complete .ok s.fluxWritten := by
  rw [execWriteFlux, timeOperand_of_ne h0, timeOperand_of_ne h1, State.fluxWritten, apply_ite (complete .ok)]
  rfl

theorem execWriteFlux_of_ignored (h0 : s.x.x0 ≠ never) (h1 : s.x.x1 ≠ never)
    (hi : s.writeIgnored s.x.x0.toNat s.x.x1.toNat = true) : execWriteFlux s = complete .ignored s := by
  rw [execWriteFlux_of_times h0 h1, if_pos hi]

theorem execWriteFlux_of_long (h0 : s.x.x0 ≠ never) (h1 : s.x.x1 ≠ never)
    (hi : s.writeIgnored s.x.x0.toNat s.x.x1.toNat = false)
    (hl : (revUnits : Int) < s.angleAt s.x.x1.toNat - s.angleAt s.x.x0.toNat) :
    execWriteFlux s = raiseFault .operand s.x.x1 s := by
  rw [execWriteFlux_of_times h0 h1, if_neg (by simp [hi]), if_pos hl]

theorem State.Writes.exec_eq (h : s.Writes) : execWriteFlux s = complete .ok s.fluxWritten := by
  rw [execWriteFlux_of_times h.start h.stop, if_neg (by simp [h.heeded]), if_neg (not_lt.mpr h.window)]

/-- The write takes place, or it ends with another status and leaves the track store as it is. -/
theorem execWriteFlux_cases (h : execWriteFlux s = .next t) :
    (s.Writes ∧ t = s.fluxWritten.withStatus .ok) ∨ (t.st ≠ 0x00#8 ∧ t.trk = s.trk) := by
  by_cases hn : s.x.x0 = never ∨ s.x.x1 = never
  · rw [execWriteFlux_of_never hn] at h
    rw [raiseFault_eq_next h]
    exact .inr ⟨by simp [statusCode], rfl⟩
  obtain ⟨h0, h1⟩ := not_or.mp hn
  cases hi : s.writeIgnored s.x.x0.toNat s.x.x1.toNat with
  | true =>
    rw [execWriteFlux_of_ignored h0 h1 hi] at h
    rw [complete_eq_next h]
    exact .inr ⟨by simp [statusCode], rfl⟩
  | false =>
    by_cases hl : (revUnits : Int) < s.angleAt s.x.x1.toNat - s.angleAt s.x.x0.toNat
    · rw [execWriteFlux_of_long h0 h1 hi hl] at h
      rw [raiseFault_eq_next h]
      exact .inr ⟨by simp [statusCode], rfl⟩
    · have hw : s.Writes := ⟨h0, h1, hi, not_lt.mp hl⟩
      rw [hw.exec_eq] at h
      exact .inl ⟨hw, complete_eq_next h⟩

/-! ### The state that a write leaves (R119, R35, R36) -/

theorem State.fluxWritten_of_same (h : s.newTrack = s.buf s.cyl.toNat s.head) : s.fluxWritten = s.dropCache := if_pos h

theorem State.fluxWritten_of_change (h : s.newTrack ≠ s.buf s.cyl.toNat s.head) :
    s.fluxWritten
      = (s.writeTrack s.cyl.toNat s.head s.newTrack (s.trackAt s.cyl.toNat s.head).splice.toNat).markDirty.dropCache :=
  if_neg h

/-- The write changes the track store, the dirty flags and the cache, and nothing else. -/
theorem State.fluxWritten_frame (s : State) :
    s.fluxWritten =
      { s with
        trk := s.fluxWritten.trk, dirtyLoad := s.fluxWritten.dirtyLoad, dirtyRestore := s.fluxWritten.dirtyRestore
        imgChanged := s.fluxWritten.imgChanged, cache := { s.cache with valid := false } } := by
  by_cases h : s.newTrack = s.buf s.cyl.toNat s.head
  · rw [State.fluxWritten_of_same h]
    rfl
  · rw [State.fluxWritten_of_change h]
    rfl

theorem State.trackAt_fluxWritten_ne {c k : Nat} (hk : k < 2 ^ 32) (hne : c ≠ s.cyl.toNat ∨ k ≠ s.head) :
    s.fluxWritten.trackAt c k = s.trackAt c k := by
  by_cases h : s.newTrack = s.buf s.cyl.toNat s.head
  · rw [State.fluxWritten_of_same h]
    rfl
  · rw [State.fluxWritten_of_change h]
    exact State.trackAt_writeTrack_ne s _ _ s.head_lt hk hne

theorem State.trackAt_fluxWritten_of_change (hm : Memory.wf s = true) (h : s.newTrack ≠ s.buf s.cyl.toNat s.head) :
    s.fluxWritten.trackAt s.cyl.toNat s.head
      = { events := s.newTrack, splice := (s.trackAt s.cyl.toNat s.head).splice, hasDamaged := hasTag .damaged s.newTrack } := by
  rw [State.fluxWritten_of_change h]
  refine (State.trackAt_writeTrack_self hm _ _ _ _).trans ?_
  rw [BitVec.ofNat_toNat, BitVec.setWidth_eq]

theorem State.buf_fluxWritten_self (hm : Memory.wf s = true) : s.fluxWritten.buf s.cyl.toNat s.head = s.newTrack := by
  by_cases h : s.newTrack = s.buf s.cyl.toNat s.head
  · rw [State.fluxWritten_of_same h]
    exact h.symm
  · exact congrArg Track.events (State.trackAt_fluxWritten_of_change hm h)

theorem State.splice_fluxWritten (hm : Memory.wf s = true) :
    (s.fluxWritten.trackAt s.cyl.toNat s.head).splice = (s.trackAt s.cyl.toNat s.head).splice := by
  by_cases h : s.newTrack = s.buf s.cyl.toNat s.head
  · rw [State.fluxWritten_of_same h]
    rfl
  · rw [State.trackAt_fluxWritten_of_change hm h]

/-- Settles O36: the branches of the command in order, and in the last one the state that the write leaves. -/
theorem writeFluxOutcomes : Obligations.WriteFluxOutcomes := by
  refine fun s h0 h1 => ⟨fun hi => ?ignored, fun hm hd hwp hk hc hh hlt => ?heeded⟩
  case ignored => exact execWriteFlux_of_ignored h0 h1 ((s.writeIgnored_iff _ _).mpr hi)
  case heeded =>
    have hi := State.writeIgnored_eq_false hm hd hwp hk hc hh hlt
    refine ⟨execWriteFlux_of_long h0 h1 hi, fun hrev hmem => ?_⟩
    refine ⟨_, State.Writes.exec_eq ⟨h0, h1, hi, hrev⟩, congrArg (State.withStatus · .ok) s.fluxWritten_frame,
      fun c k hk hne => State.trackAt_fluxWritten_ne hk hne, State.splice_fluxWritten hmem, fun hsame => ?_, fun hchange => ?_⟩
    · rw [State.fluxWritten_of_same ((State.buf_fluxWritten_self hmem).symm.trans hsame)]
      exact ⟨rfl, rfl, rfl, rfl⟩
    · have hne : s.newTrack ≠ s.buf s.cyl.toNat s.head := State.buf_fluxWritten_self hmem ▸ hchange
      refine ⟨?load, ?restore, ?changed, ?damaged⟩
      case damaged =>
        show (s.fluxWritten.trackAt s.cyl.toNat s.head).hasDamaged = hasTag .damaged (s.fluxWritten.buf s.cyl.toNat s.head)
        rw [State.trackAt_fluxWritten_of_change hmem hne, State.buf_fluxWritten_self hmem]
      case load | restore | changed =>
        rw [State.fluxWritten_of_change hne]
        rfl

/-! ### The track under the head, position by position (R119 to R124) -/

theorem State.mem_writeAngles (s : State) (start stop : Word64) (v : Int) :
    v ∈ s.writeAngles start.toNat stop.toNat ↔ ∃ w ∈ s.trn, start ≤ w ∧ w < stop ∧ s.angleAt w.toNat = v := by
  simp only [State.writeAngles, List.mem_map, List.mem_filter, Bool.and_eq_true, decide_eq_true_eq, BitVec.le_def, BitVec.lt_def,
    and_assoc]

theorem State.Writes.angle_le (h : s.Writes) : s.angleAt s.x.x0.toNat ≤ s.angleAt s.x.x1.toNat := by
  have hlt : ¬ s.x.x1 ≤ s.x.x0 := fun hle => by
    simpa [h.heeded] using (s.writeIgnored_iff s.x.x0 s.x.x1).mpr (.inr (.inr (.inr (.inr (.inr (.inr hle))))))
  rw [BitVec.le_def] at hlt
  exact angle_mono _ _ (by omega)

/-- A position of a damaged zone holds no transition. -/
theorem notMem_fluxPositions_of_damaged {L : List Word32} (hL : wfTrack L = true) {z : Zone} (hz : z ∈ damagedZones L) {p : Nat}
    (h1 : z.z1 ≤ p) (h2 : p ≤ z.z2) : p ∉ fluxPositions L := fun hp => by
  have := (view_of_wfTrack hL).apart z (List.mem_of_mem_filter hz) p hp
  omega

/-- Settles O37: the command writes the spans of the window, and what that does to the positions and to the zones of a well-formed track
is `writeSpans_spec`, `writeSpans_last` and `writeSpans_cut`. -/
theorem writeFluxContent : Obligations.WriteFluxContent := by
  intro s t a b L L' damaged inWindow written hinv hex hst ha hb hL hL' hdam hwin hwr
  obtain ⟨hw, rfl⟩ | ⟨hne, -⟩ := execWriteFlux_cases hex
  case inr => exact absurd hst hne
  have hab : a ≤ b := by
    rw [ha, hb]
    exact hw.angle_le
  have hrev : b - a ≤ revUnits := by
    rw [ha, hb]
    exact hw.window
  have hwf : wfTrack L = true := hL ▸ hinv.wfTrack_buf _ _
  have hnew : L' = writeSpans (s.writeAngles s.x.x0.toNat s.x.x1.toNat) a b L := by
    rw [hL', ha, hb, hL]
    exact State.buf_fluxWritten_self hinv.memory
  have hang : ∀ v : Int, v ∈ s.writeAngles s.x.x0.toNat s.x.x1.toNat ↔ written v := fun v => by
    rw [State.mem_writeAngles, hwr]
  obtain rfl : damaged = fun q => ∃ z ∈ damagedZones L, z.z1 ≤ q ∧ q ≤ z.z2 := funext fun q => propext (hdam q)
  obtain rfl : inWindow = fun q : Nat => ∃ v : Int, a ≤ v ∧ v < b ∧ v % 200000000 = q := funext fun q => propext (hwin q)
  obtain rfl : (· ∈ s.writeAngles s.x.x0.toNat s.x.x1.toNat) = written := funext fun v => propext (hang v)
  obtain ⟨hkept, hspec⟩ := writeSpans_spec (s.writeAngles s.x.x0.toNat s.x.x1.toNat) a b L hwf hab hrev
  rw [← hnew] at hkept hspec
  refine ⟨fun p u hp h1 h2 h3 => ⟨(hspec p u hp h1 h2 h3).1, fun _ => ?damaged, fun hb' hp' hd hd' => ?inside, ?last⟩, ?zones⟩
  case damaged =>
    rintro ⟨z, hz, hz1, hz2⟩
    exact notMem_fluxPositions_of_damaged hkept.wf (hkept.damaged ▸ hz) hz1 hz2
  case inside => exact (hspec p u hp h1 h2 h3).2 hb' hp' fun z hz => ⟨fun h => hd ⟨z, hz, h⟩, fun h => hd' ⟨z, hz, h⟩⟩
  case last =>
    intro q old new hub hend hqp hqa hoff hq ho hn
    rw [hnew]
    exact writeSpans_last _ a b L hwf hab hrev hp h1 hub h3 hend hqp hqa hoff hq ho hn
  case zones =>
    rw [hnew]
    exact writeSpans_cut _ a b L hwf hab hrev

/-! ### Damaged zones and parity (R125, R126) -/

theorem State.buf_congr {c k c' k' : Nat} (h : trackKey c k = trackKey c' k') (s : State) : s.buf c k = s.buf c' k' := by
  rw [State.buf, State.buf, State.trackAt, State.trackAt, h]

theorem State.buf_fluxWritten_ne {c k : Nat} (h : trackKey c k ≠ trackKey s.cyl.toNat s.head) :
    s.fluxWritten.buf c k = s.buf c k := by
  by_cases hsame : s.newTrack = s.buf s.cyl.toNat s.head
  · rw [State.fluxWritten_of_same hsame]
    rfl
  · rw [State.fluxWritten_of_change hsame]
    exact congrArg Track.events (Sparse.get_set_ne _ _ _ h)

/-- Every track keeps its damaged zones and the parity of its transitions. -/
theorem Inv.kept_execWriteFlux (h : Inv s) (hex : execWriteFlux s = .next t) (c k : Nat) : Kept (s.buf c k) (t.buf c k) := by
  obtain ⟨hw, rfl⟩ | ⟨-, htrk⟩ := execWriteFlux_cases hex
  · show Kept (s.buf c k) (s.fluxWritten.buf c k)
    by_cases hkey : trackKey c k = trackKey s.cyl.toNat s.head
    · rw [State.buf_congr hkey, State.buf_congr hkey, State.buf_fluxWritten_self h.memory]
      exact (writeSpans_spec _ _ _ _ (h.wfTrack_buf _ _) hw.angle_le hw.window).1
    · rw [State.buf_fluxWritten_ne hkey]
      exact Kept.refl (h.wfTrack_buf c k)
  · have hbuf : t.buf c k = s.buf c k := by rw [State.buf, State.buf, State.trackAt, State.trackAt, htrk]
    rw [hbuf]
    exact Kept.refl (h.wfTrack_buf c k)

/-- Settles O39: `parity` of what a write keeps. -/
theorem writeFluxKeepsParity : Obligations.WriteFluxKeepsParity :=
  fun _ _ c h hinv hex heven => (hinv.kept_execWriteFlux hex c h).parity.trans heven

/-- The events of a list at the positions of a zone. -/
def eventsOn (z : Zone) (L : List Word32) : List Word32 := L.filter (fun e => decide (z.z1 ≤ evPos e) && decide (evPos e ≤ z.z2))

theorem eventsOn_append (z : Zone) (L L' : List Word32) : eventsOn z (L ++ L') = eventsOn z L ++ eventsOn z L' := List.filter_append ..

theorem eventsOn_eq_nil {z : Zone} {L : List Word32} (h : ∀ e ∈ L, evPos e < z.z1 ∨ z.z2 < evPos e) : eventsOn z L = [] := by
  refine List.filter_eq_nil_iff.mpr fun e he => ?_
  have := h e he
  simp only [Bool.and_eq_true, decide_eq_true_eq]
  omega

/-- On the positions of a zone of a track stand its opener and its `EndOfZone` and no other event. -/
theorem eventsOn_encodeTrack {Z : List Zone} {F : List Nat} (h : View Z F) {z : Zone} (hz : z ∈ Z) :
    eventsOn z (encodeTrack Z F) = [mkEvent z.tag z.z1, mkEvent .endOfZone z.z2] := by
  induction Z generalizing F with
  | nil => cases hz
  | cons y Z ih =>
    obtain ⟨hy, hyu, -⟩ := h.each y List.mem_cons_self
    have hu := revUnits_lt
    have hopen : evPos (mkEvent y.tag y.z1) = y.z1 := evPos_mkEvent _ (by omega)
    have hclose : evPos (mkEvent .endOfZone y.z2) = y.z2 := evPos_mkEvent _ (by omega)
    have hrise : Rising (encodeTrack (y :: Z) F) := ((wfTrack_iff _).mp (wfTrack_encodeTrack h)).2.1
    rw [encodeTrack, Rising, List.pairwise_append, List.pairwise_cons, List.pairwise_cons] at hrise
    obtain ⟨-, ⟨-, hafter, -⟩, hbefore⟩ := hrise
    rw [hclose] at hafter
    have hbefore : ∀ e ∈ (F.filter (fun p => decide (p < y.z1))).map (mkEvent .flux), evPos e < y.z1 := fun e he =>
      hopen ▸ hbefore e he _ List.mem_cons_self
    rw [encodeTrack, eventsOn_append]
    rcases List.mem_cons.mp hz with rfl | hz
    · rw [eventsOn_eq_nil fun e he => .inl (hbefore e he)]
      have hrest := eventsOn_eq_nil fun e he => .inr (hafter e he)
      rw [eventsOn] at hrest
      rw [eventsOn, List.filter_cons_of_pos (by simp [hopen]; omega), List.filter_cons_of_pos (by simp [hclose]; omega), hrest]
      rfl
    · have hlt := (List.pairwise_cons.mp h.zones).1 z hz
      rw [eventsOn_eq_nil fun e he => .inl (by have := hbefore e he; omega)]
      have hrest := ih h.tail hz
      rw [eventsOn] at hrest
      rw [eventsOn, List.filter_cons_of_neg (by simp [hopen]; omega), List.filter_cons_of_neg (by simp [hclose]; omega), hrest]
      rfl

theorem eventsOn_of_wfTrack {L : List Word32} (hL : wfTrack L = true) {z : Zone} (hz : z ∈ zonesOf L) :
    eventsOn z L = [mkEvent z.tag z.z1, mkEvent .endOfZone z.z2] := by
  conv_lhs => rw [← encodeTrack_of_wfTrack hL]
  exact eventsOn_encodeTrack (view_of_wfTrack hL) hz

theorem Kept.eventsOn_eq {L L' : List Word32} (h : Kept L L') (hL : wfTrack L = true) {z : Zone} (hz : z ∈ damagedZones L) :
    eventsOn z L' = eventsOn z L := by
  rw [eventsOn_of_wfTrack h.wf (List.mem_of_mem_filter (h.damaged ▸ hz)), eventsOn_of_wfTrack hL (List.mem_of_mem_filter hz)]

theorem State.angleAt_at_300 (hr : s.cfg.rpm = 300) (h0 : s.t0 = 0) (n : Nat) : s.angleAt n = n := by
  rw [State.angleAt, State.epoch, hr, h0, angle_at_300]
  exact sub_zero _

/-- The worked write of R126. -/
theorem writeSpans_worked :
    writeSpans [2500] 2000 6000 [1000, 3000, 5000, 7000] = [1000, 2500, 5999, 7000] := by decide +kernel

/-- Settles O38: `damaged` of what a write keeps, and that on the positions of a zone stand its two events alone; the worked write is
computed. -/
theorem writeFluxKeepsDamaged : Obligations.WriteFluxKeepsDamaged := by
  refine ⟨fun s t c h hinv hex => ?kept, fun s hr h0 hm hd hwp hk hc hs ht hsd hbuf hx0 hx1 htrn hmem => ?worked⟩
  case kept =>
    have hkept := hinv.kept_execWriteFlux hex c h
    exact ⟨hkept.damaged, fun z hz => hkept.eventsOn_eq (hinv.wfTrack_buf c h) hz⟩
  case worked =>
    have hcyl : s.cyl.toNat = 0 := by rw [hc]; rfl
    have hhead : s.head = 0 := by rw [State.head, hs]; rfl
    have hi : s.writeIgnored s.x.x0.toNat s.x.x1.toNat = false :=
      State.writeIgnored_eq_false hm hd hwp hk (hcyl ▸ ht) (hhead ▸ hsd) (by rw [hx0, hx1]; decide)
    have hang := State.angleAt_at_300 hr h0
    have hw : s.Writes := ⟨by rw [hx0]; decide, by rw [hx1]; decide, hi, by rw [hang, hang, hx0, hx1]; decide⟩
    refine ⟨_, hw.exec_eq, rfl, ?_⟩
    show s.fluxWritten.buf 0 0 = _
    have hself := State.buf_fluxWritten_self hmem
    rw [hcyl, hhead] at hself
    rw [hself, State.newTrack, State.writtenTrack, State.writeAngles, hang, hang, hcyl, hhead, hbuf, htrn, hx0, hx1, ← writeSpans_worked]
    simp [hang]

end Sys2Proof.Machine
end

section
/-!
PROOFS. 41_flux_sequencer.md R117, R127, R128: the commands that drop the read cache, the write splice and the seed.
-/

namespace Sys2Proof.Machine

variable {s t : State}

/-! ### Outcomes that drop the cache where they complete (R117) -/

/-- The outcome leaves `C_VALID = 0`, if it is a completed command's. -/
def DropsCache (o : Outcome) : Prop := ∀ t : State, o = .next t → t.st = 0x00#8 → t.cache.valid = false

theorem statusCode_eq_zero_iff (st : Status) : statusCode st = 0x00#8 ↔ st = .ok :=
  ⟨fun h => statusCode_injective (h.trans rfl), fun h => h ▸ rfl⟩

theorem dropsCache_raiseFault (code : FaultCode) (info : Word64) (s : State) : DropsCache (raiseFault code info s) := by
  rintro _ h hst
  rw [raiseFault_eq_next h] at hst
  cases (statusCode_eq_zero_iff .faulted).mp hst

theorem dropsCache_status {st : Status} (hst : st ≠ .ok) (s : State) : DropsCache (complete st s) := by
  rintro _ h hzero
  rw [complete_eq_next h] at hzero
  exact absurd ((statusCode_eq_zero_iff st).mp hzero) hst

theorem dropsCache_complete (h : s.cache.valid = false) (st : Status) : DropsCache (complete st s) := by
  rintro _ hx -
  rw [complete_eq_next hx]
  exact h

theorem dropsCache_ite {c : Prop} [Decidable c] {o o' : Outcome} (h : DropsCache o) (h' : DropsCache o') :
    DropsCache (if c then o else o') := by
  split
  · exact h
  · exact h'

/-- What a completed command has done. -/
theorem Shape.done_of_ok {done : Prop} (h : Shape s t done) (hst : t.st = 0x00#8) : done := by
  obtain ⟨code, info, rfl⟩ | ⟨st, hmem, rfl⟩ | ⟨-, h⟩ := h
  · cases (statusCode_eq_zero_iff .faulted).mp hst
  · rw [(statusCode_eq_zero_iff st).mp hst] at hmem
    simp at hmem
  · exact h

/-! ### The commands that build a track -/

theorem dropsCache_genFromCells (c h sigma : Nat) (cl : List Word32) (s : State) : DropsCache (genFromCells c h sigma cl s) := by
  intro t hx hst
  obtain ⟨-, L, splice, -, rfl⟩ := (genFromCells_shape hx).done_of_ok hst
  rfl

theorem dropsCache_finishTrack (g : Interp) (s : State) : DropsCache (finishTrack g s) :=
  dropsCache_ite (dropsCache_raiseFault _ _ _)
    (dropsCache_ite (dropsCache_status (by decide) _) (dropsCache_genFromCells _ _ _ _ _))

theorem dropsCache_buildTrack (fixedSize : Layout → List SectorDesc → Nat)
    (cells : Layout → Nat → List SectorDesc → List Word32) (s : State) : DropsCache (buildTrack fixedSize cells s) := by
  intro t hx hst
  rw [(buildTrack_shape hx).done_of_ok hst]

theorem dropsCache_execGenTrack (s : State) : DropsCache (execGenTrack s) := by
  refine dropsCache_ite (dropsCache_status (by decide) _) (dropsCache_ite (dropsCache_raiseFault _ _ _) ?_)
  split
  · exact dropsCache_raiseFault _ _ _
  · rename_i d _
    obtain ⟨g, hg⟩ | ⟨code, hcode⟩ :=
      interpret_startInterp s (unsignedOperand s.x.x0) (unsignedOperand s.x.x1) (unsignedOperand s.x.x2) d
    · rw [hg]
      exact dropsCache_finishTrack g s
    · rw [hcode]
      exact dropsCache_raiseFault _ _ _

/-! ### The other commands that always drop it -/

theorem dropsCache_execWriteFlux (s : State) : DropsCache (execWriteFlux s) := by
  intro t hx hst
  obtain ⟨-, rfl⟩ | ⟨hne, -⟩ := execWriteFlux_cases hx
  · rw [State.fluxWritten_frame]
    rfl
  · exact absurd hst hne

theorem dropsCache_execPutBuffer (s : State) : DropsCache (execPutBuffer s) :=
  dropsCache_ite (dropsCache_status (by decide) _)
    (dropsCache_ite (dropsCache_raiseFault _ _ _)
      (dropsCache_ite (dropsCache_raiseFault _ _ _) (dropsCache_ite (dropsCache_raiseFault _ _ _) (dropsCache_complete rfl _))))

theorem dropsCache_execResizeTracks (s : State) : DropsCache (execResizeTracks s) :=
  dropsCache_ite (dropsCache_status (by decide) _)
    (dropsCache_ite (dropsCache_raiseFault _ _ _) (dropsCache_ite (dropsCache_status (by decide) _) (dropsCache_complete rfl _)))

theorem dropsCache_execInsert (s : State) : DropsCache (execInsert s) :=
  dropsCache_ite (dropsCache_raiseFault _ _ _) (dropsCache_ite (dropsCache_status (by decide) _) (dropsCache_complete rfl _))

theorem dropsCache_execEject (s : State) : DropsCache (execEject s) :=
  dropsCache_ite (dropsCache_status (by decide) _) (dropsCache_complete rfl _)

theorem dropsCache_execGenFromCells (s : State) : DropsCache (execGenFromCells s) :=
  dropsCache_ite (dropsCache_status (by decide) _) (dropsCache_genFromCells _ _ _ _ _)

theorem dropsCache_execLoadState (s : State) : DropsCache (execLoadState s) := by
  refine dropsCache_ite (dropsCache_status (by decide) _) ?_
  split
  · exact dropsCache_status (by decide) _
  · exact dropsCache_complete rfl _

theorem dropsCache_execSetSeed (s : State) : DropsCache (execSetSeed s) := dropsCache_complete rfl _

/-! ### The commands that drop it where they move something -/

theorem State.resync_cache (s : State) (now : Nat) : (s.resync now).cache = s.cache := by rw [State.resync_frame]

theorem execSetMotor_drops (hx : execSetMotor s = .next t) (hst : t.st = 0x00#8) (hmoved : t.motor ≠ s.motor) :
    t.cache.valid = false := by
  by_cases h : s.x.x1 = never
  · rw [execSetMotor_of_never h] at hx
    exact dropsCache_raiseFault _ _ _ t hx hst
  by_cases hs : boolOperand s.x.x0 = s.motor
  · rw [execSetMotor_same h hs] at hx
    rw [complete_eq_next hx] at hmoved
    exact absurd rfl hmoved
  cases hm : s.motor with
  | false =>
    rw [execSetMotor_on h (by simpa [hm] using hs) hm] at hx
    refine dropsCache_complete ?_ _ t hx hst
    rw [State.resync_cache]
    rfl
  | true =>
    rw [execSetMotor_off h (by simpa [hm] using hs) hm] at hx
    exact dropsCache_complete rfl _ t hx hst

theorem execStepTo_drops (hx : execStepTo s = .next t) (hst : t.st = 0x00#8) (hmoved : t.cyl ≠ s.cyl) : t.cache.valid = false := by
  by_cases h : s.x.x1 = never
  · rw [execStepTo_of_never h] at hx
    exact dropsCache_raiseFault _ _ _ t hx hst
  rw [execStepTo_of_time h rfl] at hx
  split at hx
  · rw [complete_eq_next hx] at hmoved
    exact absurd rfl hmoved
  · exact dropsCache_complete rfl _ t hx hst

theorem execSetSide_drops (hx : execSetSide s = .next t) (hst : t.st = 0x00#8) (hmoved : t.ss ≠ s.ss) : t.cache.valid = false := by
  unfold execSetSide at hx
  split at hx
  · rw [complete_eq_next hx] at hmoved
    exact absurd rfl hmoved
  · exact dropsCache_complete rfl _ t hx hst

/-- Settles O35: each of the eleven commands completes in a state whose cache is dropped, or does not complete with `OK`; each of the other
three drops the cache in the branches that move its register. -/
theorem cacheInvalidated : Obligations.CacheInvalidated := by
  refine fun i s t hx hst => ⟨?motor, ?step, ?side, ?always⟩
  case motor =>
    rintro rfl hmoved
    exact execSetMotor_drops hx hst hmoved
  case step =>
    rintro rfl hmoved
    exact execStepTo_drops hx hst hmoved
  case side =>
    rintro rfl hmoved
    exact execSetSide_drops hx hst hmoved
  case always =>
    rintro (rfl | rfl | rfl | rfl | rfl | rfl | rfl | rfl | rfl | rfl | rfl)
    · exact dropsCache_execWriteFlux s t hx hst
    · exact dropsCache_execInsert s t hx hst
    · exact dropsCache_execEject s t hx hst
    · exact dropsCache_execPutBuffer s t hx hst
    · exact dropsCache_execResizeTracks s t hx hst
    · exact dropsCache_execGenTrack s t hx hst
    · exact dropsCache_execGenFromCells s t hx hst
    · exact dropsCache_buildTrack _ _ s t hx hst
    · exact dropsCache_buildTrack _ _ s t hx hst
    · exact dropsCache_execLoadState s t hx hst
    · exact dropsCache_execSetSeed s t hx hst

/-! ### The splice and the seed (R127, R128) -/

theorem execSetWriteSplice_of_ignored (h : s.x.x0 ≠ never)
    (hi : s.motor = false ∨ s.diskPresent = false ∨ s.inStore s.cyl.toNat s.head = false) :
    execSetWriteSplice s = complete .ignored s := by
  rw [execSetWriteSplice, timeOperand_of_ne h]
  refine if_pos ?_
  simpa [or_assoc] using hi

theorem execSetWriteSplice_of_allocated (h : s.x.x0 ≠ never) (hm : s.motor = true) (hd : s.diskPresent = true)
    (hin : s.inStore s.cyl.toNat s.head = true) :
    execSetWriteSplice s = complete .ok (s.writeSplice s.cyl.toNat s.head (s.posAt s.x.x0.toNat)).markDirty := by
  rw [execSetWriteSplice, timeOperand_of_ne h]
  exact if_neg (by simp [hm, hd, hin])

theorem State.trackAt_writeSplice_self (hm : Memory.wf s = true) (c k p : Nat) :
    (s.writeSplice c k p).trackAt c k = { s.trackAt c k with splice := BitVec.ofNat 32 p } :=
  State.trackAt_setTrack_self hm _ _ _

/-- A position fits a splice. -/
theorem toNat_posAt_splice (s : State) (n : Nat) : (BitVec.ofNat 32 (s.posAt n)).toNat = s.posAt n := by
  have h : s.posAt n < 200000000 := anglePos_lt _ _ _
  rw [BitVec.toNat_ofNat]
  omega

/-- Settles O40: the branches of `SET_WRITE_SPLICE` in order, with the track before and after the write of its splice. -/
theorem spliceAndSeed : Obligations.SpliceAndSeed := by
  refine fun s => ⟨fun h => ⟨0, execSetWriteSplice_of_never h⟩, fun h hi => ?ignored, fun h hm hd hc hh hmem => ?written, rfl⟩
  case ignored => exact execSetWriteSplice_of_ignored h (by rwa [State.inStore_eq_false_iff])
  case written =>
    have hself := State.trackAt_writeSplice_self hmem s.cyl.toNat s.head (s.posAt s.x.x0.toNat)
    refine ⟨_, execSetWriteSplice_of_allocated h hm hd ((s.inStore_iff _ _).mpr ⟨hc, hh⟩), rfl, ?splice,
      (congrArg Track.events hself :), (congrArg Track.hasDamaged hself :),
      fun c k hk hne => State.trackAt_setTrack_ne s _ s.head_lt hk hne⟩
    case splice => exact (congrArg (fun tr => tr.splice.toNat) hself).trans (toNat_posAt_splice s _)

end Sys2Proof.Machine
end

section
/-!
PROOFS. 42_codec.md R137 to R149: what one step of a descriptor program is, what `GEN_FROM_CELLS` leaves of an accepted cell list, and the
descriptor elements one by one.
-/

namespace Sys2Proof.Machine

variable {s : State} {g g' : Interp}

/-! ### The step (R137) -/

/-- Settles O6: a step with an interpreter is an element's step, by what stands in `DESC` at `DPC`. -/
theorem stepRunsDescriptorElement : Obligations.StepRunsDescriptorElement := fun _ _ hg =>
  ⟨fun _ _ he hd => (step_of_gen hg).trans (elementStep_of_element he hd),
    fun _ _ he hd => (step_of_gen hg).trans (elementStep_of_illegal he hd),
    fun he => (step_of_gen hg).trans (elementStep_of_end he)⟩

/-! ### An element as an instruction (log entry 5) -/

theorem exec_of_run (hg : s.gen = some g) {i : Instr} (hc : i.isCommand = false) (h : element i s.sdl g = .run g') :
    exec i s = .next { s with gen := some g' } := by
  rw [exec_element hc, runElement_of_gen hg, h]

theorem exec_of_done (hg : s.gen = some g) {i : Instr} (hc : i.isCommand = false) (h : element i s.sdl g = .done g') :
    exec i s = finishTrack g' { s with gen := none } := by
  rw [exec_element hc, runElement_of_gen hg, h]

theorem exec_of_fault (hg : s.gen = some g) {i : Instr} (hc : i.isCommand = false) {code : FaultCode}
    (h : element i s.sdl g = .fault code) : exec i s = .next ({ s with gen := none }.faulted code 0) := by
  rw [exec_element hc, runElement_of_gen hg, h]
  rfl

/-! ### What the writers append (R134 to R136) -/

/-- The cells that `bits` are written to in an encoding, after the data bit `p`. -/
def encCells (enc : Encoding) (d : Nat) (p : Bool) (bits : List Bool) : List Word32 :=
  match enc with
  | .mfm => mfmCells d p bits
  | .fm => fmCells d bits

theorem writeEnc_eq (enc : Encoding) (n v d : Nat) (cl : List Word32) :
    writeEnc enc n v d cl = cl ++ encCells enc d (prevBit cl) (writtenBits n v) := by
  cases enc <;> rfl

theorem byteCells_eq (enc : Encoding) (d : Nat) (p : Bool) (bytes : List Byte) :
    byteCells enc d p bytes = encCells enc d p (bytes.flatMap byteBits) := by
  cases enc <;> rfl

/-- The interpreter after an element has appended `cells`. -/
def Interp.appended (g : Interp) (cells : List Word32) : Interp := { g with cl := g.cl ++ cells, dpc := g.dpc + 1 }

theorem Interp.wrote_append (g : Interp) (cells : List Word32) : g.wrote (g.cl ++ cells) = .run (g.appended cells) := rfl

/-! ### Literals (R140) -/

theorem elemRepeat_writeFm (byte : Byte) (count : Nat) (g : Interp) :
    elemRepeat (writeFm 8 byte.toNat g.cellSize) count g
      = .run (g.appended (fmCells g.cellSize (List.replicate count (byteBits byte)).flatten)) := by
  rw [elemRepeat, iterate_writeFm, writtenBits_toNat_byte, g.wrote_append]

theorem elemRepeat_writeMfm (byte : Byte) (count : Nat) (g : Interp) :
    elemRepeat (writeMfm 8 byte.toNat g.cellSize) count g
      = .run (g.appended (mfmCells g.cellSize (prevBit g.cl) (List.replicate count (byteBits byte)).flatten)) := by
  rw [elemRepeat, iterate_writeMfm, writtenBits_toNat_byte, g.wrote_append]

theorem elemRepeat_writeRaw (pattern : BitVec 16) (count : Nat) (g : Interp) :
    elemRepeat (writeRaw 16 pattern.toNat g.cellSize) count g
      = .run (g.appended (rawCells g.cellSize (List.replicate count ((List.range 16).map (fun j => pattern.getMsbD j))).flatten)) := by
  rw [elemRepeat, iterate_writeRaw, writtenBits_16, g.wrote_append]

/-- Settles O45: each literal repeats one write, which is one write of the repeated bits. -/
theorem literalElements : Obligations.LiteralElements := fun _ g hg =>
  ⟨fun byte count => exec_of_run hg rfl (elemRepeat_writeFm byte count.toNat g),
    fun byte count => exec_of_run hg rfl (elemRepeat_writeMfm byte count.toNat g),
    fun pattern count => exec_of_run hg rfl (elemRepeat_writeRaw pattern count.toNat g)⟩

/-! ### Id and data elements (R141, R142, R147) -/

theorem elemByte_eq (enc : Encoding) (v : Nat) (g : Interp) :
    elemByte enc v g = .run (g.appended (encCells enc g.cellSize (prevBit g.cl) (byteBits (BitVec.ofNat 8 v)))) := by
  rw [elemByte, writeEnc_eq, writtenBits_byte, g.wrote_append]

section current
variable {sdl : List SectorDesc} {k : Nat} {r : SectorDesc}

theorem currentSector_of_some (hc : g.cur = some k) (hr : sdl[k]? = some r) : currentSector sdl g = .ok r := by
  rw [currentSector, hc]
  dsimp only
  rw [hr]

theorem currentSector_of_none (hc : g.cur = none) (sdl : List SectorDesc) : currentSector sdl g = .error .desc := by
  rw [currentSector, hc]

theorem elemSectorByte_of_some (hc : g.cur = some k) (hr : sdl[k]? = some r) (enc : Encoding) (field : SectorDesc → Nat) :
    elemSectorByte enc field sdl g
      = .run (g.appended (encCells enc g.cellSize (prevBit g.cl) (byteBits (BitVec.ofNat 8 (field r))))) := by
  rw [elemSectorByte, currentSector_of_some hc hr]
  exact elemByte_eq enc (field r) g

theorem elemSectorByte_of_none (hc : g.cur = none) (enc : Encoding) (field : SectorDesc → Nat) (sdl : List SectorDesc) :
    elemSectorByte enc field sdl g = .fault .desc := by
  rw [elemSectorByte, currentSector_of_none hc]

theorem elemSectorData_of_good (hc : g.cur = some k) (hr : sdl[k]? = some r) (hl : r.data.length = r.actualSize.toNat) (enc : Encoding) :
    elemSectorData enc sdl g = .run (g.appended (encCells enc g.cellSize (prevBit g.cl) (r.data.flatMap byteBits))) := by
  rw [elemSectorData, currentSector_of_some hc hr]
  dsimp only
  rw [if_pos hl, writeBytes_eq, byteCells_eq, g.wrote_append]

theorem elemSectorData_of_bad (hc : g.cur = some k) (hr : sdl[k]? = some r) (hl : r.data.length ≠ r.actualSize.toNat) (enc : Encoding) :
    elemSectorData enc sdl g = .fault .operand := by
  rw [elemSectorData, currentSector_of_some hc hr]
  exact if_neg hl

theorem elemSectorData_of_none (hc : g.cur = none) (enc : Encoding) (sdl : List SectorDesc) :
    elemSectorData enc sdl g = .fault .desc := by
  rw [elemSectorData, currentSector_of_none hc]

end current

/-- Settles O46: each element writes one byte value, or the bytes of the payload, where the current sector is one. -/
theorem recordElements : Obligations.RecordElements := by
  refine fun s g hg => ⟨?track, ?head, fun k r hc hr => ?sector, fun hc i hi => ?outside⟩
  case track =>
    rintro _ rfl
    exact ⟨exec_of_run hg rfl (elemByte_eq .mfm g.c g), exec_of_run hg rfl (elemByte_eq .fm g.c g)⟩
  case head =>
    rintro _ rfl
    exact ⟨exec_of_run hg rfl (elemByte_eq .mfm g.h g), exec_of_run hg rfl (elemByte_eq .fm g.h g)⟩
  case sector =>
    have hbyte := elemSectorByte_of_some hc hr
    exact ⟨exec_of_run hg rfl (hbyte .mfm SectorDesc.sector), exec_of_run hg rfl (hbyte .fm SectorDesc.sector),
      exec_of_run hg rfl (hbyte .mfm SectorDesc.size), exec_of_run hg rfl (hbyte .fm SectorDesc.size),
      fun hl => ⟨exec_of_run hg rfl (elemSectorData_of_good hc hr hl .mfm), exec_of_run hg rfl (elemSectorData_of_good hc hr hl .fm)⟩,
      fun hl => ⟨exec_of_fault hg rfl (elemSectorData_of_bad hc hr hl .mfm), exec_of_fault hg rfl (elemSectorData_of_bad hc hr hl .fm)⟩⟩
  case outside =>
    have hbyte := fun enc field => elemSectorByte_of_none hc enc field s.sdl
    have hdata := fun enc => elemSectorData_of_none hc enc s.sdl
    rcases hi with rfl | rfl | rfl | rfl | rfl | rfl
    · exact exec_of_fault hg rfl (hbyte .mfm SectorDesc.sector)
    · exact exec_of_fault hg rfl (hbyte .fm SectorDesc.sector)
    · exact exec_of_fault hg rfl (hbyte .mfm SectorDesc.size)
    · exact exec_of_fault hg rfl (hbyte .fm SectorDesc.size)
    · exact exec_of_fault hg rfl (hdata .mfm)
    · exact exec_of_fault hg rfl (hdata .fm)

/-! ### CRC regions (R143 to R145) -/

theorem Interp.region_setRegion_self (g : Interp) {id : Nat} (h : id ≤ 15) (r : CrcRegion) :
    (g.setRegion id r).region id = some r := by
  simp [Interp.region, Interp.setRegion, show id < 16 by omega]

theorem Interp.region_setRegion_ne (g : Interp) {id q : Nat} (h : q ≠ id) (r : CrcRegion) :
    (g.setRegion id r).region q = g.region q := by
  simp [Interp.region, Interp.setRegion, h.symm]

/-- The interpreter after an element has set the record `id`. -/
def Interp.recorded (g : Interp) (id : Nat) (r : CrcRegion) : Interp := { g.setRegion id r with dpc := g.dpc + 1 }

theorem elemCrcStart_of_legal {id : Nat} (h : id ≤ 15) (enc : Encoding) (g : Interp) :
    elemCrcStart enc id g = .run (g.recorded id { kind := enc, start := g.cl.length, stop := none }) :=
  if_neg (by omega)

theorem elemCrcStart_of_illegal {id : Nat} (h : 15 < id) (enc : Encoding) (g : Interp) :
    elemCrcStart enc id g = .fault .desc := if_pos h

theorem elemCrcEnd_of_some {id : Nat} {r : CrcRegion} (h : id ≤ 15) (hr : g.region id = some r) :
    elemCrcEnd id g = .run (g.recorded id { kind := r.kind, start := r.start, stop := some g.cl.length }) := by
  rw [elemCrcEnd, if_neg (by omega), hr]
  rfl

theorem elemCrcEnd_of_none {id : Nat} (h : 15 < id ∨ g.region id = none) : elemCrcEnd id g = .fault .desc := by
  by_cases hid : 15 < id
  · exact if_pos hid
  · rw [elemCrcEnd, if_neg hid, h.resolve_left hid]

theorem elemCrc_of_none {id : Nat} (h : 15 < id ∨ g.region id = none) : elemCrc id g = .fault .desc := by
  by_cases hid : 15 < id
  · exact if_pos hid
  · rw [elemCrc, if_neg hid, h.resolve_left hid]

theorem elemCrc_of_open {id : Nat} {r : CrcRegion} (h : id ≤ 15) (hr : g.region id = some r) (hs : r.stop = none) :
    elemCrc id g = .fault .desc := by
  rw [elemCrc, if_neg (by omega), hr]
  dsimp only
  rw [hs]

theorem elemCrc_of_error {id stop : Nat} {r : CrcRegion} {code : FaultCode} (h : id ≤ 15) (hr : g.region id = some r)
    (hs : r.stop = some stop) (he : crcOfCells g.cl r.start stop = .error code) : elemCrc id g = .fault code := by
  rw [elemCrc, if_neg (by omega), hr]
  simp only [hs, he]

theorem elemCrc_of_ok {id stop : Nat} {r : CrcRegion} {v : BitVec 16} (h : id ≤ 15) (hr : g.region id = some r)
    (hs : r.stop = some stop) (hv : crcOfCells g.cl r.start stop = .ok v) :
    elemCrc id g
      = .run (g.appended (encCells r.kind g.cellSize (prevBit g.cl) ((List.range 16).map (fun j => v.getMsbD j)))) := by
  rw [elemCrc, if_neg (by omega), hr]
  simp only [hs, hv]
  rw [writeEnc_eq, writtenBits_16, g.wrote_append]

/-- An element that sets a record: what it leaves, and that the other records stay. -/
theorem exec_of_recorded (hg : s.gen = some g) {i : Instr} (hc : i.isCommand = false) {id : Nat} (hid : id ≤ 15) {r : CrcRegion}
    (h : element i s.sdl g = .run (g.recorded id r)) :
    ∃ g' : Interp, exec i s = .next { s with gen := some g' } ∧ g' = { g with regions := g'.regions, dpc := g.dpc + 1 }
      ∧ g'.region id = some r ∧ ∀ q : Nat, q ≠ id → g'.region q = g.region q :=
  ⟨_, exec_of_run hg hc h, rfl, g.region_setRegion_self hid r, fun _ hq => g.region_setRegion_ne hq r⟩

/-- Settles O47: the branches of the four elements, by the region's number and record. -/
theorem crcElements : Obligations.CrcElements := by
  refine fun s g id hg => ⟨fun hid i enc hi => ?start, fun r hid hr => ⟨?stop, fun hs => ?notEnded, fun stop v hs hv => ?crc⟩,
    fun r stop code hid hr hs he => ?crcFault, fun h => ⟨?_, ?_⟩, fun h => ⟨?_, ?_⟩⟩
  case start =>
    rcases hi with ⟨rfl, rfl⟩ | ⟨rfl, rfl⟩
    · exact exec_of_recorded hg rfl hid (elemCrcStart_of_legal hid .mfm g)
    · exact exec_of_recorded hg rfl hid (elemCrcStart_of_legal hid .fm g)
  case stop => exact exec_of_recorded hg rfl hid (elemCrcEnd_of_some hid hr)
  case notEnded => exact exec_of_fault hg rfl (elemCrc_of_open hid hr hs)
  case crc =>
    refine (exec_of_run hg (i := .crc id) rfl (elemCrc_of_ok hid hr hs hv)).trans ?_
    obtain ⟨kind, start, stop'⟩ := r
    cases kind <;> rfl
  case crcFault => exact exec_of_fault hg rfl (elemCrc_of_error hid hr hs he)
  · exact exec_of_fault hg rfl (elemCrcEnd_of_none h)
  · exact exec_of_fault hg rfl (elemCrc_of_none h)
  · exact exec_of_fault hg rfl (elemCrcStart_of_illegal h .mfm g)
  · exact exec_of_fault hg rfl (elemCrcStart_of_illegal h .fm g)

/-! ### `GEN_FROM_CELLS(c, h, σ)` on an allocated track (R153) -/

/-- The state that `GEN_FROM_CELLS(c, h, σ)` leaves of the cells `cl`, where they give the list `L` and the splice: `CL`, the one track,
the flags, the cache and `ST` are written. -/
def State.generated (s : State) (c h : Nat) (cl L : List Word32) (splice : Nat) : State :=
  { s with
    cl := cl, trk := (s.writeTrack c h L splice).trk, dirtyLoad := true, dirtyRestore := true, imgChanged := true
    cache := { s.cache with valid := false }, st := 0x00 }

/-- The state is as it was but for the named fields; the track is the new one, and no other track changes. -/
theorem State.generated_spec (hm : Memory.wf s = true) {c h : Nat} (hh : h < s.allocSides.toNat) (cl L : List Word32) (splice : Nat) :
    s.generated c h cl L splice = { s with
        cl := cl, trk := (s.generated c h cl L splice).trk, dirtyLoad := true, dirtyRestore := true, imgChanged := true
        cache := { s.cache with valid := false }, st := 0x00 }
      ∧ (s.generated c h cl L splice).trackAt c h
          = { events := L, splice := BitVec.ofNat 32 splice, hasDamaged := hasTag .damaged L }
      ∧ ∀ c' h' : Nat, h' < 2 ^ 32 → (c' ≠ c ∨ h' ≠ h) → (s.generated c h cl L splice).trackAt c' h' = s.trackAt c' h' :=
  ⟨rfl, State.trackAt_writeTrack_self hm c h L splice,
    fun _ _ hh' hne => State.trackAt_writeTrack_ne s L splice (hh.trans s.allocSides.isLt) hh' hne⟩

theorem genFromCells_of_ok {c h sigma splice : Nat} {cl L : List Word32} (hc : c < s.allocTracks.toNat) (hh : h < s.allocSides.toNat)
    (hL : cellsToTrack cl sigma = .ok (L, splice)) :
    genFromCells c h sigma cl s = .next (s.generated c h cl L splice) := by
  rw [genFromCells, (s.inStore_iff c h).mpr ⟨hc, hh⟩, hL]
  simp [complete, State.withStatus, State.dropCache, State.markDirty, State.writeTrack, State.setTrack, statusCode, State.generated]

theorem genFromCells_of_error {c h sigma : Nat} {cl : List Word32} {code : FaultCode} (hc : c < s.allocTracks.toNat)
    (hh : h < s.allocSides.toNat) (hL : cellsToTrack cl sigma = .error code) :
    genFromCells c h sigma cl s = .next (s.faulted code 0) := by
  rw [genFromCells, (s.inStore_iff c h).mpr ⟨hc, hh⟩, hL]
  rfl

/-! ### The end of the program (R137, R139) -/

theorem finishTrack_of_wrong_size (h : g.cl.length ≠ g.trackSize) (hl : g.cl.length < 2 ^ 64) (s : State) :
    finishTrack g s = .next (s.faulted .trackSize (BitVec.ofNat 64 g.cl.length)) := by
  rw [finishTrack, if_pos h, u64Of_of_fits .faultInfo (by omega) (by omega), BitVec.ofInt_natCast]
  rfl

theorem finishTrack_of_size (h : g.cl.length = g.trackSize) (hd : s.diskPresent = true) :
    finishTrack g s = genFromCells g.c g.h 0 g.cl s := by
  rw [finishTrack, if_neg (by simpa using h), of_diskCheck hd]

/-! ### Loops and `END` (R139, R146, R148) -/

theorem elemLoopStart_of_desc {first last : Nat} (h : g.loop ≠ none ∨ last < first) (sdl : List SectorDesc) :
    elemLoopStart first last sdl g = .fault .desc :=
  if_pos (by rwa [Option.isSome_iff_ne_none])

theorem elemLoopStart_of_bounds {first last : Nat} {sdl : List SectorDesc} (hl : g.loop = none) (h : first ≤ last)
    (hb : sdl.length ≤ last) : elemLoopStart first last sdl g = .fault .bounds := by
  rw [elemLoopStart, if_neg (by simp [hl, h]), if_pos hb]

theorem elemLoopStart_of_legal {first last : Nat} {sdl : List SectorDesc} (hl : g.loop = none) (h : first ≤ last)
    (hb : last < sdl.length) :
    elemLoopStart first last sdl g = .run { g with
      loop := some { start := g.dpc, first := first, last := last, order := sectorOrder (last - first + 1) g.il g.sk g.c, k := 0 }
      cur := some (first + (sectorOrder (last - first + 1) g.il g.sk g.c).getD 0 0)
      dpc := g.dpc + 1 } := by
  rw [elemLoopStart, if_neg (by simp [hl, h]), if_neg (by omega)]

theorem elemLoopEnd_of_none (hl : g.loop = none) : elemLoopEnd g = .fault .desc := by
  rw [elemLoopEnd, hl]

theorem elemLoopEnd_of_more {l : SectorLoop} (hl : g.loop = some l) (h : l.k + 1 < l.last - l.first + 1) :
    elemLoopEnd g = .run { g with
      loop := some { l with k := l.k + 1 }, cur := some (l.first + l.order.getD (l.k + 1) 0), dpc := l.start + 1 } := by
  rw [elemLoopEnd, hl]
  exact if_pos h

theorem elemLoopEnd_of_last {l : SectorLoop} (hl : g.loop = some l) (h : l.last - l.first + 1 ≤ l.k + 1) :
    elemLoopEnd g = .run { g with loop := none, cur := none, dpc := g.dpc + 1 } := by
  rw [elemLoopEnd, hl]
  exact if_neg (by omega)

theorem elemEnd_of_none (hl : g.loop = none) : elemEnd g = .done g := if_neg (by simp [hl])

theorem elemEnd_of_some {l : SectorLoop} (hl : g.loop = some l) : elemEnd g = .fault .desc := if_pos (by simp [hl])

/-- Settles O48: the branches of the loop elements, and of `END` the size check and `GEN_FROM_CELLS` on the cells. -/
theorem loopElements : Obligations.LoopElements := by
  refine fun s g hg => ⟨fun il sk => exec_of_run hg rfl rfl, fun first last => ?loopStart, fun hl => ⟨?noLoop, ?wrongSize, ?track⟩,
    fun l hl => ⟨?endInside, fun h => ?next, fun h => ?last⟩⟩
  case loopStart =>
    refine ⟨fun h => exec_of_fault hg rfl (elemLoopStart_of_desc h s.sdl),
      fun hl h hb => exec_of_fault hg rfl (elemLoopStart_of_bounds hl h hb), fun hl h hb => ?_⟩
    rintro _ rfl
    exact exec_of_run hg rfl (elemLoopStart_of_legal hl h hb)
  case noLoop => exact exec_of_fault hg rfl (elemLoopEnd_of_none hl)
  case wrongSize =>
    exact fun hs hlt => (exec_of_done hg (i := .endDesc) rfl (elemEnd_of_none hl)).trans (finishTrack_of_wrong_size hs hlt _)
  case track =>
    intro hs hd hc hh
    have hend : exec .endDesc s = genFromCells g.c g.h 0 g.cl { s with gen := none } :=
      (exec_of_done hg (i := .endDesc) rfl (elemEnd_of_none hl)).trans (finishTrack_of_size hs hd)
    refine ⟨fun code he => hend.trans (genFromCells_of_error hc hh he), fun L splice hL hm => ?_⟩
    obtain ⟨hframe, hself, hother⟩ := State.generated_spec (s := { s with gen := none }) hm (c := g.c) hh g.cl L splice
    exact ⟨_, hend.trans (genFromCells_of_ok hc hh hL), hframe, congrArg Track.events hself, congrArg Track.splice hself,
      congrArg Track.hasDamaged hself, hother⟩
  case endInside => exact exec_of_fault hg rfl (elemEnd_of_some hl)
  case next => exact exec_of_run hg rfl (elemLoopEnd_of_more hl h)
  case last => exact exec_of_run hg rfl (elemLoopEnd_of_last hl h)

end Sys2Proof.Machine
end

section
/-!
PROOFS. 42_codec.md R130 to R136: the bit writers as commands.
-/

namespace Sys2Proof.Machine

variable {s : State} {readable : Bool} {write : Nat → Nat → Nat → List Word32 → List Word32}

/-- The size that a legal size operand selects (R130). -/
def State.cellSize (s : State) : Nat := if s.x.x2.toNat = 0 then 1000 else s.x.x2.toNat

theorem bitWriter_of_legal (hn : s.x.x0.toNat ≤ 32) (hd : s.x.x2.toNat < 2 ^ 28) :
    bitWriter readable write s
      = if readable then .next { s with cl := write s.x.x0.toNat s.x.x1.toNat s.cellSize s.cl, st := 0x00 }
        else .next (s.faulted .cells 0) := by
  rw [bitWriter, bitCountOperand, if_pos hn, sizeOperand_of_lt hd]
  rfl

theorem bitWriter_of_illegal (h : 32 < s.x.x0.toNat ∨ 2 ^ 28 ≤ s.x.x2.toNat) :
    bitWriter readable write s = .next (s.faulted .operand 0) := by
  rw [bitWriter, bitCountOperand]
  rcases h with hn | hd
  · rw [if_neg (by omega)]
    rfl
  · rw [sizeOperand_of_ge hd]
    cases (if s.x.x0.toNat ≤ 32 then some s.x.x0.toNat else none) <;> rfl

theorem getElem?_rawCells (d : Nat) (l : List Bool) (j : Nat) : (rawCells d l)[j]? = l[j]?.map (fun b => bitCell b d) := by
  simp [rawCells]

/-- The bits of X1 that are written, the first one being bit `n - 1` (R131). -/
theorem getElem?_writtenBits_word (v : Word64) {n j : Nat} (h : j < n) :
    (writtenBits n v.toNat)[j]? = some (v.getLsbD (n - 1 - j)) := by
  rw [getElem?_writtenBits n v.toNat j h, BitVec.testBit_toNat]

/-- Settles O41: with legal operands each writer appends the cells of the written bits, which are known one by one. -/
theorem bitWriterCells : Obligations.BitWriterCells := by
  refine ⟨fun s => rfl, ?_⟩
  rintro s _ _ rfl rfl
  refine ⟨fun hn hd => ⟨?raw, ?fm, fun hr => ?mfm, fun hr => ?unreadable⟩, fun h => ?illegal⟩
  case raw =>
    refine ⟨_, bitWriter_of_legal hn hd, rfl, ?_, List.take_left, fun j hj => ?_⟩
    · rw [writeRaw, List.length_append, length_rawCells, length_writtenBits]
    · rw [writeRaw, List.getElem?_append_right (by omega), Nat.add_sub_cancel_left, getElem?_rawCells, getElem?_writtenBits_word _ hj]
      rfl
  case fm =>
    refine ⟨_, bitWriter_of_legal hn hd, rfl, ?_, List.take_left, fun j hj => ?_⟩
    · rw [writeFm, List.length_append, length_fmCells, length_writtenBits]
    · rw [writeFm, add_assoc, List.getElem?_append_right (by omega), List.getElem?_append_right (by omega), Nat.add_sub_cancel_left,
        Nat.add_sub_cancel_left]
      exact getElem?_fmCells _ _ j _ (getElem?_writtenBits_word _ hj)
  case mfm =>
    refine ⟨_, (bitWriter_of_legal hn hd).trans (if_pos ((prevReadable_iff _).mpr hr)), rfl, ?_, List.take_left, ?_⟩
    · rw [writeMfm, List.length_append, length_mfmCells, length_writtenBits]
    · rintro j _ hj rfl
      have hprev : (if j = 0 then prevBit s.cl else (writtenBits s.x.x0.toNat s.x.x1.toNat).getD (j - 1) false)
          = (if j = 0 then prevBit s.cl else s.x.x1.getLsbD (s.x.x0.toNat - j)) := by
        split
        · rfl
        · rw [List.getD_eq_getElem?_getD, getElem?_writtenBits_word _ (by omega), Option.getD_some]
          congr 1
          omega
      rw [writeMfm, add_assoc, List.getElem?_append_right (by omega), List.getElem?_append_right (by omega), Nat.add_sub_cancel_left,
        Nat.add_sub_cancel_left, ← hprev]
      exact getElem?_mfmCells _ _ _ j _ (getElem?_writtenBits_word _ hj)
  case unreadable =>
    refine ⟨0, (bitWriter_of_legal hn hd).trans (if_neg fun hp => ?_)⟩
    obtain ⟨w, hw, hbad⟩ := hr
    obtain ⟨hk, hp⟩ := (prevReadable_iff _).mp hp w hw
    exact hbad.elim hk hp
  case illegal => exact ⟨⟨0, bitWriter_of_illegal h⟩, ⟨0, bitWriter_of_illegal h⟩, ⟨0, bitWriter_of_illegal h⟩⟩

end Sys2Proof.Machine
end

section
/-!
PROOFS. 42_codec.md R146 and R148: the physical order of the sectors of a track.
-/

namespace Sys2Proof.Machine

/-- The cyclic walk over `n` places from any place meets each of them. -/
theorem exists_cyclic {n j : Nat} (hj : j < n) (q : Nat) : ∃ t : Nat, t < n ∧ (q + t) % n = j := by
  have hq : q % n < n := Nat.mod_lt _ (by omega)
  refine ⟨(j + n - q % n) % n, Nat.mod_lt _ (by omega), ?_⟩
  calc (q + (j + n - q % n) % n) % n = (q % n + (j + n - q % n)) % n := by rw [Nat.add_mod_mod, ← Nat.mod_add_mod]
    _ = (j + n) % n := by rw [show q % n + (j + n - q % n) = j + n by omega]
    _ = j := by rw [Nat.add_mod_right, Nat.mod_eq_of_lt hj]

/-- R148's search ends at an empty slot, where there is one. -/
theorem emptySlot_spec {slot : List (Option Nat)} (h : none ∈ slot) (q : Nat) : slot[emptySlot slot q]? = some none := by
  obtain ⟨j, hj, hnone⟩ := List.getElem_of_mem h
  obtain ⟨t, ht, hjt⟩ := exists_cyclic hj q
  unfold emptySlot
  cases hf : ((List.range slot.length).map (fun t => (q + t) % slot.length)).find? (fun j => slot.getD j none == none) with
  | none =>
    have := List.find?_eq_none.mp hf j (List.mem_map.mpr ⟨t, List.mem_range.mpr ht, hjt⟩)
    simp [hj, hnone] at this
  | some i =>
    have hempty := List.find?_some hf
    obtain ⟨t', ht', rfl⟩ := List.mem_map.mp (List.mem_of_find?_eq_some hf)
    have hlt : (q + t') % slot.length < slot.length := Nat.mod_lt _ (by omega)
    simpa [hlt] using hempty

/-- The sectors that the slots hold, in slot order. -/
def placed (slot : List (Option Nat)) : List Nat := slot.filterMap id

/-- Filling an empty slot adds its sector and leaves one empty slot less. -/
theorem placed_set {slot : List (Option Nat)} {j : Nat} (h : slot[j]? = some none) (i : Nat) :
    (placed (slot.set j (some i))).Perm (i :: placed slot) ∧ (slot.set j (some i)).count none + 1 = slot.count none := by
  induction slot generalizing j with
  | nil => simp at h
  | cons o slot ih =>
    cases j with
    | zero =>
      obtain rfl : o = none := by simpa using h
      simp [placed]
    | succ j =>
      obtain ⟨hperm, hcount⟩ := ih (j := j) (by simpa using h)
      cases o with
      | none => exact ⟨by simpa [placed] using hperm, by simpa using hcount⟩
      | some k =>
        refine ⟨?_, by simpa using hcount⟩
        simpa [placed] using (hperm.cons k).trans (List.Perm.swap i k (placed slot))

/-- R148's placing: with as many empty slots as sectors it fills every slot, and each sector is placed once. -/
theorem placeSectors_spec (n step count i q : Nat) (slot : List (Option Nat)) (h : slot.count none = count) :
    (placed (placeSectors n step count i q slot)).Perm (List.range' i count ++ placed slot)
      ∧ none ∉ placeSectors n step count i q slot := by
  induction count generalizing i q slot with
  | zero => exact ⟨.refl _, List.count_eq_zero.mp h⟩
  | succ count ih =>
    have hslot := emptySlot_spec (List.count_pos_iff.mp (show 0 < slot.count none by omega)) q
    obtain ⟨hset, hcount⟩ := placed_set hslot i
    obtain ⟨hperm, hfull⟩ := ih (i + 1) ((emptySlot slot q + step) % n) (slot.set (emptySlot slot q) (some i)) (by omega)
    exact ⟨hperm.trans ((hset.append_left _).trans List.perm_middle), hfull⟩

theorem map_getD_of_full {slot : List (Option Nat)} (h : none ∉ slot) (d : Nat) : slot.map (fun o => o.getD d) = placed slot := by
  induction slot with
  | nil => rfl
  | cons o slot ih =>
    cases o with
    | none => exact absurd List.mem_cons_self h
    | some k => simpa [placed] using ih (fun hn => h (List.mem_cons_of_mem _ hn))

/-- Settles O49: the placing starts with `n` empty slots, and the examples are evaluated. -/
theorem sectorOrderIsPermutation : Obligations.SectorOrderIsPermutation := by
  refine ⟨fun n il sk c => ?_, fun c => ?_, by decide⟩
  · obtain ⟨hperm, hfull⟩ := placeSectors_spec n (max il 1) n 0 ((sk * c) % n) (List.replicate n none) (by simp)
    rw [sectorOrder, map_getD_of_full hfull, List.range_eq_range']
    simpa [placed] using hperm
  · rw [sectorOrder, Nat.zero_mul]
    decide

end Sys2Proof.Machine
end

section
/-!
PROOFS. 42_codec.md R137: `GEN_TRACK` and the single steps of its descriptor program.
-/

namespace Sys2Proof.Machine

variable {s : State} {g g' : Interp}

/-! ### The operands of the command (R137) -/

/-- The operands that the interpreter was started with and that the end of the program reads. -/
def Interp.operands (g : Interp) : Nat × Nat × Nat := (g.c, g.h, g.trackSize)

/-- The element leaves the operands of `g` as they are, if it goes on or ends the program. -/
def ElemResult.KeepsOperands (g : Interp) : ElemResult → Prop
  | .run g' => g'.operands = g.operands
  | .done g' => g'.operands = g.operands
  | .fault _ => True

theorem elemSectorByte_keepsOperands (enc : Encoding) (field : SectorDesc → Nat) (sdl : List SectorDesc) (g : Interp) :
    (elemSectorByte enc field sdl g).KeepsOperands g := by
  unfold elemSectorByte
  split
  · trivial
  · exact rfl

theorem elemSectorData_keepsOperands (enc : Encoding) (sdl : List SectorDesc) (g : Interp) :
    (elemSectorData enc sdl g).KeepsOperands g := by
  unfold elemSectorData
  split
  · trivial
  · split
    · exact rfl
    · trivial

theorem elemCrcStart_keepsOperands (enc : Encoding) (id : Nat) (g : Interp) : (elemCrcStart enc id g).KeepsOperands g := by
  unfold elemCrcStart
  split
  · trivial
  · exact rfl

theorem elemCrcEnd_keepsOperands (id : Nat) (g : Interp) : (elemCrcEnd id g).KeepsOperands g := by
  unfold elemCrcEnd
  split
  · trivial
  · split
    · trivial
    · exact rfl

theorem elemCrc_keepsOperands (id : Nat) (g : Interp) : (elemCrc id g).KeepsOperands g := by
  unfold elemCrc
  split
  · trivial
  · split
    · trivial
    · split
      · trivial
      · split
        · trivial
        · exact rfl

theorem elemLoopStart_keepsOperands (first last : Nat) (sdl : List SectorDesc) (g : Interp) :
    (elemLoopStart first last sdl g).KeepsOperands g := by
  unfold elemLoopStart
  split
  · trivial
  · split
    · trivial
    · exact rfl

theorem elemLoopEnd_keepsOperands (g : Interp) : (elemLoopEnd g).KeepsOperands g := by
  unfold elemLoopEnd
  split
  · trivial
  · split
    · exact rfl
    · exact rfl

theorem elemEnd_keepsOperands (g : Interp) : (elemEnd g).KeepsOperands g := by
  unfold elemEnd
  split
  · trivial
  · exact rfl

theorem element_keepsOperands (i : Instr) (sdl : List SectorDesc) (g : Interp) : (element i sdl g).KeepsOperands g := by
  cases i with
  | endDesc => exact elemEnd_keepsOperands g
  | fm | mfm | raw | trackId | trackIdFm | headId | headIdFm | sectorInterleaveSkip => exact rfl
  | sectorId | sectorIdFm | sizeId | sizeIdFm => exact elemSectorByte_keepsOperands _ _ sdl g
  | crcCcittStart | crcCcittFmStart => exact elemCrcStart_keepsOperands _ _ g
  | crcEnd => exact elemCrcEnd_keepsOperands _ g
  | crc => exact elemCrc_keepsOperands _ g
  | sectorLoopStart => exact elemLoopStart_keepsOperands _ _ sdl g
  | sectorLoopEnd => exact elemLoopEnd_keepsOperands g
  | sectorData | sectorDataFm => exact elemSectorData_keepsOperands _ sdl g
  | _ => trivial

theorem fetchElement_keepsOperands (desc : List DescElem) (sdl : List SectorDesc) (g : Interp) :
    (fetchElement desc sdl g).KeepsOperands g := by
  unfold fetchElement
  split
  · trivial
  · split
    · trivial
    · exact element_keepsOperands _ sdl g

theorem ProgramRuns.operands_eq {desc : List DescElem} {sdl : List SectorDesc} (h : ProgramRuns desc sdl g g') :
    g'.operands = g.operands := by
  induction h with
  | last g g' hf =>
    have := fetchElement_keepsOperands desc sdl g
    rwa [hf] at this
  | more g g₁ g' hf _ ih =>
    have := fetchElement_keepsOperands desc sdl g
    rw [hf] at this
    exact ih.trans this

/-! ### The interpreter's loop and the run of the program -/

theorem startInterp_loopOk (c h n d : Nat) (sdl : List SectorDesc) : (startInterp c h n d).LoopOk sdl := fun _ hl => nomatch hl

theorem remaining_startInterp (s : State) (c h n d : Nat) :
    remaining s.desc.length s.sdl.length (startInterp c h n d) < interpBound s := by
  simp [remaining, startInterp, interpBound]

/-- A program that runs to its `END` ends the loop there, under any bound above the elements that are still to come. -/
theorem interpret_of_programRuns (h : ProgramRuns s.desc s.sdl g g') (hok : g.LoopOk s.sdl) {n : Nat}
    (hn : remaining s.desc.length s.sdl.length g < n) : interpret s n g = finishTrack g' s := by
  induction h generalizing n with
  | last g g' hf =>
    obtain ⟨n, rfl⟩ := Nat.exists_eq_add_one_of_ne_zero (show n ≠ 0 by omega)
    rw [interpret, hf]
  | more g g₁ g' hf _ ih =>
    obtain ⟨n, rfl⟩ := Nat.exists_eq_add_one_of_ne_zero (show n ≠ 0 by omega)
    obtain ⟨hd, ha⟩ := fetchElement_run hf
    have := remaining_lt hok hd ha
    rw [interpret, hf]
    exact ih (LoopOk.advance hok ha) (by omega)

/-! ### The command -/

theorem execGenTrack_of_legal (hd : s.diskPresent = true) (hc : s.x.x0.toNat < s.allocTracks.toNat)
    (hh : s.x.x1.toNat < s.allocSides.toNat) (hz : s.x.x3.toNat < 2 ^ 28) :
    execGenTrack s = interpret s (interpBound s) (startInterp s.x.x0.toNat s.x.x1.toNat s.x.x2.toNat
      (if s.x.x3.toNat = 0 then 1000 else s.x.x3.toNat)) := by
  rw [execGenTrack, of_diskCheck hd, unsignedOperand, unsignedOperand, (s.inStore_iff _ _).mpr ⟨hc, hh⟩, sizeOperand_of_lt hz]
  rfl

theorem execGenTrack_of_large (hd : s.diskPresent = true) (hc : s.x.x0.toNat < s.allocTracks.toNat)
    (hh : s.x.x1.toNat < s.allocSides.toNat) (hz : 2 ^ 28 ≤ s.x.x3.toNat) : execGenTrack s = .next (s.faulted .operand 0) := by
  rw [execGenTrack, of_diskCheck hd, unsignedOperand, unsignedOperand, (s.inStore_iff _ _).mpr ⟨hc, hh⟩, sizeOperand_of_ge hz]
  rfl

/-- Settles O43: the loop comes to the program's `END` with the operands it began with, and the track is finished there. -/
theorem genTrackRunsProgram : Obligations.GenTrackRunsProgram := by
  refine fun s d g hd hc hh => ⟨fun hz => ⟨0, execGenTrack_of_large hd hc hh hz⟩, ?_⟩
  rintro hz rfl hrun
  have hexec : exec .genTrack s = finishTrack g s := (execGenTrack_of_legal hd hc hh hz).trans
    (interpret_of_programRuns hrun (startInterp_loopOk _ _ _ _ _) (remaining_startInterp s _ _ _ _))
  obtain ⟨hgc, hgh, hgn⟩ : g.c = s.x.x0.toNat ∧ g.h = s.x.x1.toNat ∧ g.trackSize = s.x.x2.toNat := by
    simpa [Interp.operands, startInterp] using hrun.operands_eq
  refine ⟨fun hs hlt => hexec.trans (finishTrack_of_wrong_size (by rwa [hgn]) hlt s), fun hs => ?_⟩
  have hgen := hexec.trans (finishTrack_of_size (hs.trans hgn.symm) hd)
  rw [hgc, hgh] at hgen
  refine ⟨fun code he => hgen.trans (genFromCells_of_error hc hh he), fun L splice hL hm => ?_⟩
  obtain ⟨hframe, hself, hother⟩ := State.generated_spec hm (c := s.x.x0.toNat) hh g.cl L splice
  exact ⟨_, hgen.trans (genFromCells_of_ok hc hh hL), hframe, congrArg Track.events hself, congrArg Track.splice hself,
    congrArg Track.hasDamaged hself, hother⟩

/-! ### The command as single steps (log entry 5) -/

/-- What a step with an interpreter ends in, `s` being the state without it. -/
def afterElement (s : State) : ElemResult → Outcome
  | .run g => .next { s with gen := some g }
  | .done g => finishTrack g s
  | .fault code => raiseFault code 0 s

theorem step_eq_afterElement (hg : s.gen = some g) : step s = afterElement { s with gen := none } (fetchElement s.desc s.sdl g) := by
  rw [step_of_gen hg, fetchElement]
  cases he : s.desc[g.dpc]? with
  | none => exact elementStep_of_end he
  | some e =>
    dsimp only
    cases hd : decodeElem e with
    | error r => exact elementStep_of_illegal he hd
    | ok i =>
      rw [elementStep_of_element he hd, exec_element (decodeElem_not_command hd), runElement_of_gen hg]
      dsimp only
      cases element i s.sdl g <;> rfl

theorem step_withGen (hs : s.gen = none) (g : Interp) :
    step { s with gen := some g } = afterElement s (fetchElement s.desc s.sdl g) := by
  have hdrop : { s with gen := none } = s := by rw [← hs]
  exact (step_eq_afterElement rfl).trans (congrArg (fun u => afterElement u (fetchElement s.desc s.sdl g)) hdrop)

theorem run_succ_of_next {t u : State} (h : step t = .next u) (k : Nat) : core.run (k + 1) t = core.run k u := by
  simp only [Host.Core.run, show core.step t = .next u from h]

theorem run_one_of_goes {t : State} (h : Goes (step t)) : core.run 1 t = step t := by
  obtain ⟨u, hu⟩ := h
  exact (run_succ_of_next hu 0).trans hu.symm

/-- Single steps of the machine do what the interpreter's loop does. -/
theorem run_core_eq_interpret (hs : s.gen = none) (n : Nat) (g : Interp) (hok : g.LoopOk s.sdl)
    (hn : remaining s.desc.length s.sdl.length g < n) : ∃ k : Nat, core.run k { s with gen := some g } = interpret s n g := by
  induction n generalizing g with
  | zero => omega
  | succ n ih =>
    have hstep := step_withGen hs g
    rw [interpret]
    cases hf : fetchElement s.desc s.sdl g with
    | run g' =>
      obtain ⟨hd, ha⟩ := fetchElement_run hf
      have := remaining_lt hok hd ha
      obtain ⟨k, hk⟩ := ih g' (LoopOk.advance hok ha) (by omega)
      rw [hf] at hstep
      exact ⟨k + 1, (run_succ_of_next hstep k).trans hk⟩
    | done g' =>
      rw [hf] at hstep
      exact ⟨1, (run_one_of_goes (hstep ▸ goes_finishTrack g' s)).trans hstep⟩
    | fault code =>
      rw [hf] at hstep
      exact ⟨1, (run_one_of_goes (hstep ▸ goes_raiseFault code 0 s)).trans hstep⟩

/-- Settles O44: the steps from the start of `DESC` are the loop of the command. -/
theorem genTrackIsItsElements : Obligations.GenTrackIsItsElements := by
  rintro s _ hs hd hc hh hz rfl
  obtain ⟨k, hk⟩ := run_core_eq_interpret hs (interpBound s) _ (startInterp_loopOk _ _ _ _ _) (remaining_startInterp s _ _ _ _)
  exact ⟨k, hk.trans (execGenTrack_of_legal hd hc hh hz).symm⟩

end Sys2Proof.Machine
end

section
/-!
PROOFS. 42_codec.md R153 to R156: the track that `GEN_FROM_CELLS` makes of a cell list.
-/

namespace Sys2Proof.Machine

variable {s : State} {W cl : List Word32}

/-! ### The track of a parity-fixed list (R153, R155) -/

/-- The events of the words `W`, scaled to one revolution. -/
def cellTrack (W : List Word32) : List Word32 := normalize (rawEvents 0 W) (durations W)

theorem cellsToTrack_of_bad {w : Word32} (hw : w ∈ cl) (h : kindOf w = none ∨ evPos w = 0) (sigma : Nat) :
    cellsToTrack cl sigma = .error .cells := by
  have hbad : goodCell w = false := by
    rw [← Bool.not_eq_true, goodCell_iff]
    tauto
  exact if_pos (List.any_eq_true.mpr ⟨w, hw, by rw [hbad]; rfl⟩)

/-- A list of good words gives its track and splice, where the track is WF. The formula also covers the empty list. -/
theorem cellsToTrack_of_good (h : ∀ w ∈ cl, kindOf w ≠ none ∧ evPos w ≠ 0) (sigma : Nat) :
    cellsToTrack cl sigma
      = if wfTrack (cellTrack (parityFix cl (sigma % cl.length))) then
          .ok (cellTrack (parityFix cl (sigma % cl.length)),
            revUnits * durations ((parityFix cl (sigma % cl.length)).take (sigma % cl.length))
              / durations (parityFix cl (sigma % cl.length)))
        else .error .cells := by
  have hgood : cl.any (fun w => !goodCell w) = false := by
    simpa [goodCell_iff] using h
  rw [cellsToTrack, if_neg (by simp [hgood])]
  split
  · subst cl
    rw [show parityFix [] (sigma % ([] : List Word32).length) = [] from if_pos rfl, List.take_nil]
    rfl
  · rfl

/-- `raw` of R153 word by word. -/
theorem rawEvents_eq_flatMap (S : Nat) (W : List Word32) :
    rawEvents S W = (List.range W.length).flatMap (fun i => rawEvent (S + durations (W.take i)) (W.getD i 0)) := by
  induction W generalizing S with
  | nil => rfl
  | cons w W ih =>
    rw [rawEvents, ih, List.length_cons, List.range_succ_eq_map, List.flatMap_cons, List.flatMap_map]
    simp [durations, add_assoc]

theorem cellTrack_eq_flatMap (W : List Word32) :
    cellTrack W = (List.range W.length).flatMap (fun i =>
      normalize (rawEvent (durations (W.take i)) (W.getD i 0)) (durations W)) := by
  rw [cellTrack, rawEvents_eq_flatMap, normalize, List.map_flatMap]
  simp [normalize]

/-! ### Parity (R154) -/

theorem isBit_eq_false_iff (w : Word32) : isBit w = false ↔ kindOf w ≠ some .bit0 ∧ kindOf w ≠ some .bit1 := by
  simp [isBit]

theorem isBit_iff (w : Word32) : isBit w = true ↔ kindOf w = some .bit0 ∨ kindOf w = some .bit1 := by
  simp [isBit]

theorem toggleBit_cases {w : Word32} (h : isBit w = true) :
    kindOf w = some .bit0 ∧ toggleBit w = mkCell .bit1 (evPos w) ∨ kindOf w = some .bit1 ∧ toggleBit w = mkCell .bit0 (evPos w) := by
  rcases (isBit_iff w).mp h with hw | hw
  · exact .inl ⟨hw, by simp [toggleBit, isBit1, hw]⟩
  · exact .inr ⟨hw, by simp [toggleBit, isBit1, hw]⟩

theorem isBit1_toggleBit {w : Word32} (h : isBit w = true) : isBit1 (toggleBit w) = !isBit1 w := by
  rcases toggleBit_cases h with ⟨hw, ht⟩ | ⟨hw, ht⟩ <;> simp [isBit1, ht, hw, kindOf_mkCell]

/-- Toggling one bit cell changes the parity of the `BIT1` words. -/
theorem countP_set_toggleBit {W : List Word32} {j : Nat} {w : Word32} (hj : W[j]? = some w) (hw : isBit w = true) :
    ((W.set j (toggleBit w)).countP isBit1) % 2 = (W.countP isBit1 + 1) % 2 := by
  induction W generalizing j with
  | nil => simp at hj
  | cons v W ih =>
    cases j with
    | zero =>
      obtain rfl : v = w := by simpa using hj
      rw [List.set_cons_zero, List.countP_cons, List.countP_cons, isBit1_toggleBit hw]
      cases isBit1 v with
      | false => simp
      | true => simp; omega
    | succ j =>
      have := ih (j := j) (by simpa using hj)
      rw [List.set_cons_succ, List.countP_cons, List.countP_cons]
      omega

theorem countP_parityFix (W : List Word32) (s : Nat) : (parityFix W s).countP isBit1 % 2 = 0 := by
  by_cases h : W.countP isBit1 % 2 = 0
  · rwa [parityFix, if_pos h]
  · have hodd : W.countP isBit1 % 2 = 1 := by omega
    obtain ⟨k, w, -, hw, hbit, -, hfix⟩ := parityFix_odd hodd s
    rw [hfix, countP_set_toggleBit hw hbit]
    omega

/-- Every transition of a track is a `BIT1` word. -/
theorem length_fluxPositions_normalize (S T : Nat) (W : List Word32) :
    (fluxPositions (normalize (rawEvents S W) T)).length = W.countP isBit1 := by
  induction W generalizing S with
  | nil => rfl
  | cons w W ih =>
    have hw : (fluxPositions (normalize (rawEvent S w) T)).length = if isBit1 w then 1 else 0 := by
      unfold rawEvent isBit1
      split <;> simp_all [normalize, fluxPositions, tagOf_mkEvent]
    rw [rawEvents, normalize, List.map_append, fluxPositions_append, List.length_append, ← normalize, ← normalize, hw, ih,
      List.countP_cons, add_comm]

theorem even_fluxPositions_cellTrack (cl : List Word32) (i : Nat) :
    (fluxPositions (cellTrack (parityFix cl i))).length % 2 = 0 := by
  rw [cellTrack, length_fluxPositions_normalize, countP_parityFix]

/-! ### Lists of bit cells (R156) -/

theorem isBitCell_toggleBit {w : Word32} (h : isBitCell w = true) : isBitCell (toggleBit w) = true := by
  obtain ⟨hk, hd⟩ := (isBitCell_iff w).mp h
  rw [isBitCell_iff, evPos_toggleBit]
  rcases toggleBit_cases ((isBit_iff w).mpr hk) with ⟨-, ht⟩ | ⟨-, ht⟩
  · exact ⟨.inr (by rw [ht, kindOf_mkCell]), hd⟩
  · exact ⟨.inl (by rw [ht, kindOf_mkCell]), hd⟩

theorem isBitCell_parityFix (h : ∀ w ∈ W, isBitCell w = true) (s : Nat) : ∀ w ∈ parityFix W s, isBitCell w = true := by
  intro w hw
  rcases parityFix_cases W s with ⟨-, hfix⟩ | ⟨-, -, hfix⟩ | ⟨-, j, -, hj, -, hfix⟩ <;> rw [hfix] at hw
  · exact h w hw
  · exact h w hw
  · rcases List.mem_or_eq_of_mem_set hw with hw | rfl
    · exact h w hw
    · apply isBitCell_toggleBit
      rw [List.getD_eq_getElem?_getD, List.getElem?_eq_getElem hj]
      exact h _ (List.getElem_mem hj)

theorem durations_parityFix (W : List Word32) (s : Nat) : durations (parityFix W s) = durations W := by
  rw [durations, map_evPos_parityFix, durations]

/-- The events of bit cells are transitions, one after another within the time that the cells take. -/
theorem rawEvents_of_bitCells (S : Nat) (h : ∀ w ∈ W, isBitCell w = true) :
    (∀ e ∈ rawEvents S W, e.1 = .flux ∧ S ≤ e.2 ∧ e.2 < S + durations W)
      ∧ (rawEvents S W).Pairwise (fun e e' => e.2 < e'.2) := by
  induction W generalizing S with
  | nil => simp [rawEvents]
  | cons w W ih =>
    obtain ⟨hkind, hdur⟩ := (isBitCell_iff w).mp (h w List.mem_cons_self)
    obtain ⟨heach, hrise⟩ := ih (S + evPos w) (fun v hv => h v (List.mem_cons_of_mem _ hv))
    have hsum : durations (w :: W) = evPos w + durations W := by simp [durations]
    rw [rawEvents, hsum]
    rcases hkind with hw | hw <;> simp only [rawEvent, hw, List.nil_append, List.cons_append, List.mem_cons, List.pairwise_cons]
    · exact ⟨fun e he => by obtain ⟨h1, h2, h3⟩ := heach e he; exact ⟨h1, by omega, by omega⟩, hrise⟩
    · refine ⟨?_, fun e he => ?_, hrise⟩
      · rintro e (rfl | he)
        · exact ⟨rfl, by simp only; omega, by simp only; omega⟩
        · obtain ⟨h1, h2, h3⟩ := heach e he
          exact ⟨h1, by omega, by omega⟩
      · obtain ⟨-, h2, -⟩ := heach e he
        omega

/-- Scaling to a revolution that is not shorter keeps places apart. -/
theorem scaled_lt {a b T : Nat} (hT : 0 < T) (hrev : T ≤ revUnits) (h : a < b) : revUnits * a / T < revUnits * b / T := by
  calc revUnits * a / T < revUnits * a / T + 1 := Nat.lt_succ_self _
    _ = (revUnits * a + T) / T := (Nat.add_div_right _ hT).symm
    _ ≤ revUnits * b / T := Nat.div_le_div_right (by
        calc revUnits * a + T ≤ revUnits * a + revUnits := by omega
          _ = revUnits * (a + 1) := by ring
          _ ≤ revUnits * b := Nat.mul_le_mul_left _ h)

/-- The track of bit cells holds transitions only. -/
theorem cellTrack_of_bitCells (h : ∀ w ∈ W, isBitCell w = true) :
    cellTrack W = ((rawEvents 0 W).map (fun e => revUnits * e.2 / durations W)).map (mkEvent .flux) := by
  rw [cellTrack, normalize, List.map_map]
  exact List.map_congr_left fun e he => by rw [((rawEvents_of_bitCells 0 h).1 e he).1]; rfl

theorem hasTag_damaged_of_bitCells (h : ∀ w ∈ W, isBitCell w = true) : hasTag .damaged (cellTrack W) = false := by
  rw [cellTrack_of_bitCells h]
  simp [hasTag, tagOf_mkEvent]

/-- R156: bit cells of at most one revolution are never rejected. -/
theorem wfTrack_of_bitCells (h : ∀ w ∈ W, isBitCell w = true) (hrev : durations W ≤ revUnits) : wfTrack (cellTrack W) = true := by
  obtain ⟨heach, hrise⟩ := rawEvents_of_bitCells 0 h
  rw [cellTrack_of_bitCells h]
  refine wfTrack_encodeTrack (Z := []) ⟨.nil, by simp, ?_, ?_, by simp⟩
  · rw [List.pairwise_map]
    refine hrise.imp_of_mem fun {e e'} he _ hlt => scaled_lt ?_ hrev hlt
    have := heach e he
    omega
  · intro f hf
    obtain ⟨e, he, rfl⟩ := List.mem_map.mp hf
    have hlt := (heach e he).2.2
    rw [Nat.zero_add] at hlt
    exact Nat.div_lt_of_lt_mul (by rw [Nat.mul_comm]; exact Nat.mul_lt_mul_of_pos_right hlt (by decide))

/-! ### The command -/

/-- A splice fits its register. -/
theorem toNat_ofNat_of_lt_revUnits {p : Nat} (hp : p < revUnits) : (BitVec.ofNat 32 p).toNat = p :=
  (BitVec.toNat_ofNat _ _).trans (Nat.mod_eq_of_lt (hp.trans (by decide)))

theorem execGenFromCells_of_disk (hd : s.diskPresent = true) :
    execGenFromCells s = genFromCells s.x.x0.toNat s.x.x1.toNat s.x.x2.toNat s.cl s := of_diskCheck hd

/-- Settles O42: the outcome by the two checks of the conversion, and the track from the parity-fixed words. -/
theorem genFromCellsResult : Obligations.GenFromCellsResult := by
  rintro s _ _ _ rfl rfl rfl hd hc hh
  refine ⟨fun ⟨w, hw, hbad⟩ => (execGenFromCells_of_disk hd).trans (genFromCells_of_error hc hh (cellsToTrack_of_bad hw hbad _)), ?_⟩
  rintro hgood _ S L rfl hS hL
  have hend : S s.cl.length = durations (parityFix s.cl (s.x.x2.toNat % s.cl.length)) := by
    rw [hS, List.take_of_length_le (length_parityFix _ _).le, durations]
  have htrack : L = cellTrack (parityFix s.cl (s.x.x2.toNat % s.cl.length)) := by
    rw [hL, cellTrack_eq_flatMap, length_parityFix, ← hend]
    congr 1
    funext i
    rw [durations, ← hS, rawEvent]
    cases kindOf ((parityFix s.cl (s.x.x2.toNat % s.cl.length)).getD i 0) with
    | none => rfl
    | some k => cases k <;> rfl
  have hcells := cellsToTrack_of_good hgood s.x.x2.toNat
  rw [← htrack] at hcells
  refine ⟨countP_parityFix _ _, fun h => if_pos h, fun hodd => ?toggled, htrack ▸ even_fluxPositions_cellTrack _ _, fun hwf => ?rejected,
    fun hbits hrev => ?bits, fun hwf hm => ?stored⟩
  case toggled =>
    obtain ⟨k, w, hk, hw, hbit, hfirst, hfix⟩ := parityFix_odd hodd (s.x.x2.toNat % s.cl.length)
    refine ⟨k, w, hk, hw, fun j hj => (isBit_eq_false_iff _).mp (hfirst j hj), ?_⟩
    rw [hfix]
    exact (toggleBit_cases hbit).imp (fun ⟨hkind, ht⟩ => ⟨hkind, by rw [ht]⟩) (fun ⟨hkind, ht⟩ => ⟨hkind, by rw [ht]⟩)
  case rejected =>
    exact (execGenFromCells_of_disk hd).trans (genFromCells_of_error hc hh (hcells.trans (if_neg (by simp [hwf]))))
  case bits =>
    rw [htrack]
    refine wfTrack_of_bitCells (isBitCell_parityFix (fun w hw => (isBitCell_iff w).mpr ⟨hbits w hw, (hgood w hw).2⟩) _) ?_
    rwa [← hend]
  case stored =>
    have hok := hcells.trans (if_pos hwf)
    obtain ⟨hframe, hself, hother⟩ := State.generated_spec hm hh (c := s.x.x0.toNat) s.cl L _
    refine ⟨_, (execGenFromCells_of_disk hd).trans (genFromCells_of_ok hc hh hok), hframe, congrArg Track.events hself,
      congrArg Track.hasDamaged hself, (congrArg (fun tr => tr.splice.toNat) hself).trans ?_, hother⟩
    have hlt := (cellsToTrack_ok hok).2
    rw [toNat_ofNat_of_lt_revUnits hlt, ← hend, durations, ← hS]
    split
    · rename_i hm0
      rw [hm0, hS 0]
      exact Nat.div_zero _
    · rfl

end Sys2Proof.Machine
end

section
/-!
PROOFS. 42_codec.md R150 to R152: the PC track builders.
-/

namespace Sys2Proof.Machine

variable {s : State} {cl : List Word32}

/-! ### The two builders -/

/-- `fixed` of R150 and R152. -/
def fixedCells : Encoding → Layout → List SectorDesc → Nat
  | .mfm => mfmFixed
  | .fm => fmFixed

/-- The cells of the track of R150 and R152. -/
def layoutCells : Encoding → Layout → Nat → List SectorDesc → List Word32
  | .mfm => mfmTrack
  | .fm => fmTrack

theorem goodRecord_iff (r : SectorDesc) :
    goodRecord r = true
      ↔ r.track ≤ 255 ∧ r.head ≤ 255 ∧ r.sector ≤ 255 ∧ r.size ≤ 255 ∧ r.data.length = r.actualSize.toNat := by
  simp [goodRecord, and_assoc]

/-- The checks that a command which names a track begins with, of an allocated track. -/
theorem of_trackChecks {o o' o'' : Outcome} {c h : Nat} (hd : s.diskPresent = true) (hin : s.inStore c h = true) :
    (if !s.diskPresent then o else if !s.inStore c h then o' else o'') = o'' :=
  (of_diskCheck hd).trans (if_neg (by simp [hin]))

section command
variable {fixedSize : Layout → List SectorDesc → Nat} {cells : Layout → Nat → List SectorDesc → List Word32}

theorem buildTrack_of_bad (hd : s.diskPresent = true) (hin : s.inStore s.x.x0.toNat s.x.x1.toNat = true)
    (h : s.layout.cellCount = 0 ∨ ∃ r ∈ s.sdl, goodRecord r = false) :
    buildTrack fixedSize cells s = .next (s.faulted .operand 0) :=
  (of_trackChecks hd hin).trans (if_pos (by simpa using h))

theorem buildTrack_of_good (hd : s.diskPresent = true) (hin : s.inStore s.x.x0.toNat s.x.x1.toNat = true)
    (hn : s.layout.cellCount ≠ 0) (h : ∀ r ∈ s.sdl, goodRecord r = true) :
    buildTrack fixedSize cells s
      = if s.layout.cellCount < fixedSize s.layout s.sdl then complete .layoutOverflow s
        else genFromCells s.x.x0.toNat s.x.x1.toNat 0
          (cells s.layout (shrunkGap3 s.layout (fixedSize s.layout s.sdl) s.sdl.length) s.sdl) s :=
  (of_trackChecks hd hin).trans (if_neg (by simpa [hn] using h))

end command

/-! ### The cells of a layout -/

/-- The cells are the items of the layout and then the filler byte, cut at the cell count. -/
theorem layoutCells_eq (enc : Encoding) (lay : Layout) (gap3 : Nat) {sdl : List SectorDesc} (h : ∀ r ∈ sdl, goodRecord r = true) :
    ∃ m : Nat, lay.cellCount ≤ 16 * ((trackItems enc lay.noIam lay.gap4a lay.gap1 lay.gap2 gap3 sdl).length + m)
      ∧ layoutCells enc lay gap3 sdl = (writeItems enc (trackItems enc lay.noIam lay.gap4a lay.gap1 lay.gap2 gap3 sdl
          ++ gapItems m (fillByte enc)) []).take lay.cellCount := by
  cases enc with
  | mfm => exact mfmTrack_eq lay gap3 sdl h
  | fm => exact fmTrack_eq lay gap3 sdl h

/-- What a builder's cells are: as many as the cell count, all bit cells of 1000 units, item by item those of the layout. -/
theorem layoutCells_spec (enc : Encoding) (lay : Layout) (gap3 : Nat) {sdl : List SectorDesc} (h : ∀ r ∈ sdl, goodRecord r = true) :
    (layoutCells enc lay gap3 sdl).length = lay.cellCount
      ∧ (∀ w ∈ layoutCells enc lay gap3 sdl, w = bitCell true 1000 ∨ w = bitCell false 1000)
      ∧ ∀ q : Nat, HoldsItem enc (layoutCells enc lay gap3 sdl) q
          ((trackItems enc lay.noIam lay.gap4a lay.gap1 lay.gap2 gap3 sdl)[q]?.getD (.byte (fillByte enc))) := by
  obtain ⟨m, hm, heq⟩ := layoutCells_eq enc lay gap3 h
  obtain ⟨cells, hcells, hlen, -, hbits⟩ := writeItems_spec enc
    (trackItems enc lay.noIam lay.gap4a lay.gap1 lay.gap2 gap3 sdl ++ gapItems m (fillByte enc)) []
  rw [List.nil_append] at hcells
  rw [List.length_append, gapItems, List.length_replicate] at hlen
  rw [heq]
  refine ⟨?_, fun w hw => hbits w (hcells ▸ List.mem_of_mem_take hw), holdsItem_track enc _ m _ _ hm⟩
  rw [hcells, List.length_take, hlen, Nat.min_eq_left hm]

/-! ### The track of bit cells (R153, R156) -/

theorem isBitCell_of_default {w : Word32} (h : w = bitCell true 1000 ∨ w = bitCell false 1000) :
    isBitCell w = true ∧ evPos w = 1000 := by
  rcases h with rfl | rfl <;> exact ⟨by decide, evPos_bitCell _ (by decide)⟩

theorem durations_of_default (h : ∀ w ∈ cl, w = bitCell true 1000 ∨ w = bitCell false 1000) : durations cl = 1000 * cl.length := by
  have hmap : cl.map evPos = List.replicate cl.length 1000 := by
    rw [List.eq_replicate_iff]
    exact ⟨List.length_map .., by simpa using fun w hw => (isBitCell_of_default (h w hw)).2⟩
  rw [durations, hmap, List.sum_replicate, smul_eq_mul, Nat.mul_comm]

theorem good_of_isBitCell {w : Word32} (h : isBitCell w = true) : kindOf w ≠ none ∧ evPos w ≠ 0 := by
  obtain ⟨hk, hd⟩ := (isBitCell_iff w).mp h
  exact ⟨by rcases hk with hk | hk <;> simp [hk], hd⟩

theorem cellsToTrack_of_bitCells (h : ∀ w ∈ cl, isBitCell w = true) (hrev : durations cl ≤ revUnits) (sigma : Nat) :
    ∃ (L : List Word32) (splice : Nat), cellsToTrack cl sigma = .ok (L, splice) := by
  have hwf := wfTrack_of_bitCells (isBitCell_parityFix h (sigma % cl.length)) (by rwa [durations_parityFix])
  exact ⟨_, _, (cellsToTrack_of_good (fun w hw => good_of_isBitCell (h w hw)) sigma).trans (if_pos hwf)⟩

/-- Bit cells from the first one on give a track without damage and with the splice 0. -/
theorem cellsToTrack_zero_of_bitCells (h : ∀ w ∈ cl, isBitCell w = true) {L : List Word32} {splice : Nat}
    (hok : cellsToTrack cl 0 = .ok (L, splice)) : splice = 0 ∧ hasTag .damaged L = false := by
  rw [cellsToTrack_of_good (fun w hw => good_of_isBitCell (h w hw)), Nat.zero_mod] at hok
  split at hok
  · cases hok
    exact ⟨by simp [durations], hasTag_damaged_of_bitCells (isBitCell_parityFix h 0)⟩
  · cases hok

/-- Settles O50: the checks of the builder in order, then the cells of the layout and what `GEN_FROM_CELLS` makes of them. -/
theorem builderResult : Obligations.BuilderResult := by
  rintro s _ _ _ _ _ _ i enc fixed rfl rfl rfl rfl rfl rfl hd hc hh hi
  have hin := (s.inStore_iff _ _).mpr ⟨hc, hh⟩
  obtain ⟨hexec, rfl⟩ : exec i s = buildTrack (fixedCells enc) (layoutCells enc) s ∧ fixed = fixedCells enc s.layout s.sdl := by
    rcases hi with ⟨rfl, rfl, rfl⟩ | ⟨rfl, rfl, rfl⟩
    · exact ⟨rfl, rfl⟩
    · exact ⟨rfl, rfl⟩
  refine ⟨fun hbad => ?bad, fun hn hrec => ?good⟩
  case bad =>
    refine hexec.trans (buildTrack_of_bad hd hin (hbad.imp_right fun ⟨r, hr, hf⟩ => ⟨r, hr, ?_⟩))
    rw [← Bool.not_eq_true, goodRecord_iff]
    omega
  case good =>
    have hgood : ∀ r ∈ s.sdl, goodRecord r = true := fun r hr => (goodRecord_iff r).mpr (hrec r hr)
    have hbuild := hexec.trans (buildTrack_of_good hd hin (show s.x.x2.toNat ≠ 0 by omega) hgood)
    refine ⟨fun hlt => hbuild.trans (if_pos hlt), ?_⟩
    rintro hle _ rfl
    have hgen := hbuild.trans (if_neg (Nat.not_lt.mpr hle))
    obtain ⟨hlen, hbits, hitems⟩ := layoutCells_spec enc s.layout (shrunkGap3 s.layout (fixedCells enc s.layout s.sdl) s.sdl.length) hgood
    have hcells := fun w hw => (isBitCell_of_default (hbits w hw)).1
    refine ⟨_, hlen, hbits, hitems, fun hmax => cellsToTrack_of_bitCells hcells ?_ 0,
      fun code he => hgen.trans (genFromCells_of_error hc hh he), fun L splice hL hm => ?_⟩
    · rw [durations_of_default hbits, hlen]
      exact Nat.mul_le_mul_left 1000 hmax
    · obtain ⟨rfl, hdamaged⟩ := cellsToTrack_zero_of_bitCells hcells hL
      obtain ⟨hframe, hself, hother⟩ := State.generated_spec hm hh (c := s.x.x0.toNat) _ L 0
      exact ⟨_, hgen.trans (genFromCells_of_ok hc hh hL), hframe, congrArg Track.events hself,
        congrArg (fun tr => tr.splice.toNat) hself, (congrArg Track.hasDamaged hself).trans hdamaged, hother⟩

end Sys2Proof.Machine
end

section
/-!
PROOFS. 43_pll_extract.md R160 to R164: the bits that `GEN_BITSTREAM` recovers from a track.
-/

namespace Sys2Proof.Machine

variable {s : State} {L : List Word32} {splice p0 n : Nat} {bs : List Bool}

/-! ### The windows (R160) -/

/-- The variables of the PLL before its first window. -/
def Pll.start (p0 splice : Nat) : Pll := { P := p0, ph := 0, cur := splice, scanned := 0 }

theorem Pll.cur_window (p0 : Nat) (p : Pll) (e : Option Int) : (p.window p0 e).cur = p.cur + p.win := by
  cases e <;> rfl

/-- The positions of the edges that the PLL reads (R161, R163). -/
def edgePositions (L : List Word32) : List Nat := posSet (fluxPositions L)

theorem mem_edgePositions {f : Nat} : f ∈ edgePositions L ↔ f ∈ fluxPositions L := mem_posSet

theorem pairwise_edgePositions (L : List Word32) : (edgePositions L).Pairwise (· < ·) := pairwise_posSet _

/-- `BS` holds one bit for each window of the PLL, and the windows cover one revolution. -/
theorem bitstream_windows (h : bitstream L splice p0 = some bs) :
    ∃ p : Nat → Pll, p 0 = Pll.start p0 splice ∧ (∀ j, p (j + 1) = (p j).window p0 ((p j).edge (edgePositions L)))
      ∧ (∀ j < bs.length, bs[j]? = some ((p j).edge (edgePositions L)).isSome)
      ∧ revUnits ≤ (p bs.length).scanned ∧ ∀ j < bs.length, (p j).scanned < revUnits := by
  obtain ⟨k, hbs, hdone, hbefore⟩ := pllBits_some _ _ _ _ _ _ h
  rw [List.reverse_nil, List.nil_append] at hbs
  obtain rfl : k = bs.length := by rw [hbs, List.length_map, List.length_range]
  refine ⟨pllAfter (edgePositions L) p0 (Pll.start p0 splice), rfl, fun _ => rfl, fun j hj => ?_, hdone, hbefore⟩
  rw [hbs, List.getElem?_map, List.getElem?_range (by simpa using hj)]
  rfl

theorem edgePositions_lt (h : wfTrack L = true) : ∀ f ∈ edgePositions L, f < revUnits :=
  fun f hf => fluxPositions_lt h f (mem_edgePositions.mp hf)

theorem isEdge_edgePositions_iff (y : Int) : isEdge (edgePositions L) y ↔ ∃ f ∈ fluxPositions L, y % revUnits = f := by
  simp only [isEdge, mem_edgePositions]

/-- A window without an edge keeps the period and clears the phase. -/
theorem Pll.window_without_edge {Fl : List Nat} (hs : Fl.Pairwise (· < ·)) (hb : ∀ f ∈ Fl, f < revUnits) (p0 : Nat) {p : Pll}
    (hn : ∀ y : Int, p.cur ≤ y → y < p.cur + p.win → ¬ isEdge Fl y) :
    (p.edge Fl).isSome = false ∧ (p.window p0 (p.edge Fl)).ph = 0 ∧ (p.window p0 (p.edge Fl)).P = p.P := by
  rw [Pll.edge_eq_none hs hb hn]
  exact ⟨rfl, rfl, rfl⟩

/-- The first edge of a window corrects the phase and the period by its distance from the middle of the window (R162). -/
theorem Pll.window_with_edge {Fl : List Nat} (hs : Fl.Pairwise (· < ·)) (hb : ∀ f ∈ Fl, f < revUnits) (p0 : Nat) {p : Pll} {e delta : Int}
    (h1 : p.cur ≤ e) (h2 : e < p.cur + p.win) (he : isEdge Fl e) (hn : ∀ y : Int, p.cur ≤ y → y < e → ¬ isEdge Fl y)
    (hd : delta = e - (p.cur + p.win - p.P / 2)) :
    (p.edge Fl).isSome = true ∧ (p.window p0 (p.edge Fl)).ph = (65 * delta).tdiv 100
      ∧ (p.window p0 (p.edge Fl)).P
        = min (5 * (p0 : Int) / 4) (max (3 * (p0 : Int) / 4) (p.P + (5 * p0 * delta).tdiv (100 * p.P))) := by
  rw [Pll.edge_eq_some hs hb h1 h2 he hn, min_comm, max_comm, hd]
  exact ⟨rfl, rfl, rfl⟩

/-! ### A steady PLL (R164) -/

/-- The variables of the PLL after `j` windows that are all one nominal period wide. -/
def Pll.steady (p0 splice j : Nat) : Pll := { P := p0, ph := 0, cur := splice + p0 * j, scanned := p0 * j }

theorem Pll.steady_zero (p0 splice : Nat) : Pll.steady p0 splice 0 = Pll.start p0 splice := by
  simp [Pll.steady, Pll.start]

theorem Pll.win_steady (hp : 1 ≤ p0) (j : Nat) : (Pll.steady p0 splice j).win = p0 := by
  simp only [Pll.win, Pll.steady]
  omega

/-- An edge in the middle of a window of an odd number of units lies one unit before the point that R162 expects it at; the gains round
this away. -/
theorem pll_gains_at_middle (hp : 1 ≤ p0) {delta : Int} (hd : delta = 0 ∨ delta = -1) :
    (65 * delta).tdiv 100 = 0 ∧ (5 * p0 * delta).tdiv (100 * p0) = 0 := by
  rcases hd with rfl | rfl
  · simp
  · have h : (5 * p0 : Int).tdiv (100 * p0) = 0 := Int.tdiv_eq_zero_of_lt (by omega) (by omega)
    rw [Int.mul_neg_one (5 * (p0 : Int)), Int.neg_tdiv, h]
    exact ⟨by decide, rfl⟩

theorem Pll.window_steady (hp : 1 ≤ p0) (j : Nat) {e : Option Int} (he : ∀ y ∈ e, y = splice + p0 * j + p0 / 2) :
    (Pll.steady p0 splice j).window p0 e = Pll.steady p0 splice (j + 1) := by
  have hwin := Pll.win_steady (splice := splice) hp j
  have hnext : (p0 * (j + 1 : Nat) : Int) = p0 * j + p0 := by push_cast; ring
  cases e with
  | none =>
    simp only [Pll.window, hwin]
    simp only [Pll.steady, hnext, add_assoc]
  | some y =>
    obtain rfl := he y rfl
    obtain ⟨hph, hP⟩ := pll_gains_at_middle hp
      (show (splice + p0 * j + p0 / 2 - (splice + p0 * j + p0 - p0 / 2) : Int) = 0 ∨ _ = -1 by omega)
    have hclamp : clampInt p0 (3 * p0 / 4) (5 * p0 / 4) = p0 := by
      unfold clampInt
      omega
    simp only [Pll.window, hwin]
    simp only [Pll.steady, hph, hP, add_zero, hclamp]
    rw [hnext, add_assoc]

/-- Where every edge lies in the middle of its window, the bits are those of the windows of one nominal period. -/
theorem bitstream_of_steady (hp : 1 ≤ p0) (hbs : bitstream L splice p0 = some bs) (hfew : ∀ m < n, p0 * m < revUnits)
    (hcover : revUnits ≤ p0 * n) (b : Nat → Bool)
    (hedge : ∀ j < n, (Pll.steady p0 splice j).edge (edgePositions L) = if b j then some (splice + p0 * j + p0 / 2 : Int) else none) :
    bs = (List.range n).map b := by
  obtain ⟨p, hzero, hsucc, hbit, hdone, hbefore⟩ := bitstream_windows hbs
  have hsteady : ∀ j ≤ n, p j = Pll.steady p0 splice j := by
    intro j hj
    induction j with
    | zero => rw [hzero, Pll.steady_zero]
    | succ j ih =>
      rw [hsucc, ih (by omega), hedge j hj]
      exact Pll.window_steady hp j (by cases b j <;> simp)
  have hscanned : ∀ j ≤ n, (p j).scanned = (p0 * j : Nat) := fun j hj => by
    rw [hsteady j hj, Nat.cast_mul]
    rfl
  obtain rfl : bs.length = n := by
    rcases Nat.lt_trichotomy bs.length n with hlt | heq | hgt
    · have := hfew _ hlt
      rw [hscanned _ hlt.le] at hdone
      omega
    · exact heq
    · have := hbefore _ hgt
      rw [hscanned _ le_rfl] at this
      omega
  refine List.ext_getElem? fun j => ?_
  by_cases hj : j < bs.length
  · rw [hbit j hj, hsteady j hj.le, hedge j hj, List.getElem?_map, List.getElem?_range hj]
    cases hb : b j <;> simp [hb]
  · rw [List.getElem?_eq_none (by omega), List.getElem?_eq_none (by simpa using hj)]

theorem fluxPositions_of_no_flux (h : ∀ e ∈ L, tagOf e ≠ some .flux) : fluxPositions L = [] := by
  rw [fluxPositions, List.map_eq_nil_iff, List.filter_eq_nil_iff]
  simpa using h

/-- R164 a: with no edge `BS` is zeros. -/
theorem bitstream_of_no_flux (hp : 1 ≤ p0) (hbs : bitstream L splice p0 = some bs) (hL : fluxPositions L = []) :
    bs = List.replicate ((revUnits + p0 - 1) / p0) false := by
  have hfew : ∀ m < (revUnits + p0 - 1) / p0, p0 * m < revUnits := fun m hm => by
    have := (Nat.le_div_iff_mul_le (by omega)).mp (Nat.succ_le_of_lt hm)
    rw [Nat.succ_mul, Nat.mul_comm] at this
    omega
  have hcover : revUnits ≤ p0 * ((revUnits + p0 - 1) / p0) := by
    have := Nat.lt_mul_div_succ (revUnits + p0 - 1) (show 0 < p0 by omega)
    rw [Nat.mul_add] at this
    omega
  rw [bitstream_of_steady hp hbs hfew hcover (fun _ => false) fun j _ => by rw [edgePositions, hL]; rfl, List.map_const', List.length_range]

/-- The positions of a regular track: the middles of the cells that are 1. -/
def cellMiddles (p0 : Nat) (bits : List Bool) : List Nat :=
  ((List.range bits.length).filter (fun j => bits.getD j false)).map (fun j => p0 * j + p0 / 2)

variable {bits : List Bool}

theorem mem_cellMiddles {f : Nat} : f ∈ cellMiddles p0 bits ↔ ∃ j < bits.length, bits.getD j false = true ∧ f = p0 * j + p0 / 2 := by
  simp only [cellMiddles, List.mem_map, List.mem_filter, List.mem_range, and_assoc, eq_comm]

theorem cellMiddles_lt (hp : 1 ≤ p0) (hrev : p0 * bits.length = revUnits) : ∀ f ∈ cellMiddles p0 bits, f < revUnits := by
  intro f hf
  obtain ⟨j, hj, -, rfl⟩ := mem_cellMiddles.mp hf
  have := Nat.mul_le_mul_left p0 (Nat.succ_le_of_lt hj)
  rw [Nat.mul_succ] at this
  omega

/-- Within the window of a cell a regular track has an edge only at the middle, and there exactly where the cell is 1. -/
theorem isEdge_cellMiddles_iff (hrev : p0 * bits.length = revUnits) (hL : fluxPositions L = cellMiddles p0 bits) {j : Nat}
    (hj : j < bits.length) {y : Int} (h1 : (p0 * j : Int) ≤ y) (h2 : y < p0 * j + p0) :
    isEdge (edgePositions L) y ↔ bits.getD j false = true ∧ y = p0 * j + p0 / 2 := by
  have hrow : ∀ i k : Nat, i < k → p0 * i + p0 ≤ p0 * k := fun i k hik => Nat.mul_le_mul_left p0 (Nat.succ_le_of_lt hik)
  have hin := hrow j _ hj
  rw [hrev] at hin
  have hcast : (p0 * j : Int) = (p0 * j : Nat) := by push_cast; rfl
  have hy : y % revUnits = y := Int.emod_eq_of_lt (by omega) (by omega)
  rw [isEdge_edgePositions_iff, hL, hy]
  constructor
  · rintro ⟨f, hf, rfl⟩
    obtain ⟨i, -, hi, rfl⟩ := mem_cellMiddles.mp hf
    obtain rfl : i = j := by
      rcases Nat.lt_trichotomy i j with hlt | heq | hgt
      · have := hrow i j hlt
        omega
      · exact heq
      · have := hrow j i hgt
        omega
    exact ⟨hi, by push_cast; rfl⟩
  · rintro ⟨hbit, rfl⟩
    exact ⟨_, mem_cellMiddles.mpr ⟨j, hj, hbit, rfl⟩, by push_cast; rfl⟩

/-- R164 b: a regular track gives its cells. -/
theorem bitstream_of_regular (hp : 1 ≤ p0) (hbs : bitstream L 0 p0 = some bs) (hrev : p0 * bits.length = revUnits)
    (hL : fluxPositions L = cellMiddles p0 bits) : bs = bits := by
  have hs := pairwise_edgePositions L
  have hb : ∀ f ∈ edgePositions L, f < revUnits := fun f hf => cellMiddles_lt hp hrev f (hL ▸ mem_edgePositions.mp hf)
  rw [bitstream_of_steady (n := bits.length) hp hbs (fun m hm => ?few) hrev.ge (fun j => bits.getD j false) (fun j hj => ?edge)]
  · refine List.ext_getElem (by simp) fun j h1 h2 => by simp [h2]
  case few =>
    rw [← hrev]
    exact Nat.mul_lt_mul_of_pos_left hm hp
  case edge =>
    have hcur : (Pll.steady p0 0 j).cur = p0 * j := by simp [Pll.steady]
    have hwin := Pll.win_steady (splice := 0) hp j
    cases hbit : bits.getD j false with
    | false =>
      refine Pll.edge_eq_none hs hb fun y h1 h2 he => ?_
      rw [hcur] at h1 h2
      rw [hwin] at h2
      exact absurd ((isEdge_cellMiddles_iff hrev hL hj h1 h2).mp he).1 (by rw [hbit]; exact Bool.false_ne_true)
    | true =>
      have hlow : (p0 * j : Int) ≤ p0 * j + p0 / 2 := by omega
      have hhigh : (p0 * j + p0 / 2 : Int) < p0 * j + p0 := by omega
      rw [if_pos rfl, Nat.cast_zero, zero_add]
      refine Pll.edge_eq_some hs hb (hcur ▸ hlow) (by rw [hcur, hwin]; exact hhigh)
        ((isEdge_cellMiddles_iff hrev hL hj hlow hhigh).mpr ⟨hbit, rfl⟩) fun y h1 h2 he => ?_
      rw [hcur] at h1
      exact h2.ne ((isEdge_cellMiddles_iff hrev hL hj h1 (h2.trans hhigh)).mp he).2

/-! ### The command -/

theorem execGenBitstream_of_large (hd : s.diskPresent = true) (hin : s.inStore s.x.x0.toNat s.x.x1.toNat = true)
    (h : 2 ^ 28 ≤ s.x.x2.toNat) : execGenBitstream s = .next (s.faulted .operand 0) := by
  refine (of_trackChecks hd hin).trans ?_
  rw [sizeOperand_of_ge h]
  rfl

theorem execGenBitstream_of_size (hd : s.diskPresent = true) (hin : s.inStore s.x.x0.toNat s.x.x1.toNat = true)
    (h : s.x.x2.toNat < 2 ^ 28) : ∃ bs : List Bool,
      bitstream (s.buf s.x.x0.toNat s.x.x1.toNat) (s.trackAt s.x.x0.toNat s.x.x1.toNat).splice.toNat
        (if s.x.x2.toNat = 0 then 1000 else s.x.x2.toNat) = some bs
      ∧ execGenBitstream s = .next { s with bs := bs, x := { s.x with x0 := BitVec.ofNat 64 bs.length }, st := 0x00 } := by
  obtain ⟨bs, hbs⟩ := Option.isSome_iff_exists.mp
    (bitstream_isSome (s.buf s.x.x0.toNat s.x.x1.toNat) (s.trackAt s.x.x0.toNat s.x.x1.toNat).splice.toNat
      (if s.x.x2.toNat = 0 then 1000 else s.x.x2.toNat))
  refine ⟨bs, hbs, (of_trackChecks hd hin).trans ?_⟩
  rw [sizeOperand_of_lt h]
  simp only [unsignedOperand, hbs]
  rfl

/-- Settles O51: the loop of the PLL ends, a window is one of the two cases of R160, and on a track without edges or with edges in the
middles of its cells the PLL is steady. -/
theorem bitstreamResult : Obligations.BitstreamResult := by
  intro s p0 hd hc hh
  have hin := (s.inStore_iff _ _).mpr ⟨hc, hh⟩
  refine ⟨execGenBitstream_of_large hd hin, ?_⟩
  rintro hx rfl
  obtain ⟨bs, hbs, hexec⟩ := execGenBitstream_of_size hd hin hx
  have hp : 1 ≤ if s.x.x2.toNat = 0 then 1000 else s.x.x2.toNat := by split <;> omega
  refine ⟨bs, hexec, fun edge hwf hedge => ?windows, fun hno => ?noFlux, fun bits hrev hsplice hL => ?regular⟩
  case windows =>
    obtain rfl : edge = isEdge (edgePositions _) := funext fun y => propext ((hedge y).trans (isEdge_edgePositions_iff y).symm)
    obtain ⟨p, hzero, hsucc, hbit, hdone, hbefore⟩ := bitstream_windows hbs
    have hcur : ∀ j, (p (j + 1)).cur = (p j).cur + (p j).win := fun j => (hsucc j).symm ▸ Pll.cur_window ..
    have hscanned : ∀ j, (p (j + 1)).scanned = (p j).scanned + (p j).win := fun j => (hsucc j).symm ▸ Pll.scanned_window ..
    refine ⟨fun j => (p j).P, fun j => (p j).ph, fun j => (p j).cur, fun j => (p j).scanned, congrArg Pll.P hzero,
      congrArg Pll.ph hzero, congrArg Pll.cur hzero, congrArg Pll.scanned hzero, hdone,
      fun j hj => ⟨hbefore j hj, hcur j, hscanned j, fun hn => ?empty, fun e delta h1 h2 he hn hdelta => ?full⟩⟩
    case empty =>
      simp only [hcur] at hn
      simp only [hbit j hj, hsucc]
      exact (Pll.window_without_edge (pairwise_edgePositions _) (edgePositions_lt hwf) _ hn).imp_left (congrArg some)
    case full =>
      simp only [hcur] at h2 hdelta
      simp only [hbit j hj, hsucc]
      exact (Pll.window_with_edge (pairwise_edgePositions _) (edgePositions_lt hwf) _ h1 h2 he hn hdelta).imp_left (congrArg some)
  case noFlux => exact bitstream_of_no_flux hp hbs (fluxPositions_of_no_flux hno)
  case regular =>
    rw [hsplice] at hbs
    exact bitstream_of_regular hp hbs hrev hL

end Sys2Proof.Machine
end

section
/-!
PROOFS. 43_pll_extract.md R166 to R171: what the sector extractors make of a bit stream.
-/

namespace Sys2Proof.Machine

/-! ### The windows of a data mark (R168, R171) -/

theorem winMfm_eq : winMfm = fun d => decide (576 ≤ d ∧ d ≤ 832 ∨ 880 ≤ d ∧ d ≤ 1136) := by
  funext d
  simp [winMfm]

theorem winFm_eq : winFm = fun d => decide (256 ≤ d ∧ d ≤ 512) := by
  funext d
  simp [winFm]

/-! ### A slot (R169) -/

/-- A slot is filled with nothing or with the payload of one of its ID fields. -/
theorem length_of_slotOf {bs : List Bool} {ids dams : List Nat} {win : Nat → Bool} {k : Nat} {l : List Byte}
    (h : slotOf bs ids dams win k = some l) : l.length = 0 ∨ ∃ n : Nat, n < 8 ∧ l.length = 128 * 2 ^ n := by
  simp only [slotOf] at h
  split at h
  · cases h
  · obtain rfl := Option.some.inj h
    generalize hp : List.filterMap _ _ = payloads
    cases hlast : payloads.getLast? with
    | none => exact .inl rfl
    | some l =>
      obtain ⟨q, -, hq⟩ := List.mem_filterMap.mp (hp ▸ List.mem_of_getLast? hlast)
      obtain ⟨d, -, rfl⟩ := Option.map_eq_some_iff.mp hq
      exact .inr ⟨_, Nat.mod_lt _ (by decide), by rw [Option.getD_some, List.length_map, List.length_range]⟩

theorem slotOf_nil (bs : List Bool) (dams : List Nat) (win : Nat → Bool) (k : Nat) : slotOf bs [] dams win k = none := rfl

/-! ### A stream of zeros -/

theorem windowWord_of_zeros {bs : List Bool} (h : ∀ b ∈ bs, b = false) (i : Nat) : windowWord bs i = 0 := by
  have hbit : ∀ j : Nat, bs.getD j false = false := fun j => by
    rw [List.getD_eq_getElem?_getD]
    cases hj : bs[j]? with
    | none => rfl
    | some b => exact h b (List.mem_of_getElem? hj)
  simp only [windowWord, hbit, Bool.and_false]
  simp

theorem not_syncMark_of_zeros {bs : List Bool} (h : ∀ b ∈ bs, b = false) (i q v : Nat) : ¬ SyncMark bs i q v := by
  rintro ⟨-, hsync, -⟩
  rw [windowWord_of_zeros h] at hsync
  exact absurd hsync (by decide)

theorem MfmHunt.ids_of_zeros {bs : List Bool} (h : ∀ b ∈ bs, b = false) {i : Nat} {ids dams : List Nat} (hunt : MfmHunt bs i ids dams) :
    ids = [] := by
  induction hunt with
  | stop => rfl
  | pass _ _ _ _ _ _ ih => exact ih
  | idMark _ _ _ _ hmark => exact absurd hmark (not_syncMark_of_zeros h _ _ _)
  | dataMark _ _ _ _ _ hmark => exact absurd hmark (not_syncMark_of_zeros h _ _ _)

/-! ### The two commands -/

/-- `EXTRACT_MFM` assembles the marks of the hunt of R166, which ends. -/
theorem execExtractMfm_spec (s : State) : ∃ ids dams : List Nat, MfmHunt s.bs 0 ids dams
    ∧ execExtractMfm s = complete .ok (s.withSlots (assemble s.bs ids dams winMfm)) := by
  obtain ⟨m, hm⟩ := Option.isSome_iff_exists.mp
    (huntMfm_isSome s.bs (s.bs.length + 1) 0 0 { ids := [], dams := [] } (by omega) (by omega))
  obtain ⟨ids, dams, hunt, rfl⟩ := huntMfm_spec _ _ _ _ _ _ (fun _ => rfl) hm
  exact ⟨ids, dams, hunt, by rw [execExtractMfm, hm]; rfl⟩

/-- `EXTRACT_FM` assembles the fields after the mark words of R170. -/
theorem execExtractFm_eq (s : State) : execExtractFm s = complete .ok (s.withSlots (assemble s.bs
    (((List.range s.bs.length).filter (fun j => decide (windowWord s.bs j = 0xF57E))).map (· + 1))
    (((List.range s.bs.length).filter (fun j => decide (windowWord s.bs j = 0xF56F ∨ windowWord s.bs j = 0xF56A))).map (· + 1))
    winFm)) := by
  have hunt : huntFm s.bs 0 0 { ids := [], dams := [] } = _ := huntFm_spec s.bs s.bs 0 _ rfl
  rw [execExtractFm, hunt, List.range_eq_range']
  rfl

/-- Settles O52: the fields are those of the hunts, and each slot is what `assemble_get` says of it. -/
theorem extractorsResult : Obligations.ExtractorsResult := by
  rintro s i (rfl | rfl)
  case inl =>
    obtain ⟨ids, dams, hunt, hexec⟩ := execExtractMfm_spec s
    refine ⟨assemble s.bs ids dams winMfm, ids, dams, hexec, fun _ => ⟨hunt, fun k => ?slot⟩, nofun,
      fun k l hl => length_of_slotOf ((assemble_get ..).symm.trans hl), fun h0 k => ?zeros⟩
    case slot => rw [assemble_get, winMfm_eq]
    case zeros => rw [assemble_get, hunt.ids_of_zeros h0, slotOf_nil]
  case inr =>
    refine ⟨_, _, _, execExtractFm_eq s, nofun, fun _ => ⟨rfl, rfl, fun k => ?slot⟩,
      fun k l hl => length_of_slotOf ((assemble_get ..).symm.trans hl), fun h0 k => ?zeros⟩
    case slot => rw [assemble_get, winFm_eq]
    case zeros =>
      rw [assemble_get]
      simp [windowWord_of_zeros h0, slotOf_nil]

end Sys2Proof.Machine
end

section
/-!
PROOFS. 44_crc.md R175 to R180: the CRC register, `CRC_BYTES` and `CRC_CELLS`, and what they say of written bytes.
-/

namespace Sys2Proof.Machine

/-! ### The register (R175) -/

theorem toNat_crcStep (crc : BitVec 16) (b : Bool) :
    (crcStep crc b).toNat
      = if crc.getLsbD 15 != b then (2 * crc.toNat % 2 ^ 16) ^^^ 0x1021 else 2 * crc.toNat % 2 ^ 16 := by
  have hshift : (crc <<< 1).toNat = 2 * crc.toNat % 2 ^ 16 := by
    rw [BitVec.toNat_shiftLeft, Nat.shiftLeft_eq, Nat.pow_one, Nat.mul_comm]
  have htop : (crc.getMsbD 0).xor b = (crc.getLsbD 15 != b) := rfl
  rw [crcStep, htop]
  split
  · rw [BitVec.toNat_xor, hshift]
    rfl
  · exact hshift

/-- A step on the register's own top bit is a shift. -/
theorem crcStep_ownBit (crc : BitVec 16) : crcStep crc (crc.getMsbD 0) = crc <<< 1 := by
  simp [crcStep]

/-- What a step adds to the shifted register, by the bit that is fed back. -/
def crcFeedback (fed : Bool) : BitVec 16 := if fed then crcPoly else 0

theorem crcStep_eq_xor (crc : BitVec 16) (b : Bool) :
    crcStep crc b = (crc <<< 1) ^^^ crcFeedback ((crc.getMsbD 0).xor b) := by
  rw [crcStep, crcFeedback]
  split
  · rfl
  · exact BitVec.xor_zero.symm

theorem crcFeedback_xor (x y : Bool) : crcFeedback (x.xor y) = crcFeedback x ^^^ crcFeedback y := by
  revert x y
  decide

/-- The register is linear over GF(2). -/
theorem crcStep_xor (c e : BitVec 16) (b a : Bool) :
    crcStep (c ^^^ e) (b.xor a) = crcStep c b ^^^ crcStep e a := by
  have hfed : ((c ^^^ e).getMsbD 0).xor (b.xor a) = ((c.getMsbD 0).xor b).xor ((e.getMsbD 0).xor a) := by
    rw [BitVec.getMsbD_xor, Bool.xor_assoc, Bool.xor_assoc, Bool.xor_left_comm b]
  rw [crcStep_eq_xor, crcStep_eq_xor, crcStep_eq_xor, hfed, crcFeedback_xor, BitVec.shiftLeft_xor_distrib]
  ac_rfl

theorem crcBits_append (crc : BitVec 16) (l l' : List Bool) : crcBits crc (l ++ l') = crcBits (crcBits crc l) l' :=
  List.foldl_append

theorem crcBits_xor (c e : BitVec 16) (f g : Nat → Bool) (l : List Nat) :
    crcBits (c ^^^ e) (l.map fun j => (f j).xor (g j)) = crcBits c (l.map f) ^^^ crcBits e (l.map g) := by
  induction l generalizing c e with
  | nil => rfl
  | cons j l ih => exact (congrArg (crcBits · _) (crcStep_xor c e (f j) (g j))).trans (ih _ _)

/-- The register shifts its own bits out. -/
theorem crcBits_ownBits (crc : BitVec 16) (n : Nat) :
    crcBits crc ((List.range n).map fun j => crc.getMsbD j) = crc <<< n := by
  induction n with
  | zero => exact (BitVec.shiftLeft_zero crc).symm
  | succ n ih =>
    have htop : (crc <<< n).getMsbD 0 = crc.getMsbD n := by simp
    rw [List.range_succ, List.map_append, crcBits_append, ih, BitVec.shiftLeft_add, ← crcStep_ownBit, htop]
    rfl

/-! ### The residue (R180) -/

theorem crcOfBytes_append (bytes bytes' : List Byte) :
    crcOfBytes (bytes ++ bytes') = crcBits (crcOfBytes bytes) (bytes'.flatMap byteBits) := by
  rw [crcOfBytes, List.flatMap_append, crcBits_append, crcOfBytes]

theorem flatMap_byteBits_word (v : BitVec 16) :
    [v.extractLsb' 8 8, v.extractLsb' 0 8].flatMap byteBits = (List.range 16).map fun j => v.getMsbD j := by
  rw [← writtenBits_16, writtenBits_crc, List.flatMap_cons, List.flatMap_cons, List.flatMap_nil, List.append_nil]

theorem crcBits_ownWord (c : BitVec 16) : crcBits c ((List.range 16).map fun j => c.getMsbD j) = 0 :=
  (crcBits_ownBits c 16).trans (BitVec.shiftLeft_eq_zero le_rfl)

/-- The complement differs from the register's own bits by sixteen ones, whatever the register holds. -/
theorem crcBits_complement (c : BitVec 16) : crcBits c ((List.range 16).map fun j => (~~~c).getMsbD j) = 0x1D0F := by
  have hflip : ((List.range 16).map fun j => (~~~c).getMsbD j) = (List.range 16).map fun j => (c.getMsbD j).xor true :=
    List.map_congr_left fun j hj => by simp [List.mem_range.mp hj]
  calc crcBits c ((List.range 16).map fun j => (~~~c).getMsbD j)
      = crcBits (c ^^^ 0#16) ((List.range 16).map fun j => (c.getMsbD j).xor true) := by rw [hflip, BitVec.xor_zero]
    _ = 0#16 ^^^ crcBits 0#16 ((List.range 16).map fun _ => true) := by rw [crcBits_xor, crcBits_ownWord]; rfl
    _ = 0x1D0F := by decide +kernel

/-- Settles O55: the register that holds the CRC shifts its own bits out to 0, and by linearity the complemented bits to a constant. -/
theorem crcResidue : Obligations.CrcResidue := by
  rintro B c rfl
  rw [crcOfBytes_append, crcOfBytes_append, flatMap_byteBits_word, flatMap_byteBits_word, crcBits_ownWord, crcBits_complement]
  exact ⟨rfl, by decide⟩

/-! ### `CRC_CELLS` (R177) -/

section span
variable {cl : List Word32} {a b : Nat}

theorem crcOfCells_of_operand (h : b < a ∨ (b - a) % 2 = 1) : crcOfCells cl a b = .error .operand :=
  if_pos (by omega)

theorem crcOfCells_of_bounds (hab : a ≤ b) (heven : (b - a) % 2 = 0) (hb : cl.length < b) :
    crcOfCells cl a b = .error .bounds := by
  rw [crcOfCells, if_neg (not_not.mpr ⟨hab, heven⟩), if_pos hb]

theorem crcOfCells_of_inBounds (hab : a ≤ b) (heven : (b - a) % 2 = 0) (hb : b ≤ cl.length) :
    crcOfCells cl a b = if (cellSpan cl a b).any (fun w => !isBitCell w) then .error .cells
      else .ok (crcBits crcInit (dataBits (cellSpan cl a b))) := by
  rw [crcOfCells, if_neg (not_not.mpr ⟨hab, heven⟩), if_neg (Nat.not_lt.mpr hb)]

theorem isBitCell_eq_false_iff (w : Word32) :
    isBitCell w = false ↔ kindOf w ≠ some .bit0 ∧ kindOf w ≠ some .bit1 ∨ evPos w = 0 := by
  rw [← Bool.not_eq_true, isBitCell_iff]
  tauto

theorem crcOfCells_of_badCell (hab : a ≤ b) (heven : (b - a) % 2 = 0) (hb : b ≤ cl.length)
    (h : ∃ j, a ≤ j ∧ j < b ∧ isBitCell (cl.getD j 0) = false) : crcOfCells cl a b = .error .cells :=
  (crcOfCells_of_inBounds hab heven hb).trans (if_pos ((any_cellSpan_iff hb).mpr h))

theorem crcOfCells_of_bitCells (hab : a ≤ b) (heven : (b - a) % 2 = 0) (hb : b ≤ cl.length)
    (h : ∀ j, a ≤ j → j < b → isBitCell (cl.getD j 0) = true) :
    crcOfCells cl a b = .ok (crcBits crcInit (dataBits (cellSpan cl a b))) := by
  refine (crcOfCells_of_inBounds hab heven hb).trans (if_neg ?_)
  rw [any_cellSpan_iff hb]
  rintro ⟨j, haj, hjb, hj⟩
  exact Bool.false_ne_true (hj.symm.trans (h j haj hjb))

theorem dataBits_eq_map (l : List Word32) :
    dataBits l = (List.range (l.length / 2)).map fun j => kindOf (l.getD (2 * j + 1) 0) == some .bit1 := by
  induction l using dataBits.induct with
  | case1 c w l ih =>
    rw [dataBits, ih, List.length_cons, List.length_cons, show (l.length + 1 + 1) / 2 = l.length / 2 + 1 by omega,
      List.range_succ_eq_map, List.map_cons, List.map_map]
    rfl
  | case2 l hl =>
    match l, hl with
    | [], _ => rfl
    | [w], _ => simp [dataBits]
    | c :: w :: l, hl => exact absurd rfl (hl c w l)

theorem getD_cellSpan {j : Nat} (hj : j < b - a) : (cellSpan cl a b).getD j 0 = cl.getD (a + j) 0 := by
  simp [cellSpan, hj]

theorem dataBits_cellSpan (hb : b ≤ cl.length) :
    dataBits (cellSpan cl a b)
      = (List.range ((b - a) / 2)).map fun j => kindOf (cl.getD (a + 2 * j + 1) 0) == some .bit1 := by
  have hlen : (cellSpan cl a b).length = b - a := by
    simp only [cellSpan, List.length_take, List.length_drop]
    omega
  rw [dataBits_eq_map, hlen]
  refine List.map_congr_left fun j hj => ?_
  have hj := List.mem_range.mp hj
  rw [getD_cellSpan (by omega), Nat.add_assoc]

end span

section command
variable {s : State}

theorem exec_crcCells_of_error {code : FaultCode} (h : crcOfCells s.cl s.x.x0.toNat s.x.x1.toNat = .error code) :
    exec .crcCells s = .next (s.faulted code 0) := by
  show execCrcCells s = _
  rw [execCrcCells, unsignedOperand, unsignedOperand, h]
  rfl

theorem exec_crcCells_of_ok {v : BitVec 16} (h : crcOfCells s.cl s.x.x0.toNat s.x.x1.toNat = .ok v) :
    exec .crcCells s = .next { s with x := { s.x with x0 := v.setWidth 64 }, st := 0x00 } := by
  show execCrcCells s = _
  rw [execCrcCells, unsignedOperand, unsignedOperand, h]
  rfl

end command

/-- Settles O53: the checks of `CRC_CELLS` in order, the data cells of a span it can read, and the vectors. -/
theorem crcCommands : Obligations.CrcCommands := by
  refine ⟨toNat_crcStep, fun s => rfl, ?cells, by decide, by decide, by decide +kernel, by decide +kernel⟩
  rintro s _ _ rfl rfl
  refine ⟨fun h => exec_crcCells_of_error (crcOfCells_of_operand h),
    fun hab heven hb => exec_crcCells_of_error (crcOfCells_of_bounds hab heven hb),
    fun hab heven hb ⟨j, haj, hjb, hbad⟩ => ?bad, fun hab heven hb hgood => ?good⟩
  case bad =>
    exact exec_crcCells_of_error
      (crcOfCells_of_badCell hab heven hb ⟨j, haj, hjb, (isBitCell_eq_false_iff _).mpr hbad⟩)
  case good =>
    have hcells := crcOfCells_of_bitCells hab heven hb fun j haj hjb => (isBitCell_iff _).mpr (hgood j haj hjb)
    rw [dataBits_cellSpan hb] at hcells
    exact exec_crcCells_of_ok hcells

/-! ### Cells of written bytes (R179) -/

theorem cellSpan_append (before cells after : List Word32) :
    cellSpan (before ++ cells ++ after) before.length (before ++ cells).length = cells := by
  rw [cellSpan, List.append_assoc, List.drop_left, List.length_append, Nat.add_sub_cancel_left, List.take_left]

theorem crcOfCells_append {before cells after : List Word32} (heven : cells.length % 2 = 0) :
    crcOfCells (before ++ cells ++ after) before.length (before ++ cells).length
      = if cells.any (fun w => !isBitCell w) then .error .cells else .ok (crcBits crcInit (dataBits cells)) := by
  have hlen : (before ++ cells).length = before.length + cells.length := List.length_append
  rw [crcOfCells_of_inBounds (by omega) (by omega) (by rw [List.length_append (bs := after)]; omega), cellSpan_append]

section bytes
variable {enc : Encoding} {d : Nat} {p : Bool} {bytes : List Byte}

theorem isBitCell_of_mem_byteCells (h1 : 1 ≤ d) (hd : d < 2 ^ 28) {w : Word32} (hw : w ∈ byteCells enc d p bytes) :
    isBitCell w = true := by
  cases enc with
  | mfm => exact List.all_eq_true.mp (all_isBitCell_mfmCells h1 hd p _) w hw
  | fm => exact List.all_eq_true.mp (all_isBitCell_fmCells h1 hd _) w hw

theorem exists_bitCell_mem_byteCells (h : bytes ≠ []) : ∃ b : Bool, bitCell b d ∈ byteCells enc d p bytes := by
  obtain ⟨byte, bytes, rfl⟩ := List.exists_cons_of_ne_nil h
  cases enc with
  | mfm => exact ⟨!(p || byte.getMsbD 0), List.mem_cons_self⟩
  | fm => exact ⟨true, List.mem_cons_self⟩

theorem crcOfCells_writeBytes (before after : List Word32) (h1 : 1 ≤ d) (hd : d < 2 ^ 28) :
    crcOfCells (writeBytes enc d bytes before ++ after) before.length (writeBytes enc d bytes before).length
      = .ok (crcOfBytes bytes) := by
  rw [writeBytes_eq, crcOfCells_append (by rw [length_byteCells]; omega), dataBits_byteCells, ← crcOfBytes]
  refine if_neg ?_
  rw [List.any_eq_true]
  rintro ⟨w, hw, hbad⟩
  simp [isBitCell_of_mem_byteCells h1 hd hw] at hbad

/-- A cell of duration 0 cannot be read, and every byte has cells. -/
theorem crcOfCells_writeBytes_zero (before after : List Word32) (h : bytes ≠ []) :
    crcOfCells (writeBytes enc 0 bytes before ++ after) before.length (writeBytes enc 0 bytes before).length
      = .error .cells := by
  rw [writeBytes_eq, crcOfCells_append (by rw [length_byteCells]; omega)]
  obtain ⟨b, hb⟩ := exists_bitCell_mem_byteCells (enc := enc) (d := 0) (p := prevBit before) h
  exact if_pos (List.any_eq_true.mpr ⟨_, hb, by rw [isBitCell_bitCell b (by decide)]; rfl⟩)

end bytes

/-- The data cells of raw cells are every second bit of the pattern. -/
theorem dataBits_rawCells (d : Nat) (c b : Bool) (bits : List Bool) :
    dataBits (rawCells d (c :: b :: bits)) = b :: dataBits (rawCells d bits) :=
  congrArg (· :: dataBits (rawCells d bits)) (isBit1_bitCell b d)

theorem dataBits_writeRaw (pattern d : Nat) (cl : List Word32) :
    dataBits ((writeRaw 16 pattern d cl).drop cl.length)
      = (List.range 8).map fun k => pattern.testBit (14 - 2 * k) := by
  rw [writeRaw, List.drop_left]
  simp only [writtenBits, List.range, List.range.loop, List.reverse_cons, List.reverse_nil, List.nil_append, List.cons_append,
    List.map_cons, List.map_nil, dataBits_rawCells]
  rfl

theorem markBits_eq_byteBits : ∀ m ∈ [(0x4489, 0xA1#8), (0x5224, 0xC2#8), (0xF57E, 0xFE#8), (0xF56F, 0xFB#8), (0xF56A, 0xF8#8),
    (0xF77A, 0xFC#8)], ((List.range 8).map fun k => Nat.testBit m.1 (14 - 2 * k)) = byteBits m.2 := by decide

/-- Settles O54: a span of written cells is the cells of its bytes, whose data bits are those of the bytes. -/
theorem crcCellsAgreeWithBytes : Obligations.CrcCellsAgreeWithBytes := by
  refine ⟨fun s enc d bytes before after hcl hstart hstop => ⟨fun h1 hd => ?readable, ?zero⟩, fun d pattern byte hmark cl => ?mark⟩
  case readable =>
    refine exec_crcCells_of_ok ?_
    rw [hcl, hstart, hstop]
    exact crcOfCells_writeBytes before after h1 hd
  case zero =>
    rintro rfl hbytes
    refine exec_crcCells_of_error ?_
    rw [hcl, hstart, hstop]
    exact crcOfCells_writeBytes_zero before after hbytes
  case mark => exact (dataBits_writeRaw pattern d cl).trans (markBits_eq_byteBits (pattern, byte) hmark)

end Sys2Proof.Machine
end

section
/-!
PROOFS. 45_cell_buffer.md R182, R183: a disk is bound and unbound.
-/

namespace Sys2Proof.Machine

variable {s : State}

/-! ### The operands of `INSERT` (R182) -/

theorem State.insertOperandsOk_iff (s : State) :
    s.insertOperandsOk = true ↔
      s.x.x1.toNat ≠ 0 ∧ 1 ≤ s.x.x2.toNat ∧ (s.x.x3.toNat = 1 ∨ s.x.x3.toNat = 2) ∧ s.x.x1.toNat < 2 ^ 32
        ∧ s.x.x2.toNat < 2 ^ 32 ∧ s.x.x4.toNat < 2 ^ 32 ∧ s.x.x5.toNat < 2 ^ 32 ∧ s.x.x6.toNat < 2 ^ 32
        ∧ (s.x.x7.getLsbD 0 = true → s.x.x4.toNat ≠ 0 ∧ s.x.x5.toNat ≠ 0) := by
  have hraw (b : Bool) (m n : Nat) : (!(b && (decide (m = 0) || decide (n = 0)))) = true ↔ (b = true → m ≠ 0 ∧ n ≠ 0) := by
    cases b <;> simp
  simp only [State.insertOperandsOk, Bool.and_eq_true, hraw, Bool.or_eq_true, decide_eq_true_eq, fitsU32, boolOperand, and_assoc]

theorem State.insertTooLarge_iff (s : State) :
    s.insertTooLarge = true ↔ s.cfg.driveSides < s.x.x3.toNat ∨ s.cfg.driveTracks + s.cfg.excessTracks < s.x.x2.toNat := by
  simp [State.insertTooLarge]

theorem execInsert_of_bad (h : ¬ s.insertOperandsOk = true) : execInsert s = .next (s.faulted .operand 0) :=
  if_pos (by simpa using h)

theorem execInsert_of_tooLarge (h : s.insertOperandsOk = true) (hl : s.insertTooLarge = true) :
    execInsert s = .next { s with st := 0x06#8 } :=
  (if_neg (by simp [h])).trans (if_pos hl)

theorem execInsert_of_fitting (h : s.insertOperandsOk = true) (hl : ¬ s.insertTooLarge = true) :
    execInsert s = complete .ok (s.inserted (if s.diskPresent then s.ejected else s)) :=
  (if_neg (by simp [h])).trans (if_neg hl)

/-! ### The line that `EJECT` drives low (R183, 60_exceptions.md R206) -/

theorem State.ejected_edges (s : State) :
    s.ejected.edges = if s.idx then s.edges ++ [{ level := false, time := none }] else s.edges := by
  show (if false = s.idx then s.edges else s.edges ++ [{ level := false, time := none }]) = _
  cases s.idx <;> rfl

/-- The state with no disk bound: R31's empty values, the line and its timer cleared. -/
theorem State.ejected_eq (s : State) :
    s.ejected = { s with
      diskPresent := false, props := Props.none, allocTracks := 0, allocSides := 0, trk := [], rawsec := [], wp := false
      dirtyLoad := false, dirtyRestore := false, imgChanged := true, door := true, cache := { s.cache with valid := false }
      ready := false, readyCnt := 0, idx := false
      edges := if s.idx then s.edges ++ [{ level := false, time := none }] else s.edges, idxTimer := never } := by
  rw [← State.ejected_edges]
  rfl

/-- A disk bound over the one before, if there is one: what the two parts of the command leave together. -/
theorem State.inserted_eq (s : State) :
    s.inserted (if s.diskPresent then s.ejected else s) = { s with
      diskPresent := true, props := s.insertProps, allocTracks := low32 s.x.x2, allocSides := low32 s.x.x3, trk := [], rawsec := []
      wp := boolOperand s.x.x0, dirtyLoad := false, dirtyRestore := false, imgChanged := true, door := true
      cache := { s.cache with valid := false }
      ready := s.ready && !s.motor && !s.diskPresent
      readyCnt := if s.motor then 2 else if s.diskPresent then 0 else s.readyCnt
      idx := s.idx && !s.diskPresent
      edges := if s.idx && s.diskPresent then s.edges ++ [{ level := false, time := none }] else s.edges
      idxTimer := if s.diskPresent then never else s.idxTimer } := by
  cases hd : s.diskPresent with
  | false =>
    cases hm : s.motor <;> simp [State.inserted, State.dropCache, hm]
  | true =>
    cases hm : s.motor <;> simp [State.inserted, State.dropCache, State.ejected_eq, hm]

/-- Settles O56: the checks of `INSERT` in order and then the disk that it binds; of `EJECT` the check and then the empty values. -/
theorem insertAndEject : Obligations.InsertAndEject := by
  intro s good hgood
  rw [← s.insertOperandsOk_iff] at hgood
  refine ⟨fun hbad => execInsert_of_bad (hgood.not.mp hbad),
    fun hok hl => execInsert_of_tooLarge (hgood.mp hok) (s.insertTooLarge_iff.mpr hl), fun hok hsides htracks => ?insert,
    fun hd => noDisk_of_check hd, fun hd => ?eject⟩
  case insert =>
    have hl : ¬ s.insertTooLarge = true := by
      rw [s.insertTooLarge_iff]
      omega
    refine (execInsert_of_fitting (hgood.mp hok) hl).trans ?_
    rw [State.inserted_eq]
    rfl
  case eject =>
    refine (of_diskCheck hd).trans ?_
    rw [State.ejected_eq]
    rfl

end Sys2Proof.Machine
end

section
/-!
PROOFS. 45_cell_buffer.md R184 to R191: the commands on one track, on the number of tracks and on the sectors of a raw medium.
-/

namespace Sys2Proof.Machine

variable {s : State}

/-! ### Whether a track is formatted (R188) -/

/-- A list with a `Flux` event is not empty, so the model's first test adds nothing to the second. -/
theorem formatted_eq (L : List Word32) : (!L.isEmpty && hasTag .flux L) = hasTag .flux L := by
  cases L <;> rfl

theorem execTrackIsFormatted_of_allocated (hd : s.diskPresent = true) (hin : s.inStore s.x.x0.toNat s.x.x1.toNat = true) {b : Bool}
    (hb : hasTag .flux (s.buf s.x.x0.toNat s.x.x1.toNat) = b) :
    execTrackIsFormatted s = complete .ok (s.setReg 0 (bitWord b)) := by
  rw [← hb, ← formatted_eq]
  exact of_trackChecks hd hin

/-! ### The actual geometry (R189) -/

theorem lt_foldl_max_iff {k a : Nat} {l : List Nat} : k < l.foldl max a ↔ k < a ∨ ∃ n ∈ l, k < n := by
  induction l generalizing a with
  | nil => simp
  | cons n l ih => rw [List.foldl_cons, ih, lt_max_iff, List.exists_mem_cons_iff, or_assoc]

theorem lt_topCount_iff {k : Nat} {l : List Nat} : k < topCount l ↔ ∃ n ∈ l, k ≤ n := by
  simp [topCount, lt_foldl_max_iff]

/-- The count is one more than a number of the list, unless it is 0. -/
theorem mem_of_topCount_eq_succ {k : Nat} {l : List Nat} (h : topCount l = k + 1) : k ∈ l := by
  obtain ⟨n, hn, hle⟩ := lt_topCount_iff.mp (show k < topCount l by omega)
  have hnot : ¬ k + 1 ≤ n := fun hlt => by
    have := lt_topCount_iff.mpr ⟨n, hn, hlt⟩
    omega
  obtain rfl : k = n := by omega
  exact hn

/-- The count of numbers that 32 bits hold is what the operand register holds. -/
theorem toNat_countWord_topCount {l : List Nat} (h : ∀ n ∈ l, n < 2 ^ 32) : (countWord (topCount l)).toNat = topCount l := by
  have hle : ¬ 2 ^ 32 < topCount l := fun hlt => by
    obtain ⟨n, hn, hge⟩ := lt_topCount_iff.mp hlt
    exact absurd (h n hn) (by omega)
  rw [countWord, BitVec.toNat_ofNat]
  omega

/-- The keys are those of the allocated tracks whose list is not empty. -/
theorem State.mem_nonEmptyKeys (hm : Memory.wf s = true) (k : Nat) :
    k ∈ s.nonEmptyKeys ↔ s.inStore (keyCyl k) (keyHead k) = true ∧ s.buf (keyCyl k) (keyHead k) ≠ [] := by
  have hwf := ((Memory.wf_iff s).mp hm).1
  have hbuf : s.buf (keyCyl k) (keyHead k) = (Sparse.get Track.empty s.trk k).events := by
    rw [State.buf, State.trackAt, trackKey_of_key]
  simp only [State.nonEmptyKeys, List.mem_map, List.mem_filter, Bool.and_eq_true, Bool.not_eq_true', List.isEmpty_eq_false_iff, hbuf]
  constructor
  · rintro ⟨e, ⟨he, hin, hne⟩, rfl⟩
    rw [(Sparse.get_of_mem hwf he).1]
    exact ⟨hin, hne⟩
  · rintro ⟨hin, hne⟩
    have hget : Sparse.get Track.empty s.trk k ≠ Track.empty := fun h => hne (by rw [h]; rfl)
    exact ⟨_, ⟨Sparse.mem_of_get hget, hin, hne⟩, rfl⟩

theorem State.trackKey_mem_nonEmptyKeys (hm : Memory.wf s = true) {c h : Nat} (hc : c < s.allocTracks.toNat)
    (hh : h < s.allocSides.toNat) (hne : s.buf c h ≠ []) : trackKey c h ∈ s.nonEmptyKeys := by
  have hh32 : h < 2 ^ 32 := hh.trans s.allocSides.isLt
  rw [State.mem_nonEmptyKeys hm, keyCyl_trackKey hh32, keyHead_trackKey hh32]
  exact ⟨(s.inStore_iff c h).mpr ⟨hc, hh⟩, hne⟩

theorem State.mem_cylinders (hm : Memory.wf s = true) (c : Nat) :
    c ∈ s.nonEmptyKeys.map keyCyl ↔ c < s.allocTracks.toNat ∧ ∃ h < s.allocSides.toNat, s.buf c h ≠ [] := by
  constructor
  · intro hc
    obtain ⟨k, hk, rfl⟩ := List.mem_map.mp hc
    obtain ⟨hin, hne⟩ := (State.mem_nonEmptyKeys hm k).mp hk
    obtain ⟨hc, hh⟩ := (s.inStore_iff _ _).mp hin
    exact ⟨hc, _, hh, hne⟩
  · rintro ⟨hc, h, hh, hne⟩
    exact List.mem_map.mpr ⟨_, State.trackKey_mem_nonEmptyKeys hm hc hh hne, keyCyl_trackKey (hh.trans s.allocSides.isLt)⟩

theorem State.mem_heads (hm : Memory.wf s = true) (h : Nat) :
    h ∈ s.nonEmptyKeys.map keyHead ↔ h < s.allocSides.toNat ∧ ∃ c < s.allocTracks.toNat, s.buf c h ≠ [] := by
  constructor
  · intro hh
    obtain ⟨k, hk, rfl⟩ := List.mem_map.mp hh
    obtain ⟨hin, hne⟩ := (State.mem_nonEmptyKeys hm k).mp hk
    obtain ⟨hc, hh⟩ := (s.inStore_iff _ _).mp hin
    exact ⟨hh, _, hc, hne⟩
  · rintro ⟨hh, c, hc, hne⟩
    exact List.mem_map.mpr ⟨_, State.trackKey_mem_nonEmptyKeys hm hc hh hne, keyHead_trackKey (hh.trans s.allocSides.isLt)⟩

/-- Settles O57: each command is its checks and then what it reads; the two counts of `ACTUAL_GEOMETRY` are those of the cylinders and of
the heads of the tracks that are not empty. -/
theorem trackReads : Obligations.TrackReads := by
  rintro s c h rfl rfl
  refine ⟨fun hd => ⟨noDisk_of_check hd, noDisk_of_check hd, noDisk_of_check hd⟩,
    fun hd hout => ?range, fun hd hc hh => ?track, fun hd hinv => ?geometry⟩
  case range =>
    have ht := (s.inStore_eq_false_iff _ _).mpr hout
    exact ⟨trackRange_of_checks hd ht, trackRange_of_checks hd ht⟩
  case track =>
    have hin := (s.inStore_iff _ _).mpr ⟨hc, hh⟩
    refine ⟨?buffer, fun hflux => execTrackIsFormatted_of_allocated hd hin ((hasTag_iff _ _).mpr hflux), fun hnone => ?noFlux⟩
    case buffer =>
      refine (of_trackChecks hd hin).trans ?_
      rfl
    case noFlux =>
      refine execTrackIsFormatted_of_allocated hd hin (b := false) ?_
      rw [← Bool.not_eq_true, hasTag_iff]
      exact fun ⟨e, he, hflux⟩ => hnone e he hflux
  case geometry =>
    have hm := hinv.memory
    have hcyl : (countWord (topCount (s.nonEmptyKeys.map keyCyl))).toNat = topCount (s.nonEmptyKeys.map keyCyl) :=
      toNat_countWord_topCount fun n hn => ((State.mem_cylinders hm n).mp hn).1.trans s.allocTracks.isLt
    have hhead : (countWord (topCount (s.nonEmptyKeys.map keyHead))).toNat = topCount (s.nonEmptyKeys.map keyHead) :=
      toNat_countWord_topCount fun n hn => ((State.mem_heads hm n).mp hn).1.trans s.allocSides.isLt
    refine ⟨_, of_diskCheck hd, rfl, fun c h hc hh hne => ⟨?_, ?_⟩, fun k hk => ?_, fun k hk => ?_⟩
    · exact (lt_topCount_iff.mpr ⟨c, (State.mem_cylinders hm c).mpr ⟨hc, h, hh, hne⟩, le_rfl⟩).trans_eq hcyl.symm
    · exact (lt_topCount_iff.mpr ⟨h, (State.mem_heads hm h).mpr ⟨hh, c, hc, hne⟩, le_rfl⟩).trans_eq hhead.symm
    · exact ((State.mem_cylinders hm k).mp (mem_of_topCount_eq_succ (hcyl.symm.trans hk))).2
    · exact ((State.mem_heads hm k).mp (mem_of_topCount_eq_succ (hhead.symm.trans hk))).2

/-! ### `PUT_BUFFER` and `RESIZE_TRACKS` (R185, R186) -/

theorem execPutBuffer_of_splice (hd : s.diskPresent = true) (hin : s.inStore s.x.x0.toNat s.x.x1.toNat = true)
    (hp : revUnits ≤ s.x.x2.toNat) : execPutBuffer s = .next (s.faulted .operand 0) :=
  (of_trackChecks hd hin).trans (if_pos hp)

theorem execPutBuffer_of_cells (hd : s.diskPresent = true) (hin : s.inStore s.x.x0.toNat s.x.x1.toNat = true)
    (hp : s.x.x2.toNat < revUnits) (hwf : wfTrack s.tl = false) :
    execPutBuffer s = .next (s.faulted .cells 0) :=
  (of_trackChecks hd hin).trans ((if_neg (Nat.not_le.mpr hp)).trans (if_pos (by rw [hwf]; rfl)))

theorem execPutBuffer_of_ok (hd : s.diskPresent = true) (hin : s.inStore s.x.x0.toNat s.x.x1.toNat = true)
    (hp : s.x.x2.toNat < revUnits) (hwf : wfTrack s.tl = true) :
    execPutBuffer s = .next (s.generated s.x.x0.toNat s.x.x1.toNat s.cl s.tl s.x.x2.toNat) := by
  refine (of_trackChecks hd hin).trans ((if_neg (Nat.not_le.mpr hp)).trans ((if_neg (by simp [hwf])).trans ?_))
  simp [complete, State.withStatus, State.dropCache, State.markDirty, State.writeTrack, State.setTrack, statusCode,
    State.generated, unsignedOperand]

/-- The store with `n` tracks that `RESIZE_TRACKS` leaves. -/
def State.resized (s : State) (n : Word32) : State :=
  { s.dropCache with trk := s.trk.filter (fun e => decide (keyCyl e.1 < s.allocTracks.toNat)), allocTracks := n }

theorem execResizeTracks_of_more (hd : s.diskPresent = true) (h32 : s.x.x0.toNat < 2 ^ 32)
    (hmore : s.allocTracks.toNat < s.x.x0.toNat) : execResizeTracks s = complete .ok (s.resized (low32 s.x.x0)) :=
  (of_diskCheck hd).trans ((if_neg (Nat.not_le.mpr h32)).trans (if_neg (Nat.not_le.mpr hmore)))

/-- The old tracks stay, and every other one is empty. -/
theorem State.trackAt_resized (s : State) (n : Word32) {c h : Nat} (hh : h < 2 ^ 32) :
    (s.resized n).trackAt c h = if c < s.allocTracks.toNat then s.trackAt c h else Track.empty := by
  have hget := Sparse.get_filter Track.empty (fun a => decide (keyCyl a < s.allocTracks.toNat)) s.trk (trackKey c h)
  simp only [keyCyl_trackKey hh, decide_eq_true_eq] at hget
  exact hget

/-- Settles O58: the branches of the two commands in order, with the tracks that the store holds after them. -/
theorem trackWrites : Obligations.TrackWrites := by
  rintro s c h rfl rfl
  refine ⟨fun hd => ⟨noDisk_of_check hd, noDisk_of_check hd⟩,
    fun hd hout => trackRange_of_checks hd ((s.inStore_eq_false_iff _ _).mpr hout), fun hd hc hh => ?put,
    fun hd hlarge => ?large, fun hd hle => ?ignored, fun hd hmore h32 => ?resize⟩
  case put =>
    have hin := (s.inStore_iff _ _).mpr ⟨hc, hh⟩
    refine ⟨execPutBuffer_of_splice hd hin, execPutBuffer_of_cells hd hin, fun hp hwf hm => ?_⟩
    exact ⟨_, execPutBuffer_of_ok hd hin hp hwf, State.generated_spec hm hh s.cl s.tl s.x.x2.toNat⟩
  case large => exact (of_diskCheck hd).trans (if_pos hlarge)
  case ignored =>
    have h32 : s.x.x0.toNat < 2 ^ 32 := hle.trans_lt s.allocTracks.isLt
    exact (of_diskCheck hd).trans ((if_neg (Nat.not_le.mpr h32)).trans (if_pos hle))
  case resize =>
    exact ⟨_, execResizeTracks_of_more hd h32 hmore, rfl, toNat_low32 h32,
      fun c' h' hc' hh' => (s.trackAt_resized (low32 s.x.x0) hh').trans (if_pos hc'),
      fun c' h' hc' hh' => (s.trackAt_resized (low32 s.x.x0) hh').trans (if_neg (Nat.not_lt.mpr hc'))⟩

/-! ### Sectors of a raw medium (R190, R191) -/

theorem State.sectorInRange_iff (s : State) :
    s.sectorInRange = true ↔ s.x.x0.toNat < s.props.tracks.toNat ∧ s.x.x1.toNat < s.props.sides.toNat ∧ 1 ≤ s.x.x2.toNat
      ∧ s.x.x2.toNat ≤ s.props.spt.toNat ∧ s.x.x3.toNat ≤ s.props.secsize.toNat := by
  simp [State.sectorInRange, and_assoc]

/-- A flux medium has no sectors. -/
theorem notImplemented_of_flux {o : Outcome} (hd : s.diskPresent = true) (hk : s.props.kind = false) :
    (if !s.diskPresent then complete .noDisk s else if !s.props.kind then complete .notImplemented s else o)
      = .next { s with st := 0x02#8 } :=
  (of_diskCheck hd).trans (if_pos (by rw [hk]; rfl))

/-- The checks that the two sector commands begin with, on a raw medium. -/
theorem of_sectorChecks {o o₁ o₂ : Outcome} (hd : s.diskPresent = true) (hk : s.props.kind = true) :
    (if !s.diskPresent then o₁ else if !s.props.kind then o₂ else if !s.sectorInRange then raiseFault .operand 0 s else o)
      = if s.sectorInRange then o else .next (s.faulted .operand 0) := by
  rw [of_diskCheck hd, hk]
  cases s.sectorInRange <;> rfl

theorem execReadSector_of_inRange (hd : s.diskPresent = true) (hk : s.props.kind = true) (hr : s.sectorInRange = true) :
    execReadSector s = complete .ok ({ s with bytes := s.rawRead s.sectorOffset s.x.x3.toNat }.setReg 0 s.x.x3) :=
  (of_sectorChecks hd hk).trans (if_pos hr)

theorem execWriteSector_of_inRange (hd : s.diskPresent = true) (hk : s.props.kind = true) (hr : s.sectorInRange = true) :
    execWriteSector s
      = if s.bytes.length < s.x.x3.toNat then .next (s.faulted .bounds 0)
        else if s.wp then .next { s with st := 0x01#8 }
        else complete .ok (s.rawWrite s.sectorOffset (s.bytes.take s.x.x3.toNat)).markDirty :=
  (of_sectorChecks hd hk).trans (if_pos hr)

/-- Settles O59: the checks of the two commands in order, then the bytes at the sector's offset. -/
theorem sectorCommands : Obligations.SectorCommands := by
  rintro s c h r len off rfl rfl rfl rfl rfl
  refine ⟨fun hd => ⟨noDisk_of_check hd, noDisk_of_check hd⟩,
    fun hd hk => ⟨notImplemented_of_flux hd hk, notImplemented_of_flux hd hk⟩, fun hd hk hbad => ?operand,
    fun hd hk hc hh h1 hs hl => ?inRange⟩
  case operand =>
    have hr : ¬ s.sectorInRange = true := by
      rw [s.sectorInRange_iff]
      omega
    exact ⟨(of_sectorChecks hd hk).trans (if_neg hr), (of_sectorChecks hd hk).trans (if_neg hr)⟩
  case inRange =>
    have hr : s.sectorInRange = true := s.sectorInRange_iff.mpr ⟨hc, hh, h1, hs, hl⟩
    have hwrite := execWriteSector_of_inRange hd hk hr
    refine ⟨?read, fun hshort => hwrite.trans (if_pos hshort),
      fun hlong hwp => hwrite.trans ((if_neg (Nat.not_lt.mpr hlong)).trans (if_pos hwp)), fun hlong hwp hm => ?write⟩
    case read =>
      exact ⟨_, execReadSector_of_inRange hd hk hr, rfl, Sparse.length_read _ _ _ _, fun j hj => Sparse.getElem?_read _ _ _ _ _ hj⟩
    case write =>
      have hlen : (s.bytes.take s.x.x3.toNat).length = s.x.x3.toNat := List.length_take_of_le hlong
      refine ⟨_, hwrite.trans ((if_neg (Nat.not_lt.mpr hlong)).trans (if_neg (by simp [hwp]))), rfl, fun j hj => ?inside,
        fun a ha => Sparse.get_write_of_outside _ _ _ _ (by rwa [hlen])⟩
      rw [← List.getElem?_take_of_lt hj]
      exact Sparse.get_write_of_inside ((Memory.wf_iff s).mp hm).2 _ _ (by rwa [hlen])

end Sys2Proof.Machine
end

section
/-!
PROOFS. 45_cell_buffer.md R195 to R197, 20_memory.md R54: the checkpoint stream, written and read back.
-/

namespace Sys2Proof.Machine

variable {s u : State}

/-! ### The tracks of the bound disk, row-major (R195) -/

/-- Every allocated track, in the order of the stream. -/
def State.tracks (s : State) : List Track := s.trackOrder.map fun p => s.trackAt p.1 p.2

theorem State.tracks_eq (s : State) :
    s.tracks = (List.range s.allocTracks.toNat).flatMap fun c => (List.range s.allocSides.toNat).map fun h => s.trackAt c h := by
  simp [State.tracks, State.trackOrder, List.map_flatMap, Function.comp_def]

theorem State.length_tracks (s : State) : s.tracks.length = s.allocTracks.toNat * s.allocSides.toNat := by
  rw [State.tracks, List.length_map, trackOrder_length]

theorem Inv.good_of_mem_tracks (h : Inv s) {r : Track} (hr : r ∈ s.tracks) : r.good := by
  obtain ⟨p, -, rfl⟩ := List.mem_map.mp hr
  exact h.trackAt _ _

theorem State.trackOrder_congr (ht : u.allocTracks = s.allocTracks) (hs : u.allocSides = s.allocSides) :
    u.trackOrder = s.trackOrder := by
  rw [State.trackOrder, State.trackOrder, ht, hs]

/-! ### The bytes that `SAVE_STATE` writes (R195) -/

theorem State.checkpoint_eq (s : State) : s.checkpoint = streamBytes s.dirtyLoad s.tracks := by
  rw [streamBytes, State.tracks, List.flatMap_map]
  simp only [← trackRecord_eq]
  rfl

theorem State.length_checkpoint (s : State) :
    s.checkpoint.length = 1 + ((List.range s.allocTracks.toNat).map fun c =>
      ((List.range s.allocSides.toNat).map fun h => 13 + 4 * (s.buf c h).length).sum).sum := by
  rw [State.checkpoint, List.length_cons, Nat.add_comm, State.trackOrder, List.flatMap_assoc]
  simp only [List.flatMap_map, List.length_flatMap, length_trackRecord]
  rfl

/-! ### No stream is a proper start of another one -/

/-- Records of as many good tracks use the whole of a stream that begins with them. -/
theorem eq_nil_of_flatMap_records {tracks tracks' : List Track} (hl : tracks.length = tracks'.length) (hg : ∀ r ∈ tracks, r.good)
    (hg' : ∀ r ∈ tracks', r.good) {extra : List Byte}
    (he : tracks.flatMap trackRecord ++ extra = tracks'.flatMap trackRecord) : extra = [] := by
  induction tracks generalizing tracks' with
  | nil =>
    obtain rfl := List.length_eq_zero_iff.mp hl.symm
    exact he
  | cons r tracks ih =>
    cases tracks' with
    | nil => cases hl
    | cons r' tracks' =>
      rw [List.flatMap_cons, List.flatMap_cons, List.append_assoc] at he
      have hparse := congrArg parseTrack he
      rw [parseTrack_trackRecord (hg r List.mem_cons_self), parseTrack_trackRecord (hg' r' List.mem_cons_self)] at hparse
      exact ih (Nat.succ.inj hl) (fun q hq => hg q (List.mem_cons_of_mem _ hq)) (fun q hq => hg' q (List.mem_cons_of_mem _ hq))
        (Prod.mk.inj (Option.some.inj hparse)).2

theorem eq_nil_of_streamBytes_append {dirty dirty' : Bool} {tracks tracks' : List Track} (hl : tracks.length = tracks'.length)
    (hg : ∀ r ∈ tracks, r.good) (hg' : ∀ r ∈ tracks', r.good) {extra : List Byte}
    (he : streamBytes dirty tracks ++ extra = streamBytes dirty' tracks') : extra = [] := by
  have hrec : recordBytes = trackRecord := funext fun r => (trackRecord_eq r).symm
  rw [streamBytes, streamBytes, hrec] at he
  exact eq_nil_of_flatMap_records hl hg hg' (List.cons.inj he).2

/-! ### The store that `LOAD_STATE` builds (R197) -/

/-- An allocated track is the one at its place in the stream. -/
theorem State.getElem?_of_stored (s : State) {tracks : List Track} (hl : tracks.length = s.allocTracks.toNat * s.allocSides.toNat)
    {c h : Nat} (hc : c < s.allocTracks.toNat) (hh : h < s.allocSides.toNat) :
    tracks[c * s.allocSides.toNat + h]?
      = some (Sparse.get Track.empty (storeTracks [] s.trackOrder tracks) (trackKey c h)) := by
  have hwf : Sparse.wf Track.empty [] = true := rfl
  have hget := get_storeTracks hwf (hl.trans (trackOrder_length s).symm) (nodup_trackOrder s) (getElem?_trackOrder s hc hh)
  exact hget

/-- Every other track is empty. -/
theorem State.get_stored_outside (s : State) (tracks : List Track) {c h : Nat} (hh : h < 2 ^ 32) (hout : s.inStore c h = false) :
    Sparse.get Track.empty (storeTracks [] s.trackOrder tracks) (trackKey c h) = Track.empty := by
  refine get_storeTracks_of_not_mem _ _ _ _ fun p hp hkey => ?_
  have hin := State.inStore_of_mem_trackOrder hp
  obtain ⟨rfl, rfl⟩ := trackKey_inj (((s.inStore_iff _ _).mp hin).2.trans s.allocSides.isLt) hh hkey
  rw [hout] at hin
  cases hin

/-- The tracks of a machine in its invariant, put at their places, are its whole store. -/
theorem Inv.storeTracks_tracks (h : Inv s) : storeTracks [] s.trackOrder s.tracks = s.trk := by
  refine Sparse.ext (wf_storeTracks rfl _ _) ((Memory.wf_iff s).mp h.memory).1 fun a => ?_
  obtain ⟨c, k, hk, rfl⟩ : ∃ c k, k < 2 ^ 32 ∧ a = trackKey c k :=
    ⟨keyCyl a, keyHead a, Nat.mod_lt _ (by decide), (trackKey_of_key a).symm⟩
  change _ = s.trackAt c k
  cases hin : s.inStore c k with
  | false => rw [s.get_stored_outside _ hk hin, h.trackAt_outside hk hin]
  | true =>
    obtain ⟨hc, hs⟩ := (s.inStore_iff c k).mp hin
    have hget := s.getElem?_of_stored s.length_tracks hc hs
    rw [State.tracks, List.getElem?_map, getElem?_trackOrder s hc hs] at hget
    exact (Option.some.inj hget).symm

/-! ### The outcomes of `LOAD_STATE` (R197) -/

theorem execLoadState_of_some (hd : u.diskPresent = true) {dirty : Bool} {m : Sparse Track}
    (hp : u.parseCheckpoint = some (dirty, m)) :
    execLoadState u = .next { u with
      trk := m, dirtyLoad := dirty, dirtyRestore := false, imgChanged := true, cache := { u.cache with valid := false }
      st := 0x00 } := by
  refine (of_diskCheck hd).trans ?_
  rw [hp]
  rfl

theorem execLoadState_of_none (hd : u.diskPresent = true) (hp : u.parseCheckpoint = none) :
    execLoadState u = .next { u with st := 0x05 } := by
  refine (of_diskCheck hd).trans ?_
  rw [hp]
  rfl

theorem execLoadState_of_stream (hd : u.diskPresent = true) {dirty : Bool} {tracks : List Track}
    (hl : tracks.length = u.allocTracks.toNat * u.allocSides.toNat) (hg : ∀ r ∈ tracks, r.good)
    (hckp : u.ckp = streamBytes dirty tracks) :
    execLoadState u = .next { u with
      trk := storeTracks [] u.trackOrder tracks, dirtyLoad := dirty, dirtyRestore := false, imgChanged := true
      cache := { u.cache with valid := false }, st := 0x00 } :=
  execLoadState_of_some hd ((parseCheckpoint_iff u dirty _).mpr ⟨tracks, hl, hg, hckp, rfl⟩)

theorem execLoadState_of_no_stream (hd : u.diskPresent = true)
    (hno : ∀ (dirty : Bool) (tracks : List Track), tracks.length = u.allocTracks.toNat * u.allocSides.toNat →
      (∀ r ∈ tracks, r.good) → u.ckp ≠ streamBytes dirty tracks) :
    execLoadState u = .next { u with st := 0x05 } := by
  refine execLoadState_of_none hd (Option.eq_none_iff_forall_ne_some.mpr fun ⟨dirty, m⟩ hp => ?_)
  obtain ⟨tracks, hl, hg, hckp, -⟩ := (parseCheckpoint_iff u dirty m).mp hp
  exact hno dirty tracks hl hg hckp

/-- The stream of a machine in its invariant is loaded back. -/
theorem Inv.execLoadState_checkpoint (h : Inv s) (hd : u.diskPresent = true) (ht : u.allocTracks = s.allocTracks)
    (hs : u.allocSides = s.allocSides) (hckp : u.ckp = s.checkpoint) :
    execLoadState u = .next { u with
      trk := s.trk, dirtyLoad := s.dirtyLoad, dirtyRestore := false, imgChanged := true
      cache := { u.cache with valid := false }, st := 0x00 } := by
  have hload := execLoadState_of_stream hd (by rw [s.length_tracks, ht, hs]) (fun r hr => h.good_of_mem_tracks hr)
    (hckp.trans s.checkpoint_eq)
  rwa [State.trackOrder_congr ht hs, h.storeTracks_tracks] at hload

/-- A stream with bytes after it, or cut short, is no stream of the disk's geometry. -/
theorem Inv.execLoadState_mismatch (h : Inv s) (hd : u.diskPresent = true) (ht : u.allocTracks = s.allocTracks)
    (hs : u.allocSides = s.allocSides) {extra : List Byte} (hne : extra ≠ [])
    (hckp : u.ckp = s.checkpoint ++ extra ∨ u.ckp ++ extra = s.checkpoint) :
    execLoadState u = .next { u with st := 0x05 } := by
  refine execLoadState_of_no_stream hd fun dirty tracks hl hg he => hne ?_
  have hlen : tracks.length = s.tracks.length := by rw [hl, s.length_tracks, ht, hs]
  have hgood : ∀ r ∈ s.tracks, r.good := fun r hr => h.good_of_mem_tracks hr
  rw [he, s.checkpoint_eq] at hckp
  rcases hckp with hlong | hshort
  · exact eq_nil_of_streamBytes_append hlen.symm hgood hg hlong.symm
  · exact eq_nil_of_streamBytes_append hlen hg hgood hshort

/-- Settles O60: the stream is the bytes of `State.tracks`; what `LOAD_STATE` accepts is `parseCheckpoint_iff`, and the store that it builds
of a machine's own tracks is that machine's. -/
theorem saveThenLoadRestores : Obligations.SaveThenLoadRestores := by
  refine ⟨fun s hinv hd => ?saved, fun u hd => ⟨fun dirty tracks hl hg hckp => ?accepted, fun hno => ?rejected⟩⟩
  case saved =>
    refine ⟨_, of_diskCheck hd, rfl, s.tracks_eq ▸ s.checkpoint_eq, s.length_checkpoint,
      fun u hu ht hs hckp => hinv.execLoadState_checkpoint hu ht hs hckp, fun u extra n hu ht hs hbad => ?_⟩
    rcases hbad with ⟨hne, hlong⟩ | ⟨hn, hshort⟩
    · exact hinv.execLoadState_mismatch hu ht hs hne (.inl hlong)
    · refine hinv.execLoadState_mismatch hu ht hs (extra := s.checkpoint.drop n) ?_ (.inr ?_)
      · exact List.ne_nil_of_length_pos (by rw [List.length_drop]; exact Nat.sub_pos_of_lt hn)
      · rw [hshort]
        exact List.take_append_drop n s.checkpoint
  case accepted =>
    exact ⟨_, execLoadState_of_stream hd hl hg hckp, rfl, fun c h hc hh => u.getElem?_of_stored hl hc hh,
      fun c h hh hout => u.get_stored_outside tracks hh ((u.inStore_eq_false_iff c h).mpr hout)⟩
  case rejected =>
    exact execLoadState_of_no_stream hd fun dirty tracks hl hg hckp => hno ⟨dirty, tracks, hl, hg, hckp⟩

end Sys2Proof.Machine
end

section
/-!
PROOFS. 60_exceptions.md R200, R204, R206: what a command that faults and one that ends with a status leave, and the index events.
-/

namespace Sys2Proof.Machine

variable {s t : State}

/-! ### How a command ends (R200, R204) -/

/-- No command ends with `REFUSED`, which is the answer to a word that is not run (R205). -/
theorem Shape.exists_status {done : Prop} (h : Shape s t done) : ∃ st : Status, st ≠ .refused ∧ t.st = statusCode st := by
  obtain ⟨code, info, rfl⟩ | ⟨st, hmem, rfl⟩ | ⟨hst, -⟩ := h
  · exact ⟨.faulted, nofun, rfl⟩
  · exact ⟨st, fun he => by simp [he] at hmem, rfl⟩
  · exact ⟨.ok, nofun, hst⟩

/-- `FAULTED` is the status of a fault alone. -/
theorem Shape.eq_faulted {done : Prop} (h : Shape s t done) (hst : t.st = statusCode .faulted) :
    ∃ (code : FaultCode) (info : Word64), t = s.faulted code info := by
  obtain hfault | ⟨st, hmem, rfl⟩ | ⟨hok, -⟩ := h
  · exact hfault
  · simp [statusCode_injective hst] at hmem
  · cases statusCode_injective (hst.symm.trans hok : statusCode .faulted = statusCode .ok)

/-- A status that is neither `OK` nor `FAULTED` is the command's one write. -/
theorem Shape.eq_status {done : Prop} (h : Shape s t done) (hok : t.st ≠ statusCode .ok) (hfault : t.st ≠ statusCode .faulted) :
    t = { s with st := t.st } := by
  obtain ⟨code, info, rfl⟩ | ⟨st, -, rfl⟩ | ⟨hst, -⟩ := h
  · exact absurd rfl hfault
  · rfl
  · exact absurd hst hok

/-- Settles O14: a command that ends with `FAULTED` has taken a fault, from the state it began in. -/
theorem faultIsAtomic : Obligations.FaultIsAtomic :=
  fun _ _ _ hc h hst => (exec_shape hc h).eq_faulted hst

/-- Settles O15: the statuses a command can end with, and the one write of those that are neither `OK` nor `FAULTED`. -/
theorem statusChangesOnlySt : Obligations.StatusChangesOnlySt := by
  intro i s t hc h
  have hshape := exec_shape hc h
  refine ⟨?codes, hshape.eq_status⟩
  obtain ⟨st, hne, hst⟩ := hshape.exists_status
  rw [hst]
  cases st with
  | refused => exact absurd rfl hne
  | _ => simp [statusCode]

/-! ### The index events (R206) -/

/-- Between `s` and `t` one event with the line's new level is delivered where the line changes, and none where it does not. -/
def EdgesFollowLine (time : Option Word64) (s t : State) : Prop :=
  t.edges = if t.idx = s.idx then s.edges else s.edges ++ [{ level := t.idx, time := time }]

theorem edgesFollowLine_of_unchanged (time : Option Word64) (hi : t.idx = s.idx) (he : t.edges = s.edges) :
    EdgesFollowLine time s t :=
  he.trans (if_pos hi).symm

theorem edgesFollowLine_refl (time : Option Word64) (s : State) : EdgesFollowLine time s s :=
  edgesFollowLine_of_unchanged time rfl rfl

theorem edgesFollowLine_driveIndex (s : State) (level : Bool) (time : Option Word64) :
    EdgesFollowLine time s (s.driveIndex level time) := rfl

theorem edgesFollowLine_resync (s : State) (now : Word64) : EdgesFollowLine (some now) s (s.resync now.toNat) := by
  have hedges := congrArg State.edges (s.resync_frame now.toNat)
  rwa [BitVec.ofNat_toNat, BitVec.setWidth_eq] at hedges

theorem edgesFollowLine_raiseFault (time : Option Word64) {code : FaultCode} {info : Word64}
    (h : raiseFault code info s = .next t) : EdgesFollowLine time s t := by
  rw [raiseFault_eq_next h]
  exact edgesFollowLine_of_unchanged time rfl rfl

/-- A status is not part of what the host is told of the line. -/
theorem EdgesFollowLine.complete {time : Option Word64} {st : Status} {u : State} (hu : EdgesFollowLine time s u)
    (h : complete st u = .next t) : EdgesFollowLine time s t := by
  rw [complete_eq_next h]
  exact hu

/-! ### The four commands that move the line -/

/-- R95: the one event of the command is that of its resynchronisation. -/
theorem execIndexResync_edges (h : execIndexResync s = .next t) : EdgesFollowLine (some s.x.x0) s t := by
  by_cases hx : s.x.x0 = never
  · exact edgesFollowLine_raiseFault _ ((execIndexResync_of_never hx).symm.trans h)
  · exact (edgesFollowLine_resync s s.x.x0).complete ((execIndexResync_of_time hx).symm.trans h)

/-- R92: the motor leaves the line to the resynchronisation that it starts. -/
theorem edgesFollowLine_motorOn (s : State) (now : Word64) :
    EdgesFollowLine (some now) s ((s.motorOn now).resync now.toNat) :=
  edgesFollowLine_resync (s.motorOn now) now

/-- R92: the motor going off drives the line low. -/
theorem edgesFollowLine_motorOff (s : State) (now : Word64) : EdgesFollowLine (some now) s (s.motorOff now) :=
  edgesFollowLine_driveIndex s.dropCache false (some now)

theorem execSetMotor_edges (h : execSetMotor s = .next t) : EdgesFollowLine (some s.x.x1) s t := by
  by_cases hx : s.x.x1 = never
  · exact edgesFollowLine_raiseFault _ ((execSetMotor_of_never hx).symm.trans h)
  by_cases hsame : boolOperand s.x.x0 = s.motor
  · exact (edgesFollowLine_refl _ s).complete ((execSetMotor_same hx hsame).symm.trans h)
  cases hm : s.motor with
  | false =>
    have hon : boolOperand s.x.x0 = true := by simpa [hm] using hsame
    exact (edgesFollowLine_motorOn s s.x.x1).complete ((execSetMotor_on hx hon hm).symm.trans h)
  | true =>
    have hoff : boolOperand s.x.x0 = false := by simpa [hm] using hsame
    exact (edgesFollowLine_motorOff s s.x.x1).complete ((execSetMotor_off hx hoff hm).symm.trans h)

/-- R183: the index line of a removed disk is driven low, at no time. -/
theorem edgesFollowLine_ejected (s : State) : EdgesFollowLine none s s.ejected :=
  edgesFollowLine_driveIndex s.emptyDisk.dropCache false none

theorem execEject_edges (h : execEject s = .next t) : EdgesFollowLine none s t := by
  cases hd : s.diskPresent with
  | false =>
    cases (noDisk_of_check hd).symm.trans h
    exact edgesFollowLine_of_unchanged none rfl rfl
  | true => exact (edgesFollowLine_ejected s).complete ((of_diskCheck hd).symm.trans h)

/-- R182: binding a disk moves the line only where the disk before it is ejected first. -/
theorem edgesFollowLine_inserted (s : State) :
    EdgesFollowLine none s (s.inserted (if s.diskPresent then s.ejected else s)) := by
  cases s.diskPresent with
  | false => exact edgesFollowLine_refl none s
  | true => exact edgesFollowLine_ejected s

theorem execInsert_edges (h : execInsert s = .next t) : EdgesFollowLine none s t := by
  by_cases hok : s.insertOperandsOk = true
  · by_cases hl : s.insertTooLarge = true
    · cases (execInsert_of_tooLarge hok hl).symm.trans h
      exact edgesFollowLine_of_unchanged none rfl rfl
    · exact (edgesFollowLine_inserted s).complete ((execInsert_of_fitting hok hl).symm.trans h)
  · exact edgesFollowLine_raiseFault none ((execInsert_of_bad hok).symm.trans h)

/-! ### Every instruction -/

/-- Every instruction but the four that move the line leaves it and the events as they are. -/
theorem exec_line_of_still {i : Instr} (hm : movesIndexLine i = false) (h : exec i s = .next t) :
    t.idx = s.idx ∧ t.edges = s.edges := by
  obtain ⟨-, hedges, hidx, -⟩ : t.timerMissed = s.timerMissed ∧ t.edges = s.edges ∧ t.idx = s.idx
      ∧ t.readyCnt = s.readyCnt ∧ t.ready = s.ready := by
    simpa [State.indexView] using exec_indexView hm h
  exact ⟨hidx, hedges⟩

/-- Settles O17: the four commands that move the line by what each does to it, every other instruction because it leaves the line alone. -/
theorem indexEdgeFollowsLine : Obligations.IndexEdgeFollowsLine := by
  rintro i s t _ h rfl
  refine ⟨?edges, fun hresync hmotor heject hinsert =>
    (exec_line_of_still (decide_eq_false (by simp [hresync, hmotor, heject, hinsert])) h).1⟩
  show EdgesFollowLine _ s t
  cases hm : movesIndexLine i with
  | false =>
    obtain ⟨hidx, hedges⟩ := exec_line_of_still hm h
    exact edgesFollowLine_of_unchanged _ hidx hedges
  | true =>
    obtain rfl | rfl | rfl | rfl := of_decide_eq_true hm
    · exact execSetMotor_edges h
    · exact execIndexResync_edges h
    · exact execInsert_edges h
    · exact execEject_edges h

end Sys2Proof.Machine
end

section
/-!
PROOFS. 70_reset_and_hazards.md R215, R216: what the reset leaves, after power-on and after the input.
-/

namespace Sys2Proof.Machine

variable {s : State} {rest : List HostInput}

/-- The reset writes the table of R215, whatever the state and the parameters are. -/
theorem atReset_powerOn (s : State) : AtReset s.powerOn where
  operands := rfl
  status := rfl
  motor := rfl
  epoch := ⟨rfl, rfl, rfl⟩
  index := ⟨rfl, rfl⟩
  ready := ⟨rfl, rfl⟩
  head := ⟨rfl, rfl⟩
  lines := ⟨rfl, rfl⟩
  cache := rfl
  seed := rfl
  disk := ⟨rfl, rfl, rfl, rfl, rfl, rfl, rfl, rfl, rfl⟩
  changed := rfl
  fault := ⟨rfl, rfl, rfl⟩
  scratch := ⟨rfl, rfl, rfl, rfl, rfl, rfl, rfl, rfl⟩
  slots i := Vector.getElem_replicate i.isLt
  interpreter := rfl

/-- The reset changes no parameter (R215). -/
@[simp] theorem State.powerOn_cfg (s : State) : s.powerOn.cfg = s.cfg := rfl

/-- The power-on state is one that the reset leaves as it is. -/
theorem State.powerOn_reset : State.reset.powerOn = State.reset := rfl

/-- An idle machine that takes the input `reset` goes to its power-on state (R216). -/
theorem step_of_reset (hg : s.gen = none) (hi : s.inbox = .reset :: rest) :
    step s = .next { s with inbox := rest }.powerOn :=
  step_of_input_next hg hi rfl

/-- Settles O9: the power-on state and the one that the input `reset` leaves are both left by `powerOn`, which writes the table. -/
theorem resetLeaves : Obligations.ResetLeaves := by
  refine ⟨State.powerOn_reset ▸ atReset_powerOn State.reset, fun s rest hg hi => ?input⟩
  case input =>
    exact ⟨_, step_of_reset hg hi, atReset_powerOn _, State.powerOn_cfg _⟩

end Sys2Proof.Machine
end
